-- ==== Sys2Proof/Word.lean ====
section
/-! DEFINITION. The words of the GK96 and their plainest arithmetic (R6, R7). -/

namespace Sys2Proof

/-- A byte of memory. -/
abbrev Byte := BitVec 8

/-- A word is 4 bytes (R7): a vault word's data, an instruction. -/
abbrev Word := BitVec 32

/-- The contents of an x register (R17). -/
abbrev XWord := BitVec 64

/-- The contents of a w register: 32 bytes (R7, R17). -/
abbrev VWide := BitVec 256

/-- A number read from little-endian bytes (R6). -/
def natOfBytes : List Byte → Nat
  | [] => 0
  | b :: bs => b.toNat + 256 * natOfBytes bs

/-- The low `n` bytes of a number, little-endian (R6). -/
def bytesOfNat : Nat → Nat → List Byte
  | 0, _ => []
  | n + 1, v => BitVec.ofNat 8 v :: bytesOfNat n (v / 256)

/-- Bit `i` of a number. -/
def bitAt (v i : Nat) : Bool := v / 2 ^ i % 2 == 1

/-- Bits [hi:lo] of a number (R6, R8). -/
def bitsOf (v hi lo : Nat) : Nat := v / 2 ^ lo % 2 ^ (hi + 1 - lo)

/-- The `w`-bit number `v` read as a signed number. -/
def signedOf (w v : Nat) : Int :=
  if v % 2 ^ w < 2 ^ (w - 1) then (v % 2 ^ w : Nat) else ((v % 2 ^ w : Nat) : Int) - 2 ^ w

/-- An integer modulo `2 ^ w`. -/
def wrapInt (w : Nat) (i : Int) : Nat := (i % ((2 ^ w : Nat) : Int)).toNat

end Sys2Proof
end

