-- ==== Sys2Proof/Config.lean ====
section
/-! DEFINITION. What the implementation fixes and the specification leaves open: constants without a body, so that
nothing can be proved of their values (log entry 12). -/

namespace Sys2Proof.Config

/-- The cycles beyond one that a step's latencies take (R31: latency never changes a result). -/
opaque stallCycles : Nat → Nat

/-- A byte that the specification leaves undefined, such as an overlapping destination byte of a copy (R165), by the step
and the byte's place. -/
opaque freeByte : Nat → Nat → BitVec 8

/-- An element that the specification leaves undefined, as the bits of an f32, by the step and the two lists of f32
operands it is computed from. -/
opaque freeElement : Nat → List Nat → List Nat → BitVec 32

/-- The line of the object range where the larder would like to put a new object (R278: it chooses), by the step, the
region, the lines at which its objects begin, and the new object's size in lines. -/
opaque larderPlace : Nat → Nat → List Nat → Nat → Nat

/-- How snapshot register 2 of a hall holds the number of fault buffer entries in use and DROP (Table 25.10 gives no
layout). -/
opaque snapLayout : Nat → Bool → BitVec 64

/-- A value of 64 bits that the specification leaves undefined, by the step. -/
opaque freeValue : Nat → BitVec 64

/-- What a threshold core of a hall reads in a system register that tells a core's place or its task's: R30 gives no
values for it. By the step, the hall and the register's number. -/
opaque thresholdReg : Nat → Nat → Nat → BitVec 64

/-- The line, by key id and number, that the L2 slice of a hall gives up as it takes in another, if any (R147 has no replacement
policy). By the step and the hall. -/
opaque evicted : Nat → Nat → Option (Nat × Nat)

end Sys2Proof.Config
end

