-- ==== Sys2Proof/Syntax.lean ====
section
/-! DEFINITION. The instructions of the GK96 and the steps of its engines: one constructor for each row of
spec/opcode_table.json (R43 to R45; 95_what_each_step_holds). The 223 encoded rows carry the operands that R35 gives
them. The 72 rows that no word encodes are steps of the device's other agents. Their operands say which unit takes the
step and what arrives from outside. -/

namespace Sys2Proof

/-- An x or w register number, 0 to 31 (R32). -/
abbrev Reg := Fin 32

/-- The type codes of Table 3.12 (R36), in code order. -/
inductive Ty where
  | i8 | i16 | i32 | i64 | n8 | n16 | n32 | n64 | f64 | f32 | f16 | b16 | e4m3 | e5m2 | q4 | q3
  deriving DecidableEq, Repr

/-- The code of a type (Table 3.12). -/
def Ty.code : Ty → Nat
  | .i8 => 0 | .i16 => 1 | .i32 => 2 | .i64 => 3 | .n8 => 4 | .n16 => 5 | .n32 => 6 | .n64 => 7
  | .f64 => 8 | .f32 => 9 | .f16 => 10 | .b16 => 11 | .e4m3 => 12 | .e5m2 => 13 | .q4 => 14 | .q3 => 15

/-- The type a code names, if it is one (Table 3.12). -/
def Ty.ofCode : Nat → Option Ty
  | 0 => some .i8 | 1 => some .i16 | 2 => some .i32 | 3 => some .i64
  | 4 => some .n8 | 5 => some .n16 | 6 => some .n32 | 7 => some .n64
  | 8 => some .f64 | 9 => some .f32 | 10 => some .f16 | 11 => some .b16
  | 12 => some .e4m3 | 13 => some .e5m2 | 14 => some .q4 | 15 => some .q3
  | _ => none

/-- The scope codes of Table 3.13: the slot and the six tiers of R2. -/
inductive Tier where
  | slot | core | room | hall | wing | house | estate
  deriving DecidableEq, Repr

/-- The code of a scope (Table 3.13). -/
def Tier.code : Tier → Nat
  | .slot => 0 | .core => 1 | .room => 2 | .hall => 3 | .wing => 4 | .house => 5 | .estate => 6

/-- The scope a code names; 7 to 31 are illegal (Table 3.13). -/
def Tier.ofCode : Nat → Option Tier
  | 0 => some .slot | 1 => some .core | 2 => some .room | 3 => some .hall
  | 4 => some .wing | 5 => some .house | 6 => some .estate | _ => none

/-- How many barriers a tier has (R37): none below the room. -/
def Tier.barriers : Tier → Nat
  | .slot => 0 | .core => 0 | .room => 16 | .hall => 16 | .wing => 8 | .house => 8 | .estate => 4

/-- The access paths of Table 3.13: C, S, H, L, M, X, F. -/
inductive Path where
  | core | stream | hearth | laundry | copy | host | fabric
  deriving DecidableEq, Repr

/-- The code of a path (Table 3.13). -/
def Path.code : Path → Nat
  | .core => 0 | .stream => 1 | .hearth => 2 | .laundry => 3 | .copy => 4 | .host => 5 | .fabric => 6

/-- The path a code names; 7 to 31 are illegal (Table 3.13). -/
def Path.ofCode : Nat → Option Path
  | 0 => some .core | 1 => some .stream | 2 => some .hearth | 3 => some .laundry
  | 4 => some .copy | 5 => some .host | 6 => some .fabric | _ => none

/-- The kinds of FENCE (Table 3.21). -/
inductive FenceKind where
  | acq | rel | full
  deriving DecidableEq, Repr

/-- The code of a fence kind (Table 3.21). -/
def FenceKind.code : FenceKind → Nat
  | .acq => 0 | .rel => 1 | .full => 2

/-- The fence kind a code names; 3 to 31 are illegal (Table 3.21). -/
def FenceKind.ofCode : Nat → Option FenceKind
  | 0 => some .acq | 1 => some .rel | 2 => some .full | _ => none

/-- Where a byte lies once its address has been checked and translated (R128, R150): a byte of a logical room's
vault, or a byte of physical memory under a key id. -/
inductive Place where
  | vault (room : Nat) (off : Nat)
  | mem (key : Nat) (pa : Nat)
  deriving DecidableEq, Repr

/-- What an access does to a page (Table 18.1, R132): read, write, fetch, or both read and write. -/
inductive Access where
  | read | write | fetch | update
  deriving DecidableEq, Repr

/-- Who waits for a translation (R298). -/
inductive Agent where
  | slot (core : Nat) (slot : Fin 4)
  | command (room : Nat)
  | laundry (hall ring : Nat)
  | prefetch (core : Nat)
  | foundation
  deriving DecidableEq, Repr

/-- An access that missed in a hall's L2 TLB (R298): its context, address, kind and owner. -/
structure MissReq where
  ctx : Nat
  addr : XWord
  acc : Access
  agent : Agent
  deriving DecidableEq, Repr

/-- A WSIG on its way: the payload, the signal counter, and the tuple of R368 by which a receiver drops duplicates. -/
structure WsigMsg where
  house : Nat
  core : Nat
  slot : Nat
  launch : Nat
  seq : Nat
  ordinal : Nat
  size : Nat
  value : XWord
  payload : Place
  signal : Place
  deriving DecidableEq, Repr

/-- An access of another house that arrives over a link (R346). -/
inductive FabricAccess where
  | load (pa len : Nat)
  | atomic (minor : Nat) (ty : Ty) (pa : Nat) (operand expected : XWord)
  | copyRead (pa len : Nat)
  deriving DecidableEq, Repr

/-- An arrival from another house at an estate barrier (R347): the launch, the barrier, the house, and the core and slot there that
bring the value (R67). -/
structure EstateArrival where
  ctx : Nat
  record : Nat
  n : Nat
  house : Nat
  core : Nat
  slot : Nat
  value : Option XWord
  code : Nat
  deriving DecidableEq, Repr

/-- A unit the Drisor map can withdraw (R374), by its physical number. -/
inductive DeviceUnit where
  | core (room core : Nat)
  | room (room : Nat)
  | hall (hall : Nat)
  | channel (hall channel : Nat)
  | way (hall bank way : Nat)
  | port (port : Nat)
  | link (link : Nat)
  deriving DecidableEq, Repr

/-- What the thermostat measures over a period (R383): the foundation's power, each wing's demand and power, in watts. -/
structure PowerReport where
  foundation : Nat
  demand : List Nat
  drawn : List Nat
  deriving DecidableEq, Repr

/-- What start-up meets outside the device (R381): which signatures hold, what fails to train, the rate steps that channels
train at, by 2 · physical hall + channel, the live lanes and the peer house of each link that trains and leads to one
(Table 26.1), and where the signed firmware puts the boot code, the supervisor firmware's loop and vector, and the threshold
firmware. -/
structure BootInput where
  slotA : Bool
  slotB : Bool
  mapImage : Bool
  failed : List DeviceUnit
  rates : List (Nat × Nat)
  links : List (Nat × Nat × Nat)
  bootEntry : XWord
  loopEntry : XWord
  bootVec : XWord
  thresholdEntry : XWord
  deriving DecidableEq, Repr

/-- One row of the opcode table: the rows that a word encodes, then those that are steps of other agents. -/
inductive Instr where
  /-- `ADD` (R71). Adds two x registers at the width of ty, wrapping. -/
  | add (ty : Ty) (d : Reg) (a : Reg) (b : Reg)
  /-- `SUB` (R71). Subtracts xb from xa at the width of ty, wrapping. -/
  | sub (ty : Ty) (d : Reg) (a : Reg) (b : Reg)
  /-- `MUL` (R71). Multiplies two x registers at the width of ty, keeping the low half. -/
  | mul (ty : Ty) (d : Reg) (a : Reg) (b : Reg)
  /-- `MULH` (R71). Writes the high half of the exact double-width product. -/
  | mulh (ty : Ty) (d : Reg) (a : Reg) (b : Reg)
  /-- `DIV` (R72). Divides rounding toward zero and traps 0x09 on a zero divisor. -/
  | div (ty : Ty) (d : Reg) (a : Reg) (b : Reg)
  /-- `REM` (R72). Writes the remainder with the sign of the dividend and traps 0x09 on a zero divisor. -/
  | rem (ty : Ty) (d : Reg) (a : Reg) (b : Reg)
  /-- `AND` (R71). Bitwise and of two registers. -/
  | and (ty : Ty) (d : Reg) (a : Reg) (b : Reg)
  /-- `OR` (R71). Bitwise or of two registers. -/
  | or (ty : Ty) (d : Reg) (a : Reg) (b : Reg)
  /-- `XOR` (R71). Bitwise exclusive or of two registers. -/
  | xor (ty : Ty) (d : Reg) (a : Reg) (b : Reg)
  /-- `ANDN` (R71). Bitwise xa and not xb. -/
  | andn (ty : Ty) (d : Reg) (a : Reg) (b : Reg)
  /-- `SLL` (R71). Shifts left by xb mod w with zeros in. -/
  | sll (ty : Ty) (d : Reg) (a : Reg) (b : Reg)
  /-- `SRL` (R71). Shifts right logically by xb mod w. -/
  | srl (ty : Ty) (d : Reg) (a : Reg) (b : Reg)
  /-- `SRA` (R71). Shifts right arithmetically by xb mod w. -/
  | sra (ty : Ty) (d : Reg) (a : Reg) (b : Reg)
  /-- `ROT` (R71). Rotates right by xb mod w. -/
  | rot (ty : Ty) (d : Reg) (a : Reg) (b : Reg)
  /-- `MIN` (R71). Writes the lesser of two values by the signedness of ty. -/
  | min (ty : Ty) (d : Reg) (a : Reg) (b : Reg)
  /-- `MAX` (R71). Writes the greater of two values by the signedness of ty. -/
  | max (ty : Ty) (d : Reg) (a : Reg) (b : Reg)
  /-- `SLT` (R71). Writes 1 if xa is less than xb, else 0. -/
  | slt (ty : Ty) (d : Reg) (a : Reg) (b : Reg)
  /-- `SEQ` (R71). Writes 1 if the raw bit strings are equal, else 0. -/
  | seq (ty : Ty) (d : Reg) (a : Reg) (b : Reg)
  /-- `CLZ` (R71). Counts leading zero bits. -/
  | clz (ty : Ty) (d : Reg) (a : Reg)
  /-- `CTZ` (R71). Counts trailing zero bits. -/
  | ctz (ty : Ty) (d : Reg) (a : Reg)
  /-- `POPC` (R71). Counts one bits. -/
  | popc (ty : Ty) (d : Reg) (a : Reg)
  /-- `EXT` (R71). Extends the low w bits of xa by the signedness of ty. -/
  | ext (ty : Ty) (d : Reg) (a : Reg)
  /-- `BFX` (R73). Extracts a bit field given by position and length in xb. -/
  | bfx (ty : Ty) (d : Reg) (a : Reg) (b : Reg)
  /-- `BFI` (R73). Inserts low bits of xa into a field of xd. -/
  | bfi (ty : Ty) (d : Reg) (a : Reg) (b : Reg)
  /-- `CMOV` (R71). Copies xa to xd when xb is nonzero. -/
  | cmov (ty : Ty) (d : Reg) (a : Reg) (b : Reg)
  /-- `ADDI` (R74). Adds a sign-extended immediate to xa. -/
  | addi (d : Reg) (a : Reg) (imm : BitVec 16)
  /-- `ANDI` (R74). Ands xa with a zero-extended immediate. -/
  | andi (d : Reg) (a : Reg) (imm : BitVec 16)
  /-- `ORI` (R74). Ors xa with a zero-extended immediate. -/
  | ori (d : Reg) (a : Reg) (imm : BitVec 16)
  /-- `XORI` (R74). Exclusive-ors xa with a zero-extended immediate. -/
  | xori (d : Reg) (a : Reg) (imm : BitVec 16)
  /-- `SLLI` (R74). Shifts the 64-bit register left by an immediate count. -/
  | slli (d : Reg) (a : Reg) (n : BitVec 6)
  /-- `SRLI` (R74). Shifts the 64-bit register right logically by an immediate count. -/
  | srli (d : Reg) (a : Reg) (n : BitVec 6)
  /-- `SRAI` (R74). Shifts the 64-bit register right arithmetically by an immediate count. -/
  | srai (d : Reg) (a : Reg) (n : BitVec 6)
  /-- `ROTI` (R74). Rotates the 64-bit register right by an immediate count. -/
  | roti (d : Reg) (a : Reg) (n : BitVec 6)
  /-- `SLTI` (R74). Signed compare of xa against a sign-extended immediate. -/
  | slti (d : Reg) (a : Reg) (imm : BitVec 16)
  /-- `SLTNI` (R74). Unsigned compare of xa against a zero-extended immediate. -/
  | sltni (d : Reg) (a : Reg) (imm : BitVec 16)
  /-- `LUI` (R74). Loads a sign-extended 21-bit immediate shifted left by 16. -/
  | lui (d : Reg) (imm : BitVec 21)
  /-- `LEA` (R75). Forms xa plus xb shifted left by s. -/
  | lea (d : Reg) (a : Reg) (b : Reg) (s : BitVec 4)
  /-- `PART` (R77). Computes the unit's share of an extent by rank and group size. -/
  | part (d : Reg) (a : Reg) (level : Tier)
  /-- `COORD` (R78). Writes the unit's rank at the named level. -/
  | coord (d : Reg) (level : Tier)
  /-- `BEQ` (R79). Branches when xa equals xb. -/
  | beq (a : Reg) (b : Reg) (off : BitVec 16)
  /-- `BNE` (R79). Branches when xa differs from xb. -/
  | bne (a : Reg) (b : Reg) (off : BitVec 16)
  /-- `BLT` (R79). Branches when xa is less than xb, signed. -/
  | blt (a : Reg) (b : Reg) (off : BitVec 16)
  /-- `BGE` (R79). Branches when xa is at least xb, signed. -/
  | bge (a : Reg) (b : Reg) (off : BitVec 16)
  /-- `BLTN` (R79). Branches when xa is less than xb, unsigned. -/
  | bltn (a : Reg) (b : Reg) (off : BitVec 16)
  /-- `BGEN` (R79). Branches when xa is at least xb, unsigned. -/
  | bgen (a : Reg) (b : Reg) (off : BitVec 16)
  /-- `J` (R80). Jumps by a signed word offset. -/
  | j (off : BitVec 26)
  /-- `JAL` (R80). Writes the return address to x31 and jumps. -/
  | jal (off : BitVec 26)
  /-- `JR` (R81). Jumps to the address in xa, trapping 0x03 if misaligned. -/
  | jr (a : Reg)
  /-- `JALR` (R81). Jumps to xa and writes the return address to x31. -/
  | jalr (a : Reg)
  /-- `LOOP` (R83). Pushes a loop-stack entry that repeats the next len words xa times. -/
  | loop (a : Reg) (len : BitVec 16)
  /-- `BSX` (R85). Branches while stream s is not exhausted. -/
  | bsx (s : Fin 4) (off : BitVec 16)
  /-- `LD` (R158). Loads a scalar of the type's size and extends it into xd. -/
  | ld (ty : Ty) (d : Reg) (a : Reg) (off : BitVec 12)
  /-- `ST` (R158). Stores the low bytes of xd. -/
  | st (ty : Ty) (d : Reg) (a : Reg) (off : BitVec 12)
  /-- `VLD` (R158). Loads 32 bytes into a w register. -/
  | vld (ty : Ty) (d : Reg) (a : Reg) (off : BitVec 12)
  /-- `VST` (R158). Stores a w register's 32 bytes. -/
  | vst (ty : Ty) (d : Reg) (a : Reg) (off : BitVec 12)
  /-- `LDX` (R159). Loads a scalar from xa plus xb. -/
  | ldx (ty : Ty) (d : Reg) (a : Reg) (b : Reg)
  /-- `STX` (R159). Stores a scalar to xa plus xb. -/
  | stx (ty : Ty) (d : Reg) (a : Reg) (b : Reg)
  /-- `VLDX` (R159). Gathers elements at xa plus scaled indices from wb. -/
  | vldx (ty : Ty) (d : Reg) (a : Reg) (b : Reg)
  /-- `VSTX` (R159). Scatters elements to xa plus scaled indices from wb. -/
  | vstx (ty : Ty) (d : Reg) (a : Reg) (b : Reg)
  /-- `VLDS` (R159). Loads elements at a signed byte stride. -/
  | vlds (ty : Ty) (d : Reg) (a : Reg) (b : Reg)
  /-- `VSTS` (R159). Stores elements at a signed byte stride. -/
  | vsts (ty : Ty) (d : Reg) (a : Reg) (b : Reg)
  /-- `PF` (R159). Prefetches a line into the L1 and vault cache, never trapping. -/
  | pf (a : Reg) (b : Reg)
  /-- `LDF` (R160). Waits until a word is full, reads it and empties it. -/
  | ldf (ty : Ty) (d : Reg) (a : Reg) (off : BitVec 5)
  /-- `LDFK` (R160). Waits until a word is full and reads it, keeping it full. -/
  | ldfk (ty : Ty) (d : Reg) (a : Reg) (off : BitVec 5)
  /-- `STE` (R160). Waits until a word is empty, writes it and sets it full. -/
  | ste (ty : Ty) (d : Reg) (a : Reg) (off : BitVec 5)
  /-- `STF` (R160). Writes a word and sets it full without waiting. -/
  | stf (ty : Ty) (d : Reg) (a : Reg) (off : BitVec 5)
  /-- `FEMPTY` (R160). Clears a word's F bit. -/
  | fempty (a : Reg) (off : BitVec 5)
  /-- `FSTAT` (R160). Reads a word's V, D and F bits. -/
  | fstat (d : Reg) (a : Reg) (off : BitVec 5)
  /-- `QLD` (R162). Waits until ring slot k is filled and loads it into xd. -/
  | qld (d : Reg) (h : Fin 8) (k : BitVec 15)
  /-- `QLDV` (R162). Waits until ring slot k is filled and loads it into a w register. -/
  | qldv (d : Reg) (h : Fin 8) (k : BitVec 15)
  /-- `QST` (R162). Waits for free room and stores xd into ring slot k past P. -/
  | qst (d : Reg) (h : Fin 8) (k : BitVec 15)
  /-- `QSTV` (R162). Waits for free room and stores a w register into ring slot k past P. -/
  | qstv (d : Reg) (h : Fin 8) (k : BitVec 15)
  /-- `QPUB` (R162). Publishes n slots by raising P and re-tests the ring's waiters. -/
  | qpub (h : Fin 8) (n : BitVec 15)
  /-- `QREL` (R162). Releases n slots by raising C and re-tests the ring's waiters. -/
  | qrel (h : Fin 8) (n : BitVec 15)
  /-- `QSTAT` (R162). Reads P and C of a ring in one step. -/
  | qstat (d : Reg) (h : Fin 8)
  /-- `QBIND` (R163). Checks a ring header and binds a handle to it. -/
  | qbind (h : Fin 8) (d : Reg)
  /-- `MAP` (R164). Binds a scratchpad range to a global range and makes its words invalid. -/
  | map (d : Reg) (a : Reg) (b : Reg)
  /-- `UNMAP` (R164). Writes back dirty mapped words and removes the mapping. -/
  | unmap (d : Reg) (a : Reg)
  /-- `SYNCW` (R164). Writes back the dirty words of a mapped range. -/
  | syncw (d : Reg) (a : Reg)
  /-- `INVW` (R164). Makes clean mapped words invalid. -/
  | invw (d : Reg) (a : Reg)
  /-- `MAPQ` (R164). Returns the global address mapped to a scratchpad word. -/
  | mapq (d : Reg) (a : Reg)
  /-- `CPY` (R165). Starts an M-path copy and retires once the transfer is accepted. -/
  | cpy (d : Reg) (a : Reg) (b : Reg)
  /-- `MCAST` (R165). Copies a range to the vaults of selected rooms of the hall. -/
  | mcast (d : Reg) (a : Reg) (b : Reg)
  /-- `CPYW` (R165). Copies a range and retires only when every byte is written. -/
  | cpyw (d : Reg) (a : Reg) (b : Reg)
  /-- `AADD` (R166). Atomically adds at the word's home and returns the old value. -/
  | aadd (ty : Ty) (d : Reg) (a : Reg) (b : Reg)
  /-- `AAND` (R166). Atomically ands at the home and returns the old value. -/
  | aand (ty : Ty) (d : Reg) (a : Reg) (b : Reg)
  /-- `AOR` (R166). Atomically ors at the home and returns the old value. -/
  | aor (ty : Ty) (d : Reg) (a : Reg) (b : Reg)
  /-- `AXOR` (R166). Atomically exclusive-ors at the home and returns the old value. -/
  | axor (ty : Ty) (d : Reg) (a : Reg) (b : Reg)
  /-- `AMIN` (R166). Atomically takes the minimum at the home and returns the old value. -/
  | amin (ty : Ty) (d : Reg) (a : Reg) (b : Reg)
  /-- `AMAX` (R166). Atomically takes the maximum at the home and returns the old value. -/
  | amax (ty : Ty) (d : Reg) (a : Reg) (b : Reg)
  /-- `ASWP` (R166). Atomically swaps in xb and returns the old value. -/
  | aswp (ty : Ty) (d : Reg) (a : Reg) (b : Reg)
  /-- `CAS` (R166). Atomically writes xb if the word equals xd and returns the old value. -/
  | cas (ty : Ty) (d : Reg) (a : Reg) (b : Reg)
  /-- `ACCA` (R167). Contributes an addition to an accumulate-only word. -/
  | acca (ty : Ty) (a : Reg) (b : Reg)
  /-- `ACCN` (R167). Contributes a minimum to an accumulate-only word. -/
  | accn (ty : Ty) (a : Reg) (b : Reg)
  /-- `ACCX` (R167). Contributes a maximum to an accumulate-only word. -/
  | accx (ty : Ty) (a : Reg) (b : Reg)
  /-- `FENCE` (R168). Orders the slot's accesses as acquire, release or full at a scope. -/
  | fence (kind : FenceKind) (scope : Tier)
  /-- `FENCEP` (R169). Orders the slot's accesses of two paths at a scope. -/
  | fencep (p1 : Path) (p2 : Path) (scope : Tier)
  /-- `LDA` (R168). Loads and then acquires at a scope. -/
  | lda (ty : Ty) (d : Reg) (a : Reg) (scope : Tier)
  /-- `STL` (R168). Releases at a scope and then stores. -/
  | stl (ty : Ty) (d : Reg) (a : Reg) (scope : Tier)
  /-- `WSIG` (R170). Delivers a payload and then increments a signal counter. -/
  | wsig (ty : Ty) (d : Reg) (a : Reg) (b : Reg)
  /-- `BINIT` (R171). Sets a barrier's configuration word. -/
  | binit (tier : Tier) (n : BitVec 5) (a : Reg)
  /-- `BARR` (R171). Arrives at a barrier with a value without waiting. -/
  | barr (tier : Tier) (n : BitVec 5) (a : Reg)
  /-- `BWAIT` (R171). Waits until the barrier's done count differs from the slot's seen count. -/
  | bwait (tier : Tier) (n : BitVec 5)
  /-- `BARRW` (R171). Arrives with a value, waits, and reads the result. -/
  | barrw (d : Reg) (tier : Tier) (n : BitVec 5) (a : Reg)
  /-- `BREAD` (R171). Reads a barrier's last result without waiting. -/
  | bread (d : Reg) (tier : Tier) (n : BitVec 5)
  /-- `VADD` (R92). Elementwise addition. -/
  | vadd (ty : Ty) (d : Reg) (a : Reg) (b : Reg)
  /-- `VSUB` (R92). Elementwise subtraction. -/
  | vsub (ty : Ty) (d : Reg) (a : Reg) (b : Reg)
  /-- `VMUL` (R92). Elementwise multiplication. -/
  | vmul (ty : Ty) (d : Reg) (a : Reg) (b : Reg)
  /-- `VMULH` (R92). Elementwise high half of integer products. -/
  | vmulh (ty : Ty) (d : Reg) (a : Reg) (b : Reg)
  /-- `VMIN` (R92). Elementwise minimum. -/
  | vmin (ty : Ty) (d : Reg) (a : Reg) (b : Reg)
  /-- `VMAX` (R92). Elementwise maximum. -/
  | vmax (ty : Ty) (d : Reg) (a : Reg) (b : Reg)
  /-- `VABS` (R92). Elementwise absolute value. -/
  | vabs (ty : Ty) (d : Reg) (a : Reg)
  /-- `VNEG` (R92). Elementwise negation. -/
  | vneg (ty : Ty) (d : Reg) (a : Reg)
  /-- `VAND` (R92). Elementwise bitwise and. -/
  | vand (ty : Ty) (d : Reg) (a : Reg) (b : Reg)
  /-- `VOR` (R92). Elementwise bitwise or. -/
  | vor (ty : Ty) (d : Reg) (a : Reg) (b : Reg)
  /-- `VXOR` (R92). Elementwise bitwise exclusive or. -/
  | vxor (ty : Ty) (d : Reg) (a : Reg) (b : Reg)
  /-- `VSHL` (R92). Elementwise shift left. -/
  | vshl (ty : Ty) (d : Reg) (a : Reg) (b : Reg)
  /-- `VSHR` (R92). Elementwise shift right. -/
  | vshr (ty : Ty) (d : Reg) (a : Reg) (b : Reg)
  /-- `VCMPEQ` (R93). Writes a predicate of elementwise equality. -/
  | vcmpeq (ty : Ty) (pd : Reg) (a : Reg) (b : Reg)
  /-- `VCMPNE` (R93). Writes a predicate of elementwise inequality. -/
  | vcmpne (ty : Ty) (pd : Reg) (a : Reg) (b : Reg)
  /-- `VCMPLT` (R93). Writes a predicate of elementwise less-than. -/
  | vcmplt (ty : Ty) (pd : Reg) (a : Reg) (b : Reg)
  /-- `VCMPLE` (R93). Writes a predicate of elementwise less-or-equal. -/
  | vcmple (ty : Ty) (pd : Reg) (a : Reg) (b : Reg)
  /-- `VCMPUN` (R93). Writes a predicate of elementwise unordered. -/
  | vcmpun (ty : Ty) (pd : Reg) (a : Reg) (b : Reg)
  /-- `VSEL` (R94). Copies active elements of wa into wd. -/
  | vsel (ty : Ty) (d : Reg) (a : Reg) (pb : Reg)
  /-- `VDIV` (R92). Elementwise floating division. -/
  | vdiv (ty : Ty) (d : Reg) (a : Reg) (b : Reg)
  /-- `VSQRT` (R92). Elementwise floating square root. -/
  | vsqrt (ty : Ty) (d : Reg) (a : Reg)
  /-- `VFMA` (R95). Fused a·b + c with one rounding. -/
  | vfma (ty : Ty) (d : Reg) (a : Reg) (b : Reg) (c : Reg)
  /-- `VFMS` (R95). Fused a·b − c with one rounding. -/
  | vfms (ty : Ty) (d : Reg) (a : Reg) (b : Reg) (c : Reg)
  /-- `VFNMA` (R95). Fused −(a·b) + c with one rounding. -/
  | vfnma (ty : Ty) (d : Reg) (a : Reg) (b : Reg) (c : Reg)
  /-- `VFNMS` (R95). Fused −(a·b) − c with one rounding. -/
  | vfnms (ty : Ty) (d : Reg) (a : Reg) (b : Reg) (c : Reg)
  /-- `VCVT` (R96). Converts elements from the source type to the destination type. -/
  | vcvt (ty : Ty) (d : Reg) (a : Reg) (src : Ty)
  /-- `VQNT` (R97). Quantises a 32-element block into a packed q4 or q3 group. -/
  | vqnt (ty : Ty) (d : Reg) (a : Reg) (src : Ty)
  /-- `VXPQ` (R98). Expands a packed q group into 32 float values. -/
  | vxpq (ty : Ty) (d : Reg) (a : Reg) (src : Ty)
  /-- `VCVTX` (R96). Converts the other half of the elements, keeping the rest of wd. -/
  | vcvtx (ty : Ty) (d : Reg) (a : Reg) (src : Ty)
  /-- `VCPS` (R99). Compresses active elements to the low positions and counts them. -/
  | vcps (ty : Ty) (d : Reg) (pa : Reg) (b : Reg)
  /-- `VXPD` (R99). Expands low elements into the active positions and counts them. -/
  | vxpd (ty : Ty) (d : Reg) (pa : Reg) (b : Reg)
  /-- `VPERM` (R100). Permutes elements of wa by indices in wb. -/
  | vperm (ty : Ty) (d : Reg) (a : Reg) (b : Reg)
  /-- `VSPLAT` (R100). Copies the low bits of xa into every element. -/
  | vsplat (ty : Ty) (d : Reg) (a : Reg)
  /-- `VINS` (R100). Inserts xa into element xb of wd. -/
  | vins (ty : Ty) (d : Reg) (a : Reg) (b : Reg)
  /-- `VEXT` (R100). Extracts element xb of wa into xd. -/
  | vext (ty : Ty) (d : Reg) (a : Reg) (b : Reg)
  /-- `VMOV` (R100). Copies one w register to another. -/
  | vmov (d : Reg) (a : Reg)
  /-- `VREDA` (R101). Sums the elements in the pairwise tree. -/
  | vreda (ty : Ty) (d : Reg) (a : Reg)
  /-- `VREDN` (R101). Reduces the elements to their minimum. -/
  | vredn (ty : Ty) (d : Reg) (a : Reg)
  /-- `VREDX` (R101). Reduces the elements to their maximum. -/
  | vredx (ty : Ty) (d : Reg) (a : Reg)
  /-- `VDOT` (R64). Forms lane products and sums them in the fixed tree. -/
  | vdot (ty : Ty) (d : Reg) (a : Reg) (b : Reg)
  /-- `PAND` (R102). Bitwise and of predicates. -/
  | pand (pd : Reg) (pa : Reg) (pb : Reg)
  /-- `POR` (R102). Bitwise or of predicates. -/
  | por (pd : Reg) (pa : Reg) (pb : Reg)
  /-- `PXOR` (R102). Bitwise exclusive or of predicates. -/
  | pxor (pd : Reg) (pa : Reg) (pb : Reg)
  /-- `PNOT` (R102). Bitwise not of a predicate. -/
  | pnot (pd : Reg) (pa : Reg)
  /-- `PCNT` (R102). Counts active elements of a predicate. -/
  | pcnt (ty : Ty) (d : Reg) (pa : Reg)
  /-- `PFST` (R102). Finds the first active element of a predicate. -/
  | pfst (ty : Ty) (d : Reg) (pa : Reg)
  /-- `PSET` (R102). Loads a predicate from xa. -/
  | pset (pd : Reg) (a : Reg)
  /-- `PGET` (R102). Reads a predicate into xd. -/
  | pget (d : Reg) (pa : Reg)
  /-- `SCFG` (R104). Reads and checks a stream descriptor and configures the stream. -/
  | scfg (sd : Reg) (a : Reg)
  /-- `SBIND` (R105). Binds a w register to a stream. -/
  | sbind (d : Reg) (sa : Reg)
  /-- `SEND` (R107). Ends a stream, unbinding its register and draining pushes. -/
  | send (sd : Reg)
  /-- `SSTAT` (R108). Reads a stream's status. -/
  | sstat (d : Reg) (sa : Reg)
  /-- `SSKIP` (R107). Advances a stream's position by xa items. -/
  | sskip (sd : Reg) (a : Reg)
  /-- `TSET` (R220). Loads a tensor slot from a descriptor after its checks. -/
  | tset (t : Fin 64) (a : Reg)
  /-- `TGET` (R221). Writes a tensor slot's descriptor to memory. -/
  | tget (t : Fin 64) (a : Reg)
  /-- `TCLR` (R221). Empties a tensor slot and releases its root. -/
  | tclr (t : Fin 64)
  /-- `TINFO` (R221). Reads a tensor slot's ownership and descriptor bits. -/
  | tinfo (a : Reg) (t : Fin 64)
  /-- `HMM` (R224). Issues a quadtree multiply command to the room's hearth. -/
  | hmm (d : Reg) (tc : Fin 64) (ta : Fin 64) (tb : Fin 64) (fl : BitVec 3)
  /-- `HADD` (R224). Issues a quadtree add command to the hearth. -/
  | hadd (d : Reg) (tc : Fin 64) (ta : Fin 64) (tb : Fin 64) (fl : BitVec 3)
  /-- `HMV` (R224). Issues a tree-times-vector command to the hearth. -/
  | hmv (d : Reg) (tc : Fin 64) (ta : Fin 64) (tb : Fin 64) (fl : BitVec 2)
  /-- `HCVT` (R225). Issues a tree format conversion command to the hearth. -/
  | hcvt (d : Reg) (tc : Fin 64) (ta : Fin 64) (fmt : Ty) (swap : Bool)
  /-- `HSNAP` (R226). Returns a snapshot tree of a slot's command progress. -/
  | hsnap (d : Reg) (b : Reg) (t : Fin 64)
  /-- `HQRY` (R227). Reads a command's status. -/
  | hqry (d : Reg) (a : Reg)
  /-- `HRES` (R228). Resumes a stopped command from its stair record. -/
  | hres (a : Reg)
  /-- `HDROP` (R228). Drops a stopped command and releases its references. -/
  | hdrop (a : Reg)
  /-- `HWIN` (R229). Reads the hearth window state. -/
  | hwin (d : Reg)
  /-- `LPATCH` (R258). Writes one patchable dword of an idle launch record. -/
  | lpatch (d : Reg) (a : Reg) (b : Reg)
  /-- `LARM` (R259). Arms a launch record after its checks. -/
  | larm (d : Reg) (a : Reg)
  /-- `LQRY` (R260). Reads a launch record's state and sequence. -/
  | lqry (d : Reg) (a : Reg)
  /-- `QENQ` (R261). Enqueues a task entry into a stage queue or holds it for a successor. -/
  | qenq (a : Reg) (b : Reg)
  /-- `TEND` (R263). Ends the slot's task, storing held entries and releasing at hall scope. -/
  | tend
  /-- `TYLD` (R264). Yields the slot to a runnable shadow task of the launch. -/
  | tyld
  /-- `GARM` (R268). Arms a new graph instance and fires the initial nodes. -/
  | garm (d : Reg) (a : Reg)
  /-- `GDONE` (R269). Reports a graph node complete and decrements its successors. -/
  | gdone (a : Reg)
  /-- `MIGR` (R265). Requests migration of the task to another hall. -/
  | migr (a : Reg)
  /-- `DONE` (R266). Ends the task with a house-scope release and sends its status into the chimney tree. -/
  | done (d : Reg)
  /-- `SLOOK` (R288). Looks up or allocates staged contents and returns a referenced name. -/
  | slook (d : Reg) (a : Reg) (b : Reg)
  /-- `SHASH` (R289). Returns the hash of staged contents without touching the index. -/
  | shash (d : Reg) (a : Reg) (b : Reg)
  /-- `SREF` (R290). Adds one reference to a name. -/
  | sref (a : Reg)
  /-- `SUNREF` (R290). Releases one reference to a name. -/
  | sunref (a : Reg)
  /-- `SRES` (R291). Returns the virtual address of a named object. -/
  | sres (d : Reg) (a : Reg)
  /-- `SCAS` (R294). Swaps a root cell's name and adjusts reference counts. -/
  | scas (d : Reg) (a : Reg) (b : Reg)
  /-- `SCOPY` (R292). Copies a named object to writable memory. -/
  | scopy (d : Reg) (a : Reg)
  /-- `SSTAT` (R293). Reads a named object's count, length and kind. -/
  | sealSstat (d : Reg) (a : Reg)
  /-- `TRAP` (R316). Raises software trap 0x10 taken after the instruction. -/
  | trap (n : BitVec 15)
  /-- `ERET` (R317). Returns from a trap, readying the origin slot after a delivery. -/
  | eret
  /-- `MFS` (R320). Reads a system register. -/
  | mfs (d : Reg) (sr : BitVec 12)
  /-- `MTS` (R320). Writes a system register. -/
  | mts (sr : BitVec 12) (d : Reg)
  /-- `WAIT` (R321). Parks the slot until an event or a time limit. -/
  | wait (d : Reg)
  /-- `CHAIN` (R322). Joins the core into a chain at a rendezvous. -/
  | chain (d : Reg)
  /-- `UNCHAIN` (R323). Dissolves the chain the slot runs in. -/
  | unchain
  /-- `AREARM` (R324). Re-issues, abandons or awaits a latched atomic. -/
  | arearm (d : Reg)
  /-- `LKICK` (R325). Kicks the hall's laundry with a ring header and producer count. -/
  | lkick (d : Reg) (a : Reg)
  /-- `BRK` (R316). Raises a breakpoint trap 0x10 at the BRK itself. -/
  | brk (n : BitVec 15)
  /-- `TLBW` (R327). Installs or answers a translation, or forwards a not-present answer. -/
  | tlbw (d : Reg) (a : Reg) (b : Reg)
  /-- `TLBINV` (R328). Invalidates matching L2 and L1 TLB entries of the hall. -/
  | tlbinv (d : Reg) (a : Reg)
  /-- `TLBQ` (R329). Looks up a key in the L2 TLB and pending table. -/
  | tlbq (d : Reg) (a : Reg)
  /-- `FBPOP` (R330). Returns the lowest posted fault buffer entry and marks it taken. -/
  | fbpop (d : Reg)
  /-- `REPLAY` (R303). Frees all fault buffer entries, releases waiters and re-issues dropped accesses. -/
  | replay
  /-- `MSGRX` (R330). Removes the oldest queued translation message. -/
  | msgrx (d : Reg)
  /-- `MAPACK` (R388). Sends the context's acknowledgement of a map version. -/
  | mapack (d : Reg)
  /-- `MAPRD` (R389). Reads a map word and the version it was read at. -/
  | maprd (d : Reg) (a : Reg) (b : Reg)
  /-- `REPW` (R390). Writes a repair or spare-failure request into the room's repair table. -/
  | repw (d : Reg) (a : Reg)
  /-- `ARRT` (R391). Reads or writes one array word raw. -/
  | arrt (d : Reg) (a : Reg) (b : Reg)
  /-- `SHUT` (R392). Fires the shutter so every block latches its snapshot registers. -/
  | shut
  /-- `SNAPRD` (R393). Reads one snapshot register. -/
  | snaprd (d : Reg) (a : Reg)
  /-- `PAIRON` (R394). Couples two slots of adjacent cores into a pair at a rendezvous. -/
  | pairon
  /-- `PAIROFF` (R395). Forces a compare and then dissolves the pair. -/
  | pairoff
  /-- `FPCHK` (R396). Forces a pair compare and reads the agreed count. -/
  | fpchk (d : Reg)
  /-- `SSBAR` (R397). Arrives at the superstep commit and waits for it. -/
  | ssbar
  /-- `SSQRY` (R398). Reads the superstep state of the room. -/
  | ssqry (d : Reg)
  /-- `HINT.WIDE` (R40). Extends the bound instruction's immediate or offset. -/
  | hintWide (v : BitVec 22)
  /-- `HINT.RM` (R56). Sets the bound instruction's rounding mode or marks an intermediate step. -/
  | hintRm (int : Bool) (mode : BitVec 3)
  /-- `HINT.DEP` (R211). Gives a hearth command predecessors, barrier, split granule and skip bit. -/
  | hintDep (p1 : BitVec 7) (p2 : BitVec 7) (n : BitVec 4) (g : BitVec 3) (s : Bool)
  /-- `HINT.SCHED` (R87). Makes the slot not ready for n cycles after the bound instruction. -/
  | hintSchedYield (n : BitVec 8)
  /-- `HINT.SCHED` (R87). Sets the issue pointer so the slot wins the next selection. -/
  | hintSchedHold
  /-- `HINT.SAT` (R59). Makes the bound conversion saturate. -/
  | hintSat
  /-- `HINT.CACHE` (R157). Sets the allocation policy of the bound access. -/
  | hintCache (policy : BitVec 3)
  /-- `ILLEGAL_INSTRUCTION` (R46). A slot issues a word that is no instruction of the tables, such as a reserved major, a reserved minor or hint kind, or the all-zero word, and it traps with cause 0x01. -/
  | illegalInstruction (word : BitVec 32)
  /-- `COPY_TRANSFER_COMPLETE` (R165). An M-path transfer finishes writing its destination. -/
  | copyTransferComplete (id : Nat)
  /-- `ATOMIC_LATCH_FAULT` (R21). A fault report for an atomic that left the core fills the retry latch and parks the slot with cause 0x11. -/
  | atomicLatchFault (core : Nat) (slot : Fin 4) (cause : BitVec 8) (sent : Bool)
  /-- `ATOMIC_RESPONSE` (R324). An atomic's response writes its destination and empties the latch. -/
  | atomicResponse (core : Nat) (slot : Fin 4) (old : Option (BitVec 64))
  /-- `WSIG_DELIVERY` (R368). The receiving foundation applies or drops an arriving WSIG by its duplicate tuple. -/
  | wsigDelivery (m : WsigMsg)
  /-- `FABRIC_STORE_ARRIVAL` (R189). A plain store from another house is applied at its home wing in link arrival order. -/
  | fabricStoreArrival (link : Nat) (pa : BitVec 52) (data : List (BitVec 8))
  /-- `REMOTE_WRITE_APPLY` (R187). A wing applies an arriving remote write once its vector-clock conditions hold. -/
  | remoteWriteApply (wing : Fin 16)
  /-- `STREAM_FETCH` (R109). A read stream fetches and translates items ahead of pops. -/
  | streamFetch (core : Nat) (slot : Fin 4) (stream : Fin 4)
  /-- `WINDOW_STALL_RELEASE` (R210). A freed window entry lets a stalled H instruction be checked and accepted. -/
  | windowStallRelease (room : Nat)
  /-- `COMMAND_START` (R212). The free walker starts the highest-priority ready command. -/
  | commandStart (room : Nat)
  /-- `COMMAND_RETIRE` (R213). A command's walk and writes complete; it retires and arrives at its barrier. -/
  | commandRetire (room : Nat)
  /-- `COMMAND_STOP` (R213). A command meets a fault, stops in error phase and arrives with its code. -/
  | commandStop (room : Nat) (code : BitVec 8)
  /-- `GRANULE_STOP` (R216). The hearth stops a command at a split granule and saves its stair. -/
  | granuleStop (room : Nat) (steps : Nat)
  /-- `POSTED_PRODUCT` (R207). A hearth takes a posted quadrant product and walks it whole. -/
  | postedProduct (room : Nat)
  /-- `POSTED_PRODUCT_RETURN` (R207). A posted product's name and flags return to the owning hearth. -/
  | postedProductReturn (room : Nat)
  /-- `LANDING_RETRY` (R247). The landing retries a held node entry when its queue frees an entry. -/
  | landingRetry (hall : Nat)
  /-- `DEFERRED_RELEASE` (R280). A larder performs a freed node's deferred release of a child. -/
  | deferredRelease
  /-- `WAIT_TIMEOUT` (R321). A WAIT's time limit expires and completes it with reason 0. -/
  | waitTimeout (core : Nat) (slot : Fin 4)
  /-- `SUPERVISOR_DELIVERY` (R318). A queued supervisor-class trap is delivered to the supervisor slot. -/
  | supervisorDelivery (core : Nat)
  /-- `TRANSLATION_MISS` (R298). An L2 TLB miss creates or attaches to a pending entry and queues a message. -/
  | translationMiss (hall : Nat) (m : MissReq)
  /-- `MISS_RETRY` (R298). A miss waiting on a full pending table is retried when an entry frees. -/
  | missRetry (hall : Nat)
  /-- `PROMOTION` (R16). A runnable shadow slot is promoted into an empty task slot. -/
  | promotion (core : Nat) (slot : Fin 4)
  /-- `PROMOTION_END` (R16). The 2 promotion cycles expire and the slot becomes ready. -/
  | promotionEnd (core : Nat) (slot : Fin 4)
  /-- `PREFETCHER_FILL` (R244). The prefetcher fills an empty shadow slot from a saved, migrated or queued task. -/
  | prefetcherFill (core : Nat)
  /-- `SCOREBOARD_RETIRE` (R142). A range scoreboard entry retires when its transfer is complete in the vault. -/
  | scoreboardRetire (room : Nat) (id : Nat)
  /-- `HOST_MEM_ACCESS` (R336). A host CXL.mem access to device memory enters the word order at the home. -/
  | hostMemAccess (key : BitVec 10) (pa : BitVec 52) (len : Nat) (data : Option (List (BitVec 8)))
  /-- `PARTITION_MOVE` (R137). A core's scratchpad partition moves before a launch with another request starts. -/
  | partitionMove (core : Nat) (kib : Nat)
  /-- `LAUNCH_START` (R238). An armed launch starts in a room, configuring barriers and placing seed tasks. -/
  | launchStart (ctx : Nat) (record : Nat) (room : Nat)
  /-- `LOBBY_REBALANCE` (R243). Every 4,096 cycles the lobby moves a core between stages by demand. -/
  | lobbyRebalance (hall : Nat)
  /-- `MIGRATION_WINDOW` (R249). A 65,536-cycle window ends and the remote-access counter restarts. -/
  | migrationWindow (core : Nat) (slot : Fin 4)
  /-- `TASK_MIGRATION` (R250). A task whose count reaches mthr is shipped to the candidate hall. -/
  | taskMigration (core : Nat) (slot : Fin 4) (hall : Nat)
  /-- `FAULT_SAVE_DEFERRED` (R252). A parked faulting task is saved once a frame of its context frees. -/
  | faultSaveDeferred (core : Nat) (slot : Fin 4)
  /-- `CHIMNEY_MESSAGE` (R125). A chimney node combines its children's reports and forwards one message. -/
  | chimneyMessage (ctx : Nat) (record : Nat) (tier : Tier) (unit : Nat)
  /-- `LAUNCH_QUIESCENT` (R267). The foundation completes a quiescent launch, supplying its missing DONEs. -/
  | launchQuiescent (ctx : Nat) (record : Nat)
  /-- `LAUNDRY_KICK_ACCEPT` (R305). The laundry accepts a kick, judging it stale, in overrun or valid. -/
  | laundryKickAccept (hall : Nat)
  /-- `COPY` (R307). Laundry request that copies elements with format conversion. -/
  | copy (hall : Nat) (ring : Nat)
  /-- `CONVERT` (R307). Laundry request that converts through an intermediate format. -/
  | convert (hall : Nat) (ring : Nat)
  /-- `QUANT` (R307). Laundry request that quantises blocks into a packed q object. -/
  | quant (hall : Nat) (ring : Nat)
  /-- `PAD` (R307). Laundry request that writes a padded copy. -/
  | pad (hall : Nat) (ring : Nat)
  /-- `SLICE` (R307). Laundry request that copies an offset slice. -/
  | slice (hall : Nat) (ring : Nat)
  /-- `FILL` (R307). Laundry request that fills a destination with a value. -/
  | fill (hall : Nat) (ring : Nat)
  /-- `COMPRESS` (R307). Laundry request that stores a page compressed. -/
  | compress (hall : Nat) (ring : Nat)
  /-- `EXPAND` (R307). Laundry request that stores a page expanded. -/
  | expand (hall : Nat) (ring : Nat)
  /-- `FRAME_EXCHANGE` (R312). Laundry request that swaps the frames of two pages. -/
  | frameExchange (hall : Nat) (ring : Nat)
  /-- `PAIR_COMPARE` (R360). The pair compares fingerprints after 1,024 instructions or when forced. -/
  | pairCompare (core : Nat)
  /-- `SUPERSTEP_COMMIT` (R368). When every gang slot has arrived, held effects are performed and a new superstep opens. -/
  | superstepCommit (ctx : Nat) (record : Nat)
  /-- `SUPERSTEP_ROLLBACK` (R366). The gang restores its logs and checkpoints and replays the superstep. -/
  | superstepRollback (ctx : Nat) (record : Nat)
  /-- `CONTEXT_CREATE` (R233). A host write of VAL = 1 submits a context descriptor for checking. -/
  | contextCreate (ctx : Nat)
  /-- `CONTEXT_DESTROY` (R233). A host write of VAL = 0 destroys a context if it is idle. -/
  | contextDestroy (ctx : Nat)
  /-- `REGION_DECLARE` (R271). A host write of VAL = 1 declares a sealed region. -/
  | regionDeclare (region : Nat)
  /-- `REGION_DESTROY` (R273). A host write clearing VAL destroys a region and its objects. -/
  | regionDestroy (region : Nat)
  /-- `SUBMISSION_DOORBELL` (R341). A host doorbell write raises W or puts the ring in overrun. -/
  | submissionDoorbell (ring : Nat) (w : BitVec 64)
  /-- `SUBMISSION_RESET` (R341). Writing RST discards the rest of a submission ring. -/
  | submissionReset (ring : Nat)
  /-- `SUBMIT_ARM` (R339). A submission entry arms a launch record. -/
  | submitArm (ring : Nat)
  /-- `SUBMIT_SAVE` (R339). A submission entry switches the ring's context out. -/
  | submitSave (ring : Nat)
  /-- `SUBMIT_RESTORE` (R339). A submission entry switches the ring's context back in. -/
  | submitRestore (ring : Nat)
  /-- `SUBMIT_MAPACK` (R378). A submission entry acknowledges a map version for a context. -/
  | submitMapack (ring : Nat)
  /-- `EVENT_RING_ENABLE` (R342). Writing EEN = 1 enables the event ring and zeroes EH and ET. -/
  | eventRingEnable (word : BitVec 64)
  /-- `HOST_MESSAGE_MAPPING_DONE` (R343). A kind-2 host message is queued for the named threshold cores. -/
  | hostMessageMappingDone (word : BitVec 64) (target : BitVec 64)
  /-- `HOST_MESSAGE_INVALIDATE` (R343). A kind-3 host message requests invalidation at the named halls. -/
  | hostMessageInvalidate (word : BitVec 64) (target : BitVec 64)
  /-- `KEY_RETIRE` (R370). A host write of kr.ctl starts the flush of a key id or is refused. -/
  | keyRetire (key : BitVec 10)
  /-- `KEY_FLUSH_COMPLETE` (R370). The last line of the retiring key is gone and BUSY falls. -/
  | keyFlushComplete
  /-- `HOST_REGISTER_WRITE` (R334). A host write to a foundation register that has no behaviour row of its own. -/
  | hostRegisterWrite (offset : Nat) (value : BitVec 64)
  /-- `UNIT_WITHDRAWAL` (R374). The keeper receives a failure report or host request and withdraws a unit. -/
  | unitWithdrawal (u : DeviceUnit)
  /-- `MAP_PUBLICATION` (R376). The keeper publishes a new map version and relocates state. -/
  | mapPublication
  /-- `MAP_DEADLINE` (R378). A version's grace period expires and unacknowledging contexts are suspended. -/
  | mapDeadline (version : BitVec 32)
  /-- `THERMOSTAT_PERIOD` (R383). Every 10 µs the thermostat shares power and moves wing levels. -/
  | thermostatPeriod (p : PowerReport)
  /-- `FLIT_RETRANSMISSION` (R345). An Oluip link retransmits a corrupted flit. -/
  | flitRetransmission (link : Nat)
  /-- `BOOT_RESET` (R381). Reset starts the boot sequence from the root of trust. -/
  | bootReset (b : BootInput)
  /-- `FABRIC_ACCESS_ARRIVAL` (R346). A load, ordinary atomic or copy read sent by another house over an Oluip link arrives and is performed at its home in this house's word order. -/
  | fabricAccessArrival (link : Nat) (m : FabricAccess)
  /-- `ESTATE_BARRIER_ARRIVAL` (R347). An estate barrier arrival from another house crosses the fabric and is counted at the foundation of the lowest-numbered house of the launch. -/
  | estateBarrierArrival (m : EstateArrival)
  /-- `UNIT_RETURN` (R373). The host returns a withdrawn unit to the map keeper, which records it as a change for the next publication. -/
  | unitReturn (u : DeviceUnit)
  deriving DecidableEq, Repr

/-- A step of one of the device's other agents that falls due, or that the world outside brings about: the rows of the
opcode table that no word encodes, but for ILLEGAL_INSTRUCTION, which is a slot's own step (95_what_each_step_holds). -/
inductive Due where
  /-- `COPY_TRANSFER_COMPLETE` (R165). -/
  | copyTransferComplete (id : Nat)
  /-- `ATOMIC_LATCH_FAULT` (R21). -/
  | atomicLatchFault (core : Nat) (slot : Fin 4) (cause : BitVec 8) (sent : Bool)
  /-- `ATOMIC_RESPONSE` (R324). -/
  | atomicResponse (core : Nat) (slot : Fin 4) (old : Option (BitVec 64))
  /-- `WSIG_DELIVERY` (R368). -/
  | wsigDelivery (m : WsigMsg)
  /-- `FABRIC_STORE_ARRIVAL` (R189). -/
  | fabricStoreArrival (link : Nat) (pa : BitVec 52) (data : List (BitVec 8))
  /-- `REMOTE_WRITE_APPLY` (R187). -/
  | remoteWriteApply (wing : Fin 16)
  /-- `STREAM_FETCH` (R109). -/
  | streamFetch (core : Nat) (slot : Fin 4) (stream : Fin 4)
  /-- `WINDOW_STALL_RELEASE` (R210). -/
  | windowStallRelease (room : Nat)
  /-- `COMMAND_START` (R212). -/
  | commandStart (room : Nat)
  /-- `COMMAND_RETIRE` (R213). -/
  | commandRetire (room : Nat)
  /-- `COMMAND_STOP` (R213). -/
  | commandStop (room : Nat) (code : BitVec 8)
  /-- `GRANULE_STOP` (R216). -/
  | granuleStop (room : Nat) (steps : Nat)
  /-- `POSTED_PRODUCT` (R207). -/
  | postedProduct (room : Nat)
  /-- `POSTED_PRODUCT_RETURN` (R207). -/
  | postedProductReturn (room : Nat)
  /-- `LANDING_RETRY` (R247). -/
  | landingRetry (hall : Nat)
  /-- `DEFERRED_RELEASE` (R280). -/
  | deferredRelease
  /-- `WAIT_TIMEOUT` (R321). -/
  | waitTimeout (core : Nat) (slot : Fin 4)
  /-- `SUPERVISOR_DELIVERY` (R318). -/
  | supervisorDelivery (core : Nat)
  /-- `TRANSLATION_MISS` (R298). -/
  | translationMiss (hall : Nat) (m : MissReq)
  /-- `MISS_RETRY` (R298). -/
  | missRetry (hall : Nat)
  /-- `PROMOTION` (R16). -/
  | promotion (core : Nat) (slot : Fin 4)
  /-- `PROMOTION_END` (R16). -/
  | promotionEnd (core : Nat) (slot : Fin 4)
  /-- `PREFETCHER_FILL` (R244). -/
  | prefetcherFill (core : Nat)
  /-- `SCOREBOARD_RETIRE` (R142). -/
  | scoreboardRetire (room : Nat) (id : Nat)
  /-- `HOST_MEM_ACCESS` (R336). -/
  | hostMemAccess (key : BitVec 10) (pa : BitVec 52) (len : Nat) (data : Option (List (BitVec 8)))
  /-- `PARTITION_MOVE` (R137). -/
  | partitionMove (core : Nat) (kib : Nat)
  /-- `LAUNCH_START` (R238). -/
  | launchStart (ctx : Nat) (record : Nat) (room : Nat)
  /-- `LOBBY_REBALANCE` (R243). -/
  | lobbyRebalance (hall : Nat)
  /-- `MIGRATION_WINDOW` (R249). -/
  | migrationWindow (core : Nat) (slot : Fin 4)
  /-- `TASK_MIGRATION` (R250). -/
  | taskMigration (core : Nat) (slot : Fin 4) (hall : Nat)
  /-- `FAULT_SAVE_DEFERRED` (R252). -/
  | faultSaveDeferred (core : Nat) (slot : Fin 4)
  /-- `CHIMNEY_MESSAGE` (R125). -/
  | chimneyMessage (ctx : Nat) (record : Nat) (tier : Tier) (unit : Nat)
  /-- `LAUNCH_QUIESCENT` (R267). -/
  | launchQuiescent (ctx : Nat) (record : Nat)
  /-- `LAUNDRY_KICK_ACCEPT` (R305). -/
  | laundryKickAccept (hall : Nat)
  /-- `COPY` (R307). -/
  | copy (hall : Nat) (ring : Nat)
  /-- `CONVERT` (R307). -/
  | convert (hall : Nat) (ring : Nat)
  /-- `QUANT` (R307). -/
  | quant (hall : Nat) (ring : Nat)
  /-- `PAD` (R307). -/
  | pad (hall : Nat) (ring : Nat)
  /-- `SLICE` (R307). -/
  | slice (hall : Nat) (ring : Nat)
  /-- `FILL` (R307). -/
  | fill (hall : Nat) (ring : Nat)
  /-- `COMPRESS` (R307). -/
  | compress (hall : Nat) (ring : Nat)
  /-- `EXPAND` (R307). -/
  | expand (hall : Nat) (ring : Nat)
  /-- `FRAME_EXCHANGE` (R312). -/
  | frameExchange (hall : Nat) (ring : Nat)
  /-- `PAIR_COMPARE` (R360). -/
  | pairCompare (core : Nat)
  /-- `SUPERSTEP_COMMIT` (R368). -/
  | superstepCommit (ctx : Nat) (record : Nat)
  /-- `SUPERSTEP_ROLLBACK` (R366). -/
  | superstepRollback (ctx : Nat) (record : Nat)
  /-- `CONTEXT_CREATE` (R233). -/
  | contextCreate (ctx : Nat)
  /-- `CONTEXT_DESTROY` (R233). -/
  | contextDestroy (ctx : Nat)
  /-- `REGION_DECLARE` (R271). -/
  | regionDeclare (region : Nat)
  /-- `REGION_DESTROY` (R273). -/
  | regionDestroy (region : Nat)
  /-- `SUBMISSION_DOORBELL` (R341). -/
  | submissionDoorbell (ring : Nat) (w : BitVec 64)
  /-- `SUBMISSION_RESET` (R341). -/
  | submissionReset (ring : Nat)
  /-- `SUBMIT_ARM` (R339). -/
  | submitArm (ring : Nat)
  /-- `SUBMIT_SAVE` (R339). -/
  | submitSave (ring : Nat)
  /-- `SUBMIT_RESTORE` (R339). -/
  | submitRestore (ring : Nat)
  /-- `SUBMIT_MAPACK` (R378). -/
  | submitMapack (ring : Nat)
  /-- `EVENT_RING_ENABLE` (R342). -/
  | eventRingEnable (word : BitVec 64)
  /-- `HOST_MESSAGE_MAPPING_DONE` (R343). -/
  | hostMessageMappingDone (word : BitVec 64) (target : BitVec 64)
  /-- `HOST_MESSAGE_INVALIDATE` (R343). -/
  | hostMessageInvalidate (word : BitVec 64) (target : BitVec 64)
  /-- `KEY_RETIRE` (R370). -/
  | keyRetire (key : BitVec 10)
  /-- `KEY_FLUSH_COMPLETE` (R370). -/
  | keyFlushComplete
  /-- `HOST_REGISTER_WRITE` (R334). -/
  | hostRegisterWrite (offset : Nat) (value : BitVec 64)
  /-- `UNIT_WITHDRAWAL` (R374). -/
  | unitWithdrawal (u : DeviceUnit)
  /-- `MAP_PUBLICATION` (R376). -/
  | mapPublication
  /-- `MAP_DEADLINE` (R378). -/
  | mapDeadline (version : BitVec 32)
  /-- `THERMOSTAT_PERIOD` (R383). -/
  | thermostatPeriod (p : PowerReport)
  /-- `FLIT_RETRANSMISSION` (R345). -/
  | flitRetransmission (link : Nat)
  /-- `BOOT_RESET` (R381). -/
  | bootReset (b : BootInput)
  /-- `FABRIC_ACCESS_ARRIVAL` (R346). -/
  | fabricAccessArrival (link : Nat) (m : FabricAccess)
  /-- `ESTATE_BARRIER_ARRIVAL` (R347). -/
  | estateBarrierArrival (m : EstateArrival)
  /-- `UNIT_RETURN` (R373). -/
  | unitReturn (u : DeviceUnit)
  deriving DecidableEq, Repr

end Sys2Proof
end

