-- ==== Sys2Proof/Machine/Float.lean ====
section
/-! DEFINITION. Number formats and exact arithmetic (R49 to R66): values are unpacked exactly, combined exactly as a
number times a power of two, and rounded once at the end. -/

namespace Sys2Proof

/-- The element size of a type in bytes (R36); the narrow weights have none of their own. -/
def Ty.size : Ty → Nat
  | .i8 | .n8 | .e4m3 | .e5m2 => 1
  | .i16 | .n16 | .f16 | .b16 => 2
  | .i32 | .n32 | .f32 => 4
  | .i64 | .n64 | .f64 => 8
  | .q4 | .q3 => 1

/-- The width of a type in bits. -/
def Ty.bits (t : Ty) : Nat := 8 * t.size

/-- Whether a type is a signed integer type. -/
def Ty.signed (t : Ty) : Bool := decide (t.code < 4)

/-- Whether a type is an integer type. -/
def Ty.isInt (t : Ty) : Bool := decide (t.code < 8)

end Sys2Proof

namespace Sys2Proof.Machine

open Sys2Proof

/-! ### Formats (R50, R51) -/

/-- A floating-point format (Table 4.1). -/
structure Fmt where
  ew : Nat
  fw : Nat
  bias : Nat
  e4m3 : Bool
  deriving DecidableEq, Repr

/-- f64. -/
def fmtF64 : Fmt := ⟨11, 52, 1023, false⟩
/-- f32. -/
def fmtF32 : Fmt := ⟨8, 23, 127, false⟩
/-- f16. -/
def fmtF16 : Fmt := ⟨5, 10, 15, false⟩
/-- b16. -/
def fmtB16 : Fmt := ⟨8, 7, 127, false⟩
/-- e4m3. -/
def fmtE4M3 : Fmt := ⟨4, 3, 7, true⟩
/-- e5m2. -/
def fmtE5M2 : Fmt := ⟨5, 2, 15, false⟩

/-- The format of a floating-point type code. -/
def fmtOf : Ty → Fmt
  | .f64 => fmtF64 | .f16 => fmtF16 | .b16 => fmtB16 | .e4m3 => fmtE4M3 | .e5m2 => fmtE5M2 | _ => fmtF32

/-- The width of a format. -/
def Fmt.width (f : Fmt) : Nat := 1 + f.ew + f.fw

/-- The sign bit's weight. -/
def signBit (f : Fmt) (s : Bool) : Nat := s.toNat * 2 ^ (f.ew + f.fw)

/-- Positive infinity's encoding, where the format has one. -/
def infBits (f : Fmt) : Nat := (2 ^ f.ew - 1) * 2 ^ f.fw

/-- The default NaN (Table 4.2). -/
def defaultNan (f : Fmt) : Nat := if f.e4m3 then 0x7F else infBits f + 2 ^ (f.fw - 1)

/-- The encoding of the largest finite magnitude (Table 4.1). -/
def maxBits (f : Fmt) : Nat := if f.e4m3 then 0x7E else infBits f - 1

/-- An encoded value: a NaN with its fraction, an infinity, or (−1)^s · m · 2^e exactly. -/
inductive FVal where
  | nan (s quiet : Bool) (frac : Nat)
  | inf (s : Bool)
  | fin (s : Bool) (m : Nat) (e : Int)
  deriving DecidableEq, Repr

/-- The value an encoding has (R50, R51). -/
def unpack (f : Fmt) (b : Nat) : FVal :=
  let s := bitAt b (f.ew + f.fw)
  let e := b / 2 ^ f.fw % 2 ^ f.ew
  let t := b % 2 ^ f.fw
  let top := e = 2 ^ f.ew - 1
  if f.e4m3 && decide top && decide (t = 7) then .nan s true t
  else if !f.e4m3 && decide top then
    if t = 0 then .inf s else .nan s (bitAt t (f.fw - 1)) t
  else if e = 0 then .fin s t (1 - (f.bias : Int) - f.fw)
  else .fin s (2 ^ f.fw + t) ((e : Int) - f.bias - f.fw)

/-- Whether a value is a NaN. -/
def FVal.isNan : FVal → Bool
  | .nan _ _ _ => true
  | _ => false

/-- Whether a value is a signalling NaN. -/
def FVal.isSignal : FVal → Bool
  | .nan _ q _ => !q
  | _ => false

/-! ### Flags (R57, Table 4.6) -/

/-- Invalid. -/
def flagNV : Nat := 16
/-- Divide by zero. -/
def flagDZ : Nat := 8
/-- Overflow. -/
def flagOF : Nat := 4
/-- Underflow. -/
def flagUF : Nat := 2
/-- Inexact. -/
def flagNX : Nat := 1

/-- A result with the flags it raises. -/
structure FRes where
  bits : Nat
  flags : Nat
  deriving DecidableEq, Repr

/-! ### Rounding (R54) -/

/-- Shifts a magnitude down by `d` bits and rounds it by a mode, for a number of sign `s`: the rounded magnitude, and
whether it is inexact. -/
def roundShift (mode : Nat) (s : Bool) (m d : Nat) : Nat × Bool :=
  let q := m / 2 ^ d
  let r := m % 2 ^ d
  if r = 0 then (q, false)
  else match mode with
    | 0 => if 2 ^ d < 2 * r || (2 * r = 2 ^ d && q % 2 = 1) then (q + 1, true) else (q, true)
    | 2 => (if s then q else q + 1, true)
    | 3 => (if s then q + 1 else q, true)
    | 4 => (if q % 2 = 0 then q + 1 else q, true)
    | _ => (q, true)

/-- A magnitude `m · 2^e` brought to the unit `2^q` by a mode. -/
def roundTo (mode : Nat) (s : Bool) (m : Nat) (e q : Int) : Nat × Bool :=
  if q ≤ e then (m * 2 ^ (e - q).toNat, false) else roundShift mode s m (q - e).toNat

/-- What an overflow delivers (Table 4.3; with SAT, Table 4.7). -/
def overflowBits (f : Fmt) (mode : Nat) (sat s : Bool) : Nat :=
  let big := signBit f s + maxBits f
  let inf := if f.e4m3 then signBit f s + 0x7F else signBit f s + infBits f
  if sat then big
  else match mode with
    | 0 => inf
    | 2 => if s then big else inf
    | 3 => if s then inf else big
    | _ => big

/-- Rounds (−1)^s · m · 2^e to a format (R54), with the flags OF, UF and NX that this raises. -/
def roundFin (f : Fmt) (mode : Nat) (sat s : Bool) (m : Nat) (e : Int) : FRes :=
  if m = 0 then ⟨signBit f s, 0⟩
  else
    let top := e + m.log2
    let emin : Int := 1 - (f.bias : Int)
    let q := max (top - f.fw) (emin - f.fw)
    let r := roundTo mode s m e q
    let code := (q - (emin - f.fw)).toNat * 2 ^ f.fw + r.1
    let free := roundTo mode s m e (top - f.fw)
    let tiny := decide (top < emin) && decide ¬(top = emin - 1 ∧ 2 ^ (f.fw + 1) ≤ free.1)
    if maxBits f < code then ⟨overflowBits f mode sat s, flagOF + flagNX⟩
    else ⟨signBit f s + code, (if r.2 then flagNX else 0) + (if r.2 && tiny then flagUF else 0)⟩

/-- An encoding of an exact value, rounded. -/
def roundVal (f : Fmt) (mode : Nat) (sat : Bool) : FVal → FRes
  | .fin s m e => roundFin f mode sat s m e
  | .inf s => ⟨signBit f s + infBits f, 0⟩
  | .nan s _ t => ⟨signBit f s + infBits f + t, 0⟩

/-! ### Exact sums -/

/-- An exact number m · 2^e. -/
structure Exact where
  m : Int
  e : Int
  deriving DecidableEq, Repr

/-- An exact sum. -/
def Exact.add (a b : Exact) : Exact :=
  let e := min a.e b.e
  ⟨a.m * 2 ^ (a.e - e).toNat + b.m * 2 ^ (b.e - e).toNat, e⟩

/-- The exact number of a finite value. -/
def exactOf : FVal → Exact
  | .fin s m e => ⟨if s then -(m : Int) else m, e⟩
  | _ => ⟨0, 0⟩

/-- Rounds an exact number; `zero` is the sign of an exact zero. -/
def roundExact (f : Fmt) (mode : Nat) (zero : Bool) (a : Exact) : FRes :=
  if a.m = 0 then ⟨signBit f zero, 0⟩ else roundFin f mode false (decide (a.m < 0)) a.m.natAbs a.e

/-! ### Arithmetic (R52, R57) -/

/-- A NaN operand made quiet, its other bits kept (R52). -/
def quieted (f : Fmt) (b : Nat) : Nat := if f.e4m3 then b else b ||| 2 ^ (f.fw - 1)

/-- NV if an operand is a signalling NaN (R52). -/
def signalFlag (f : Fmt) (xs : List Nat) : Nat := if xs.any fun x => (unpack f x).isSignal then flagNV else 0

/-- The first NaN among the operands, made quiet (R52). -/
def nanOf (f : Fmt) (xs : List Nat) : Option Nat := (xs.find? fun x => (unpack f x).isNan).map (quieted f)

/-- An invalid operation without a NaN operand: the default NaN and NV (R57). -/
def invalid (f : Fmt) : FRes := ⟨defaultNan f, flagNV⟩

/-- The sum of two values that are no NaNs. -/
def addVals (f : Fmt) (mode : Nat) : FVal → FVal → FRes
  | .inf s, .inf t => if s = t then ⟨signBit f s + infBits f, 0⟩ else invalid f
  | .inf s, _ => ⟨signBit f s + infBits f, 0⟩
  | _, .inf t => ⟨signBit f t + infBits f, 0⟩
  | .fin s m e, .fin t n d =>
    roundExact f mode (if s = t then s else decide (mode = 3)) ((exactOf (.fin s m e)).add (exactOf (.fin t n d)))
  | _, _ => invalid f

/-- The value with its sign changed. -/
def FVal.negate : FVal → FVal
  | .fin s m e => .fin (!s) m e
  | .inf s => .inf (!s)
  | v => v

/-- a + b, one rounding. -/
def fAdd (f : Fmt) (mode : Nat) (a b : Nat) : FRes :=
  match nanOf f [a, b] with
  | some n => ⟨n, signalFlag f [a, b]⟩
  | none => addVals f mode (unpack f a) (unpack f b)

/-- a − b, one rounding. -/
def fSub (f : Fmt) (mode : Nat) (a b : Nat) : FRes :=
  match nanOf f [a, b] with
  | some n => ⟨n, signalFlag f [a, b]⟩
  | none => addVals f mode (unpack f a) (unpack f b).negate

/-- The exact product of two values; none where it is invalid (0 · ∞). -/
def mulVals : FVal → FVal → Option FVal
  | .fin s m e, .fin t n d => some (.fin (s != t) (m * n) (e + d))
  | .inf s, .inf t => some (.inf (s != t))
  | .inf s, .fin t n _ => if n = 0 then none else some (.inf (s != t))
  | .fin s m _, .inf t => if m = 0 then none else some (.inf (s != t))
  | _, _ => none

/-- a · b, one rounding. -/
def fMul (f : Fmt) (mode : Nat) (a b : Nat) : FRes :=
  match nanOf f [a, b] with
  | some n => ⟨n, signalFlag f [a, b]⟩
  | none => match mulVals (unpack f a) (unpack f b) with
    | none => invalid f
    | some v => roundVal f mode false v

/-- ±(a · b) ± c, one rounding of the exact value (R95): `np` negates the product, `nc` the addend. -/
def fFma (f : Fmt) (mode : Nat) (np nc : Bool) (a b c : Nat) : FRes :=
  let p := mulVals (unpack f a) (unpack f b)
  let bad := p.isNone && !(unpack f a).isNan && !(unpack f b).isNan
  match nanOf f [a, b, c] with
  | some n => ⟨n, if bad then flagNV else signalFlag f [a, b, c]⟩
  | none => match p with
    | none => invalid f
    | some v =>
      let c := unpack f c
      addVals f mode (if np then v.negate else v) (if nc then c.negate else c)

/-- The quotient of two magnitudes with enough bits below the rounding point, its lowest bit set if inexact. -/
def quotientOf (f : Fmt) (m n : Nat) : Nat × Nat :=
  let k := f.fw + 4 + n.log2
  let q := m * 2 ^ k / n
  (if m * 2 ^ k % n = 0 then 2 * q else 2 * q + 1, k + 1)

/-- a / b, one rounding (R57, R92). -/
def fDiv (f : Fmt) (mode : Nat) (a b : Nat) : FRes :=
  match nanOf f [a, b] with
  | some n => ⟨n, signalFlag f [a, b]⟩
  | none => match unpack f a, unpack f b with
    | .inf _, .inf _ => invalid f
    | .inf s, .fin t _ _ => ⟨signBit f (s != t) + infBits f, 0⟩
    | .fin s _ _, .inf t => ⟨signBit f (s != t), 0⟩
    | .fin s m e, .fin t n d =>
      if n = 0 then
        if m = 0 then invalid f else ⟨signBit f (s != t) + infBits f, flagDZ⟩
      else
        let q := quotientOf f (m * 2 ^ (f.fw + 1)) n
        roundFin f mode false (s != t) q.1 (e - d - q.2 - (f.fw + 1))
    | _, _ => invalid f

/-- The integer square root: the largest r with r² ≤ n, bit by bit from 2^k. -/
def sqrtBits : Nat → Nat → Nat → Nat
  | 0, n, r => if (r + 1) * (r + 1) ≤ n then r + 1 else r
  | k + 1, n, r => sqrtBits k n (if (r + 2 ^ (k + 1)) * (r + 2 ^ (k + 1)) ≤ n then r + 2 ^ (k + 1) else r)

/-- √a, one rounding; −0 gives −0 (R57). -/
def fSqrt (f : Fmt) (mode : Nat) (a : Nat) : FRes :=
  match nanOf f [a] with
  | some n => ⟨n, signalFlag f [a]⟩
  | none => match unpack f a with
    | .inf s => if s then invalid f else ⟨infBits f, 0⟩
    | .fin s m e =>
      if m = 0 then ⟨signBit f s, 0⟩
      else if s then invalid f
      else
        let odd := e % 2
        let k := f.fw + 3
        let n := m * 2 ^ odd.toNat * 2 ^ (2 * k)
        let r := sqrtBits (n.log2 / 2 + 1) n 0
        roundFin f mode false false (if r * r = n then 2 * r else 2 * r + 1) ((e - odd) / 2 - k - 1)
    | _ => invalid f

/-- The order of two values that are no NaNs, −0 below +0 (R52): whether a is below b. -/
def belowTotal : FVal → FVal → Bool
  | .inf s, .inf t => s && !t
  | .inf s, _ => s
  | _, .inf t => !t
  | .fin s m e, .fin t n d =>
    let x := exactOf (.fin s m e)
    let y := exactOf (.fin t n d)
    let z := x.add ⟨-y.m, y.e⟩
    if z.m = 0 then s && !t else decide (z.m < 0)
  | _, _ => false

/-- Minimum or maximum (R52). -/
def fMinMax (f : Fmt) (wantMax : Bool) (a b : Nat) : FRes :=
  match nanOf f [a, b] with
  | some n => ⟨n, signalFlag f [a, b]⟩
  | none =>
    let lt := belowTotal (unpack f a) (unpack f b)
    ⟨if wantMax then (if lt then b else a) else (if belowTotal (unpack f b) (unpack f a) then b else a), 0⟩

/-- Numeric order: less, equal, greater, or unordered. -/
inductive Order where
  | lt | eq | gt | un
  deriving DecidableEq, Repr

/-- The order of two encodings as numbers; −0 equals +0. -/
def fCompare (f : Fmt) (a b : Nat) : Order :=
  let x := unpack f a
  let y := unpack f b
  if x.isNan || y.isNan then .un
  else match x, y with
    | .fin s m e, .fin t n d =>
      let z := (exactOf (.fin s m e)).add ⟨-(exactOf (.fin t n d)).m, d⟩
      if z.m = 0 then .eq else if z.m < 0 then .lt else .gt
    | .inf s, .inf t => if s = t then .eq else if s then .lt else .gt
    | .inf s, _ => if s then .lt else .gt
    | _, .inf t => if t then .gt else .lt
    | _, _ => .un

/-! ### Conversions (R53, R54, R59) -/

/-- A NaN carried into another format (R53). -/
def convertNan (src dst : Fmt) (s : Bool) (frac : Nat) : Nat :=
  if dst.e4m3 then signBit dst s + 0x7F
  else
    let frac := if src.e4m3 then 7 else frac
    let t := if dst.fw ≤ src.fw then frac / 2 ^ (src.fw - dst.fw) else frac * 2 ^ (dst.fw - src.fw)
    signBit dst s + infBits dst + (t ||| 2 ^ (dst.fw - 1))

/-- Float to float (R53, R54, R59). -/
def convertFloat (src dst : Fmt) (mode : Nat) (sat : Bool) (a : Nat) : FRes :=
  match unpack src a with
  | .nan s q t => ⟨convertNan src dst s t, if q then 0 else flagNV⟩
  | .inf s =>
    if dst.e4m3 then
      if sat then ⟨signBit dst s + maxBits dst, flagNX⟩ else ⟨signBit dst s + 0x7F, 0⟩
    else ⟨signBit dst s + infBits dst, 0⟩
  | .fin s m e => roundFin dst mode sat s m e

/-- The least and greatest value of an integer type. -/
def intRange (t : Ty) : Int × Int :=
  if t.signed then (-(2 ^ (t.bits - 1) : Nat), (2 ^ (t.bits - 1) : Nat) - 1) else (0, (2 ^ t.bits : Nat) - 1)

/-- An integer rounded from (−1)^s · m · 2^e by a mode, and whether it is inexact. -/
def roundInt (mode : Nat) (s : Bool) (m : Nat) (e : Int) : Int × Bool :=
  let r := roundTo mode s m e 0
  (if s then -(r.1 : Int) else r.1, r.2)

/-- A clamped integer. -/
def clamp (r : Int × Int) (i : Int) : Int := max r.1 (min r.2 i)

/-- Float to integer (R59, Table 4.7). -/
def floatToInt (src : Fmt) (dst : Ty) (mode : Nat) (sat : Bool) (a : Nat) : FRes :=
  match unpack src a with
  | .nan _ _ _ => ⟨0, flagNV⟩
  | .inf s => ⟨if sat then wrapInt dst.bits (if s then (intRange dst).1 else (intRange dst).2) else 0, flagNV⟩
  | .fin s m e =>
    let r := roundInt mode s m e
    if (intRange dst).1 ≤ r.1 && r.1 ≤ (intRange dst).2 then ⟨wrapInt dst.bits r.1, if r.2 then flagNX else 0⟩
    else ⟨wrapInt dst.bits (if sat then clamp (intRange dst) r.1 else r.1), flagNV⟩

/-- The integer an element of an integer type holds. -/
def intOf (t : Ty) (a : Nat) : Int := if t.signed then signedOf t.bits a else ((a % 2 ^ t.bits : Nat) : Int)

/-- Integer to float, rounded. -/
def intToFloat (i : Int) (dst : Fmt) (mode : Nat) (sat : Bool) : FRes :=
  if i = 0 then ⟨0, 0⟩ else roundFin dst mode sat (decide (i < 0)) i.natAbs 0

/-- Integer to integer (R59, R96): widened by the signedness of the source, or cut to the low bits, or clamped under SAT. SAT
clamps a change of signedness at the same width too: DESIGN CHOICE (log entry 95). -/
def intToInt (src dst : Ty) (sat : Bool) (a : Nat) : FRes :=
  ⟨wrapInt dst.bits (if sat && decide (dst.bits ≤ src.bits) then clamp (intRange dst) (intOf src a) else intOf src a), 0⟩

/-- A conversion between two of the types i8 to e5m2. -/
def convert (src dst : Ty) (mode : Nat) (sat : Bool) (a : Nat) : FRes :=
  if src.isInt then
    if dst.isInt then intToInt src dst sat a else intToFloat (intOf src a) (fmtOf dst) mode sat
  else if dst.isInt then floatToInt (fmtOf src) dst mode sat a
  else convertFloat (fmtOf src) (fmtOf dst) mode sat a

/-! ### Narrow weights (R60 to R62) -/

/-- The range of a narrow weight (R60). -/
def weightRange (t : Ty) : Int × Int := if t = .q3 then (-4, 3) else (-8, 7)

/-- The value q · 2^(E − 127) of a narrow weight; a scale of 0xFF makes it a NaN (R60). -/
def weightVal (q : Int) (scale : Nat) : FVal :=
  if scale = 0xFF then .nan false true 0 else .fin (decide (q < 0)) q.natAbs ((scale : Int) - 127)

/-- The exact value x / 2^(E − 127) rounded to an integer by a mode (R62). -/
def scaledInt (mode : Nat) (v : FVal) (e : Nat) : Int × Bool :=
  match v with
  | .fin s m d => roundInt mode s m (d - (e : Int) + 127)
  | _ => (0, false)

/-- The smallest scale from `e` on that fits every value of the block (R62). -/
def findScale (t : Ty) (mode : Nat) (xs : List FVal) : Nat → Nat → Nat
  | 0, e => e
  | n + 1, e =>
    if xs.all fun v => decide ((weightRange t).1 ≤ (scaledInt mode v e).1 ∧ (scaledInt mode v e).1 ≤ (weightRange t).2)
    then e else findScale t mode xs n (e + 1)

/-- A quantised block: its elements, its scale byte and the flags raised. -/
structure Block where
  q : List Int
  scale : Nat
  flags : Nat
  deriving DecidableEq, Repr

/-- Quantisation of a block of 32 values (R62). -/
def quantise (t : Ty) (mode : Nat) (f : Fmt) (xs : List Nat) : Block :=
  let vs := xs.map (unpack f)
  if vs.any fun v => match v with | .fin _ _ _ => false | _ => true then ⟨vs.map fun _ => 0, 0xFF, flagNV⟩
  else
    let e := findScale t mode vs 254 0
    let qs := vs.map fun v => clamp (weightRange t) (scaledInt 0 v e).1
    let exact := (vs.zip qs).all fun (v, q) => decide (scaledInt 0 v e = (q, false))
    ⟨qs, e, if exact then 0 else flagNX⟩

/-- The packed bytes of one group of 32 elements (R61). -/
def packGroup (t : Ty) (q : List Int) : List Byte :=
  let at_ := fun i => q.getD i 0
  if t = .q4 then (List.range 16).map fun j => BitVec.ofNat 8 (wrapInt 4 (at_ j) + 16 * wrapInt 4 (at_ (j + 16)))
  else (List.range 3).flatMap fun b =>
    bytesOfNat 4 ((List.range 32).foldl (fun acc j => acc + (wrapInt 3 (at_ j) / 2 ^ b % 2) * 2 ^ j) 0)

/-- Element `j` of the packed group that begins at a list of bytes (R61). -/
def unpackWeight (t : Ty) (bs : List Byte) (j : Nat) : Int :=
  if t = .q4 then signedOf 4 ((bs.getD (j % 16) 0).toNat / (if j < 16 then 1 else 16) % 16)
  else
    let bit := fun b => (bs.getD (4 * b + j / 8) 0).toNat / 2 ^ (j % 8) % 2
    signedOf 3 (bit 0 + 2 * bit 1 + 4 * bit 2)

/-- The bytes a group of elements takes (R61). -/
def groupBytes (t : Ty) : Nat := if t = .q4 then 16 else 12

/-- A packed q object of blocks (R61): elements, then scales, padded to a multiple of 16 bytes. -/
def packObject (t : Ty) (bs : List Block) : List Byte :=
  let body := bs.flatMap (fun b => packGroup t b.q) ++ bs.map fun b => BitVec.ofNat 8 b.scale
  body ++ List.replicate ((16 - body.length % 16) % 16) 0

/-! ### Fixed orders of sums (R63 to R65) -/

/-- A list of results with the flags of them all. -/
structure FList where
  vals : List Nat
  flags : Nat
  deriving DecidableEq, Repr

/-- One level of the pairwise tree (R63). -/
def treeLevel (op : Nat → Nat → FRes) : List Nat → FList
  | a :: b :: t =>
    let r := op a b
    let rest := treeLevel op t
    ⟨r.bits :: rest.vals, r.flags ||| rest.flags⟩
  | l => ⟨l, 0⟩

/-- The pairwise tree over at most 2^n values (R63). -/
def treeReduce (op : Nat → Nat → FRes) : Nat → FList → FRes
  | 0, l => ⟨l.vals.headD 0, l.flags⟩
  | n + 1, l =>
    let r := treeLevel op l.vals
    treeReduce op n ⟨r.vals, l.flags ||| r.flags⟩

/-- The exact sum of products of values, rounded once to f32 (R64, R65): the first NaN operand in element order with
a before b, an invalid product or ∞ − ∞ gives the default NaN (log entry 14). -/
def exactDot (src : Fmt × Fmt) (mode : Nat) (xs : List (Nat × Nat)) : FRes :=
  let dst := fmtF32
  let nan := xs.findSome? fun (a, b) =>
    match unpack src.1 a, unpack src.2 b with
    | .nan s _ t, _ => some (convertNan src.1 dst s t)
    | _, .nan s _ t => some (convertNan src.2 dst s t)
    | _, _ => none
  let signal := xs.any fun (a, b) => (unpack src.1 a).isSignal || (unpack src.2 b).isSignal
  let prods := xs.map fun (a, b) => mulVals (unpack src.1 a) (unpack src.2 b)
  let pos := prods.contains (some (.inf false))
  let neg := prods.contains (some (.inf true))
  match nan with
  | some n => ⟨n, if signal then flagNV else 0⟩
  | none =>
    if prods.contains none || (pos && neg) then invalid dst
    else if pos then ⟨infBits dst, 0⟩
    else if neg then ⟨signBit dst true + infBits dst, 0⟩
    else
      let fins := prods.map fun p => p.getD (.fin false 0 0)
      let allNeg := fins.all fun v => match v with | .fin s _ _ => s | _ => false
      let anyNeg := fins.any fun v => match v with | .fin s _ _ => s | _ => false
      roundExact dst mode (allNeg || (anyNeg && decide (mode = 3))) (fins.foldl (fun a v => a.add (exactOf v)) ⟨0, 0⟩)

end Sys2Proof.Machine
end

