-- ==== Sys2Proof/WellFormed.lean ====
section
/-! DEFINITION. What makes an instruction well formed: the type columns of Tables 3.16 to 3.23 and the operand ranges
of R35, R37 and R46 (checks 3 and 4). -/

namespace Sys2Proof

/-- Column "I" of the minor tables: codes 0 to 7 (R36). -/
def Ty.colI (t : Ty) : Bool := decide (t.code < 8)

/-- Column "W": codes 2, 3, 6 and 7 (R36). -/
def Ty.colW : Ty → Bool
  | .i32 | .i64 | .n32 | .n64 => true
  | _ => false

/-- Column "F": codes 8 to 11 (R36). -/
def Ty.colF (t : Ty) : Bool := decide (8 ≤ t.code) && decide (t.code < 12)

/-- Column "E": codes 0 to 11 (R36). -/
def Ty.colE (t : Ty) : Bool := decide (t.code < 12)

/-- Codes 0 to 13: VLDS, VSTS (Table 3.18) and the conversions (Table 3.23). -/
def Ty.colC (t : Ty) : Bool := decide (t.code < 14)

/-- Every code: VLD and VST (Table 3.18) and the fmt of HCVT (Table 3.24). -/
def Ty.colAll (_ : Ty) : Bool := true

/-- VLDX and VSTX: 1, 2, 3, 5 to 11 (Table 3.18). -/
def Ty.colX (t : Ty) : Bool := t.colE && decide (t ≠ .i8) && decide (t ≠ .n8)

/-- Full/empty forms: 2, 6, 9 (Table 3.18). -/
def Ty.colFE : Ty → Bool
  | .i32 | .n32 | .f32 => true
  | _ => false

/-- AADD and the accumulations: W, 8 and 9 (Table 3.20). -/
def Ty.colWF (t : Ty) : Bool := t.colW || decide (t = .f64) || decide (t = .f32)

/-- VABS and VNEG: 0 to 3 and F (Table 3.22). -/
def Ty.colS (t : Ty) : Bool := decide (t.code < 4) || t.colF

/-- VDOT: 0, 2, 3, 8, 9, 11 (Table 3.23). -/
def Ty.colD : Ty → Bool
  | .i8 | .i32 | .i64 | .f64 | .f32 | .b16 => true
  | _ => false

/-- The narrow weights, 14 and 15: the destination of VQNT and the source of VXPQ (Table 3.23). -/
def Ty.colQ : Ty → Bool
  | .q4 | .q3 => true
  | _ => false

/-- f32 and b16: the source of VQNT and the destination of VXPQ (Table 3.23). -/
def Ty.colXQ : Ty → Bool
  | .f32 | .b16 => true
  | _ => false

/-- A p operand names p0 to p7 (R35). -/
def isPred (r : Reg) : Bool := decide (r.val < 8)

/-- An s operand names s0 to s3 (R35). -/
def isStream (r : Reg) : Bool := decide (r.val < 4)

/-- An even operand: n is even and lies between 2 and 30 (R35). -/
def isPair (r : Reg) : Bool := decide (r.val % 2 = 0) && decide (2 ≤ r.val)

/-- The first register of a group of VQNT or VXPQ (R97, R98): a multiple of 4 for f32, even for b16. -/
def isGroup (t : Ty) (r : Reg) : Bool :=
  if t = .f32 then decide (r.val % 4 = 0) else decide (r.val % 2 = 0)

/-- The checks of R46 (3 and 4) on an instruction's operands. -/
def Instr.wf : Instr → Bool
  | .add ty _ _ _ => ty.colI
  | .sub ty _ _ _ => ty.colI
  | .mul ty _ _ _ => ty.colI
  | .mulh ty _ _ _ => ty.colI
  | .div ty _ _ _ => ty.colI
  | .rem ty _ _ _ => ty.colI
  | .and ty _ _ _ => ty.colI
  | .or ty _ _ _ => ty.colI
  | .xor ty _ _ _ => ty.colI
  | .andn ty _ _ _ => ty.colI
  | .sll ty _ _ _ => ty.colI
  | .srl ty _ _ _ => ty.colI
  | .sra ty _ _ _ => ty.colI
  | .rot ty _ _ _ => ty.colI
  | .min ty _ _ _ => ty.colI
  | .max ty _ _ _ => ty.colI
  | .slt ty _ _ _ => ty.colI
  | .seq ty _ _ _ => ty.colI
  | .clz ty _ _ => ty.colI
  | .ctz ty _ _ => ty.colI
  | .popc ty _ _ => ty.colI
  | .ext ty _ _ => ty.colI
  | .bfx ty _ _ _ => ty.colI
  | .bfi ty _ _ _ => ty.colI
  | .cmov ty _ _ _ => ty.colI
  | .addi _ _ _ => true
  | .andi _ _ _ => true
  | .ori _ _ _ => true
  | .xori _ _ _ => true
  | .slli _ _ _ => true
  | .srli _ _ _ => true
  | .srai _ _ _ => true
  | .roti _ _ _ => true
  | .slti _ _ _ => true
  | .sltni _ _ _ => true
  | .lui _ _ => true
  | .lea _ _ _ _ => true
  | .part _ _ _ => true
  | .coord _ _ => true
  | .beq _ _ _ => true
  | .bne _ _ _ => true
  | .blt _ _ _ => true
  | .bge _ _ _ => true
  | .bltn _ _ _ => true
  | .bgen _ _ _ => true
  | .j _ => true
  | .jal _ => true
  | .jr _ => true
  | .jalr _ => true
  | .loop _ len => decide (len ≠ 0)
  | .bsx _ _ => true
  | .ld ty _ _ _ => ty.colI
  | .st ty _ _ _ => ty.colI
  | .vld _ _ _ _ => true
  | .vst _ _ _ _ => true
  | .ldx ty _ _ _ => ty.colI
  | .stx ty _ _ _ => ty.colI
  | .vldx ty _ _ _ => ty.colX
  | .vstx ty _ _ _ => ty.colX
  | .vlds ty _ _ _ => ty.colC
  | .vsts ty _ _ _ => ty.colC
  | .pf _ _ => true
  | .ldf ty _ _ _ => ty.colFE
  | .ldfk ty _ _ _ => ty.colFE
  | .ste ty _ _ _ => ty.colFE
  | .stf ty _ _ _ => ty.colFE
  | .fempty _ _ => true
  | .fstat _ _ _ => true
  | .qld _ _ _ => true
  | .qldv _ _ _ => true
  | .qst _ _ _ => true
  | .qstv _ _ _ => true
  | .qpub _ n => decide (n ≠ 0)
  | .qrel _ n => decide (n ≠ 0)
  | .qstat _ _ => true
  | .qbind _ _ => true
  | .map _ _ _ => true
  | .unmap _ _ => true
  | .syncw _ _ => true
  | .invw _ _ => true
  | .mapq _ _ => true
  | .cpy _ _ _ => true
  | .mcast _ _ _ => true
  | .cpyw _ _ _ => true
  | .copyTransferComplete _ => true
  | .aadd ty _ _ _ => ty.colWF
  | .aand ty _ _ _ => ty.colW
  | .aor ty _ _ _ => ty.colW
  | .axor ty _ _ _ => ty.colW
  | .amin ty _ _ _ => ty.colW
  | .amax ty _ _ _ => ty.colW
  | .aswp ty _ _ _ => ty.colW
  | .cas ty _ _ _ => ty.colW
  | .acca ty _ _ => ty.colWF
  | .accn ty _ _ => ty.colWF
  | .accx ty _ _ => ty.colWF
  | .atomicLatchFault _ _ _ _ => true
  | .atomicResponse _ _ _ => true
  | .fence _ _ => true
  | .fencep _ _ _ => true
  | .lda ty _ _ _ => ty.colW
  | .stl ty _ _ _ => ty.colW
  | .wsig ty _ _ _ => ty.colW
  | .wsigDelivery _ => true
  | .fabricStoreArrival _ _ _ => true
  | .remoteWriteApply _ => true
  | .binit tier n _ => decide (n.toNat < tier.barriers)
  | .barr tier n _ => decide (n.toNat < tier.barriers)
  | .bwait tier n => decide (n.toNat < tier.barriers)
  | .barrw _ tier n _ => decide (n.toNat < tier.barriers)
  | .bread _ tier n => decide (n.toNat < tier.barriers)
  | .vadd ty _ _ _ => ty.colE
  | .vsub ty _ _ _ => ty.colE
  | .vmul ty _ _ _ => ty.colE
  | .vmulh ty _ _ _ => ty.colI
  | .vmin ty _ _ _ => ty.colE
  | .vmax ty _ _ _ => ty.colE
  | .vabs ty _ _ => ty.colS
  | .vneg ty _ _ => ty.colS
  | .vand ty _ _ _ => ty.colI
  | .vor ty _ _ _ => ty.colI
  | .vxor ty _ _ _ => ty.colI
  | .vshl ty _ _ _ => ty.colI
  | .vshr ty _ _ _ => ty.colI
  | .vcmpeq ty pd _ _ => ty.colE && isPred pd
  | .vcmpne ty pd _ _ => ty.colE && isPred pd
  | .vcmplt ty pd _ _ => ty.colE && isPred pd
  | .vcmple ty pd _ _ => ty.colE && isPred pd
  | .vcmpun ty pd _ _ => ty.colF && isPred pd
  | .vsel ty _ _ pb => ty.colE && isPred pb
  | .vdiv ty _ _ _ => ty.colF
  | .vsqrt ty _ _ => ty.colF
  | .vfma ty _ _ _ _ => ty.colF
  | .vfms ty _ _ _ _ => ty.colF
  | .vfnma ty _ _ _ _ => ty.colF
  | .vfnms ty _ _ _ _ => ty.colF
  | .vcvt ty _ _ src => ty.colC && src.colC && decide (ty ≠ src)
  | .vqnt ty _ a src => ty.colQ && src.colXQ && isGroup src a
  | .vxpq ty d _ src => ty.colXQ && src.colQ && isGroup ty d
  | .vcvtx ty _ _ src => ty.colC && src.colC && decide (ty ≠ src)
  | .vcps ty _ pa _ => ty.colE && isPred pa
  | .vxpd ty _ pa _ => ty.colE && isPred pa
  | .vperm ty _ _ _ => ty.colE
  | .vsplat ty _ _ => ty.colE
  | .vins ty _ _ _ => ty.colE
  | .vext ty _ _ _ => ty.colE
  | .vmov _ _ => true
  | .vreda ty _ _ => ty.colE
  | .vredn ty _ _ => ty.colE
  | .vredx ty _ _ => ty.colE
  | .vdot ty _ _ _ => ty.colD
  | .pand pd pa pb => isPred pd && isPred pa && isPred pb
  | .por pd pa pb => isPred pd && isPred pa && isPred pb
  | .pxor pd pa pb => isPred pd && isPred pa && isPred pb
  | .pnot pd pa => isPred pd && isPred pa
  | .pcnt ty _ pa => ty.colE && isPred pa
  | .pfst ty _ pa => ty.colE && isPred pa
  | .pset pd _ => isPred pd
  | .pget _ pa => isPred pa
  | .scfg sd _ => isStream sd
  | .sbind _ sa => isStream sa
  | .send sd => isStream sd
  | .sstat _ sa => isStream sa
  | .sskip sd _ => isStream sd
  | .streamFetch _ _ _ => true
  | .tset _ _ => true
  | .tget _ _ => true
  | .tclr _ => true
  | .tinfo _ _ => true
  | .hmm _ _ _ _ _ => true
  | .hadd _ _ _ _ _ => true
  | .hmv _ _ _ _ _ => true
  | .hcvt _ _ _ _ _ => true
  | .windowStallRelease _ => true
  | .hsnap d _ _ => isPair d
  | .hqry _ _ => true
  | .hres _ => true
  | .hdrop _ => true
  | .hwin _ => true
  | .commandStart _ => true
  | .commandRetire _ => true
  | .commandStop _ _ => true
  | .granuleStop _ _ => true
  | .postedProduct _ => true
  | .postedProductReturn _ => true
  | .lpatch _ _ _ => true
  | .larm _ _ => true
  | .lqry _ _ => true
  | .qenq _ _ => true
  | .tend => true
  | .tyld => true
  | .garm _ _ => true
  | .gdone _ => true
  | .landingRetry _ => true
  | .migr _ => true
  | .done _ => true
  | .slook d _ _ => isPair d
  | .shash d _ _ => isPair d
  | .sref a => isPair a
  | .sunref a => isPair a
  | .sres _ a => isPair a
  | .scas _ a b => isPair a && isPair b
  | .scopy _ a => isPair a
  | .sealSstat _ a => isPair a
  | .deferredRelease => true
  | .trap _ => true
  | .eret => true
  | .mfs _ _ => true
  | .mts _ _ => true
  | .wait _ => true
  | .waitTimeout _ _ => true
  | .chain _ => true
  | .unchain => true
  | .arearm _ => true
  | .lkick _ _ => true
  | .brk _ => true
  | .supervisorDelivery _ => true
  | .tlbw _ _ _ => true
  | .tlbinv _ _ => true
  | .tlbq _ _ => true
  | .fbpop _ => true
  | .replay => true
  | .msgrx _ => true
  | .translationMiss _ _ => true
  | .missRetry _ => true
  | .mapack _ => true
  | .maprd _ _ _ => true
  | .repw _ _ => true
  | .arrt _ _ _ => true
  | .shut => true
  | .snaprd _ _ => true
  | .pairon => true
  | .pairoff => true
  | .fpchk _ => true
  | .ssbar => true
  | .ssqry _ => true
  | .hintWide _ => true
  | .hintRm int mode => decide (mode.toNat ≤ 4) && (!int || decide (mode = 4))
  | .hintDep _ _ _ _ _ => true
  | .hintSchedYield _ => true
  | .hintSchedHold => true
  | .hintSat => true
  | .hintCache policy => decide (policy.toNat ≤ 4)
  | .promotion _ _ => true
  | .promotionEnd _ _ => true
  | .prefetcherFill _ => true
  | .scoreboardRetire _ _ => true
  | .hostMemAccess _ _ _ _ => true
  | .partitionMove _ _ => true
  | .launchStart _ _ _ => true
  | .lobbyRebalance _ => true
  | .migrationWindow _ _ => true
  | .taskMigration _ _ _ => true
  | .faultSaveDeferred _ _ => true
  | .chimneyMessage _ _ _ _ => true
  | .launchQuiescent _ _ => true
  | .laundryKickAccept _ => true
  | .copy _ _ => true
  | .convert _ _ => true
  | .quant _ _ => true
  | .pad _ _ => true
  | .slice _ _ => true
  | .fill _ _ => true
  | .compress _ _ => true
  | .expand _ _ => true
  | .frameExchange _ _ => true
  | .pairCompare _ => true
  | .superstepCommit _ _ => true
  | .superstepRollback _ _ => true
  | .contextCreate _ => true
  | .contextDestroy _ => true
  | .regionDeclare _ => true
  | .regionDestroy _ => true
  | .submissionDoorbell _ _ => true
  | .submissionReset _ => true
  | .submitArm _ => true
  | .submitSave _ => true
  | .submitRestore _ => true
  | .submitMapack _ => true
  | .eventRingEnable _ => true
  | .hostMessageMappingDone _ _ => true
  | .hostMessageInvalidate _ _ => true
  | .keyRetire _ => true
  | .keyFlushComplete => true
  | .hostRegisterWrite _ _ => true
  | .unitWithdrawal _ => true
  | .mapPublication => true
  | .mapDeadline _ => true
  | .thermostatPeriod _ => true
  | .flitRetransmission _ => true
  | .bootReset _ => true
  | .illegalInstruction _ => true
  | .fabricAccessArrival _ _ => true
  | .estateBarrierArrival _ => true
  | .unitReturn _ => true

end Sys2Proof
end

