-- ==== Sys2Proof/Decode.lean ====
section
/-! DEFINITION. The decoder of 32-bit words (R32 to R48), total on every pattern, and after it the encoder, both from
Tables 3.1 to 3.26. -/

namespace Sys2Proof

/-- Which of the checks of R46 a word fails: its major (1), its minor, variant or fn (2), its type (3), or a
must-be-zero or operand field (4). -/
inductive Reject where
  | major | minor | type | field
  deriving DecidableEq, Repr

/-- Bits [31:26]: the major opcode (R32). -/
def fMajor (w : Word) : Nat := w.toNat / 2 ^ 26

/-- Bits [25:21] as a register number. -/
def fD (w : Word) : Reg := Fin.ofNat 32 (w.toNat / 2 ^ 21)

/-- Bits [20:16] as a register number. -/
def fA (w : Word) : Reg := Fin.ofNat 32 (w.toNat / 2 ^ 16)

/-- Bits [15:11] as a register number. -/
def fB (w : Word) : Reg := Fin.ofNat 32 (w.toNat / 2 ^ 11)

/-- Bits [15:11] as bits. -/
def fBbits (w : Word) : BitVec 5 := BitVec.ofNat 5 (w.toNat / 2 ^ 11)

/-- Bits [10:6], the c field of format Q. -/
def fC (w : Word) : Reg := Fin.ofNat 32 (w.toNat / 2 ^ 6)

/-- Bits [10:4], the minor of format A. -/
def fMinor (w : Word) : Nat := w.toNat / 2 ^ 4 % 128

/-- Bits [5:4], the variant of format Q. -/
def fVariant (w : Word) : Nat := w.toNat / 2 ^ 4 % 4

/-- Bits [3:0], the ty of formats A and Q. -/
def fTy (w : Word) : Nat := w.toNat % 16

/-- Bits [3:0] as bits. -/
def fTyBits (w : Word) : BitVec 4 := BitVec.ofNat 4 w.toNat

/-- Bits [15:12], the ty of format M. -/
def fMemTy (w : Word) : Nat := w.toNat / 2 ^ 12 % 16

/-- Bits [15:0]. -/
def fImm16 (w : Word) : BitVec 16 := BitVec.ofNat 16 w.toNat

/-- Bits [5:0], the amount of an SHI form (Table 3.16). -/
def fShift (w : Word) : BitVec 6 := BitVec.ofNat 6 w.toNat

/-- Bits [20:0], the immediate of format L. -/
def fImm21 (w : Word) : BitVec 21 := BitVec.ofNat 21 w.toNat

/-- Bits [25:0], the offset of format J. -/
def fOff26 (w : Word) : BitVec 26 := BitVec.ofNat 26 w.toNat

/-- Bits [11:0], the offset of format M. -/
def fOff12 (w : Word) : BitVec 12 := BitVec.ofNat 12 w.toNat

/-- Bits [25:24], the stream of BSX (R85). -/
def fBsxStream (w : Word) : Fin 4 := Fin.ofNat 4 (w.toNat / 2 ^ 24)

/-- Bits [24:21] of a BSX word as part of its must-be-zero range: bits [23:16] are zero (R85). -/
def bsxZero (w : Word) : Bool := decide (w.toNat / 2 ^ 16 % 256 = 0)

/-- Bits [20:18], the handle of format K. -/
def fH (w : Word) : Fin 8 := Fin.ofNat 8 (w.toNat / 2 ^ 18)

/-- Bits [17:15], the fn of format K. -/
def fFn (w : Word) : Nat := w.toNat / 2 ^ 15 % 8

/-- Bits [14:0], the k of format K. -/
def fK (w : Word) : BitVec 15 := BitVec.ofNat 15 w.toNat

/-- Bits [20:15], the c slot of format H. -/
def fTc (w : Word) : Fin 64 := Fin.ofNat 64 (w.toNat / 2 ^ 15)

/-- Bits [14:9], the a slot of format H. -/
def fTa (w : Word) : Fin 64 := Fin.ofNat 64 (w.toNat / 2 ^ 9)

/-- Bits [8:3], the b slot of format H. -/
def fTb (w : Word) : Fin 64 := Fin.ofNat 64 (w.toNat / 2 ^ 3)

/-- Bits [2:0], the flags of format H. -/
def fFl (w : Word) : BitVec 3 := BitVec.ofNat 3 w.toNat

/-- Bits [25:22], the kind of format Y. -/
def fKind (w : Word) : Nat := w.toNat / 2 ^ 22 % 16

/-- Bits [21:0], the payload of format Y. -/
def fPayload (w : Word) : BitVec 22 := BitVec.ofNat 22 w.toNat

/-- The code of TRAP and BRK: concat(d, a, b) (Table 3.26). -/
def fCode (w : Word) : BitVec 15 := BitVec.ofNat 15 (w.toNat / 2 ^ 11)

/-- The number of MFS and MTS: concat(ty[1:0], a, b) (Table 3.26). -/
def fSysReg (w : Word) : BitVec 12 := BitVec.ofNat 12 (w.toNat % 4 * 1024 + w.toNat / 2 ^ 11 % 1024)

/-- A must-be-zero or range check of R46 (4). -/
def need (b : Bool) : Except Reject Unit := if b then .ok () else .error .field

/-- The type a code names, inside a column (R46, check 3). -/
def typeIn (col : Ty → Bool) (code : Nat) : Except Reject Ty :=
  match Ty.ofCode code with
  | some t => if col t then .ok t else .error .type
  | none => .error .type

/-- A tier, level or scope code (R46, check 4). -/
def tierOf (code : Nat) : Except Reject Tier :=
  match Tier.ofCode code with
  | some t => .ok t
  | none => .error .field

/-- A path code (R46, check 4). -/
def pathOf (code : Nat) : Except Reject Path :=
  match Path.ofCode code with
  | some p => .ok p
  | none => .error .field

/-- A fence kind (R46, check 4). -/
def fenceKindOf (code : Nat) : Except Reject FenceKind :=
  match FenceKind.ofCode code with
  | some k => .ok k
  | none => .error .field

/-- A p operand (R35). -/
def predicate (r : Reg) : Except Reject Reg := if isPred r then .ok r else .error .field

/-- An s operand (R35). -/
def stream (r : Reg) : Except Reject Reg := if isStream r then .ok r else .error .field

/-- An even operand (R35). -/
def pair (r : Reg) : Except Reject Reg := if isPair r then .ok r else .error .field

/-- A tensor slot number: t[4:0] in a register field and t[5] in ty[0], ty[3:1] zero (Table 3.24). -/
def slotNumber (ty : Nat) (r : Reg) : Except Reject (Fin 64) :=
  if ty < 2 then .ok (Fin.ofNat 64 (ty * 32 + r.val)) else .error .field

/-- The forms of major 0x00 (Int), R45. -/
def decodeInt (w : BitVec 32) : Except Reject Instr :=
  match fMinor w with
  | 1 => do
      let ty ← typeIn Ty.colI (fTy w)
      return .add ty (fD w) (fA w) (fB w)
  | 2 => do
      let ty ← typeIn Ty.colI (fTy w)
      return .sub ty (fD w) (fA w) (fB w)
  | 3 => do
      let ty ← typeIn Ty.colI (fTy w)
      return .mul ty (fD w) (fA w) (fB w)
  | 4 => do
      let ty ← typeIn Ty.colI (fTy w)
      return .mulh ty (fD w) (fA w) (fB w)
  | 5 => do
      let ty ← typeIn Ty.colI (fTy w)
      return .div ty (fD w) (fA w) (fB w)
  | 6 => do
      let ty ← typeIn Ty.colI (fTy w)
      return .rem ty (fD w) (fA w) (fB w)
  | 7 => do
      let ty ← typeIn Ty.colI (fTy w)
      return .and ty (fD w) (fA w) (fB w)
  | 8 => do
      let ty ← typeIn Ty.colI (fTy w)
      return .or ty (fD w) (fA w) (fB w)
  | 9 => do
      let ty ← typeIn Ty.colI (fTy w)
      return .xor ty (fD w) (fA w) (fB w)
  | 10 => do
      let ty ← typeIn Ty.colI (fTy w)
      return .andn ty (fD w) (fA w) (fB w)
  | 11 => do
      let ty ← typeIn Ty.colI (fTy w)
      return .sll ty (fD w) (fA w) (fB w)
  | 12 => do
      let ty ← typeIn Ty.colI (fTy w)
      return .srl ty (fD w) (fA w) (fB w)
  | 13 => do
      let ty ← typeIn Ty.colI (fTy w)
      return .sra ty (fD w) (fA w) (fB w)
  | 14 => do
      let ty ← typeIn Ty.colI (fTy w)
      return .rot ty (fD w) (fA w) (fB w)
  | 15 => do
      let ty ← typeIn Ty.colI (fTy w)
      return .min ty (fD w) (fA w) (fB w)
  | 16 => do
      let ty ← typeIn Ty.colI (fTy w)
      return .max ty (fD w) (fA w) (fB w)
  | 17 => do
      let ty ← typeIn Ty.colI (fTy w)
      return .slt ty (fD w) (fA w) (fB w)
  | 18 => do
      let ty ← typeIn Ty.colI (fTy w)
      return .seq ty (fD w) (fA w) (fB w)
  | 19 => do
      let ty ← typeIn Ty.colI (fTy w)
      need (decide (fB w = 0))
      return .clz ty (fD w) (fA w)
  | 20 => do
      let ty ← typeIn Ty.colI (fTy w)
      need (decide (fB w = 0))
      return .ctz ty (fD w) (fA w)
  | 21 => do
      let ty ← typeIn Ty.colI (fTy w)
      need (decide (fB w = 0))
      return .popc ty (fD w) (fA w)
  | 22 => do
      let ty ← typeIn Ty.colI (fTy w)
      need (decide (fB w = 0))
      return .ext ty (fD w) (fA w)
  | 23 => do
      let ty ← typeIn Ty.colI (fTy w)
      return .bfx ty (fD w) (fA w) (fB w)
  | 24 => do
      let ty ← typeIn Ty.colI (fTy w)
      return .bfi ty (fD w) (fA w) (fB w)
  | 25 => do
      let ty ← typeIn Ty.colI (fTy w)
      return .cmov ty (fD w) (fA w) (fB w)
  | _ => .error .minor

/-- The forms of major 0x05 (Shift), R45. -/
def decodeShift (w : BitVec 32) : Except Reject Instr :=
  match (fImm16 w).toNat / 16384 with
  | 0 => do
      need (decide ((fImm16 w).toNat / 64 % 256 = 0))
      return .slli (fD w) (fA w) (fShift w)
  | 1 => do
      need (decide ((fImm16 w).toNat / 64 % 256 = 0))
      return .srli (fD w) (fA w) (fShift w)
  | 2 => do
      need (decide ((fImm16 w).toNat / 64 % 256 = 0))
      return .srai (fD w) (fA w) (fShift w)
  | 3 => do
      need (decide ((fImm16 w).toNat / 64 % 256 = 0))
      return .roti (fD w) (fA w) (fShift w)
  | _ => .error .minor

/-- The forms of major 0x09 (Addr), R45. -/
def decodeAddr (w : BitVec 32) : Except Reject Instr :=
  match fMinor w with
  | 1 => .ok (.lea (fD w) (fA w) (fB w) (fTyBits w))
  | 2 => do
      let level ← tierOf (fTy w)
      need (decide (fB w = 0))
      return .part (fD w) (fA w) level
  | 3 => do
      let level ← tierOf (fTy w)
      need (decide (fA w = 0))
      need (decide (fB w = 0))
      return .coord (fD w) level
  | _ => .error .minor

/-- The forms of major 0x12 (Jr), R45. -/
def decodeJr (w : BitVec 32) : Except Reject Instr :=
  match fMinor w with
  | 1 => do
      need (decide (fD w = 0))
      need (decide (fB w = 0))
      need (decide (fTy w = 0))
      return .jr (fA w)
  | 2 => do
      need (decide (fD w = 0))
      need (decide (fB w = 0))
      need (decide (fTy w = 0))
      return .jalr (fA w)
  | _ => .error .minor

/-- The forms of major 0x1a (Memx), R45. -/
def decodeMemx (w : BitVec 32) : Except Reject Instr :=
  match fMinor w with
  | 1 => do
      let ty ← typeIn Ty.colI (fTy w)
      return .ldx ty (fD w) (fA w) (fB w)
  | 2 => do
      let ty ← typeIn Ty.colI (fTy w)
      return .stx ty (fD w) (fA w) (fB w)
  | 3 => do
      let ty ← typeIn Ty.colX (fTy w)
      return .vldx ty (fD w) (fA w) (fB w)
  | 4 => do
      let ty ← typeIn Ty.colX (fTy w)
      return .vstx ty (fD w) (fA w) (fB w)
  | 5 => do
      let ty ← typeIn Ty.colC (fTy w)
      return .vlds ty (fD w) (fA w) (fB w)
  | 6 => do
      let ty ← typeIn Ty.colC (fTy w)
      return .vsts ty (fD w) (fA w) (fB w)
  | 7 => do
      need (decide (fD w = 0))
      need (decide (fTy w = 0))
      return .pf (fA w) (fB w)
  | _ => .error .minor

/-- The forms of major 0x1b (Fe), R45. -/
def decodeFe (w : BitVec 32) : Except Reject Instr :=
  match fMinor w with
  | 1 => do
      let ty ← typeIn Ty.colFE (fTy w)
      return .ldf ty (fD w) (fA w) (fBbits w)
  | 2 => do
      let ty ← typeIn Ty.colFE (fTy w)
      return .ldfk ty (fD w) (fA w) (fBbits w)
  | 3 => do
      let ty ← typeIn Ty.colFE (fTy w)
      return .ste ty (fD w) (fA w) (fBbits w)
  | 4 => do
      let ty ← typeIn Ty.colFE (fTy w)
      return .stf ty (fD w) (fA w) (fBbits w)
  | 5 => do
      need (decide (fD w = 0))
      need (decide (fTy w = 0))
      return .fempty (fA w) (fBbits w)
  | 6 => do
      need (decide (fTy w = 0))
      return .fstat (fD w) (fA w) (fBbits w)
  | _ => .error .minor

/-- The forms of major 0x1c (Ring), R45. -/
def decodeRing (w : BitVec 32) : Except Reject Instr :=
  match fFn w with
  | 0 => .ok (.qld (fD w) (fH w) (fK w))
  | 1 => .ok (.qldv (fD w) (fH w) (fK w))
  | 2 => .ok (.qst (fD w) (fH w) (fK w))
  | 3 => .ok (.qstv (fD w) (fH w) (fK w))
  | 4 => do
      need (decide (fK w ≠ 0))
      need (decide (fD w = 0))
      return .qpub (fH w) (fK w)
  | 5 => do
      need (decide (fK w ≠ 0))
      need (decide (fD w = 0))
      return .qrel (fH w) (fK w)
  | 6 => do
      need (decide (fK w = 0))
      return .qstat (fD w) (fH w)
  | 7 => do
      need (decide (fK w = 0))
      return .qbind (fH w) (fD w)
  | _ => .error .minor

/-- The forms of major 0x1d (Mapf), R45. -/
def decodeMapf (w : BitVec 32) : Except Reject Instr :=
  match fMinor w with
  | 1 => do
      need (decide (fTy w = 0))
      return .map (fD w) (fA w) (fB w)
  | 2 => do
      need (decide (fB w = 0))
      need (decide (fTy w = 0))
      return .unmap (fD w) (fA w)
  | 3 => do
      need (decide (fB w = 0))
      need (decide (fTy w = 0))
      return .syncw (fD w) (fA w)
  | 4 => do
      need (decide (fB w = 0))
      need (decide (fTy w = 0))
      return .invw (fD w) (fA w)
  | 5 => do
      need (decide (fB w = 0))
      need (decide (fTy w = 0))
      return .mapq (fD w) (fA w)
  | _ => .error .minor

/-- The forms of major 0x1e (Copyf), R45. -/
def decodeCopyf (w : BitVec 32) : Except Reject Instr :=
  match fMinor w with
  | 1 => do
      need (decide (fTy w = 0))
      return .cpy (fD w) (fA w) (fB w)
  | 2 => do
      need (decide (fTy w = 0))
      return .mcast (fD w) (fA w) (fB w)
  | 3 => do
      need (decide (fTy w = 0))
      return .cpyw (fD w) (fA w) (fB w)
  | _ => .error .minor

/-- The forms of major 0x1f (Atom), R45. -/
def decodeAtom (w : BitVec 32) : Except Reject Instr :=
  match fMinor w with
  | 1 => do
      let ty ← typeIn Ty.colWF (fTy w)
      return .aadd ty (fD w) (fA w) (fB w)
  | 2 => do
      let ty ← typeIn Ty.colW (fTy w)
      return .aand ty (fD w) (fA w) (fB w)
  | 3 => do
      let ty ← typeIn Ty.colW (fTy w)
      return .aor ty (fD w) (fA w) (fB w)
  | 4 => do
      let ty ← typeIn Ty.colW (fTy w)
      return .axor ty (fD w) (fA w) (fB w)
  | 5 => do
      let ty ← typeIn Ty.colW (fTy w)
      return .amin ty (fD w) (fA w) (fB w)
  | 6 => do
      let ty ← typeIn Ty.colW (fTy w)
      return .amax ty (fD w) (fA w) (fB w)
  | 7 => do
      let ty ← typeIn Ty.colW (fTy w)
      return .aswp ty (fD w) (fA w) (fB w)
  | 8 => do
      let ty ← typeIn Ty.colW (fTy w)
      return .cas ty (fD w) (fA w) (fB w)
  | 9 => do
      let ty ← typeIn Ty.colWF (fTy w)
      need (decide (fD w = 0))
      return .acca ty (fA w) (fB w)
  | 10 => do
      let ty ← typeIn Ty.colWF (fTy w)
      need (decide (fD w = 0))
      return .accn ty (fA w) (fB w)
  | 11 => do
      let ty ← typeIn Ty.colWF (fTy w)
      need (decide (fD w = 0))
      return .accx ty (fA w) (fB w)
  | _ => .error .minor

/-- The forms of major 0x20 (Ordr), R45. -/
def decodeOrdr (w : BitVec 32) : Except Reject Instr :=
  match fMinor w with
  | 1 => do
      let kind ← fenceKindOf (fA w).val
      let scope ← tierOf (fB w).val
      need (decide (fD w = 0))
      need (decide (fTy w = 0))
      return .fence kind scope
  | 2 => do
      let p1 ← pathOf (fD w).val
      let p2 ← pathOf (fA w).val
      let scope ← tierOf (fB w).val
      need (decide (fTy w = 0))
      return .fencep p1 p2 scope
  | 3 => do
      let ty ← typeIn Ty.colW (fTy w)
      let scope ← tierOf (fB w).val
      return .lda ty (fD w) (fA w) scope
  | 4 => do
      let ty ← typeIn Ty.colW (fTy w)
      let scope ← tierOf (fB w).val
      return .stl ty (fD w) (fA w) scope
  | 5 => do
      let ty ← typeIn Ty.colW (fTy w)
      return .wsig ty (fD w) (fA w) (fB w)
  | _ => .error .minor

/-- The forms of major 0x21 (Bar), R45. -/
def decodeBar (w : BitVec 32) : Except Reject Instr :=
  match fMinor w with
  | 1 => do
      let tier ← tierOf (fTy w)
      need (decide (fD w = 0))
      need (decide ((fB w).val < tier.barriers))
      return .binit tier (fBbits w) (fA w)
  | 2 => do
      let tier ← tierOf (fTy w)
      need (decide (fD w = 0))
      need (decide ((fB w).val < tier.barriers))
      return .barr tier (fBbits w) (fA w)
  | 3 => do
      let tier ← tierOf (fTy w)
      need (decide (fD w = 0))
      need (decide (fA w = 0))
      need (decide ((fB w).val < tier.barriers))
      return .bwait tier (fBbits w)
  | 4 => do
      let tier ← tierOf (fTy w)
      need (decide ((fB w).val < tier.barriers))
      return .barrw (fD w) tier (fBbits w) (fA w)
  | 5 => do
      let tier ← tierOf (fTy w)
      need (decide (fA w = 0))
      need (decide ((fB w).val < tier.barriers))
      return .bread (fD w) tier (fBbits w)
  | _ => .error .minor

/-- The forms of major 0x22 (Varith), R45. -/
def decodeVarith (w : BitVec 32) : Except Reject Instr :=
  match fMinor w with
  | 1 => do
      let ty ← typeIn Ty.colE (fTy w)
      return .vadd ty (fD w) (fA w) (fB w)
  | 2 => do
      let ty ← typeIn Ty.colE (fTy w)
      return .vsub ty (fD w) (fA w) (fB w)
  | 3 => do
      let ty ← typeIn Ty.colE (fTy w)
      return .vmul ty (fD w) (fA w) (fB w)
  | 4 => do
      let ty ← typeIn Ty.colI (fTy w)
      return .vmulh ty (fD w) (fA w) (fB w)
  | 5 => do
      let ty ← typeIn Ty.colE (fTy w)
      return .vmin ty (fD w) (fA w) (fB w)
  | 6 => do
      let ty ← typeIn Ty.colE (fTy w)
      return .vmax ty (fD w) (fA w) (fB w)
  | 7 => do
      let ty ← typeIn Ty.colS (fTy w)
      need (decide (fB w = 0))
      return .vabs ty (fD w) (fA w)
  | 8 => do
      let ty ← typeIn Ty.colS (fTy w)
      need (decide (fB w = 0))
      return .vneg ty (fD w) (fA w)
  | 9 => do
      let ty ← typeIn Ty.colI (fTy w)
      return .vand ty (fD w) (fA w) (fB w)
  | 10 => do
      let ty ← typeIn Ty.colI (fTy w)
      return .vor ty (fD w) (fA w) (fB w)
  | 11 => do
      let ty ← typeIn Ty.colI (fTy w)
      return .vxor ty (fD w) (fA w) (fB w)
  | 12 => do
      let ty ← typeIn Ty.colI (fTy w)
      return .vshl ty (fD w) (fA w) (fB w)
  | 13 => do
      let ty ← typeIn Ty.colI (fTy w)
      return .vshr ty (fD w) (fA w) (fB w)
  | 14 => do
      let ty ← typeIn Ty.colE (fTy w)
      let pd ← predicate (fD w)
      return .vcmpeq ty pd (fA w) (fB w)
  | 15 => do
      let ty ← typeIn Ty.colE (fTy w)
      let pd ← predicate (fD w)
      return .vcmpne ty pd (fA w) (fB w)
  | 16 => do
      let ty ← typeIn Ty.colE (fTy w)
      let pd ← predicate (fD w)
      return .vcmplt ty pd (fA w) (fB w)
  | 17 => do
      let ty ← typeIn Ty.colE (fTy w)
      let pd ← predicate (fD w)
      return .vcmple ty pd (fA w) (fB w)
  | 18 => do
      let ty ← typeIn Ty.colF (fTy w)
      let pd ← predicate (fD w)
      return .vcmpun ty pd (fA w) (fB w)
  | 19 => do
      let ty ← typeIn Ty.colE (fTy w)
      let pb ← predicate (fB w)
      return .vsel ty (fD w) (fA w) pb
  | 20 => do
      let ty ← typeIn Ty.colF (fTy w)
      return .vdiv ty (fD w) (fA w) (fB w)
  | 21 => do
      let ty ← typeIn Ty.colF (fTy w)
      need (decide (fB w = 0))
      return .vsqrt ty (fD w) (fA w)
  | _ => .error .minor

/-- The forms of major 0x24 (Vfma), R45. -/
def decodeVfma (w : BitVec 32) : Except Reject Instr :=
  match fVariant w with
  | 0 => do
      let ty ← typeIn Ty.colF (fTy w)
      return .vfma ty (fD w) (fA w) (fB w) (fC w)
  | 1 => do
      let ty ← typeIn Ty.colF (fTy w)
      return .vfms ty (fD w) (fA w) (fB w) (fC w)
  | 2 => do
      let ty ← typeIn Ty.colF (fTy w)
      return .vfnma ty (fD w) (fA w) (fB w) (fC w)
  | 3 => do
      let ty ← typeIn Ty.colF (fTy w)
      return .vfnms ty (fD w) (fA w) (fB w) (fC w)
  | _ => .error .minor

/-- The forms of major 0x25 (Vconv), R45. -/
def decodeVconv (w : BitVec 32) : Except Reject Instr :=
  match fMinor w with
  | 1 => do
      let ty ← typeIn Ty.colC (fTy w)
      let src ← typeIn Ty.colC (fB w).val
      need (decide (ty ≠ src))
      return .vcvt ty (fD w) (fA w) src
  | 2 => do
      let ty ← typeIn Ty.colQ (fTy w)
      let src ← typeIn Ty.colXQ (fB w).val
      need (isGroup src (fA w))
      return .vqnt ty (fD w) (fA w) src
  | 3 => do
      let ty ← typeIn Ty.colXQ (fTy w)
      let src ← typeIn Ty.colQ (fB w).val
      need (isGroup ty (fD w))
      return .vxpq ty (fD w) (fA w) src
  | 4 => do
      let ty ← typeIn Ty.colC (fTy w)
      let src ← typeIn Ty.colC (fB w).val
      need (decide (ty ≠ src))
      return .vcvtx ty (fD w) (fA w) src
  | _ => .error .minor

/-- The forms of major 0x26 (Vprm), R45. -/
def decodeVprm (w : BitVec 32) : Except Reject Instr :=
  match fMinor w with
  | 1 => do
      let ty ← typeIn Ty.colE (fTy w)
      let pa ← predicate (fA w)
      return .vcps ty (fD w) pa (fB w)
  | 2 => do
      let ty ← typeIn Ty.colE (fTy w)
      let pa ← predicate (fA w)
      return .vxpd ty (fD w) pa (fB w)
  | 3 => do
      let ty ← typeIn Ty.colE (fTy w)
      return .vperm ty (fD w) (fA w) (fB w)
  | 4 => do
      let ty ← typeIn Ty.colE (fTy w)
      need (decide (fB w = 0))
      return .vsplat ty (fD w) (fA w)
  | 5 => do
      let ty ← typeIn Ty.colE (fTy w)
      return .vins ty (fD w) (fA w) (fB w)
  | 6 => do
      let ty ← typeIn Ty.colE (fTy w)
      return .vext ty (fD w) (fA w) (fB w)
  | 7 => do
      need (decide (fB w = 0))
      need (decide (fTy w = 0))
      return .vmov (fD w) (fA w)
  | _ => .error .minor

/-- The forms of major 0x27 (Vrdc), R45. -/
def decodeVrdc (w : BitVec 32) : Except Reject Instr :=
  match fMinor w with
  | 1 => do
      let ty ← typeIn Ty.colE (fTy w)
      need (decide (fB w = 0))
      return .vreda ty (fD w) (fA w)
  | 2 => do
      let ty ← typeIn Ty.colE (fTy w)
      need (decide (fB w = 0))
      return .vredn ty (fD w) (fA w)
  | 3 => do
      let ty ← typeIn Ty.colE (fTy w)
      need (decide (fB w = 0))
      return .vredx ty (fD w) (fA w)
  | 4 => do
      let ty ← typeIn Ty.colD (fTy w)
      return .vdot ty (fD w) (fA w) (fB w)
  | _ => .error .minor

/-- The forms of major 0x28 (Pred), R45. -/
def decodePred (w : BitVec 32) : Except Reject Instr :=
  match fMinor w with
  | 1 => do
      let pd ← predicate (fD w)
      let pa ← predicate (fA w)
      let pb ← predicate (fB w)
      need (decide (fTy w = 0))
      return .pand pd pa pb
  | 2 => do
      let pd ← predicate (fD w)
      let pa ← predicate (fA w)
      let pb ← predicate (fB w)
      need (decide (fTy w = 0))
      return .por pd pa pb
  | 3 => do
      let pd ← predicate (fD w)
      let pa ← predicate (fA w)
      let pb ← predicate (fB w)
      need (decide (fTy w = 0))
      return .pxor pd pa pb
  | 4 => do
      let pd ← predicate (fD w)
      let pa ← predicate (fA w)
      need (decide (fB w = 0))
      need (decide (fTy w = 0))
      return .pnot pd pa
  | 5 => do
      let ty ← typeIn Ty.colE (fTy w)
      let pa ← predicate (fA w)
      need (decide (fB w = 0))
      return .pcnt ty (fD w) pa
  | 6 => do
      let ty ← typeIn Ty.colE (fTy w)
      let pa ← predicate (fA w)
      need (decide (fB w = 0))
      return .pfst ty (fD w) pa
  | 7 => do
      let pd ← predicate (fD w)
      need (decide (fB w = 0))
      need (decide (fTy w = 0))
      return .pset pd (fA w)
  | 8 => do
      let pa ← predicate (fA w)
      need (decide (fB w = 0))
      need (decide (fTy w = 0))
      return .pget (fD w) pa
  | _ => .error .minor

/-- The forms of major 0x29 (Strm), R45. -/
def decodeStrm (w : BitVec 32) : Except Reject Instr :=
  match fMinor w with
  | 1 => do
      let sd ← stream (fD w)
      need (decide (fB w = 0))
      need (decide (fTy w = 0))
      return .scfg sd (fA w)
  | 2 => do
      let sa ← stream (fA w)
      need (decide (fB w = 0))
      need (decide (fTy w = 0))
      return .sbind (fD w) sa
  | 3 => do
      let sd ← stream (fD w)
      need (decide (fA w = 0))
      need (decide (fB w = 0))
      need (decide (fTy w = 0))
      return .send sd
  | 4 => do
      let sa ← stream (fA w)
      need (decide (fB w = 0))
      need (decide (fTy w = 0))
      return .sstat (fD w) sa
  | 5 => do
      let sd ← stream (fD w)
      need (decide (fB w = 0))
      need (decide (fTy w = 0))
      return .sskip sd (fA w)
  | _ => .error .minor

/-- The forms of major 0x2a (Tslt), R45. -/
def decodeTslt (w : BitVec 32) : Except Reject Instr :=
  match fMinor w with
  | 1 => do
      let t ← slotNumber (fTy w) (fD w)
      need (decide (fB w = 0))
      return .tset t (fA w)
  | 2 => do
      let t ← slotNumber (fTy w) (fD w)
      need (decide (fB w = 0))
      return .tget t (fA w)
  | 3 => do
      let t ← slotNumber (fTy w) (fD w)
      need (decide (fA w = 0))
      need (decide (fB w = 0))
      return .tclr t
  | 4 => do
      let t ← slotNumber (fTy w) (fD w)
      need (decide (fB w = 0))
      return .tinfo (fA w) t
  | _ => .error .minor

/-- The forms of major 0x2f (Hctl), R45. -/
def decodeHctl (w : BitVec 32) : Except Reject Instr :=
  match fMinor w with
  | 1 => do
      let d ← pair (fD w)
      let t ← slotNumber (fTy w) (fA w)
      return .hsnap d (fB w) t
  | 2 => do
      need (decide (fB w = 0))
      need (decide (fTy w = 0))
      return .hqry (fD w) (fA w)
  | 3 => do
      need (decide (fD w = 0))
      need (decide (fB w = 0))
      need (decide (fTy w = 0))
      return .hres (fA w)
  | 4 => do
      need (decide (fD w = 0))
      need (decide (fB w = 0))
      need (decide (fTy w = 0))
      return .hdrop (fA w)
  | 5 => do
      need (decide (fA w = 0))
      need (decide (fB w = 0))
      need (decide (fTy w = 0))
      return .hwin (fD w)
  | _ => .error .minor

/-- The forms of major 0x30 (Task), R45. -/
def decodeTask (w : BitVec 32) : Except Reject Instr :=
  match fMinor w with
  | 1 => do
      need (decide (fTy w = 0))
      return .lpatch (fD w) (fA w) (fB w)
  | 2 => do
      need (decide (fB w = 0))
      need (decide (fTy w = 0))
      return .larm (fD w) (fA w)
  | 3 => do
      need (decide (fB w = 0))
      need (decide (fTy w = 0))
      return .lqry (fD w) (fA w)
  | 4 => do
      need (decide (fD w = 0))
      need (decide (fTy w = 0))
      return .qenq (fA w) (fB w)
  | 5 => do
      need (decide (fD w = 0))
      need (decide (fA w = 0))
      need (decide (fB w = 0))
      need (decide (fTy w = 0))
      return .tend
  | 6 => do
      need (decide (fD w = 0))
      need (decide (fA w = 0))
      need (decide (fB w = 0))
      need (decide (fTy w = 0))
      return .tyld
  | 7 => do
      need (decide (fB w = 0))
      need (decide (fTy w = 0))
      return .garm (fD w) (fA w)
  | 8 => do
      need (decide (fD w = 0))
      need (decide (fB w = 0))
      need (decide (fTy w = 0))
      return .gdone (fA w)
  | 9 => do
      need (decide (fD w = 0))
      need (decide (fB w = 0))
      need (decide (fTy w = 0))
      return .migr (fA w)
  | 10 => do
      need (decide (fA w = 0))
      need (decide (fB w = 0))
      need (decide (fTy w = 0))
      return .done (fD w)
  | _ => .error .minor

/-- The forms of major 0x31 (Seal), R45. -/
def decodeSeal (w : BitVec 32) : Except Reject Instr :=
  match fMinor w with
  | 1 => do
      let d ← pair (fD w)
      need (decide (fTy w = 0))
      return .slook d (fA w) (fB w)
  | 2 => do
      let d ← pair (fD w)
      need (decide (fTy w = 0))
      return .shash d (fA w) (fB w)
  | 3 => do
      let a ← pair (fA w)
      need (decide (fD w = 0))
      need (decide (fB w = 0))
      need (decide (fTy w = 0))
      return .sref a
  | 4 => do
      let a ← pair (fA w)
      need (decide (fD w = 0))
      need (decide (fB w = 0))
      need (decide (fTy w = 0))
      return .sunref a
  | 5 => do
      let a ← pair (fA w)
      need (decide (fB w = 0))
      need (decide (fTy w = 0))
      return .sres (fD w) a
  | 6 => do
      let a ← pair (fA w)
      let b ← pair (fB w)
      need (decide (fTy w = 0))
      return .scas (fD w) a b
  | 7 => do
      let a ← pair (fA w)
      need (decide (fB w = 0))
      need (decide (fTy w = 0))
      return .scopy (fD w) a
  | 8 => do
      let a ← pair (fA w)
      need (decide (fB w = 0))
      need (decide (fTy w = 0))
      return .sealSstat (fD w) a
  | _ => .error .minor

/-- The forms of major 0x32 (Sys), R45. -/
def decodeSys (w : BitVec 32) : Except Reject Instr :=
  match fMinor w with
  | 1 => do
      need (decide (fTy w = 0))
      return .trap (fCode w)
  | 2 => do
      need (decide (fD w = 0))
      need (decide (fA w = 0))
      need (decide (fB w = 0))
      need (decide (fTy w = 0))
      return .eret
  | 3 => do
      need (decide (fTy w < 4))
      return .mfs (fD w) (fSysReg w)
  | 4 => do
      need (decide (fTy w < 4))
      return .mts (fSysReg w) (fD w)
  | 5 => do
      need (decide (fA w = 0))
      need (decide (fB w = 0))
      need (decide (fTy w = 0))
      return .wait (fD w)
  | 6 => do
      need (decide (fA w = 0))
      need (decide (fB w = 0))
      need (decide (fTy w = 0))
      return .chain (fD w)
  | 7 => do
      need (decide (fD w = 0))
      need (decide (fA w = 0))
      need (decide (fB w = 0))
      need (decide (fTy w = 0))
      return .unchain
  | 8 => do
      need (decide (fA w = 0))
      need (decide (fB w = 0))
      need (decide (fTy w = 0))
      return .arearm (fD w)
  | 9 => do
      need (decide (fB w = 0))
      need (decide (fTy w = 0))
      return .lkick (fD w) (fA w)
  | 10 => do
      need (decide (fTy w = 0))
      return .brk (fCode w)
  | _ => .error .minor

/-- The forms of major 0x33 (Xlat), R45. -/
def decodeXlat (w : BitVec 32) : Except Reject Instr :=
  match fMinor w with
  | 1 => do
      need (decide (fTy w = 0))
      return .tlbw (fD w) (fA w) (fB w)
  | 2 => do
      need (decide (fB w = 0))
      need (decide (fTy w = 0))
      return .tlbinv (fD w) (fA w)
  | 3 => do
      need (decide (fB w = 0))
      need (decide (fTy w = 0))
      return .tlbq (fD w) (fA w)
  | 4 => do
      need (decide (fA w = 0))
      need (decide (fB w = 0))
      need (decide (fTy w = 0))
      return .fbpop (fD w)
  | 5 => do
      need (decide (fD w = 0))
      need (decide (fA w = 0))
      need (decide (fB w = 0))
      need (decide (fTy w = 0))
      return .replay
  | 6 => do
      need (decide (fA w = 0))
      need (decide (fB w = 0))
      need (decide (fTy w = 0))
      return .msgrx (fD w)
  | _ => .error .minor

/-- The forms of major 0x34 (Maint), R45. -/
def decodeMaint (w : BitVec 32) : Except Reject Instr :=
  match fMinor w with
  | 1 => do
      need (decide (fA w = 0))
      need (decide (fB w = 0))
      need (decide (fTy w = 0))
      return .mapack (fD w)
  | 2 => do
      need (decide (fTy w = 0))
      return .maprd (fD w) (fA w) (fB w)
  | 3 => do
      need (decide (fB w = 0))
      need (decide (fTy w = 0))
      return .repw (fD w) (fA w)
  | 4 => do
      need (decide (fTy w = 0))
      return .arrt (fD w) (fA w) (fB w)
  | 5 => do
      need (decide (fD w = 0))
      need (decide (fA w = 0))
      need (decide (fB w = 0))
      need (decide (fTy w = 0))
      return .shut
  | 6 => do
      need (decide (fB w = 0))
      need (decide (fTy w = 0))
      return .snaprd (fD w) (fA w)
  | 7 => do
      need (decide (fD w = 0))
      need (decide (fA w = 0))
      need (decide (fB w = 0))
      need (decide (fTy w = 0))
      return .pairon
  | 8 => do
      need (decide (fD w = 0))
      need (decide (fA w = 0))
      need (decide (fB w = 0))
      need (decide (fTy w = 0))
      return .pairoff
  | 9 => do
      need (decide (fA w = 0))
      need (decide (fB w = 0))
      need (decide (fTy w = 0))
      return .fpchk (fD w)
  | 10 => do
      need (decide (fD w = 0))
      need (decide (fA w = 0))
      need (decide (fB w = 0))
      need (decide (fTy w = 0))
      return .ssbar
  | 11 => do
      need (decide (fA w = 0))
      need (decide (fB w = 0))
      need (decide (fTy w = 0))
      return .ssqry (fD w)
  | _ => .error .minor

/-- The hint kinds of Table 3.14, R39. -/
def decodeHint (w : BitVec 32) : Except Reject Instr :=
  match fKind w with
  | 0 => .ok (.hintWide (fPayload w))
  | 1 => do
      need (decide ((fPayload w).toNat < 16))
      need (decide ((fPayload w).toNat % 8 ≤ 4))
      need (!(fPayload w).getLsbD 3 || decide ((fPayload w).toNat % 8 = 4))
      return .hintRm ((fPayload w).getLsbD 3) ((fPayload w).setWidth 3)
  | 2 => .ok (.hintDep ((fPayload w).extractLsb' 15 7) ((fPayload w).extractLsb' 8 7) ((fPayload w).extractLsb' 4 4) ((fPayload w).extractLsb' 1 3) ((fPayload w).getLsbD 0))
  | 3 => do
      need (decide ((fPayload w).toNat < 1024))
      if (fPayload w).toNat % 4 = 0 then return .hintSchedYield ((fPayload w).extractLsb' 2 8)
      need (decide (fPayload w = 1))
      return .hintSchedHold
  | 4 => do
      need (decide (fPayload w = 0))
      return .hintSat
  | 5 => do
      need (decide ((fPayload w).toNat ≤ 4))
      return .hintCache ((fPayload w).setWidth 3)
  | _ => .error .field

/-- The instruction a word holds, or the first check of R46 (1 to 4) that it fails. Total on every
32-bit pattern: a word is an instruction or it is rejected by name (R47). -/
def decode (w : BitVec 32) : Except Reject Instr :=
  match fMajor w with
  | 0 => decodeInt w
  | 1 => .ok (.addi (fD w) (fA w) (fImm16 w))
  | 2 => .ok (.andi (fD w) (fA w) (fImm16 w))
  | 3 => .ok (.ori (fD w) (fA w) (fImm16 w))
  | 4 => .ok (.xori (fD w) (fA w) (fImm16 w))
  | 5 => decodeShift w
  | 6 => .ok (.slti (fD w) (fA w) (fImm16 w))
  | 7 => .ok (.sltni (fD w) (fA w) (fImm16 w))
  | 8 => .ok (.lui (fD w) (fImm21 w))
  | 9 => decodeAddr w
  | 10 => .ok (.beq (fD w) (fA w) (fImm16 w))
  | 11 => .ok (.bne (fD w) (fA w) (fImm16 w))
  | 12 => .ok (.blt (fD w) (fA w) (fImm16 w))
  | 13 => .ok (.bge (fD w) (fA w) (fImm16 w))
  | 14 => .ok (.bltn (fD w) (fA w) (fImm16 w))
  | 15 => .ok (.bgen (fD w) (fA w) (fImm16 w))
  | 16 => .ok (.j (fOff26 w))
  | 17 => .ok (.jal (fOff26 w))
  | 18 => decodeJr w
  | 19 => do
      need (decide (fImm16 w ≠ 0))
      need (decide (fD w = 0))
      return .loop (fA w) (fImm16 w)
  | 20 => do
      need (bsxZero w)
      return .bsx (fBsxStream w) (fImm16 w)
  | 22 => do
      let ty ← typeIn Ty.colI (fMemTy w)
      return .ld ty (fD w) (fA w) (fOff12 w)
  | 23 => do
      let ty ← typeIn Ty.colI (fMemTy w)
      return .st ty (fD w) (fA w) (fOff12 w)
  | 24 => do
      let ty ← typeIn Ty.colAll (fMemTy w)
      return .vld ty (fD w) (fA w) (fOff12 w)
  | 25 => do
      let ty ← typeIn Ty.colAll (fMemTy w)
      return .vst ty (fD w) (fA w) (fOff12 w)
  | 26 => decodeMemx w
  | 27 => decodeFe w
  | 28 => decodeRing w
  | 29 => decodeMapf w
  | 30 => decodeCopyf w
  | 31 => decodeAtom w
  | 32 => decodeOrdr w
  | 33 => decodeBar w
  | 34 => decodeVarith w
  | 36 => decodeVfma w
  | 37 => decodeVconv w
  | 38 => decodeVprm w
  | 39 => decodeVrdc w
  | 40 => decodePred w
  | 41 => decodeStrm w
  | 42 => decodeTslt w
  | 43 => .ok (.hmm (fD w) (fTc w) (fTa w) (fTb w) (fFl w))
  | 44 => .ok (.hadd (fD w) (fTc w) (fTa w) (fTb w) (fFl w))
  | 45 => do
      need (decide ((fFl w).toNat < 4))
      return .hmv (fD w) (fTc w) (fTa w) (fTb w) ((fFl w).setWidth 2)
  | 46 => do
      let fmt ← typeIn Ty.colAll (fTb w).val
      need (decide ((fFl w).toNat % 4 = 0))
      return .hcvt (fD w) (fTc w) (fTa w) fmt ((fFl w).getLsbD 2)
  | 47 => decodeHctl w
  | 48 => decodeTask w
  | 49 => decodeSeal w
  | 50 => decodeSys w
  | 51 => decodeXlat w
  | 52 => decodeMaint w
  | 63 => decodeHint w
  | _ => .error .major

/-- Format A (Table 3.1). -/
def encA (op d a b minor ty : Nat) : Word :=
  BitVec.ofNat 32 (op * 2 ^ 26 + d * 2 ^ 21 + a * 2 ^ 16 + b * 2 ^ 11 + minor * 2 ^ 4 + ty)

/-- Format Q (Table 3.2). -/
def encQ (op d a b c variant ty : Nat) : Word :=
  BitVec.ofNat 32 (op * 2 ^ 26 + d * 2 ^ 21 + a * 2 ^ 16 + b * 2 ^ 11 + c * 2 ^ 6 + variant * 2 ^ 4 + ty)

/-- Formats I and B (Tables 3.3 and 3.5). -/
def encI (op d a imm : Nat) : Word :=
  BitVec.ofNat 32 (op * 2 ^ 26 + d * 2 ^ 21 + a * 2 ^ 16 + imm)

/-- Format L (Table 3.4). -/
def encL (op d imm : Nat) : Word := BitVec.ofNat 32 (op * 2 ^ 26 + d * 2 ^ 21 + imm)

/-- Format J (Table 3.6). -/
def encJ (op off : Nat) : Word := BitVec.ofNat 32 (op * 2 ^ 26 + off)

/-- BSX: stream in [25:24], offset in [15:0] (R85). -/
def encBsx (op s off : Nat) : Word := BitVec.ofNat 32 (op * 2 ^ 26 + s * 2 ^ 24 + off)

/-- Format M (Table 3.7). -/
def encM (op d a ty off : Nat) : Word :=
  BitVec.ofNat 32 (op * 2 ^ 26 + d * 2 ^ 21 + a * 2 ^ 16 + ty * 2 ^ 12 + off)

/-- Format K (Table 3.8). -/
def encK (op d h fn k : Nat) : Word :=
  BitVec.ofNat 32 (op * 2 ^ 26 + d * 2 ^ 21 + h * 2 ^ 18 + fn * 2 ^ 15 + k)

/-- Format H (Table 3.9). -/
def encH (op d c a b fl : Nat) : Word :=
  BitVec.ofNat 32 (op * 2 ^ 26 + d * 2 ^ 21 + c * 2 ^ 15 + a * 2 ^ 9 + b * 2 ^ 3 + fl)

/-- Format Y (Table 3.10). -/
def encY (kind payload : Nat) : Word := BitVec.ofNat 32 (63 * 2 ^ 26 + kind * 2 ^ 22 + payload)

/-- The word of an instruction. The rows that no word encodes have none and answer the all-zero word, which is no
instruction (R47); ILLEGAL_INSTRUCTION answers the word it carries. -/
def encode : Instr → Word
  | .add ty d a b => encA 0 d.val a.val b.val 1 ty.code
  | .sub ty d a b => encA 0 d.val a.val b.val 2 ty.code
  | .mul ty d a b => encA 0 d.val a.val b.val 3 ty.code
  | .mulh ty d a b => encA 0 d.val a.val b.val 4 ty.code
  | .div ty d a b => encA 0 d.val a.val b.val 5 ty.code
  | .rem ty d a b => encA 0 d.val a.val b.val 6 ty.code
  | .and ty d a b => encA 0 d.val a.val b.val 7 ty.code
  | .or ty d a b => encA 0 d.val a.val b.val 8 ty.code
  | .xor ty d a b => encA 0 d.val a.val b.val 9 ty.code
  | .andn ty d a b => encA 0 d.val a.val b.val 10 ty.code
  | .sll ty d a b => encA 0 d.val a.val b.val 11 ty.code
  | .srl ty d a b => encA 0 d.val a.val b.val 12 ty.code
  | .sra ty d a b => encA 0 d.val a.val b.val 13 ty.code
  | .rot ty d a b => encA 0 d.val a.val b.val 14 ty.code
  | .min ty d a b => encA 0 d.val a.val b.val 15 ty.code
  | .max ty d a b => encA 0 d.val a.val b.val 16 ty.code
  | .slt ty d a b => encA 0 d.val a.val b.val 17 ty.code
  | .seq ty d a b => encA 0 d.val a.val b.val 18 ty.code
  | .clz ty d a => encA 0 d.val a.val 0 19 ty.code
  | .ctz ty d a => encA 0 d.val a.val 0 20 ty.code
  | .popc ty d a => encA 0 d.val a.val 0 21 ty.code
  | .ext ty d a => encA 0 d.val a.val 0 22 ty.code
  | .bfx ty d a b => encA 0 d.val a.val b.val 23 ty.code
  | .bfi ty d a b => encA 0 d.val a.val b.val 24 ty.code
  | .cmov ty d a b => encA 0 d.val a.val b.val 25 ty.code
  | .addi d a imm => encI 1 d.val a.val imm.toNat
  | .andi d a imm => encI 2 d.val a.val imm.toNat
  | .ori d a imm => encI 3 d.val a.val imm.toNat
  | .xori d a imm => encI 4 d.val a.val imm.toNat
  | .slli d a n => encI 5 d.val a.val (0 * 16384 + n.toNat)
  | .srli d a n => encI 5 d.val a.val (1 * 16384 + n.toNat)
  | .srai d a n => encI 5 d.val a.val (2 * 16384 + n.toNat)
  | .roti d a n => encI 5 d.val a.val (3 * 16384 + n.toNat)
  | .slti d a imm => encI 6 d.val a.val imm.toNat
  | .sltni d a imm => encI 7 d.val a.val imm.toNat
  | .lui d imm => encL 8 d.val imm.toNat
  | .lea d a b s => encA 9 d.val a.val b.val 1 s.toNat
  | .part d a level => encA 9 d.val a.val 0 2 level.code
  | .coord d level => encA 9 d.val 0 0 3 level.code
  | .beq a b off => encI 10 a.val b.val off.toNat
  | .bne a b off => encI 11 a.val b.val off.toNat
  | .blt a b off => encI 12 a.val b.val off.toNat
  | .bge a b off => encI 13 a.val b.val off.toNat
  | .bltn a b off => encI 14 a.val b.val off.toNat
  | .bgen a b off => encI 15 a.val b.val off.toNat
  | .j off => encJ 16 off.toNat
  | .jal off => encJ 17 off.toNat
  | .jr a => encA 18 0 a.val 0 1 0
  | .jalr a => encA 18 0 a.val 0 2 0
  | .loop a len => encI 19 0 a.val len.toNat
  | .bsx s off => encBsx 20 s.val off.toNat
  | .ld ty d a off => encM 22 d.val a.val ty.code off.toNat
  | .st ty d a off => encM 23 d.val a.val ty.code off.toNat
  | .vld ty d a off => encM 24 d.val a.val ty.code off.toNat
  | .vst ty d a off => encM 25 d.val a.val ty.code off.toNat
  | .ldx ty d a b => encA 26 d.val a.val b.val 1 ty.code
  | .stx ty d a b => encA 26 d.val a.val b.val 2 ty.code
  | .vldx ty d a b => encA 26 d.val a.val b.val 3 ty.code
  | .vstx ty d a b => encA 26 d.val a.val b.val 4 ty.code
  | .vlds ty d a b => encA 26 d.val a.val b.val 5 ty.code
  | .vsts ty d a b => encA 26 d.val a.val b.val 6 ty.code
  | .pf a b => encA 26 0 a.val b.val 7 0
  | .ldf ty d a off => encA 27 d.val a.val off.toNat 1 ty.code
  | .ldfk ty d a off => encA 27 d.val a.val off.toNat 2 ty.code
  | .ste ty d a off => encA 27 d.val a.val off.toNat 3 ty.code
  | .stf ty d a off => encA 27 d.val a.val off.toNat 4 ty.code
  | .fempty a off => encA 27 0 a.val off.toNat 5 0
  | .fstat d a off => encA 27 d.val a.val off.toNat 6 0
  | .qld d h k => encK 28 d.val h.val 0 k.toNat
  | .qldv d h k => encK 28 d.val h.val 1 k.toNat
  | .qst d h k => encK 28 d.val h.val 2 k.toNat
  | .qstv d h k => encK 28 d.val h.val 3 k.toNat
  | .qpub h n => encK 28 0 h.val 4 n.toNat
  | .qrel h n => encK 28 0 h.val 5 n.toNat
  | .qstat d h => encK 28 d.val h.val 6 0
  | .qbind h d => encK 28 d.val h.val 7 0
  | .map d a b => encA 29 d.val a.val b.val 1 0
  | .unmap d a => encA 29 d.val a.val 0 2 0
  | .syncw d a => encA 29 d.val a.val 0 3 0
  | .invw d a => encA 29 d.val a.val 0 4 0
  | .mapq d a => encA 29 d.val a.val 0 5 0
  | .cpy d a b => encA 30 d.val a.val b.val 1 0
  | .mcast d a b => encA 30 d.val a.val b.val 2 0
  | .cpyw d a b => encA 30 d.val a.val b.val 3 0
  | .copyTransferComplete _ => 0
  | .aadd ty d a b => encA 31 d.val a.val b.val 1 ty.code
  | .aand ty d a b => encA 31 d.val a.val b.val 2 ty.code
  | .aor ty d a b => encA 31 d.val a.val b.val 3 ty.code
  | .axor ty d a b => encA 31 d.val a.val b.val 4 ty.code
  | .amin ty d a b => encA 31 d.val a.val b.val 5 ty.code
  | .amax ty d a b => encA 31 d.val a.val b.val 6 ty.code
  | .aswp ty d a b => encA 31 d.val a.val b.val 7 ty.code
  | .cas ty d a b => encA 31 d.val a.val b.val 8 ty.code
  | .acca ty a b => encA 31 0 a.val b.val 9 ty.code
  | .accn ty a b => encA 31 0 a.val b.val 10 ty.code
  | .accx ty a b => encA 31 0 a.val b.val 11 ty.code
  | .atomicLatchFault _ _ _ _ => 0
  | .atomicResponse _ _ _ => 0
  | .fence kind scope => encA 32 0 kind.code scope.code 1 0
  | .fencep p1 p2 scope => encA 32 p1.code p2.code scope.code 2 0
  | .lda ty d a scope => encA 32 d.val a.val scope.code 3 ty.code
  | .stl ty d a scope => encA 32 d.val a.val scope.code 4 ty.code
  | .wsig ty d a b => encA 32 d.val a.val b.val 5 ty.code
  | .wsigDelivery _ => 0
  | .fabricStoreArrival _ _ _ => 0
  | .remoteWriteApply _ => 0
  | .binit tier n a => encA 33 0 a.val n.toNat 1 tier.code
  | .barr tier n a => encA 33 0 a.val n.toNat 2 tier.code
  | .bwait tier n => encA 33 0 0 n.toNat 3 tier.code
  | .barrw d tier n a => encA 33 d.val a.val n.toNat 4 tier.code
  | .bread d tier n => encA 33 d.val 0 n.toNat 5 tier.code
  | .vadd ty d a b => encA 34 d.val a.val b.val 1 ty.code
  | .vsub ty d a b => encA 34 d.val a.val b.val 2 ty.code
  | .vmul ty d a b => encA 34 d.val a.val b.val 3 ty.code
  | .vmulh ty d a b => encA 34 d.val a.val b.val 4 ty.code
  | .vmin ty d a b => encA 34 d.val a.val b.val 5 ty.code
  | .vmax ty d a b => encA 34 d.val a.val b.val 6 ty.code
  | .vabs ty d a => encA 34 d.val a.val 0 7 ty.code
  | .vneg ty d a => encA 34 d.val a.val 0 8 ty.code
  | .vand ty d a b => encA 34 d.val a.val b.val 9 ty.code
  | .vor ty d a b => encA 34 d.val a.val b.val 10 ty.code
  | .vxor ty d a b => encA 34 d.val a.val b.val 11 ty.code
  | .vshl ty d a b => encA 34 d.val a.val b.val 12 ty.code
  | .vshr ty d a b => encA 34 d.val a.val b.val 13 ty.code
  | .vcmpeq ty pd a b => encA 34 pd.val a.val b.val 14 ty.code
  | .vcmpne ty pd a b => encA 34 pd.val a.val b.val 15 ty.code
  | .vcmplt ty pd a b => encA 34 pd.val a.val b.val 16 ty.code
  | .vcmple ty pd a b => encA 34 pd.val a.val b.val 17 ty.code
  | .vcmpun ty pd a b => encA 34 pd.val a.val b.val 18 ty.code
  | .vsel ty d a pb => encA 34 d.val a.val pb.val 19 ty.code
  | .vdiv ty d a b => encA 34 d.val a.val b.val 20 ty.code
  | .vsqrt ty d a => encA 34 d.val a.val 0 21 ty.code
  | .vfma ty d a b c => encQ 36 d.val a.val b.val c.val 0 ty.code
  | .vfms ty d a b c => encQ 36 d.val a.val b.val c.val 1 ty.code
  | .vfnma ty d a b c => encQ 36 d.val a.val b.val c.val 2 ty.code
  | .vfnms ty d a b c => encQ 36 d.val a.val b.val c.val 3 ty.code
  | .vcvt ty d a src => encA 37 d.val a.val src.code 1 ty.code
  | .vqnt ty d a src => encA 37 d.val a.val src.code 2 ty.code
  | .vxpq ty d a src => encA 37 d.val a.val src.code 3 ty.code
  | .vcvtx ty d a src => encA 37 d.val a.val src.code 4 ty.code
  | .vcps ty d pa b => encA 38 d.val pa.val b.val 1 ty.code
  | .vxpd ty d pa b => encA 38 d.val pa.val b.val 2 ty.code
  | .vperm ty d a b => encA 38 d.val a.val b.val 3 ty.code
  | .vsplat ty d a => encA 38 d.val a.val 0 4 ty.code
  | .vins ty d a b => encA 38 d.val a.val b.val 5 ty.code
  | .vext ty d a b => encA 38 d.val a.val b.val 6 ty.code
  | .vmov d a => encA 38 d.val a.val 0 7 0
  | .vreda ty d a => encA 39 d.val a.val 0 1 ty.code
  | .vredn ty d a => encA 39 d.val a.val 0 2 ty.code
  | .vredx ty d a => encA 39 d.val a.val 0 3 ty.code
  | .vdot ty d a b => encA 39 d.val a.val b.val 4 ty.code
  | .pand pd pa pb => encA 40 pd.val pa.val pb.val 1 0
  | .por pd pa pb => encA 40 pd.val pa.val pb.val 2 0
  | .pxor pd pa pb => encA 40 pd.val pa.val pb.val 3 0
  | .pnot pd pa => encA 40 pd.val pa.val 0 4 0
  | .pcnt ty d pa => encA 40 d.val pa.val 0 5 ty.code
  | .pfst ty d pa => encA 40 d.val pa.val 0 6 ty.code
  | .pset pd a => encA 40 pd.val a.val 0 7 0
  | .pget d pa => encA 40 d.val pa.val 0 8 0
  | .scfg sd a => encA 41 sd.val a.val 0 1 0
  | .sbind d sa => encA 41 d.val sa.val 0 2 0
  | .send sd => encA 41 sd.val 0 0 3 0
  | .sstat d sa => encA 41 d.val sa.val 0 4 0
  | .sskip sd a => encA 41 sd.val a.val 0 5 0
  | .streamFetch _ _ _ => 0
  | .tset t a => encA 42 (t.val % 32) a.val 0 1 (t.val / 32)
  | .tget t a => encA 42 (t.val % 32) a.val 0 2 (t.val / 32)
  | .tclr t => encA 42 (t.val % 32) 0 0 3 (t.val / 32)
  | .tinfo a t => encA 42 (t.val % 32) a.val 0 4 (t.val / 32)
  | .hmm d tc ta tb fl => encH 43 d.val tc.val ta.val tb.val fl.toNat
  | .hadd d tc ta tb fl => encH 44 d.val tc.val ta.val tb.val fl.toNat
  | .hmv d tc ta tb fl => encH 45 d.val tc.val ta.val tb.val fl.toNat
  | .hcvt d tc ta fmt swap => encH 46 d.val tc.val ta.val fmt.code (swap.toNat * 4)
  | .windowStallRelease _ => 0
  | .hsnap d b t => encA 47 d.val (t.val % 32) b.val 1 (t.val / 32)
  | .hqry d a => encA 47 d.val a.val 0 2 0
  | .hres a => encA 47 0 a.val 0 3 0
  | .hdrop a => encA 47 0 a.val 0 4 0
  | .hwin d => encA 47 d.val 0 0 5 0
  | .commandStart _ => 0
  | .commandRetire _ => 0
  | .commandStop _ _ => 0
  | .granuleStop _ _ => 0
  | .postedProduct _ => 0
  | .postedProductReturn _ => 0
  | .lpatch d a b => encA 48 d.val a.val b.val 1 0
  | .larm d a => encA 48 d.val a.val 0 2 0
  | .lqry d a => encA 48 d.val a.val 0 3 0
  | .qenq a b => encA 48 0 a.val b.val 4 0
  | .tend => encA 48 0 0 0 5 0
  | .tyld => encA 48 0 0 0 6 0
  | .garm d a => encA 48 d.val a.val 0 7 0
  | .gdone a => encA 48 0 a.val 0 8 0
  | .landingRetry _ => 0
  | .migr a => encA 48 0 a.val 0 9 0
  | .done d => encA 48 d.val 0 0 10 0
  | .slook d a b => encA 49 d.val a.val b.val 1 0
  | .shash d a b => encA 49 d.val a.val b.val 2 0
  | .sref a => encA 49 0 a.val 0 3 0
  | .sunref a => encA 49 0 a.val 0 4 0
  | .sres d a => encA 49 d.val a.val 0 5 0
  | .scas d a b => encA 49 d.val a.val b.val 6 0
  | .scopy d a => encA 49 d.val a.val 0 7 0
  | .sealSstat d a => encA 49 d.val a.val 0 8 0
  | .deferredRelease => 0
  | .trap n => encA 50 (n.toNat / 1024) (n.toNat / 32 % 32) (n.toNat % 32) 1 0
  | .eret => encA 50 0 0 0 2 0
  | .mfs d sr => encA 50 d.val (sr.toNat / 32 % 32) (sr.toNat % 32) 3 (sr.toNat / 1024)
  | .mts sr d => encA 50 d.val (sr.toNat / 32 % 32) (sr.toNat % 32) 4 (sr.toNat / 1024)
  | .wait d => encA 50 d.val 0 0 5 0
  | .waitTimeout _ _ => 0
  | .chain d => encA 50 d.val 0 0 6 0
  | .unchain => encA 50 0 0 0 7 0
  | .arearm d => encA 50 d.val 0 0 8 0
  | .lkick d a => encA 50 d.val a.val 0 9 0
  | .brk n => encA 50 (n.toNat / 1024) (n.toNat / 32 % 32) (n.toNat % 32) 10 0
  | .supervisorDelivery _ => 0
  | .tlbw d a b => encA 51 d.val a.val b.val 1 0
  | .tlbinv d a => encA 51 d.val a.val 0 2 0
  | .tlbq d a => encA 51 d.val a.val 0 3 0
  | .fbpop d => encA 51 d.val 0 0 4 0
  | .replay => encA 51 0 0 0 5 0
  | .msgrx d => encA 51 d.val 0 0 6 0
  | .translationMiss _ _ => 0
  | .missRetry _ => 0
  | .mapack d => encA 52 d.val 0 0 1 0
  | .maprd d a b => encA 52 d.val a.val b.val 2 0
  | .repw d a => encA 52 d.val a.val 0 3 0
  | .arrt d a b => encA 52 d.val a.val b.val 4 0
  | .shut => encA 52 0 0 0 5 0
  | .snaprd d a => encA 52 d.val a.val 0 6 0
  | .pairon => encA 52 0 0 0 7 0
  | .pairoff => encA 52 0 0 0 8 0
  | .fpchk d => encA 52 d.val 0 0 9 0
  | .ssbar => encA 52 0 0 0 10 0
  | .ssqry d => encA 52 d.val 0 0 11 0
  | .hintWide v => encY 0 v.toNat
  | .hintRm int mode => encY 1 (int.toNat * 8 + mode.toNat)
  | .hintDep p1 p2 n g s => encY 2 (p1.toNat * 32768 + p2.toNat * 256 + n.toNat * 16 + g.toNat * 2 + s.toNat)
  | .hintSchedYield n => encY 3 (n.toNat * 4)
  | .hintSchedHold => encY 3 1
  | .hintSat => encY 4 0
  | .hintCache policy => encY 5 policy.toNat
  | .promotion _ _ => 0
  | .promotionEnd _ _ => 0
  | .prefetcherFill _ => 0
  | .scoreboardRetire _ _ => 0
  | .hostMemAccess _ _ _ _ => 0
  | .partitionMove _ _ => 0
  | .launchStart _ _ _ => 0
  | .lobbyRebalance _ => 0
  | .migrationWindow _ _ => 0
  | .taskMigration _ _ _ => 0
  | .faultSaveDeferred _ _ => 0
  | .chimneyMessage _ _ _ _ => 0
  | .launchQuiescent _ _ => 0
  | .laundryKickAccept _ => 0
  | .copy _ _ => 0
  | .convert _ _ => 0
  | .quant _ _ => 0
  | .pad _ _ => 0
  | .slice _ _ => 0
  | .fill _ _ => 0
  | .compress _ _ => 0
  | .expand _ _ => 0
  | .frameExchange _ _ => 0
  | .pairCompare _ => 0
  | .superstepCommit _ _ => 0
  | .superstepRollback _ _ => 0
  | .contextCreate _ => 0
  | .contextDestroy _ => 0
  | .regionDeclare _ => 0
  | .regionDestroy _ => 0
  | .submissionDoorbell _ _ => 0
  | .submissionReset _ => 0
  | .submitArm _ => 0
  | .submitSave _ => 0
  | .submitRestore _ => 0
  | .submitMapack _ => 0
  | .eventRingEnable _ => 0
  | .hostMessageMappingDone _ _ => 0
  | .hostMessageInvalidate _ _ => 0
  | .keyRetire _ => 0
  | .keyFlushComplete => 0
  | .hostRegisterWrite _ _ => 0
  | .unitWithdrawal _ => 0
  | .mapPublication => 0
  | .mapDeadline _ => 0
  | .thermostatPeriod _ => 0
  | .flitRetransmission _ => 0
  | .bootReset _ => 0
  | .illegalInstruction word => word
  | .fabricAccessArrival _ _ => 0
  | .estateBarrierArrival _ => 0
  | .unitReturn _ => 0

/-- Whether a word encodes the row: the 72 rows that are steps of other agents have none, and no word is the illegal
instruction's own (R43 to R47). -/
def Instr.coded : Instr → Bool
  | .add _ _ _ _ => true
  | .sub _ _ _ _ => true
  | .mul _ _ _ _ => true
  | .mulh _ _ _ _ => true
  | .div _ _ _ _ => true
  | .rem _ _ _ _ => true
  | .and _ _ _ _ => true
  | .or _ _ _ _ => true
  | .xor _ _ _ _ => true
  | .andn _ _ _ _ => true
  | .sll _ _ _ _ => true
  | .srl _ _ _ _ => true
  | .sra _ _ _ _ => true
  | .rot _ _ _ _ => true
  | .min _ _ _ _ => true
  | .max _ _ _ _ => true
  | .slt _ _ _ _ => true
  | .seq _ _ _ _ => true
  | .clz _ _ _ => true
  | .ctz _ _ _ => true
  | .popc _ _ _ => true
  | .ext _ _ _ => true
  | .bfx _ _ _ _ => true
  | .bfi _ _ _ _ => true
  | .cmov _ _ _ _ => true
  | .addi _ _ _ => true
  | .andi _ _ _ => true
  | .ori _ _ _ => true
  | .xori _ _ _ => true
  | .slli _ _ _ => true
  | .srli _ _ _ => true
  | .srai _ _ _ => true
  | .roti _ _ _ => true
  | .slti _ _ _ => true
  | .sltni _ _ _ => true
  | .lui _ _ => true
  | .lea _ _ _ _ => true
  | .part _ _ _ => true
  | .coord _ _ => true
  | .beq _ _ _ => true
  | .bne _ _ _ => true
  | .blt _ _ _ => true
  | .bge _ _ _ => true
  | .bltn _ _ _ => true
  | .bgen _ _ _ => true
  | .j _ => true
  | .jal _ => true
  | .jr _ => true
  | .jalr _ => true
  | .loop _ _ => true
  | .bsx _ _ => true
  | .ld _ _ _ _ => true
  | .st _ _ _ _ => true
  | .vld _ _ _ _ => true
  | .vst _ _ _ _ => true
  | .ldx _ _ _ _ => true
  | .stx _ _ _ _ => true
  | .vldx _ _ _ _ => true
  | .vstx _ _ _ _ => true
  | .vlds _ _ _ _ => true
  | .vsts _ _ _ _ => true
  | .pf _ _ => true
  | .ldf _ _ _ _ => true
  | .ldfk _ _ _ _ => true
  | .ste _ _ _ _ => true
  | .stf _ _ _ _ => true
  | .fempty _ _ => true
  | .fstat _ _ _ => true
  | .qld _ _ _ => true
  | .qldv _ _ _ => true
  | .qst _ _ _ => true
  | .qstv _ _ _ => true
  | .qpub _ _ => true
  | .qrel _ _ => true
  | .qstat _ _ => true
  | .qbind _ _ => true
  | .map _ _ _ => true
  | .unmap _ _ => true
  | .syncw _ _ => true
  | .invw _ _ => true
  | .mapq _ _ => true
  | .cpy _ _ _ => true
  | .mcast _ _ _ => true
  | .cpyw _ _ _ => true
  | .copyTransferComplete _ => false
  | .aadd _ _ _ _ => true
  | .aand _ _ _ _ => true
  | .aor _ _ _ _ => true
  | .axor _ _ _ _ => true
  | .amin _ _ _ _ => true
  | .amax _ _ _ _ => true
  | .aswp _ _ _ _ => true
  | .cas _ _ _ _ => true
  | .acca _ _ _ => true
  | .accn _ _ _ => true
  | .accx _ _ _ => true
  | .atomicLatchFault _ _ _ _ => false
  | .atomicResponse _ _ _ => false
  | .fence _ _ => true
  | .fencep _ _ _ => true
  | .lda _ _ _ _ => true
  | .stl _ _ _ _ => true
  | .wsig _ _ _ _ => true
  | .wsigDelivery _ => false
  | .fabricStoreArrival _ _ _ => false
  | .remoteWriteApply _ => false
  | .binit _ _ _ => true
  | .barr _ _ _ => true
  | .bwait _ _ => true
  | .barrw _ _ _ _ => true
  | .bread _ _ _ => true
  | .vadd _ _ _ _ => true
  | .vsub _ _ _ _ => true
  | .vmul _ _ _ _ => true
  | .vmulh _ _ _ _ => true
  | .vmin _ _ _ _ => true
  | .vmax _ _ _ _ => true
  | .vabs _ _ _ => true
  | .vneg _ _ _ => true
  | .vand _ _ _ _ => true
  | .vor _ _ _ _ => true
  | .vxor _ _ _ _ => true
  | .vshl _ _ _ _ => true
  | .vshr _ _ _ _ => true
  | .vcmpeq _ _ _ _ => true
  | .vcmpne _ _ _ _ => true
  | .vcmplt _ _ _ _ => true
  | .vcmple _ _ _ _ => true
  | .vcmpun _ _ _ _ => true
  | .vsel _ _ _ _ => true
  | .vdiv _ _ _ _ => true
  | .vsqrt _ _ _ => true
  | .vfma _ _ _ _ _ => true
  | .vfms _ _ _ _ _ => true
  | .vfnma _ _ _ _ _ => true
  | .vfnms _ _ _ _ _ => true
  | .vcvt _ _ _ _ => true
  | .vqnt _ _ _ _ => true
  | .vxpq _ _ _ _ => true
  | .vcvtx _ _ _ _ => true
  | .vcps _ _ _ _ => true
  | .vxpd _ _ _ _ => true
  | .vperm _ _ _ _ => true
  | .vsplat _ _ _ => true
  | .vins _ _ _ _ => true
  | .vext _ _ _ _ => true
  | .vmov _ _ => true
  | .vreda _ _ _ => true
  | .vredn _ _ _ => true
  | .vredx _ _ _ => true
  | .vdot _ _ _ _ => true
  | .pand _ _ _ => true
  | .por _ _ _ => true
  | .pxor _ _ _ => true
  | .pnot _ _ => true
  | .pcnt _ _ _ => true
  | .pfst _ _ _ => true
  | .pset _ _ => true
  | .pget _ _ => true
  | .scfg _ _ => true
  | .sbind _ _ => true
  | .send _ => true
  | .sstat _ _ => true
  | .sskip _ _ => true
  | .streamFetch _ _ _ => false
  | .tset _ _ => true
  | .tget _ _ => true
  | .tclr _ => true
  | .tinfo _ _ => true
  | .hmm _ _ _ _ _ => true
  | .hadd _ _ _ _ _ => true
  | .hmv _ _ _ _ _ => true
  | .hcvt _ _ _ _ _ => true
  | .windowStallRelease _ => false
  | .hsnap _ _ _ => true
  | .hqry _ _ => true
  | .hres _ => true
  | .hdrop _ => true
  | .hwin _ => true
  | .commandStart _ => false
  | .commandRetire _ => false
  | .commandStop _ _ => false
  | .granuleStop _ _ => false
  | .postedProduct _ => false
  | .postedProductReturn _ => false
  | .lpatch _ _ _ => true
  | .larm _ _ => true
  | .lqry _ _ => true
  | .qenq _ _ => true
  | .tend => true
  | .tyld => true
  | .garm _ _ => true
  | .gdone _ => true
  | .landingRetry _ => false
  | .migr _ => true
  | .done _ => true
  | .slook _ _ _ => true
  | .shash _ _ _ => true
  | .sref _ => true
  | .sunref _ => true
  | .sres _ _ => true
  | .scas _ _ _ => true
  | .scopy _ _ => true
  | .sealSstat _ _ => true
  | .deferredRelease => false
  | .trap _ => true
  | .eret => true
  | .mfs _ _ => true
  | .mts _ _ => true
  | .wait _ => true
  | .waitTimeout _ _ => false
  | .chain _ => true
  | .unchain => true
  | .arearm _ => true
  | .lkick _ _ => true
  | .brk _ => true
  | .supervisorDelivery _ => false
  | .tlbw _ _ _ => true
  | .tlbinv _ _ => true
  | .tlbq _ _ => true
  | .fbpop _ => true
  | .replay => true
  | .msgrx _ => true
  | .translationMiss _ _ => false
  | .missRetry _ => false
  | .mapack _ => true
  | .maprd _ _ _ => true
  | .repw _ _ => true
  | .arrt _ _ _ => true
  | .shut => true
  | .snaprd _ _ => true
  | .pairon => true
  | .pairoff => true
  | .fpchk _ => true
  | .ssbar => true
  | .ssqry _ => true
  | .hintWide _ => true
  | .hintRm _ _ => true
  | .hintDep _ _ _ _ _ => true
  | .hintSchedYield _ => true
  | .hintSchedHold => true
  | .hintSat => true
  | .hintCache _ => true
  | .promotion _ _ => false
  | .promotionEnd _ _ => false
  | .prefetcherFill _ => false
  | .scoreboardRetire _ _ => false
  | .hostMemAccess _ _ _ _ => false
  | .partitionMove _ _ => false
  | .launchStart _ _ _ => false
  | .lobbyRebalance _ => false
  | .migrationWindow _ _ => false
  | .taskMigration _ _ _ => false
  | .faultSaveDeferred _ _ => false
  | .chimneyMessage _ _ _ _ => false
  | .launchQuiescent _ _ => false
  | .laundryKickAccept _ => false
  | .copy _ _ => false
  | .convert _ _ => false
  | .quant _ _ => false
  | .pad _ _ => false
  | .slice _ _ => false
  | .fill _ _ => false
  | .compress _ _ => false
  | .expand _ _ => false
  | .frameExchange _ _ => false
  | .pairCompare _ => false
  | .superstepCommit _ _ => false
  | .superstepRollback _ _ => false
  | .contextCreate _ => false
  | .contextDestroy _ => false
  | .regionDeclare _ => false
  | .regionDestroy _ => false
  | .submissionDoorbell _ _ => false
  | .submissionReset _ => false
  | .submitArm _ => false
  | .submitSave _ => false
  | .submitRestore _ => false
  | .submitMapack _ => false
  | .eventRingEnable _ => false
  | .hostMessageMappingDone _ _ => false
  | .hostMessageInvalidate _ _ => false
  | .keyRetire _ => false
  | .keyFlushComplete => false
  | .hostRegisterWrite _ _ => false
  | .unitWithdrawal _ => false
  | .mapPublication => false
  | .mapDeadline _ => false
  | .thermostatPeriod _ => false
  | .flitRetransmission _ => false
  | .bootReset _ => false
  | .illegalInstruction _ => false
  | .fabricAccessArrival _ _ => false
  | .estateBarrierArrival _ => false
  | .unitReturn _ => false

/-- The words of an instruction as the hardware stores them: one, little-endian (R32). -/
def encodeBytes (i : Instr) : List Byte := bytesOfNat 4 (encode i).toNat

/-- The instruction that four bytes in memory hold (R32). -/
def decodeBytes (bs : List Byte) : Except Reject Instr := decode (BitVec.ofNat 32 (natOfBytes bs))

/-- The decoder's reading of a word whose bits are numbered as the opcode table numbers them. -/
def decodeTableWord (_nbits w : Nat) : Option Instr :=
  match decodeBytes (bytesOfNat 4 w) with
  | .ok i => some i
  | .error _ => none

end Sys2Proof
end

