-- ==== Sys2Proof/Machine/Codes.lean ====
section
/-! DEFINITION. The codes of the house: the SEC-DED codes that ARRT reaches (R410), the CRC-64 of a pair (R361) and the
SHA-512 of names and frames (R251, R275). -/

namespace Sys2Proof.Machine

open Sys2Proof

/-! ### SEC-DED (R410) -/

/-- A position of a check bit: a power of two (R410). -/
def isCheckPosition (p : Nat) : Bool := [1, 2, 4, 8, 16, 32, 64].contains p

/-- The positions of the data bits, in ascending order (R410). -/
def dataPositions (k m : Nat) : List Nat := (List.range (k + m + 1)).filter fun p => 3 ≤ p && !isCheckPosition p

/-- The exclusive or of the positions of the data bits that are 1: the Hamming check bits (R410). -/
def hammingOf : List Nat → Nat → Nat
  | [], _ => 0
  | p :: ps, v => (if v % 2 = 1 then p else 0) ^^^ hammingOf ps (v / 2)

/-- The parity of the low `n` bits of a number. -/
def parityOf : Nat → Nat → Nat
  | 0, _ => 0
  | n + 1, v => (v % 2 + parityOf n (v / 2)) % 2

/-- The stored check field of a payload: the Hamming bits, and over them the overall parity (R410). -/
def checkOf (k m v : Nat) : Nat :=
  let h := hammingOf (dataPositions k m) v % 2 ^ m
  h + (parityOf k v + parityOf m h) % 2 * 2 ^ m

/-- The payload with the bit at a codeword position inverted; none if the position is no position of the code. -/
def flipPosition (k m v p : Nat) : Option Nat :=
  if isCheckPosition p && decide (p ≤ k + m) then some v
  else match (dataPositions k m).findIdx? (fun q => q == p) with
    | some i => some (v ^^^ 2 ^ i)
    | none => none

/-- A read of a stored codeword (R410): the payload, corrected where one bit is wrong; none where it is
uncorrectable. -/
def decodeChecked (k m v stored : Nat) : Option Nat :=
  let syndrome := (hammingOf (dataPositions k m) v ^^^ stored) % 2 ^ m
  let odd := (parityOf k v + parityOf (m + 1) stored) % 2 = 1
  if syndrome = 0 then some v
  else if odd then flipPosition k m v syndrome
  else none

/-- Check field of a 35-bit vault payload (Table 25.11). -/
def vaultCheck (v : Nat) : BitVec 7 := BitVec.ofNat 7 (checkOf 35 6 v)

/-- Check field of a 64-bit register word (Table 25.11). -/
def registerCheck (v : Nat) : BitVec 8 := BitVec.ofNat 8 (checkOf 64 7 v)

/-! ### CRC-64 (R361) -/

/-- Eight steps of the division by the polynomial of ECMA-182. -/
def crcShift : Nat → BitVec 64 → BitVec 64
  | 0, c => c
  | n + 1, c => crcShift n (if c.msb then (c <<< 1) ^^^ 0x42F0E1EBA9EA3693#64 else c <<< 1)

/-- The fingerprint after one byte. -/
def crcByte (c : BitVec 64) (b : Byte) : BitVec 64 := crcShift 8 (c ^^^ (b.setWidth 64 <<< 56))

/-- The fingerprint after a list of bytes (R361). -/
def crcBytes (c : BitVec 64) (bs : List Byte) : BitVec 64 := bs.foldl crcByte c

/-! ### SHA-512 -/

/-- The largest number of `b` more bits, above those already found, whose `k`-th power is at most `n`. -/
def rootBits (k n : Nat) : Nat → Nat → Nat
  | 0, r => r
  | b + 1, r => rootBits k n b (if (r + 2 ^ b) ^ k ≤ n then r + 2 ^ b else r)

/-- The primes below 410, of which there are 80. -/
def smallPrimes : List Nat := (List.range 410).filter fun p => decide (2 ≤ p) && (List.range p).all fun d => decide (d < 2) || p % d != 0

/-- The first 64 bits of the fraction of a `k`-th root. -/
def rootFraction (k p : Nat) : XWord := BitVec.ofNat 64 (rootBits k (p * 2 ^ (64 * k)) 69 0)

/-- The round constants of SHA-512 (log entry 91): from the cube roots of the first 80 primes. -/
def roundConstants : List XWord := smallPrimes.map (rootFraction 3)

/-- The initial hash value of SHA-512 (log entry 91): from the square roots of the first eight primes. -/
def shaInit : List XWord := (smallPrimes.take 8).map (rootFraction 2)

/-- The eight working variables of SHA-512. -/
structure ShaState where
  a : XWord
  b : XWord
  c : XWord
  d : XWord
  e : XWord
  f : XWord
  g : XWord
  h : XWord
  deriving DecidableEq, Repr

/-- One round of SHA-512. -/
def shaRound (s : ShaState) (kw : XWord) : ShaState :=
  let t1 := s.h + (s.e.rotateRight 14 ^^^ s.e.rotateRight 18 ^^^ s.e.rotateRight 41)
    + ((s.e &&& s.f) ^^^ (~~~s.e &&& s.g)) + kw
  let t2 := (s.a.rotateRight 28 ^^^ s.a.rotateRight 34 ^^^ s.a.rotateRight 39)
    + ((s.a &&& s.b) ^^^ (s.a &&& s.c) ^^^ (s.b &&& s.c))
  ⟨t1 + t2, s.a, s.b, s.c, s.d + t1, s.e, s.f, s.g⟩

/-- The rounds of one block, with the window of the last sixteen schedule words. -/
def shaRounds : List XWord → List XWord → ShaState → ShaState
  | [], _, s => s
  | k :: ks, w, s =>
    let w0 := w.getD 0 0
    let w1 := w.getD 1 0
    let w14 := w.getD 14 0
    let next := w0 + (w1.rotateRight 1 ^^^ w1.rotateRight 8 ^^^ (w1 >>> 7)) + w.getD 9 0
      + (w14.rotateRight 19 ^^^ w14.rotateRight 61 ^^^ (w14 >>> 6))
    shaRounds ks (w.drop 1 ++ [next]) (shaRound s (k + w0))

/-- A big-endian dword of eight bytes. -/
def bigDword (bs : List Byte) : XWord := BitVec.ofNat 64 (natOfBytes (bs.take 8).reverse)

/-- The sixteen message words of a block of 128 bytes. -/
def blockWords : Nat → List Byte → List XWord
  | 0, _ => []
  | n + 1, bs => bigDword bs :: blockWords n (bs.drop 8)

/-- The hash value after one block. -/
def shaBlock (h : ShaState) (bs : List Byte) : ShaState :=
  let r := shaRounds roundConstants (blockWords 16 bs) h
  ⟨h.a + r.a, h.b + r.b, h.c + r.c, h.d + r.d, h.e + r.e, h.f + r.f, h.g + r.g, h.h + r.h⟩

/-- The hash value after `n` blocks. -/
def shaBlocks : Nat → List Byte → ShaState → ShaState
  | 0, _, h => h
  | n + 1, bs, h => shaBlocks n (bs.drop 128) (shaBlock h (bs.take 128))

/-- The initial hash value as a state. -/
def shaStart : ShaState :=
  let v := fun i => shaInit.getD i 0
  ⟨v 0, v 1, v 2, v 3, v 4, v 5, v 6, v 7⟩

/-- The padded message of SHA-512. -/
def shaPad (bs : List Byte) : List Byte :=
  let n := bs.length
  bs ++ [0x80#8] ++ List.replicate ((239 - n % 128) % 128) 0 ++ (bytesOfNat 16 (8 * n)).reverse

/-- The SHA-512 digest of a byte string, in the order in which it emits the bytes. -/
def sha512 (bs : List Byte) : List Byte :=
  let m := shaPad bs
  let h := shaBlocks (m.length / 128) m shaStart
  [h.a, h.b, h.c, h.d, h.e, h.f, h.g, h.h].flatMap fun v => (bytesOfNat 8 v.toNat).reverse

end Sys2Proof.Machine
end

