-- ==== Sys2Proof/Machine/Table.lean ====
section
/-! DEFINITION. Sparse tables: association lists in ascending key order, one entry a key. They hold the units, the
memories and the register files of the house, of which a state names only the entries that differ from reset. -/

namespace Sys2Proof

/-- A table from numbers to values. -/
abbrev Table (α : Type) := List (Nat × α)

/-- The entry under a key. -/
def tfind {α : Type} : Table α → Nat → Option α
  | [], _ => none
  | (j, a) :: t, k => if j = k then some a else tfind t k

/-- The entry under a key, or the value every unlisted key has. -/
def tget {α : Type} (dflt : α) (t : Table α) (k : Nat) : α := (tfind t k).getD dflt

/-- The table with one entry written, in key order. -/
def tput {α : Type} : Table α → Nat → α → Table α
  | [], k, a => [(k, a)]
  | (j, b) :: t, k, a =>
    if k < j then (k, a) :: (j, b) :: t
    else if j = k then (k, a) :: t
    else (j, b) :: tput t k a

/-- The table with one entry removed. -/
def tdel {α : Type} : Table α → Nat → Table α
  | [], _ => []
  | (j, b) :: t, k => if j = k then t else (j, b) :: tdel t k

/-- Writes an entry of a table that lists no entry equal to what an unlisted key reads as. -/
def tset {α : Type} [DecidableEq α] (dflt : α) (t : Table α) (k : Nat) (a : α) : Table α :=
  if a = dflt then tdel t k else tput t k a

/-- The keys of a table rise strictly, all above a bound. -/
def tsorted {α : Type} : Nat → Table α → Bool
  | _, [] => true
  | b, (k, _) :: t => decide (b ≤ k) && tsorted (k + 1) t

/-- No entry equals what an unlisted key reads as. -/
def tlean {α : Type} [DecidableEq α] (dflt : α) : Table α → Bool
  | [] => true
  | (_, a) :: t => decide (a ≠ dflt) && tlean dflt t

end Sys2Proof
end

