-- ==== Sys2Proof/Machine/State.lean ====
section
/-! DEFINITION. The state of one GK96 house: cores, rooms, halls, launches, contexts, memory, host port and map keeper,
with the value of each at reset. Units are named by their logical numbers unless a docstring says physical. A threshold
core is core number 65,536 + logical hall, and issues from slot 3 (log entry 13). -/

namespace Sys2Proof.Machine

open Sys2Proof

/-! ### One slot -/

/-- The trap registers of a slot (R30, Tables 2.5, 2.7 and 2.8). -/
structure TrapRegs where
  cause : XWord
  pc : XWord
  addr : XWord
  info : XWord
  vec : XWord
  save : XWord
  deriving DecidableEq, Repr

/-- One entry of the loop stack (R20, R83). -/
structure Loop where
  remaining : XWord
  start : XWord
  stop : XWord
  deriving DecidableEq, Repr

/-- A stream engine (R103 to R109): its descriptor, position, binding and overrun bit, the elements already fetched,
and the last element popped or pushed. -/
structure Stream where
  configured : Bool
  desc : BitVec 256
  pos : BitVec 32
  bound : Option Reg
  overrun : Bool
  fetched : List VWide
  last : Option VWide
  deriving DecidableEq, Repr

/-- The atomic retry latch (R21): the sent bit, the atomic itself, its place, the class of its page and its operands. -/
structure Latch where
  sent : Bool
  instr : Instr
  addr : XWord
  place : Place
  cls : Nat
  operand : XWord
  expected : XWord
  deriving DecidableEq, Repr

/-- What a waiting ring instruction does once its slot of the ring is filled or free (R162); one whose w register is bound
to a stream issues again. -/
inductive RingOp where
  | load (d : Reg)
  | loadWide (d : Reg)
  | store (data : List Byte)
  | again (load : Bool)
  deriving DecidableEq, Repr

/-- What a waiting full/empty instruction does once its word is full or empty (R160). -/
inductive WordOp where
  | take (ty : Ty) (d : Reg)
  | keep (ty : Ty) (d : Reg)
  | put (data : Word)
  deriving DecidableEq, Repr

/-- What a slot does once the superstep it has arrived in commits (R263, R266, R362). -/
inductive CommitOp where
  | bar
  | tend
  | done (status : XWord)
  deriving DecidableEq, Repr

/-- What an operation of an engine waits for (R302, R412): the hall whose translations it uses, and the access that has missed. One
that has missed nothing waits for the host to mend a page that refuses it. -/
structure PageWait where
  hall : Nat
  miss : Option MissReq
  deriving DecidableEq, Repr

/-- Why a slot is parked (R113, Table 7.2), with what completes its instruction. -/
inductive Wait where
  | ring (room off k : Nat) (op : RingOp)
  | word (room off : Nat) (op : WordOp)
  | barrier (launch key index : Nat) (result : Option Reg)
  | commit (launch seq : Nat) (op : CommitOp)
  | delivery
  | latch
  | page (index : Option Nat)
  | promotion
  | event (d : Reg) (left : Option Nat)
  | join (d : Reg) (first len : Nat)
  | pairJoin
  | kick
  | window
  | translation
  | engine (on : PageWait)
  deriving DecidableEq, Repr

/-- The code of Table 7.2 of a parking reason; the wait of R412, for the host to mend a page an engine needs, is not in
the table and has code 0 (log entry 17). -/
def Wait.code : Wait → Nat
  | .ring _ _ _ _ => 1 | .word _ _ _ => 2 | .barrier _ _ _ _ => 3 | .commit _ _ _ => 3 | .delivery => 4 | .latch => 5
  | .page _ => 6 | .promotion => 7 | .event _ _ => 8 | .join _ _ _ => 9 | .pairJoin => 9 | .kick => 10 | .window => 11
  | .translation => 12 | .engine _ => 0

/-- An entry a task holds for its successor stage (R262). -/
structure HeldEntry where
  stage : Nat
  words : List Word
  deriving DecidableEq, Repr

/-- One thread slot (R13, R17 to R21, R30). `bad` lists the stored check bits of x registers (keys 0 to 31) and
quarters of w registers (keys 32 + 4 · register + quarter) that a raw ARRT write left not matching (R391, R410).
`arrivedIn` is the superstep at whose commit the slot has arrived (R397). `carries` marks the task of a save, which brings
its own seen counts (R121), and `remoteOff` one that has failed a condition of migration in this window (R249). -/
structure Slot where
  x : Vector XWord 32
  w : Vector VWide 32
  p : Vector (BitVec 32) 8
  h : Vector (Option XWord) 8
  s : Vector Stream 4
  bad : Table (BitVec 8)
  loops : List Loop
  hints : List Instr
  hintPc : XWord
  latch : Option Latch
  trap : TrapRegs
  fpCtl : XWord
  fpFlags : XWord
  cyc : XWord
  retired : XWord
  pc : XWord
  live : Bool
  ctx : Nat
  launch : Option Nat
  stage : Nat
  arm : BitVec 32
  wait : Option Wait
  ticket : Nat
  delay : Nat
  yielded : Bool
  seen : Table (BitVec 32)
  held : List HeldEntry
  remoteHall : Nat
  remoteCount : Nat
  wWritten : BitVec 32
  atomics : Nat
  wsigs : Nat
  arrivedIn : Option Nat
  copyError : Option XWord
  pairMode : Bool
  carries : Bool
  remoteOff : Bool
  deriving DecidableEq, Repr

/-- Trap registers at reset (Table 2.5). -/
def TrapRegs.reset : TrapRegs := ⟨0, 0, 0, 0, 0, 0⟩

/-- A stream that no SCFG has configured. -/
def Stream.reset : Stream := ⟨false, 0, 0, none, false, [], none⟩

/-- A slot at reset (Table 2.5; log entry 1). -/
def Slot.reset : Slot where
  x := Vector.replicate 32 0
  w := Vector.replicate 32 0
  p := Vector.replicate 8 0
  h := Vector.replicate 8 none
  s := Vector.replicate 4 Stream.reset
  bad := []
  loops := []
  hints := []
  hintPc := 0
  latch := none
  trap := TrapRegs.reset
  fpCtl := 0
  fpFlags := 0
  cyc := 0
  retired := 0
  pc := 0
  live := false
  ctx := 0
  launch := none
  stage := 0
  arm := 0
  wait := none
  ticket := 0
  delay := 0
  yielded := false
  seen := []
  held := []
  remoteHall := 0
  remoteCount := 0
  wWritten := 0
  atomics := 0
  wsigs := 0
  arrivedIn := none
  copyError := none
  pairMode := false
  carries := false
  remoteOff := false

/-! ### One core -/

/-- An instruction on the forwarding links of a chain (R22, R88): the leader's PC, where it went next, its loop stack
after, and the command id it got (R230). A `none` instruction parts the follower from the chain at that PC (R24). -/
structure Forward where
  instr : Option Instr
  pc : XWord
  next : XWord
  loops : List Loop
  id : XWord
  deriving DecidableEq, Repr

/-- A core's place in a chain (R22): which chain, its leader, its position and the chain's length, and the instructions buffered
on its way. `sent` says that a leader has sent on the instruction that it waits at. -/
structure ChainRole where
  id : Nat
  leader : Nat
  pos : Nat
  len : Nat
  queue : List Forward
  sent : Bool
  deriving DecidableEq, Repr

/-- The contents of a shadow slot (R16, R244): a task, whether it may run, the range scoreboard entries its warming
waits for and the lines that it has yet to fetch (R245), where it was dequeued the queue's decode state before it and its entry (R266), its place in a chain
(R23), and both in its checkpoint in a recoverable superstep (R366). -/
structure Shadow where
  task : Slot
  check : Option Slot
  chain : Option ChainRole
  chainCheck : Option ChainRole
  waitsOn : List Nat
  fromQueue : Option (List Word × List Word)
  order : Nat
  warming : List XWord
  deriving DecidableEq, Repr

/-- Where the home of a mapped line has been found to lie: its key, physical address and page class. -/
structure LineHome where
  key : Nat
  pa : Nat
  cls : Nat
  deriving DecidableEq, Repr

/-- A mapping of a scratchpad range onto translated addresses (R139). `homes` is by line of the range. A fill from a
sealed page makes it read-only (R140). -/
structure Mapping where
  off : Nat
  va : XWord
  len : Nat
  ctx : Nat
  homes : Table LineHome
  readOnly : Bool
  deriving DecidableEq, Repr

/-- A word watch (R124): the slot, the word, and the F bit it waits for. -/
structure Watch where
  slot : Fin 4
  room : Nat
  off : Nat
  full : Bool
  deriving DecidableEq, Repr

/-- A supervisor-class trap on its way to the supervisor slot (R28). -/
structure Delivery where
  slot : Fin 4
  trap : TrapRegs
  deriving DecidableEq, Repr

/-- The operations of the accumulate-only state (R144). -/
inductive AccOp where
  | add | min | max
  deriving DecidableEq, Repr

/-- What leaves a core later than it was executed: from a pair's release buffer (R361), or from a room's hold at the
commit of a superstep (R364). -/
inductive Effect where
  | store (place : Place) (data : List Byte)
  | flag (room off : Nat) (data : Option Word) (full : Bool)
  | bring (key pa : Nat) (data : List Byte) (bad : Bool)
  | accumulate (key pa : Nat) (op : AccOp) (ty : Ty) (value : XWord)
  | wsig (m : WsigMsg)
  | kick (hall ctx : Nat) (header : XWord) (p : BitVec 32)
  | rootSwap (ctx : Nat) (region : Option Nat) (cell : Place) (expected new : BitVec 128) (command : Option (Nat × Nat))
  | unref (region : Nat) (name : BitVec 128)
  | patch (ctx record dword : Nat) (value : XWord)
  | arm (ctx record : Nat)
  | graphArm (launch hall : Nat) (expected : BitVec 32)
  | graphDone (launch hall : Nat) (node : BitVec 32)
  | enqueue (launch hall stage : Nat) (words : List Word)
  deriving DecidableEq, Repr

/-- A held effect, its launch, and the slot that issued it (R364). `lost` says that an error from outside has made the entry
uncorrectable (R368); no step of the house does (log entry 55). -/
structure Held where
  launch : Nat
  core : Nat
  slot : Fin 4
  effect : Effect
  lost : Bool
  deriving DecidableEq, Repr

/-- One core's half of a pair (R360, R361). The leader's half holds the release buffer. `clear` says that a compare has
agreed since the last instruction retired. `wrote` names the registers that the half's instruction has written, in order
(R361), and `fed` holds the bytes of the effects that it has sent. `leaves` says that it has sent an effect of R172 after its
compare, and `kept` how many effects of the buffer are older than the checkpoint. `due` is a trap that waits for a compare to agree (R25). -/
structure Pair where
  slot : Fin 4
  leader : Bool
  agreed : BitVec 32
  since : Nat
  retry : Nat
  print : BitVec 64
  buffer : List Effect
  checkpoint : Slot
  clear : Bool
  suspect : Bool
  wrote : List Nat
  leaves : Bool
  kept : Nat
  due : Option (XWord × Nat × XWord × Nat)
  fed : List Byte
  deriving DecidableEq, Repr

/-- An entry of a TLB (R297): context, VA[55:16], page size code, frame PA[51:16] and the attribute word. -/
structure TlbEntry where
  ctx : Nat
  va : Nat
  size : Nat
  pfn : Nat
  attr : BitVec 32
  deriving DecidableEq, Repr

/-- One core (R13 to R16, R20, R22, R25, R28, R124, R135, R139, R297). `banks` holds the checkpoints of its task slots, and
`chainBank` the chain role that belongs to slot 0's (R331, R366). -/
structure Core where
  slots : Vector Slot 4
  pointer : Fin 3
  shadows : List Shadow
  partition : Nat
  owner : Option Nat
  mappings : List Mapping
  watches : List Watch
  deliveries : List Delivery
  activation : Option (Fin 4)
  resume : XWord
  halted : Bool
  chain : Option ChainRole
  pair : Option Pair
  banks : Table Slot
  chainBank : Option ChainRole
  stages : Table Nat
  tlb : List TlbEntry
  deriving DecidableEq, Repr

/-- A core at reset: the issue pointer is 2 (R14); log entries 1 to 3. -/
def Core.reset : Core where
  slots := Vector.replicate 4 Slot.reset
  pointer := 2
  shadows := []
  partition := 0
  owner := none
  mappings := []
  watches := []
  deliveries := []
  activation := none
  resume := 0
  halted := false
  chain := none
  pair := none
  banks := []
  chainBank := none
  stages := []
  tlb := []

/-! ### One room -/

/-- A vault word as stored (R133, Table 8.3). `check` is present where a raw write left check bits that are not those
of the payload (R391). -/
structure VaultWord where
  data : Word
  v : Bool
  d : Bool
  f : Bool
  check : Option (BitVec 7)
  poison : Bool
  deriving DecidableEq, Repr

/-- A vault word at reset (Table 8.3). -/
def VaultWord.reset : VaultWord := ⟨0, true, false, false, none, false⟩

/-- An interval of the range scoreboard (R142): its transfer, and the vault offsets it covers. -/
structure Interval where
  id : Nat
  lo : Nat
  hi : Nat
  deriving DecidableEq, Repr

/-- A partial of one word (R144). -/
structure Partial where
  op : AccOp
  ty : Ty
  value : XWord
  deriving DecidableEq, Repr

/-- A line of the accumulation area (R144): its key and line, its partials by byte offset in the line, and the
contributions of open supersteps in order (R364): launch, byte offset, contribution. -/
structure AccLine where
  key : Nat
  line : Nat
  parts : Table Partial
  open_ : List (Nat × Nat × Partial)
  deriving DecidableEq, Repr

/-- A tensor slot (R195): the descriptor of Table 12.3 as eight dwords, and the commands that own it. -/
structure TensorSlot where
  desc : List XWord
  deriving DecidableEq, Repr

/-- The state of a command (Table 11.8). -/
inductive CommandState where
  | waiting | running | stopped | split | resumed
  deriving DecidableEq, Repr

/-- How a command left the window (Table 11.9). -/
inductive CommandEnd where
  | retired | inError | dropped
  deriving DecidableEq, Repr

/-- A child of a node as a walk holds it: its type code and its field (Table 11.3). -/
structure Kid where
  code : Nat
  field : BitVec 128
  deriving DecidableEq, Repr

/-- What a posted product comes to (R207): the product, the flags it raised, and the fault code that ended it, or 0. -/
structure PostedResult where
  kid : Kid
  flags : Nat
  code : Nat
  deriving DecidableEq, Repr

/-- A command of the window (R210 to R214, R222, R223). `preds` are the predecessors still in the window. `a`, `b` and `c`
are the operand slots as it read them when it started. The walk stands after `steps` top-level steps: `sums` are the
quadrants complete, `part` a first product that awaits its second, and `held` the names the walk holds references to.
`result` is a completed root. `posted` counts products that are out, `returned` those that came back, and `index` the next
one the walk needs. `stairOwed` says that it waits for its products with its stair not yet in the record (R206), and a running
command with a code is to stop with it once its stair is there. `seq` is the superstep it was issued in, or 0 (R366). -/
structure Command where
  id : Nat
  seq : Nat
  ctx : Nat
  launch : Nat
  instr : Instr
  core : Nat
  slot : Fin 4
  alpha : XWord
  beta : XWord
  cell : XWord
  saturate : Bool
  preds : List Nat
  barrier : Nat
  granule : Nat
  skip : Bool
  state : CommandState
  code : BitVec 8
  flags : BitVec 5
  swapFailed : Bool
  steps : Nat
  started : Bool
  a : List XWord
  b : List XWord
  c : List XWord
  refs : List (BitVec 128)
  sums : List Kid
  part : Option Kid
  held : List (BitVec 128)
  result : Option (BitVec 128)
  spreads : Bool
  posted : Nat
  returned : Table PostedResult
  index : Nat
  stairOwed : Bool
  deriving DecidableEq, Repr

/-- The status of a command that has left the window (R213). -/
structure CommandStatus where
  id : Nat
  launch : Nat
  how : CommandEnd
  code : BitVec 8
  flags : BitVec 5
  swapFailed : Bool
  steps : Nat
  deriving DecidableEq, Repr

/-- A subtree product posted to another hearth (R207): the owning hearth's room, the command, its place in the walk, the
level of its operands, the operands and, once walked, what it came to. -/
structure Posted where
  owner : Nat
  launch : Nat
  id : Nat
  index : Nat
  level : Nat
  left : Kid
  right : Kid
  result : Option PostedResult
  deriving DecidableEq, Repr

/-- A log entry of the cellar (R363, Table 25.6). `lost` says that an error from outside has made it uncorrectable (R366); no step of
the house does (log entry 55). -/
structure LogEntry where
  launch : Nat
  off : Nat
  old : VaultWord
  lost : Bool
  deriving DecidableEq, Repr

/-- One room (R128, R142, R144, R195, R206, R210, R213, R363, R364, R371). `nextId` is by launch, `tensors` by
64 · context + slot number. `lastPost` is the room a product was last posted to. -/
structure Room where
  board : List Interval
  acc : List AccLine
  tensors : Table TensorSlot
  window : List Command
  left : List CommandStatus
  nextId : Table Nat
  posted : List Posted
  lastPost : Option Nat
  log : List LogEntry
  hold : List Held
  corrected : BitVec 32
  deriving DecidableEq, Repr

/-- A room at reset. -/
def Room.reset : Room where
  board := []
  acc := []
  tensors := []
  window := []
  left := []
  nextId := []
  posted := []
  lastPost := none
  log := []
  hold := []
  corrected := 0

/-! ### One hall -/

/-- An entry of the pending table (R298): its key and the accesses attached to it, in attach order. -/
structure PendEntry where
  ctx : Nat
  va : Nat
  waiters : List MissReq
  deriving DecidableEq, Repr

/-- An entry of the fault buffer (R301, Table 18.3). -/
structure FaultEntry where
  taken : Bool
  w : Bool
  x : Bool
  ctx : Nat
  va : Nat
  waiters : List MissReq
  deriving DecidableEq, Repr

/-- An active ring of a laundry (R304, R305, R310): its header's address, context and fields, the counts of requests taken
and produced, the request it is serving (R306) with its progress, whether that has ended or is stopped at a granule, and the slots whose kicks it is
serving, each with the count it kicked up to (R169). -/
structure LaundryRing where
  header : XWord
  ctx : Nat
  base : XWord
  lc : Nat
  pri : Nat
  cword : XWord
  crec : XWord
  cons : BitVec 32
  p : BitVec 32
  overrun : Bool
  req : List XWord
  index : Nat
  flags : Nat
  status : Nat
  ended : Bool
  stopped : Bool
  kickers : List (Nat × Fin 4 × BitVec 32)
  deriving DecidableEq, Repr

/-- A kick that waits for one of the 64 rings (R305). -/
structure Kick where
  header : XWord
  ctx : Nat
  p : BitVec 32
  from_ : Option (Nat × Fin 4)
  deriving DecidableEq, Repr

/-- A stage queue of a launch in a hall (R239, R240): entries dequeued, entries held, reservations, decode state, and the fields of
the decode state that came of poisoned words (R357). -/
structure Queue where
  head : Nat
  count : Nat
  reserved : Nat
  decode : List Word
  lost : List Bool
  deriving DecidableEq, Repr

/-- A queue at launch start: 16 fields, all zero (R240). -/
def Queue.reset : Queue := ⟨0, 0, 0, List.replicate 16 0, List.replicate 16 false⟩

/-- A task that waits to run in a slot again, or for the first time in another hall (R250, R252, R264), with its place
in a chain (R23), and both in its checkpoint in a recoverable superstep (R366). -/
structure SavedTask where
  task : Slot
  check : Option Slot
  chain : Option ChainRole
  chainCheck : Option ChainRole
  core : Nat
  frame : Option Nat
  waits : Option Wait
  switched : Bool
  deriving DecidableEq, Repr

/-- A node's task that the landing holds (R247). -/
structure LandingEntry where
  launch : Nat
  stage : Nat
  words : List Word
  deriving DecidableEq, Repr

/-- A record of the atomic journal (R365). -/
structure JournalEntry where
  launch : Nat
  seq : Nat
  core : Nat
  slot : Fin 4
  ordinal : Nat
  place : Place
  instr : Instr
  operand : XWord
  expected : XWord
  old : XWord
  deriving DecidableEq, Repr

/-- One hall (R239, R244, R247, R250, R269, R297, R298, R301, R303, R305, R365, R371). `queues` is by 8 · launch + stage. `parked` lists
the accesses that wait in the translation unit in the order in which they parked, `doneNodes` the completions of nodes that the
landing has accepted, by launch and node. -/
structure Hall where
  tlb : List TlbEntry
  pending : Table PendEntry
  overflow : List MissReq
  parked : List MissReq
  messages : List XWord
  buffer : Table FaultEntry
  drop : Bool
  dropped : List MissReq
  rings : List LaundryRing
  lastRing : Nat
  kicks : List Kick
  queues : Table Queue
  migrants : List SavedTask
  landing : List LandingEntry
  doneNodes : List (Nat × Nat)
  lastQueue : Nat
  journal : List JournalEntry
  corrected : BitVec 32
  deriving DecidableEq, Repr

/-- A hall at reset (log entries 3 and 4). -/
def Hall.reset : Hall where
  tlb := []
  pending := []
  overflow := []
  parked := []
  messages := []
  buffer := []
  drop := false
  dropped := []
  rings := []
  lastRing := 0
  kicks := []
  queues := []
  migrants := []
  landing := []
  doneNodes := []
  lastQueue := 0
  journal := []
  corrected := 0

/-! ### Launches, contexts, sealed memory -/

/-- A barrier of a launch in one instance of a tier (R120, R121, Table 7.6). `partials` is by the arriving unit's
coordinates (R67). -/
structure Barrier where
  config : Word
  arrived : Nat
  phase : Bool
  done : BitVec 32
  e : Bool
  code : BitVec 8
  result : XWord
  worst : Option (BitVec 8)
  partials : Table XWord
  slots : List Nat
  deriving DecidableEq, Repr

/-- A barrier with the configuration word 0: unused (R120). -/
def Barrier.reset : Barrier := ⟨0, 0, false, 0, false, 0, 0, none, [], []⟩

/-- A status word on its way up the chimney tree (R125, Table 7.7). -/
structure Report where
  code : Nat
  flags : Nat
  value : Nat
  dones : Nat
  deriving DecidableEq, Repr

/-- A launch from its arm to its completion (R235 to R238, R125, R126, R362). The key of a launch is
1,024 · context + record. `chimney` is by 2^20 · tier code + unit; `barriers` by 64 · (2^20 · tier code + instance) +
barrier number. -/
structure Launch where
  words : List XWord
  arm : BitVec 32
  order : Nat
  rooms : List Nat
  startTime : Nat
  owed : Nat
  chimney : Table (List (Nat × Report))
  sent : List Nat
  barriers : Table Barrier
  leftSlots : List (Nat × Nat)
  lost : Bool
  estate : List Nat
  seq : Nat
  rollbacks : Nat
  mode : Nat
  keptTasks : List (Nat × Nat × List Word)
  taken : List (Nat × BitVec 128)
  ckTensors : Table (Table TensorSlot)
  ckBarriers : Table Barrier
  deriving DecidableEq, Repr

/-- The image of one room of a saved context (R255): vault words by offset, the hearth's parts, the mappings and partitions
of its cores, and by 4 · core + slot the slots that hold no task and stay in a launch. -/
structure RoomImage where
  idle : Table Slot
  words : Table VaultWord
  tensors : Table TensorSlot
  window : List Command
  left : List CommandStatus
  nextId : Table Nat
  mappings : Table (List Mapping)
  partitions : Table Nat
  deriving DecidableEq, Repr

/-- What the foundation keeps of a context beside its descriptor (R235, R252, R255, R377, R378). -/
structure Context where
  arms : Table (BitVec 32)
  mapAck : BitVec 32
  switchedOut : Bool
  suspended : Option (BitVec 32)
  saved : List SavedTask
  images : Table RoomImage
  absent : List Nat
  deriving DecidableEq, Repr

/-- A context before its creation. -/
def Context.reset : Context := ⟨[], 0, false, none, [], [], []⟩

/-- A launch that the runtime arms (R10): its key, its arm sequence, and the words of its image's `.vault` section. -/
structure RuntimeLaunch where
  launch : Nat
  arm : BitVec 32
  vault : List Word
  deriving DecidableEq, Repr

/-- An entry of a region's name index (R277, Table 16.2), with the names a node's child fields hold, in child order, and its number in
the index. -/
structure SealedEntry where
  name : BitVec 128
  line : Nat
  len : Nat
  perm : Bool
  node : Bool
  key : Nat
  count : Nat
  kids : List (BitVec 128)
  place : Nat
  deriving DecidableEq, Repr

/-! ### House -/

/-- A submission entry (Table 20.6): its op, record and version, and whether its other bytes are zero and its op valid. -/
structure SubEntry where
  op : Nat
  record : Nat
  ver : BitVec 32
  valid : Bool
  deriving DecidableEq, Repr

/-- A submission ring (R339, Table 20.5), with the entry that is taken and not completed (R341). -/
structure SubRing where
  base : XWord
  cbase : XWord
  ctx : Nat
  vec : Nat
  ie : Bool
  ov : Bool
  en : Bool
  lc : Nat
  w : XWord
  r : XWord
  c : XWord
  entry : Option SubEntry
  deriving DecidableEq, Repr

/-- A submission ring at reset (Table 20.5). -/
def SubRing.reset : SubRing := ⟨0, 0, 0, 0, false, false, false, 0, 0, 0, 0, none⟩

/-- The event ring (R342, Table 20.8). -/
structure EventRing where
  ebase : XWord
  edrp : Nat
  evec : Nat
  eov : Bool
  eie : Bool
  een : Bool
  elc : Nat
  eh : XWord
  et : XWord
  deriving DecidableEq, Repr

/-- The event ring at reset (Table 20.8). -/
def EventRing.reset : EventRing := ⟨0, 0, 0, false, false, false, 0, 0, 0⟩

/-- A segment of a copy (R165): from a place to a place, a number of bytes. -/
structure Segment where
  src : Place
  srcVa : XWord
  dst : Place
  len : Nat
  deriving DecidableEq, Repr

/-- A copy in flight (R142, R165): who started it, its segments in ascending address order, and the rooms whose range
scoreboards hold entries of it. -/
structure Transfer where
  id : Nat
  core : Nat
  slot : Fin 4
  segments : List Segment
  rooms : List Nat
  deriving DecidableEq, Repr

/-- A remote write on its way to a wing (R187): the writing wing and the vector stamp it carries. -/
structure RemoteWrite where
  source : Fin 16
  target : Fin 16
  stamp : List Nat
  deriving DecidableEq, Repr

/-- A change the map keeper has received and not yet published (R373). -/
inductive Change where
  | withdraw (u : DeviceUnit)
  | giveBack (u : DeviceUnit)
  | repair (room entry : Nat)
  deriving DecidableEq, Repr

/-- What a publication leaves to do at a logical room (R376): its state moves from a physical room to that of a reserve room, or
is saved where it lies as the room became absent, or comes back with the room. -/
inductive Resettlement where
  | moved (room old reserve : Nat)
  | gone (room old : Nat)
  | back (room : Nat)
  deriving DecidableEq, Repr

/-- The snapshot registers (R371): the time and source of the last trigger, and by selector the registers whose value
is not that of a unit at reset. -/
structure Shutter where
  time : Nat
  source : Nat
  regs : Table XWord
  deriving DecidableEq, Repr

/-- Where the signed core firmware has its boot code, its loop and its trap vector (R381, R399). -/
structure Firmware where
  boot : XWord
  loop : XWord
  vec : XWord
  deriving DecidableEq, Repr

/-- What a house sends to the holder of an estate barrier (R347): an arrival, or a configuration by context, record and barrier. -/
inductive EstateSend where
  | arrival (m : EstateArrival)
  | init (ctx record n : Nat) (config : Word)
  deriving DecidableEq, Repr

/-- One turn of the house: a core's cycle, or a step of another agent (log entry 11). -/
inductive Turn where
  | core (core : Nat)
  | event (d : Due)
  deriving DecidableEq, Repr

/-- An operation of an engine that waits for a page (R302, R412), and is the step that makes it again. -/
structure Blocked where
  on : PageWait
  due : Due
  deriving DecidableEq, Repr

/-- The state of the house. Memory holds bytes under 2^52 · key id + physical address; vault words lie under
2^21 · physical room + word offset; spare rows under 1,024 · physical room + 32 · row + word. -/
structure State where
  /-- The core and slot whose instruction issues (R14). -/
  cur : Nat × Fin 4
  /-- What happens next, in order (log entry 11). -/
  agenda : List Turn
  /-- Steps taken: the argument of the free values (log entry 12). -/
  tick : Nat
  /-- The next transfer, ticket or arming order number. -/
  serial : Nat
  /-- House time base in 4.0 GHz cycles (R126). -/
  time : Nat
  /-- Cycles of each wing since reset (R3). -/
  cycles : Vector Nat 16
  cores : Table Core
  rooms : Table Room
  halls : Table Hall
  mem : List Host.Cell
  /-- Addresses of poisoned memory words (R357). -/
  poison : List Nat
  /-- Dirty lines found uncorrectable, by key id and number, of which the host is still to be told (R359). -/
  lostLines : List (Nat × Nat)
  vault : Table VaultWord
  spares : Table VaultWord
  /-- Repair table words by 32 · physical room + entry (R380). -/
  repairs : Table Word
  /-- Partials kept at the homes: key, line, byte offset, room, partial, in surrender order (R145). -/
  homeParts : List (Nat × Nat × Nat × Nat × Partial)
  transfers : List Transfer
  vclocks : Table Nat
  remotes : List RemoteWrite
  /-- Context table dwords by 8 · context + dword (R233). -/
  contextTable : Table XWord
  contexts : Table Context
  launches : Table Launch
  /-- The launches whose image the runtime loads into their rooms (R10). -/
  runtime : List RuntimeLaunch
  /-- What has left for estate barriers that other houses hold, in order (R347). -/
  estateSent : List EstateSend
  /-- Region table dwords by 8 · region + dword (R271). -/
  regionTable : Table XWord
  indexes : Table (List SealedEntry)
  /-- Entries of indexes, by region and number, that their larder has yet to write where their page lies (R277). -/
  indexOwed : List (Nat × Nat)
  deferred : List (Nat × BitVec 128)
  /-- The sealed pages that translations have named (R272). -/
  sealedPages : List TlbEntry
  /-- The highest WSIG tuple applied from each sender: sender, launch, superstep, ordinal (R368). -/
  wsigSeen : List (List Nat)
  hpCtl : XWord
  subRings : Table SubRing
  eventRing : EventRing
  hmMsg : XWord
  krBusy : Bool
  krKey : Nat
  grace : Nat
  budget : Nat
  bootStep : Nat
  bootCode : Nat
  firmware : Firmware
  /-- Interrupts raised, in order (R340, R342). -/
  irqs : List Nat
  /-- Operations of engines that wait for a page (R302, R412). -/
  blocked : List Blocked
  /-- Event arbiter sequence (R385). -/
  arbiter : Nat
  map : Table XWord
  changes : List Change
  /-- The units that the keeper has withdrawn (R374). -/
  withdrawn : List DeviceUnit
  /-- The rate steps that channels trained at, by 2 · physical hall + channel (Table 26.1). -/
  rates : Table Nat
  /-- The table 6 words that links trained to (Table 26.1). -/
  links : Table XWord
  /-- Logical rooms that a publication has placed anew, with what is left to do there (R376). -/
  unsettled : List Resettlement
  /-- Deadlines of published versions: version and time (R378). -/
  deadlines : List (Nat × Nat)
  /-- Boot summaries by node of the chimney tree: what has come from each child (R382, R399). -/
  summaries : Table (List (Nat × Report))
  levels : Vector Nat 16
  /-- Tenths of a cycle that each wing's core clock has run beyond its last whole cycle (R3). -/
  parts : Vector Nat 16
  shutter : Option Shutter
  /-- This house's number in the estate (Table 2.6). -/
  house : Nat
  deriving DecidableEq, Repr

/-- The house after reset: every register at the value its table gives, memory and vault as an unlisted entry reads,
and no step of the boot sequence taken (R381; log entries 1 to 12). -/
def State.reset : State where
  cur := (0, 3)
  agenda := []
  tick := 0
  serial := 0
  time := 0
  cycles := Vector.replicate 16 0
  cores := []
  rooms := []
  halls := []
  mem := []
  poison := []
  lostLines := []
  vault := []
  spares := []
  repairs := []
  homeParts := []
  transfers := []
  vclocks := []
  remotes := []
  contextTable := []
  contexts := []
  launches := []
  runtime := []
  estateSent := []
  regionTable := []
  indexes := []
  indexOwed := []
  deferred := []
  sealedPages := []
  wsigSeen := []
  hpCtl := 0
  subRings := []
  eventRing := EventRing.reset
  hmMsg := 0
  krBusy := false
  krKey := 0
  grace := 1000
  budget := 9000
  bootStep := 0
  bootCode := 0
  firmware := ⟨0, 0, 0⟩
  irqs := []
  blocked := []
  arbiter := 0
  map := []
  changes := []
  withdrawn := []
  rates := []
  links := []
  unsettled := []
  deadlines := []
  summaries := []
  levels := Vector.replicate 16 0
  parts := Vector.replicate 16 0
  shutter := none
  house := 0

/-- Why the machine stops. -/
inductive Fault where
  /-- An access to a physical address at which the spec puts no memory: a reserved space reached by firmware, device DRAM
  above the populated 3 TiB, or an expander address with a nonzero zero bit (R332, Table 20.1): raised by every access to
  physical memory; safe, since nothing follows from it. -/
  | noMemory (pa : Nat)
  deriving DecidableEq, Repr

/-- Why the model has no next state. -/
inductive Refusal where
  /-- An arm of `exec` that has no meaning yet; safe, since nothing follows from it. -/
  | notModelled (mnemonic : String)
  deriving DecidableEq, Repr

end Sys2Proof.Machine
end

