-- ==== Sys2Proof/Machine/Ops.lean ====
section
/-! DEFINITION. The shared operations: reaching units and registers, hints, privilege, retirement, taking a trap and
returning from one (R13 to R30, R38 to R48, R82 to R87). -/

namespace Sys2Proof.Machine

open Sys2Proof

/-! ### Units of the state -/

/-- A core. -/
def coreAt (s : State) (c : Nat) : Core := tget Core.reset s.cores c

/-- The state with one core written. -/
def putCore (s : State) (c : Nat) (v : Core) : State := { s with cores := tput s.cores c v }

/-- The state with one core changed. -/
def onCore (s : State) (c : Nat) (f : Core → Core) : State := putCore s c (f (coreAt s c))

/-- A slot. -/
def slotAt (s : State) (c : Nat) (k : Fin 4) : Slot := (coreAt s c).slots.get k

/-- The state with one slot written. -/
def putSlot (s : State) (c : Nat) (k : Fin 4) (v : Slot) : State :=
  putCore s c { coreAt s c with slots := (coreAt s c).slots.set k v }

/-- The state with one slot changed. -/
def onSlot (s : State) (c : Nat) (k : Fin 4) (f : Slot → Slot) : State := putSlot s c k (f (slotAt s c k))

/-- A room, by its logical number. -/
def roomAt (s : State) (r : Nat) : Room := tget Room.reset s.rooms r

/-- The state with one room changed. -/
def onRoom (s : State) (r : Nat) (f : Room → Room) : State := { s with rooms := tput s.rooms r (f (roomAt s r)) }

/-- A hall, by its logical number. -/
def hallAt (s : State) (h : Nat) : Hall := tget Hall.reset s.halls h

/-- The state with one hall changed. -/
def onHall (s : State) (h : Nat) (f : Hall → Hall) : State := { s with halls := tput s.halls h (f (hallAt s h)) }

/-- A context's record at the foundation. -/
def contextAt (s : State) (x : Nat) : Context := tget Context.reset s.contexts x

/-- The state with one context changed. -/
def onContext (s : State) (x : Nat) (f : Context → Context) : State :=
  { s with contexts := tput s.contexts x (f (contextAt s x)) }

/-- A launch, if its record is not idle. -/
def launchAt (s : State) (l : Nat) : Option Launch := tfind s.launches l

/-- The state with one launch changed, if it is there. -/
def onLaunch (s : State) (l : Nat) (f : Launch → Launch) : State :=
  match launchAt s l with
  | some v => { s with launches := tput s.launches l (f v) }
  | none => s

/-- Steps that fall due after this one, in order (log entry 11). -/
def post (s : State) (es : List Due) : State := { s with agenda := s.agenda ++ es.map Turn.event }

/-- Steps that come next, before anything else. -/
def postFirst (s : State) (es : List Due) : State := { s with agenda := es.map Turn.event ++ s.agenda }

/-- The key of a launch: 1,024 · context + record. -/
def launchKey (ctx record : Nat) : Nat := 1024 * ctx + record

/-! ### The Drisor map (R372) -/

/-- A map word of an undegraded house joined to no estate (log entry 8). -/
def mapDefault (table index : Nat) : XWord :=
  match table with
  | 0 => if index = 2 ∨ index = 3 then 4096 else 0
  | 1 => if index < 4096 then 0xFFFF else 0
  | 2 => if index < 4096 then BitVec.ofNat 64 (2 ^ 62 + index) else 0
  | 4 => if index < 512 then BitVec.allOnes 64 else 0
  | 5 => if index < 512 then 1 else 0
  | 9 => if index < 256 then BitVec.ofNat 64 index else 0
  | _ => 0

/-- The words of each table (Table 26.1). -/
def mapWords : Nat → Nat
  | 0 => 4 | 1 => 4096 | 2 => 4096 | 3 => 131072 | 4 => 512 | 5 => 512 | 6 => 12 | 7 => 16 | 8 => 64 | 9 => 256 | _ => 0

/-- A word of the map (R372); an address outside a table reads as 0. -/
def mapWord (s : State) (table index : Nat) : XWord :=
  if index < mapWords table then tget (mapDefault table index) s.map (table * 2 ^ 24 + index) else 0

/-- The state with one map word written. -/
def putMapWord (s : State) (table index : Nat) (v : XWord) : State :=
  { s with map := tput s.map (table * 2 ^ 24 + index) v }

/-- The current map version (R373). -/
def mapVersion (s : State) : BitVec 32 := (mapWord s 0 0).setWidth 32

/-- The physical room a logical room is placed on; none if it is absent (R375). -/
def physicalRoom (s : State) (r : Nat) : Option Nat :=
  let w := mapWord s 2 r
  if w.msb then none else some (w.toNat % 4096)

/-! ### Numbers of units -/

/-- The first threshold core: that of logical hall 0 (log entry 13). -/
def firstThreshold : Nat := 65536

/-- Whether a core number is that of a threshold core. -/
def isThreshold (c : Nat) : Bool := decide (firstThreshold ≤ c)

/-- The logical hall of a core: core.id[15:8] (Table 2.6). -/
def hallOf (c : Nat) : Nat := if isThreshold c then c - firstThreshold else c / 256

/-- The logical room of a core: core.id[15:4] (Table 2.6). -/
def roomOf (c : Nat) : Nat := if isThreshold c then 16 * (c - firstThreshold) else c / 16

/-- The wing of a core: core.id[15:12]. -/
def wingOf (c : Nat) : Nat := hallOf c / 16

/-- The physical hall of a logical hall (Table 26.1); none if it is absent. -/
def physicalHall (s : State) (h : Nat) : Option Nat :=
  let w := mapWord s 9 h
  if w.msb then none else some (w.toNat % 256)

/-- The wing of the die that a core runs in (R3, R375): that of the physical room, or hall, that its number is placed on. -/
def dieOf (s : State) (c : Nat) : Nat :=
  if isThreshold c then (physicalHall s (hallOf c)).getD (hallOf c) / 16
  else (physicalRoom s (roomOf c)).getD (roomOf c) / 256

/-- Whether a publication has left something to do at a core's room (R376). -/
def resettling (s : State) (c : Nat) : Bool := !isThreshold c && s.unsettled.any fun e => match e with
  | .moved r _ _ | .gone r _ | .back r => r == roomOf c

/-- The unit of the map that a core is: its physical room and its index there (R374). -/
def coreUnit (s : State) (c : Nat) : DeviceUnit := .core ((physicalRoom s (roomOf c)).getD (roomOf c)) (c % 16)

/-- The modes of R13. -/
inductive Mode where
  | user | supervisor | firmware
  deriving DecidableEq, Repr

/-- The mode of a slot: threshold cores run firmware, slot 3 the supervisor, slots 0 to 2 user code (R13). -/
def modeOf (c : Nat) (k : Fin 4) : Mode :=
  if isThreshold c then .firmware else if k = 3 then .supervisor else .user

/-- The order of the modes (R44). -/
def Mode.level : Mode → Nat
  | .user => 0 | .supervisor => 1 | .firmware => 2

/-! ### Meanings as programs over the state -/

/-- Why an instruction ends before its effect. -/
inductive Stop where
  /-- A trap at the instruction, which has taken no effect (R26): cause, trap.addr, sub, trap.info[47:0]. -/
  | trap (cause : Nat) (addr : XWord) (sub info : Nat)
  /-- The slot parks and the instruction has taken no effect (R113 to R115). Steps that fall due follow. -/
  | park (w : Wait) (due : List Due)
  /-- The instruction has taken no effect, and other steps come before it issues again. -/
  | retry (first : List Due)
  /-- The instruction has taken no effect, and issues again after what is already due and these steps. -/
  | later (due : List Due)
  /-- An engine of a hall cannot reach a page of a context (R412): what the host is told, if anything (context, address,
  cause), and steps that fall due. The operation has taken no effect, and waits. -/
  | engine (hall : Nat) (report : Option (Nat × XWord × Nat)) (due : List Due)
  /-- The machine stops. -/
  | fault (f : Fault)
  deriving DecidableEq, Repr

/-- A program over the state that may stop. -/
abbrev M := EStateM Stop State

/-- How an instruction that takes effect ends. -/
inductive Flow where
  /-- The next instruction in address order. -/
  | seq
  /-- A taken transfer (R82). -/
  | taken (pc : XWord)
  /-- The instruction at another address, without a taken transfer. -/
  | goto (pc : XWord)
  /-- The instruction at an address with a loop stack, which the instruction's own check of R84 gave (R320). -/
  | checked (pc : XWord) (loops : List Loop)
  /-- A trap taken after the instruction (R26): cause, trap.addr, trap.info[47:0]. -/
  | after (cause : Nat) (addr : XWord) (info : Nat)
  /-- A trap at the instruction that keeps what it has done, for it to go on from there (R164): cause, trap.addr, sub,
  trap.info[47:0]. -/
  | trapped (cause : Nat) (addr : XWord) (sub info : Nat)
  /-- The slot parks at the instruction, which has taken an effect already, until the wait completes it (R113). -/
  | wait (w : Wait)
  /-- The slot has gone on to something else, and its PC is not to be moved. -/
  | gone
  deriving DecidableEq, Repr

/-- Trap at the instruction. -/
def trap {α : Type} (cause : Nat) (addr : XWord := 0) (sub info : Nat := 0) : M α := throw (.trap cause addr sub info)

/-- Trap 0x01 with the word of the instruction in trap.info (R46). -/
def illegal {α : Type} (i : Instr) : M α := trap 0x01 0 0 (encode i).toNat

/-- Parks the slot at its instruction. -/
def park {α : Type} (w : Wait) (due : List Due := []) : M α := throw (.park w due)

/-- Goes on only where a condition holds. -/
def ensure (b : Bool) (stop : M Unit) : M Unit := if b then pure () else stop

/-- The issuing core. -/
def myCore : M Nat := do return (← get).cur.1

/-- The issuing slot's number. -/
def mySlot : M (Fin 4) := do return (← get).cur.2

/-- The issuing slot. -/
def me : M Slot := do
  let s ← get
  return slotAt s s.cur.1 s.cur.2

/-- Changes the issuing slot. -/
def onMe (f : Slot → Slot) : M Unit := modify fun s => onSlot s s.cur.1 s.cur.2 f

/-- The mode of the issuing slot. -/
def myMode : M Mode := do
  let s ← get
  return modeOf s.cur.1 s.cur.2

/-- The launch of a slot's task, by its key. -/
def launchOf (v : Slot) : Option Nat := v.launch.map (launchKey v.ctx)

/-- Runs a program as another slot, and then goes back. -/
def asSlot {α : Type} (c : Nat) (k : Fin 4) (act : M α) : M α := do
  let was := (← get).cur
  modify fun s => { s with cur := (c, k) }
  let a ← act
  modify fun s => { s with cur := was }
  return a

/-- The pair a slot runs in. -/
def pairOf (s : State) (c : Nat) (k : Fin 4) : Option Pair :=
  match (coreAt s c).pair with
  | some p => if p.slot = k then some p else none
  | none => none

/-- The core whose coordinates a slot sees: its pair's leader's, or its own (R25). -/
def leadCore (s : State) (c : Nat) (k : Fin 4) : Nat :=
  match pairOf s c k with
  | some p => if p.leader then c else c - 1
  | none => c

/-- The next serial number: of a transfer, a ticket or an arm. -/
def nextSerial : M Nat := do
  let s ← get
  set { s with serial := s.serial + 1 }
  return s.serial

/-! ### Supersteps and poison (R358) -/

/-- The launch of a slot, if the launch runs in supersteps: its key and the launch. -/
def gangOf (s : State) (v : Slot) : Option (Nat × Launch) :=
  match launchOf v with
  | none => none
  | some l => match launchAt s l with
    | none => none
    | some r => if r.mode = 0 then none else some (l, r)

/-- Consumption of poison (R358): a gang in a recoverable superstep rolls back, twice at most, and any other slot
traps 0x0E with its reason. -/
def poisoned {α : Type} (addr : XWord) : M α := do
  let s ← get
  match gangOf s (slotAt s s.cur.1 s.cur.2) with
  | none => trap 0x0E addr 0 0
  | some (l, r) =>
    if r.mode = 1 then
      if r.rollbacks < 2 then throw (.retry [.superstepRollback (l / 1024) (l % 1024)])
      else trap 0x0E addr 0 4
    else trap 0x0E addr 0 1

/-! ### Registers (R17 to R19, R410) -/

/-- A register that half of a pair writes is noted for its fingerprint, by the byte that names it (R361). -/
def note (name : Nat) : M Unit := modify fun s =>
  match pairOf s s.cur.1 s.cur.2 with
  | none => s
  | some p => onCore s s.cur.1 fun q => { q with pair := some { p with wrote := p.wrote ++ [name] } }

/-- Reads an x register (R17): x0 reads zero; a register whose stored check bits do not match is corrected, or
poisoned (R391, R410). -/
def rx (r : Reg) : M XWord := do
  let v ← me
  if r = 0 then return 0
  else match tfind v.bad r.val with
    | none => return v.x.get r
    | some c => match decodeChecked 64 7 (v.x.get r).toNat c.toNat with
      | none => poisoned 0
      | some d => do
        onMe fun v => { v with x := v.x.set r (BitVec.ofNat 64 d), bad := tdel v.bad r.val }
        return BitVec.ofNat 64 d

/-- Writes an x register (R17): writes of x0 are discarded. -/
def wx (r : Reg) (d : XWord) : M Unit :=
  if r = 0 then pure ()
  else do
    onMe fun v => { v with x := v.x.set r d, bad := tdel v.bad r.val }
    note r.val

/-- Reads a p register (R17): p0 reads all ones. -/
def rp (r : Reg) : M (BitVec 32) := do
  let v ← me
  return if r.val % 8 = 0 then BitVec.allOnes 32 else v.p.get (Fin.ofNat 8 r.val)

/-- Writes a p register (R17): writes of p0 are discarded. -/
def wp (r : Reg) (d : BitVec 32) : M Unit :=
  if r.val % 8 = 0 then pure ()
  else do
    onMe fun v => { v with p := v.p.set (Fin.ofNat 8 r.val) d }
    note (0x40 + r.val % 8)

/-- Key of a quarter of a w register among the stored check bits. -/
def quarterKey (r : Reg) (q : Nat) : Nat := 32 + 4 * r.val + q

/-- A quarter of a w register (ARRT array 2). -/
def quarterOf (d : VWide) (q : Nat) : XWord := BitVec.ofNat 64 (d.toNat / 2 ^ (64 * q))

/-- A w register with one quarter replaced. -/
def withQuarter (d : VWide) (q : Nat) (v : XWord) : VWide :=
  BitVec.ofNat 256 (d.toNat - (quarterOf d q).toNat * 2 ^ (64 * q) + v.toNat * 2 ^ (64 * q))

/-- Corrects the quarters of a w register that have stored check bits of their own (R410). -/
def checkQuarters (r : Reg) : List Nat → M Unit
  | [] => pure ()
  | q :: qs => do
    let v ← me
    match tfind v.bad (quarterKey r q) with
    | none => checkQuarters r qs
    | some c => match decodeChecked 64 7 (quarterOf (v.w.get r) q).toNat c.toNat with
      | none => poisoned 0
      | some d => do
        onMe fun v => { v with
          w := v.w.set r (withQuarter (v.w.get r) q (BitVec.ofNat 64 d)), bad := tdel v.bad (quarterKey r q) }
        checkQuarters r qs

/-- The stored contents of a w register that no stream is bound to. -/
def rwStored (r : Reg) : M VWide := do
  checkQuarters r [0, 1, 2, 3]
  return (← me).w.get r

/-- Writes the stored contents of a w register, and counts it as written since task start (R249). -/
def wwStored (r : Reg) (d : VWide) : M Unit := do
  onMe fun v => { v with
    w := v.w.set r d, bad := (List.range 4).foldl (fun b q => tdel b (quarterKey r q)) v.bad
    wWritten := v.wWritten ||| BitVec.ofNat 32 (2 ^ r.val) }
  note (0x20 + r.val)

/-- Changes a stream of the issuing slot. -/
def onStream (k : Fin 4) (f : Stream → Stream) : M Unit :=
  onMe fun v => { v with s := v.s.set k (f (v.s.get k)) }

/-- Ends a configured stream (R107): its register takes the last element popped or pushed. -/
def endStream (k : Fin 4) : M Unit := do
  let q := (← me).s.get k
  match q.bound, q.last with
  | some d, some e => wwStored d e
  | _, _ => pure ()
  onStream k fun _ => Stream.reset

/-- The stream a w register is bound to (R19, R105). -/
def boundTo (v : Slot) (r : Reg) : Option (Fin 4) :=
  [0, 1, 2, 3].find? fun k => (v.s.get k).bound = some r

/-! ### Hints (R38 to R42) -/

/-- Whether an instruction is a hint. -/
def isHint : Instr → Bool
  | .hintWide _ | .hintRm _ _ | .hintDep _ _ _ _ _ | .hintSchedYield _ | .hintSchedHold | .hintSat | .hintCache _ => true
  | _ => false

/-- The kind of a hint (Table 3.14). -/
def hintKind : Instr → Nat
  | .hintWide _ => 0 | .hintRm _ _ => 1 | .hintDep _ _ _ _ _ => 2 | .hintSchedYield _ => 3 | .hintSchedHold => 3
  | .hintSat => 4 | .hintCache _ => 5 | _ => 15

/-- Instructions that accept WIDE (Table 3.14). -/
def acceptsWide : Instr → Bool
  | .addi _ _ _ | .andi _ _ _ | .ori _ _ _ | .xori _ _ _ | .slti _ _ _ | .sltni _ _ _
  | .ld _ _ _ _ | .st _ _ _ _ | .vld _ _ _ _ | .vst _ _ _ _ => true
  | _ => false

/-- Instructions that accept RM (Table 3.14); `int` marks an intermediate step. -/
def acceptsRm (int : Bool) : Instr → Bool
  | .vdiv _ _ _ _ | .vsqrt _ _ _ | .vfma _ _ _ _ _ | .vfms _ _ _ _ _ | .vfnma _ _ _ _ _ | .vfnms _ _ _ _ _
  | .vqnt _ _ _ _ => !int
  | .vadd ty _ _ _ | .vsub ty _ _ _ | .vmul ty _ _ _ | .vreda ty _ _ | .vdot ty _ _ _ => !int && ty.colF
  | .vcvt ty _ _ src | .vcvtx ty _ _ src =>
    (decide (8 ≤ ty.code) && decide (ty.code ≤ 13)) || (decide (8 ≤ src.code) && decide (src.code ≤ 13))
  | _ => false

/-- Instructions that accept DEP (Table 3.14). -/
def acceptsDep : Instr → Bool
  | .hmm _ _ _ _ _ | .hadd _ _ _ _ _ | .hmv _ _ _ _ _ | .hcvt _ _ _ _ _ => true
  | _ => false

/-- Instructions that accept SAT (Table 3.14). -/
def acceptsSat : Instr → Bool
  | .vcvt ty _ _ _ | .vcvtx ty _ _ _ => decide (ty.code < 8) || decide (ty.code = 12) || decide (ty.code = 13)
  | .hcvt _ _ _ _ _ => true
  | _ => false

/-- Instructions that accept CACHE (Table 3.14). -/
def acceptsCache : Instr → Bool
  | .ld _ _ _ _ | .st _ _ _ _ | .vld _ _ _ _ | .vst _ _ _ _ | .ldx _ _ _ _ | .stx _ _ _ _ | .vldx _ _ _ _
  | .vstx _ _ _ _ | .vlds _ _ _ _ | .vsts _ _ _ _ | .pf _ _ => true
  | _ => false

/-- Whether an instruction accepts a hint (R38, R39, Table 3.14). -/
def accepts (i : Instr) : Instr → Bool
  | .hintWide _ => acceptsWide i
  | .hintRm int _ => acceptsRm int i
  | .hintDep _ _ _ _ _ => acceptsDep i
  | .hintSchedYield _ | .hintSchedHold => true
  | .hintSat => acceptsSat i
  | .hintCache _ => acceptsCache i
  | _ => false

/-- The payload of a pending WIDE hint. -/
def wideOf (v : Slot) : Option (BitVec 22) := v.hints.findSome? fun h => match h with | .hintWide p => some p | _ => none

/-- The mode of a pending RM hint, with its intermediate bit. -/
def rmOf (v : Slot) : Option (Bool × Nat) :=
  v.hints.findSome? fun h => match h with | .hintRm int m => some (int, m.toNat) | _ => none

/-- Whether a SAT hint is pending. -/
def satOf (v : Slot) : Bool := v.hints.contains .hintSat

/-- Whether an instruction needs supervisor mode (R44, Table 3.26). -/
def needsSupervisor : Instr → Bool
  | .arearm _ | .repw _ _ | .arrt _ _ _ | .shut | .snaprd _ _ => true
  | _ => false

/-- Whether an instruction needs firmware mode (R44, Table 3.26). -/
def needsFirmware : Instr → Bool
  | .tlbw _ _ _ | .tlbinv _ _ | .tlbq _ _ | .fbpop _ | .replay | .msgrx _ => true
  | _ => false

/-- The lowest mode that may issue an instruction (R44). -/
def privilege (i : Instr) : Mode :=
  if needsFirmware i then .firmware else if needsSupervisor i then .supervisor else .user

/-- Whether the slot is inside its handler: trap.cause H (Table 2.7). -/
def inHandler (v : Slot) : Bool := v.trap.cause.msb

/-- Whether an address is the last position of the innermost loop body (R38, R84). -/
def atLoopEnd (v : Slot) : Bool :=
  !inHandler v && match v.loops with
    | [] => false
    | e :: _ => e.stop == v.pc

/-- The checks of R46 that follow the decoder's: pending hints (5) and privilege (6); and for a hint those of R38. Of several
hints that the instruction does not accept, the first in run order is reported: DESIGN CHOICE (log entry 93). -/
def accept (i : Instr) : M Unit := do
  let v ← me
  if isHint i then
    ensure (!(v.hints.any fun h => hintKind h == hintKind i) && !atLoopEnd v) (illegal i)
  else
    match v.hints.find? fun h => !accepts i h with
    | some h => illegal h
    | none => ensure (decide ((privilege i).level ≤ (← myMode).level)) (trap 0x02)

/-! ### Retirement (R20, R82 to R84, R87) -/

/-- The loop end check of R84 at address `pc`, which goes on to `next` otherwise. -/
def loopEnd (pc next : XWord) : List Loop → XWord × List Loop
  | [] => (next, [])
  | e :: es =>
    if e.stop = pc then
      if e.remaining - 1 = 0 then loopEnd pc next es
      else (e.start, { e with remaining := e.remaining - 1 } :: es)
    else (next, e :: es)

/-- The entries a taken transfer to `t` keeps: it discards each entry whose body it leaves (R84). -/
def loopKeep (t : XWord) : List Loop → List Loop
  | [] => []
  | e :: es => if e.start ≤ t && t ≤ e.stop then e :: es else loopKeep t es

/-- Where a slot goes on and with which loop stack (R84): in a handler the stack is frozen. The skip of a LOOP with count 0 is
a `goto`, no taken transfer: DESIGN CHOICE (log entry 96). -/
def nextPc (v : Slot) : Flow → XWord × List Loop
  | .seq | .after _ _ _ => if inHandler v then (v.pc + 4, v.loops) else loopEnd v.pc (v.pc + 4) v.loops
  | .goto t => if inHandler v then (t, v.loops) else loopEnd v.pc t v.loops
  | .taken t => (t, if inHandler v then v.loops else loopKeep t v.loops)
  | .checked t loops => (t, loops)
  | .gone | .wait _ | .trapped _ _ _ _ => (v.pc, v.loops)

/-- The cycles from an instruction's own to the slot's next ready one: a SCHED yield of n skips n cycles, and a taken
transfer delays the next instruction to the third cycle after it (R82, R87). 0 where nothing delays it. -/
def delayOf (v : Slot) (super : Bool) (flow : Flow) : Nat :=
  let yield := if super then 0 else
    (v.hints.findSome? fun h => match h with | .hintSchedYield n => if n = 0 then none else some (n.toNat + 1) | _ => none).getD 0
  match flow with
  | .taken _ => max 3 yield
  | _ => yield

/-- The slot after its instruction: PC, loop stack, hints consumed, one instruction retired. -/
def retired (v : Slot) (super : Bool) (flow : Flow) : Slot :=
  { v with
    pc := (nextPc v flow).1, loops := (nextPc v flow).2, hints := [], retired := v.retired + 1
    delay := delayOf v super flow, yielded := !super && v.hints.contains (.hintSchedYield 0) }

/-- The issue pointer after a SCHED hold: the task slot before this one in the order of R14 (R87). It acts when the bound
instruction completes: DESIGN CHOICE (log entry 97). -/
def heldPointer (v : Slot) (k : Fin 4) (p : Fin 3) : Fin 3 :=
  if k ≠ 3 && v.hints.contains .hintSchedHold then Fin.ofNat 3 (k.val + 2) else p

/-- Retirement of the issuing slot's instruction, with its SCHED hint (log entry 97). -/
def retire (flow : Flow) : M Unit := do
  let s ← get
  match flow with
  | .gone | .wait _ | .trapped _ _ _ _ => pure ()
  | _ => do
    let v := slotAt s s.cur.1 s.cur.2
    set (onCore s s.cur.1 fun c => { c with
      slots := c.slots.set s.cur.2 (retired v (s.cur.2 == 3) flow)
      pointer := heldPointer v s.cur.2 c.pointer })

/-- A hint joins the pending ones (R15, R86). Each hint word counts in `retired`: DESIGN CHOICE (log entry 94). -/
def addHint (i : Instr) : M Unit := onMe fun v => { v with
  hints := v.hints ++ [i], hintPc := if v.hints.isEmpty then v.pc else v.hintPc
  pc := v.pc + 4, retired := v.retired + 1 }

/-! ### Traps (R26 to R29) -/

/-- The trap causes of class user (Table 2.4). -/
def userClass (cause : Nat) : Bool :=
  [0x01, 0x02, 0x03, 0x08, 0x09, 0x0A, 0x0B, 0x0C, 0x0D, 0x10, 0x13, 0x14, 0x15].contains cause

/-- trap.info (Table 2.8). -/
def trapInfo (origin sub info : Nat) : XWord :=
  BitVec.ofNat 64 (origin % 16 * 2 ^ 60 + sub % 256 * 2 ^ 48 + info % 2 ^ 48)

/-- The restart address of a trap: the trapping instruction, or the first hint bound to it (R29, R42). -/
def restartPc (v : Slot) : XWord := if v.hints.isEmpty then v.pc else v.hintPc

/-- The trap registers that a trap fills (R28); `h` is the H bit. -/
def filled (t : TrapRegs) (h : Bool) (k : Nat) (pc addr : XWord) (cause sub info : Nat) : TrapRegs :=
  { t with
    cause := BitVec.ofNat 64 (cause % 256 + h.toNat * 2 ^ 63), pc := pc, addr := addr, info := trapInfo k sub info }

/-- Entry of the handler at trap.vec (R28); the hints are cleared (R42). -/
def enterHandler (v : Slot) (t : TrapRegs) : Slot := { v with trap := t, pc := t.vec, hints := [], delay := 0 }

/-- A trap cause word with its H bit given. -/
def withH (h : BitVec 1) (cause : XWord) : XWord := h ++ cause.extractLsb' 0 63

/-- Delivery to the supervisor slot (R28): the slot parks with its registers filled, H among them, and waits its turn. The
delivery keeps the H bit that the slot had. -/
def deliver (s : State) (c : Nat) (k : Fin 4) (t : TrapRegs) : State :=
  let was := (slotAt s c k).trap.cause.extractLsb' 63 1
  let s := onSlot s c k fun v => { v with
    trap := { t with cause := withH 1 t.cause }, hints := [], pc := t.pc, wait := some .delivery }
  post (onCore s c fun q => { q with deliveries := q.deliveries ++ [⟨k, { t with cause := withH was t.cause }⟩] })
    [.supervisorDelivery c]

/-- Trap entry (R28) of slot `k` of core `c`, with the restart address `pc`. A double fault stops the core (R29). -/
def takeTrap (s : State) (c : Nat) (k : Fin 4) (pc : XWord) (cause : Nat) (addr : XWord) (sub info : Nat) : State :=
  let v := slotAt s c k
  if modeOf c k = .user then
    if userClass cause && !inHandler v then
      putSlot s c k (enterHandler v (filled v.trap true k.val pc addr cause sub info))
    else deliver s c k (filled v.trap true k.val pc addr cause sub info)
  else if !inHandler v then
    putSlot s c k (enterHandler v (filled v.trap true 3 pc addr cause sub info))
  else
    post (onCore s c fun q => { q with halted := true })
      [.unitWithdrawal (coreUnit s c)]

/-- A trap at the issuing slot's instruction (R26, R29, R42). -/
def trapHere (s : State) (cause : Nat) (addr : XWord) (sub info : Nat) : State :=
  takeTrap s s.cur.1 s.cur.2 (restartPc (slotAt s s.cur.1 s.cur.2)) cause addr sub info

/-- The issuing slot parks at its instruction (R113). -/
def parkHere (s : State) (w : Wait) (due : List Due) : State :=
  post { onSlot s s.cur.1 s.cur.2 (fun v => { v with wait := some w, ticket := s.serial }) with serial := s.serial + 1 }
    due

end Sys2Proof.Machine
end

