-- ==== Sys2Proof/Machine/Memory.lean ====
section
/-! DEFINITION. The memory hierarchy as programs see it (R127 to R155, R297, R298, R332, R346, R357, R380, R411): where an
address lies, who may reach it, vault words and their metadata, memory bytes, accumulate-only lines. Copies in L1s,
vault caches and L2 slices are not state: every access is performed at its home (log entry 15). -/

namespace Sys2Proof.Machine

open Sys2Proof

/-! ### Vault words (R130, R133, R380) -/

/-- Bytes of one vault (R130). -/
def vaultBytes : Nat := 2 ^ 23

/-- Whether a repair entry sends a row of a slice to its spare (R380): V = 1 and BAD = 0 (Table 26.3). -/
def repairHits (e : Word) (slice row : Nat) : Bool :=
  e.toNat / 2 ^ 30 == 2 && e.toNat / 2 ^ 12 % 16 == slice && e.toNat % 4096 == row

/-- A repair table word. -/
def repairWord (s : State) (pr i : Nat) : Word := tget 0 s.repairs (32 * pr + i)

/-- The spare row that replaces the row of a vault offset, if one does (R380). -/
def spareOf (s : State) (pr off : Nat) : Option Nat :=
  (List.range 32).find? fun i => repairHits (repairWord s pr i) (off / 2 ^ 19 % 16) (off % 2 ^ 19 / 128)

/-- A vault word of a physical room (R133, R380). -/
def vaultAt (s : State) (pr off : Nat) : VaultWord :=
  match spareOf s pr off with
  | some i => tget VaultWord.reset s.spares (1024 * pr + 32 * i + off % 128 / 4)
  | none => tget VaultWord.reset s.vault (2 ^ 21 * pr + off % vaultBytes / 4)

/-- The state with one vault word written. -/
def putVault (s : State) (pr off : Nat) (w : VaultWord) : State :=
  match spareOf s pr off with
  | some i => { s with spares := tset VaultWord.reset s.spares (1024 * pr + 32 * i + off % 128 / 4) w }
  | none => { s with vault := tset VaultWord.reset s.vault (2 ^ 21 * pr + off % vaultBytes / 4) w }

/-- The payload of a vault word: concat(V, D, F, data) (Table 8.3). -/
def payloadOf (w : VaultWord) : Nat := w.data.toNat + 2 ^ 32 * (w.f.toNat + 2 * w.d.toNat + 4 * w.v.toNat)

/-- A vault word with a payload and check bits (R391). -/
def wordOfPayload (p : Nat) (check : Option (BitVec 7)) : VaultWord :=
  ⟨BitVec.ofNat 32 p, bitAt p 34, bitAt p 33, bitAt p 32,
    match check with | some c => if c = vaultCheck (p % 2 ^ 35) then none else some c | none => none, false⟩

/-- An ordinary read of a vault word (R410): check bits that do not match correct it or poison it. -/
def readChecked (w : VaultWord) : VaultWord :=
  match w.check with
  | none => w
  | some c => match decodeChecked 35 6 (payloadOf w) c.toNat with
    | some p => { wordOfPayload p none with poison := w.poison }
    | none => { w with poison := true }

/-- One more corrected error of a room, saturating (R357, R371). -/
def countCorrected (s : State) (r : Nat) : State :=
  onRoom s r fun q => { q with corrected := if q.corrected = BitVec.allOnes 32 then q.corrected else q.corrected + 1 }

/-- A vault word of a room as a read that is no access finds it, written back and counted where it is corrected (R357, R410). -/
def checkedAt (s : State) (r pr off : Nat) : VaultWord × State :=
  let w := vaultAt s pr off
  match w.check with
  | none => (w, s)
  | some _ =>
    let v := readChecked w
    let t := putVault s pr off v
    (v, if v.check.isNone then countCorrected t r else t)

/-- A vault word as an access sees it, written back where the access corrects it (R357, R410); 0x0F where the logical
room is absent (R376). -/
def vaultWord (addr : XWord) (r off : Nat) : M VaultWord := do
  let s ← get
  match physicalRoom s r with
  | none => trap 0x0F addr
  | some pr =>
    let w := vaultAt s pr off
    match w.check with
    | none => return w
    | some _ => do
      let v := readChecked w
      modify fun s => putVault s pr off v
      if v.check.isNone then modify fun s => countCorrected s r
      return v

/-- Writes a vault word of a logical room. -/
def setVault (r off : Nat) (w : VaultWord) : M Unit := modify fun s =>
  match physicalRoom s r with
  | none => s
  | some pr => putVault s pr off w

/-! ### Memory bytes -/

/-- The key of a memory byte: key id and physical address (R132, R150). -/
def memKey (key pa : Nat) : Nat := key * 2 ^ 52 + pa % 2 ^ 52

/-- A number for the byte that lies `i` bytes after a place: no two bytes have the same. -/
def placeKey (p : Place) (i : Nat) : Nat :=
  match p with
  | .vault r off => 2 * (r * 2 ^ 23 + off + i)
  | .mem key pa => 2 * memKey key (pa + i) + 1

/-- A byte of memory; what nothing has written reads 0 (log entry 6). -/
def memByte (m : List Host.Cell) (a : Nat) : Byte := tget 0 m a

/-- Memory with one byte written, in canonical form. -/
def memPut (m : List Host.Cell) (a : Nat) (b : Byte) : List Host.Cell := tset 0 m a b

/-- The canonical form of memory: addresses rise strictly, and no entry equals what an unlisted address reads as. -/
abbrev Memory.wf (m : List Host.Cell) : Bool := tsorted 0 m && tlean 0 m

/-- `n` bytes of memory from an address. -/
def memBytes (m : List Host.Cell) (a : Nat) : Nat → List Byte
  | 0 => []
  | n + 1 => memByte m a :: memBytes m (a + 1) n

/-- Memory with bytes written from an address. -/
def memWrite (m : List Host.Cell) (a : Nat) : List Byte → List Host.Cell
  | [] => m
  | b :: bs => memWrite (memPut m a b) (a + 1) bs

/-- A field of some bytes. -/
def fieldAt (bs : List Byte) (i n : Nat) : Nat := natOfBytes ((bs.drop i).take n)

/-- The words an interval of bytes touches. -/
def wordsIn (a n : Nat) : List Nat := (List.range ((a % 4 + n + 3) / 4)).map fun i => 4 * (a / 4 + i)

/-- The words an interval of bytes covers whole. -/
def wholeWordsIn (a n : Nat) : List Nat := (wordsIn a n).filter fun w => decide (a ≤ w) && decide (w + 4 ≤ a + n)

/-- The spaces of Table 20.1. -/
inductive Space where
  | dram | expander | host | fabric | reserved
  deriving DecidableEq, Repr

/-- The space of a physical address (R332). -/
def spaceOf (pa : Nat) : Space :=
  match pa / 2 ^ 48 % 16 with
  | 0 => .dram | 1 => .expander | 2 => .host | 3 => .fabric | _ => .reserved

/-- Whether the spec puts memory at a physical address (Table 20.1). -/
def populated (pa : Nat) : Bool :=
  match spaceOf pa with
  | .dram => decide (pa < 3 * 2 ^ 40)
  | .expander => decide (pa / 2 ^ 44 % 16 = 0)
  | .host => true
  | .fabric => true
  | .reserved => false

/-- The live channels, in order (R151, Table 26.1). -/
def liveChannels (s : State) : List Nat := (List.range 512).filter fun i => (mapWord s 5 i).getLsbD 0

/-- The logical hall placed on a physical hall (Table 26.1). -/
def logicalHall (s : State) (p : Nat) : Nat :=
  ((List.range 256).find? fun h => !(mapWord s 9 h).msb && (mapWord s 9 h).toNat % 256 == p).getD p

/-- The live halls, in order (Table 26.1). -/
def liveHalls (s : State) : List Nat := (List.range 256).filter fun h => !(mapWord s 9 h).msb

/-- The logical hall that homes a physical address (R151): the 4 KiB interleave over the live channels, two for each hall, or
for expander memory over the live halls. An undegraded map lists nothing. -/
def homeHall (s : State) (pa : Nat) : Nat :=
  if spaceOf pa = .expander then
    if s.map.isEmpty then pa / 4096 % 256 else (liveHalls s).getD (pa / 4096 % (liveHalls s).length) 0
  else if s.map.isEmpty then pa / 4096 % 512 / 2
  else
    let live := liveChannels s
    logicalHall s (live.getD (pa / 4096 % live.length) 0 / 2)

/-! ### Translation (R128, R131, R132, R297, R298) -/

/-- The page sizes of Table 8.2, as numbers of 64 KiB pages. -/
def pageUnits : Nat → Nat
  | 0 => 1 | 1 => 32 | _ => 16384

/-- Whether a TLB entry covers VA[55:16] of a context (R297). -/
def covers (e : TlbEntry) (ctx va : Nat) : Bool :=
  e.ctx == ctx && e.va / pageUnits e.size == va / pageUnits e.size

/-- The set of the L2 TLB an entry lies in (R297). -/
def tlbSet (e : TlbEntry) : Nat := (e.ctx ^^^ (e.va / pageUnits e.size)) % 256

/-- A list with one entry moved to the front, as most recently used. -/
def toFront (e : TlbEntry) (l : List TlbEntry) : List TlbEntry := e :: l.filter fun x => x != e

/-- The first `n` entries of one set kept, the others of the set dropped: the least recently used go. -/
def capSet (set : Nat) : Nat → List TlbEntry → List TlbEntry
  | _, [] => []
  | n, e :: t =>
    if tlbSet e = set then
      match n with
      | 0 => capSet set 0 t
      | n + 1 => e :: capSet set n t
    else e :: capSet set n t

/-- Insertion into an L2 TLB: an entry of the same page goes, and a full set loses its least recently used (R297). -/
def l2Insert (e : TlbEntry) (l : List TlbEntry) : List TlbEntry :=
  e :: capSet (tlbSet e) 7 (l.filter fun x => !(x.ctx == e.ctx && x.va == e.va && x.size == e.size))

/-- Insertion into an L1 TLB of 32 entries (R297). -/
def l1Insert (e : TlbEntry) (l : List TlbEntry) : List TlbEntry := (toFront e l).take 32

/-- VA[55:16] of an address. -/
def pageOf (a : XWord) : Nat := a.toNat / 2 ^ 16 % 2 ^ 40

/-- The TLB entry for an access of a slot: its core's L1, then its hall's L2, which installs the entry in the L1. -/
def slotLookup (s : State) (c ctx va : Nat) : Option (TlbEntry × State) :=
  match (coreAt s c).tlb.find? fun e => covers e ctx va with
  | some e => some (e, onCore s c fun q => { q with tlb := toFront e q.tlb })
  | none => match (hallAt s (hallOf c)).tlb.find? fun e => covers e ctx va with
    | some e => some (e, onCore (onHall s (hallOf c) fun h => { h with tlb := toFront e h.tlb }) c fun q => { q with
        tlb := l1Insert e q.tlb })
    | none => none

/-- The TLB entry for an access of an engine: its hall's L2 (R297, R412). -/
def hallLookup (s : State) (h ctx va : Nat) : Option (TlbEntry × State) :=
  match (hallAt s h).tlb.find? fun e => covers e ctx va with
  | some e => some (e, onHall s h fun q => { q with tlb := toFront e q.tlb })
  | none => none

/-- Whether an entry's page has bytes of an interval of physical addresses. -/
def inFrames (e : TlbEntry) (pa n : Nat) : Bool :=
  decide (65536 * (e.pfn / pageUnits e.size * pageUnits e.size) < pa + n) &&
    decide (pa < 65536 * (e.pfn / pageUnits e.size * pageUnits e.size + pageUnits e.size))

/-- The attribute bits of Table 8.2. -/
def attrR (a : BitVec 32) : Bool := a.getLsbD 0
def attrW (a : BitVec 32) : Bool := a.getLsbD 1
def attrX (a : BitVec 32) : Bool := a.getLsbD 2
def attrClass (a : BitVec 32) : Nat := a.toNat / 8 % 4
def attrSL (a : BitVec 32) : Bool := a.getLsbD 5
def attrCP (a : BitVec 32) : Bool := a.getLsbD 6
def attrMG (a : BitVec 32) : Bool := a.getLsbD 7
def attrSize (a : BitVec 32) : Nat := a.toNat / 2 ^ 8 % 4
def attrKey (a : BitVec 32) : Nat := a.toNat / 2 ^ 16 % 1024

/-- The physical address an entry gives an address. -/
def frameOf (e : TlbEntry) (a : XWord) : Nat :=
  let unit := pageUnits e.size * 2 ^ 16
  (e.pfn / pageUnits e.size * unit + a.toNat % unit) % 2 ^ 52

/-- What an access is besides a read or a write: an accumulation (R144), a mapped fill (R140), a write-back (R141), an atomic
(R166) or the foundation's write of a record (R412), or nothing. -/
inductive Kind where
  | plain | accumulate | fill | back | atomic | record
  deriving DecidableEq, Repr

/-- Whether an access writes. -/
def writes : Access → Bool
  | .write | .update => true
  | _ => false

/-- Whether an access reads. -/
def reads : Access → Bool
  | .read | .update => true
  | _ => false

/-- The rules of host pages and fabric windows (R335, R346): whether an access is refused. -/
def spaceRefuses (s : State) (pa : Nat) (attr : BitVec 32) (kind : Kind) : Bool :=
  match spaceOf pa with
  | .reserved => true
  | .host => attrCP attr || attrSL attr || kind == .accumulate
  | .fabric =>
    attrCP attr || attrSL attr || !([.plain, .atomic, .record].contains kind) || !(mapWord s 8 (pa / 2 ^ 42 % 64)).getLsbD 4
  | _ => false

/-- The class that a page acts as (Table 8.2): a host page is cached as class D, or is class N (R335); a fabric window is class N
(R346). -/
def actsAs (s : State) (pa cls : Nat) : Nat :=
  match spaceOf pa with
  | .host => if s.hpCtl.getLsbD 0 then (if cls = 1 then 0 else cls) else 2
  | .fabric => 2
  | _ => cls

/-- The cause of an access that a hit entry refuses (R131, R132, R140, R144, R335, R370); an atomic meets
a retiring key at its home (R21), and the W bit of a record's page is not checked (R412). -/
def refusal (s : State) (pa : Nat) (attr : BitVec 32) (acc : Access) (kind : Kind) : Option Nat :=
  if spaceRefuses s pa attr kind then some 0x05
  else if writes acc && attrSL attr then some 0x06
  else if s.krBusy && attrKey attr == s.krKey && kind != .atomic then some 0x05
  else if kind == .accumulate && attrClass attr != 0 then some 0x05
  else match acc with
    | .read => if attrR attr then none else some 0x05
    | .fetch => if attrX attr then none else some 0x05
    | .write => if attrW attr || kind == .record then none else some 0x05
    | .update => if attrR attr && attrW attr then none else some 0x05

/-- Where a translated address lies for an agent (R128, R297): its entry's key and frame, after the checks. An access
that misses waits on its hall's translation unit (R298). -/
def translate (hall ctx : Nat) (agent : Agent) (addr : XWord) (acc : Access) (kind : Kind) : M (Nat × Nat × BitVec 32) := do
  let s ← get
  let hit := match agent with
    | .slot c _ => slotLookup s c ctx (pageOf addr)
    | .prefetch c => slotLookup s c ctx (pageOf addr)
    | _ => hallLookup s hall ctx (pageOf addr)
  match hit with
  | none => park .translation [.translationMiss hall ⟨ctx, addr, acc, agent⟩]
  | some (e, s') =>
    let pa := frameOf e addr
    set s'
    match refusal s pa e.attr acc kind with
    | some cause => trap cause addr
    | none =>
      if !populated pa then throw (.fault (.noMemory pa))
      else return (attrKey e.attr, pa, e.attr)

/-- Whether an address names a vault: the window or the own-room alias (Table 8.1). -/
def isVaultAddr (a : XWord) : Bool :=
  let r := a.toNat / 2 ^ 48 % 256
  r == 0xFE || r == 0xFD

/-- Whether bits [63:56] are copies of bit 55 (R127). -/
def isCanonical (a : XWord) : Bool :=
  let t := a.toNat / 2 ^ 55
  t == 0 || t == 511

/-- The room a vault address names, for an agent in room `own`; none if a must-be-zero bit is set (Table 8.1). -/
def vaultRoom (own : Nat) (a : XWord) : Option Nat :=
  if a.toNat / 2 ^ 48 % 256 == 0xFE then
    if a.toNat / 2 ^ 35 % 2 ^ 13 == 0 then some (a.toNat / 2 ^ 23 % 4096) else none
  else if a.toNat / 2 ^ 23 % 2 ^ 25 == 0 then some own else none

/-- Whether a room belongs to a running launch of a context (R129). -/
def roomRuns (s : State) (ctx r : Nat) : Bool :=
  s.launches.any fun (l, v) => l / 1024 == ctx && v.rooms.contains r

/-- Whether a vault offset lies in the scratchpad part of its slice (R130, R135). -/
def inScratchpad (s : State) (r off : Nat) : Bool :=
  decide (off % 2 ^ 19 < 1024 * (coreAt s (16 * r + off / 2 ^ 19 % 16)).partition)

/-- The room and offset of a vault address, checked under R129. -/
def vaultPlace (own ctx : Nat) (a : XWord) : M (Nat × Nat) := do
  let s ← get
  match vaultRoom own a with
  | none => trap 0x05 a
  | some r =>
    let off := a.toNat % vaultBytes
    if !roomRuns s ctx r then trap 0x05 a
    else if (physicalRoom s r).isNone then trap 0x0F a
    else if !inScratchpad s r off then trap 0x05 a
    else return (r, off)

/-- A firmware address (R411): physical, under key id 0. -/
def physicalPlace (a : XWord) : M Place := do
  if a.toNat / 2 ^ 52 ≠ 0 then trap 0x05 a
  else if !populated a.toNat then throw (.fault (.noMemory a.toNat))
  else return .mem 0 a.toNat

/-- Whether an address is in the own-room alias (Table 8.1). -/
def isAlias (a : XWord) : Bool := a.toNat / 2 ^ 48 % 256 == 0xFD

/-- Agents that have no room of their own. -/
def roomless : Agent → Bool
  | .laundry _ _ => true
  | .foundation => true
  | _ => false

/-- Where an address of a user, supervisor or engine agent lies, after every check (R127 to R132). -/
def locateFor (hall own ctx : Nat) (agent : Agent) (a : XWord) (acc : Access) (kind : Kind := .plain) : M Place := do
  if !isCanonical a || (isAlias a && roomless agent) then trap 0x05 a
  else if isVaultAddr a then
    if kind == .accumulate then trap 0x05 a
    else do
      let (r, off) ← vaultPlace own ctx a
      return .vault r off
  else do
    let (key, pa, _) ← translate hall ctx agent a acc kind
    return .mem key pa

/-- Where an address of the issuing slot lies (R156). -/
def locate (a : XWord) (acc : Access) (kind : Kind := .plain) : M Place := do
  let s ← get
  let (c, k) := s.cur
  if isThreshold c then physicalPlace a
  else locateFor (hallOf c) (roomOf c) (slotAt s c k).ctx (.slot (leadCore s c k) k) a acc kind

/-- The parts of an access that lie in different 16 KiB granules, which have one page or one slice part each (R153). -/
def partsOf (a : XWord) (n : Nat) : List (XWord × Nat) :=
  let m := 16384 - a.toNat % 16384
  if n ≤ m then [(a, n)] else [(a, m), (a + BitVec.ofNat 64 m, n - m)]

/-- Where the parts of an access of the issuing slot lie; no part takes effect before all have passed (R153, R156). -/
def locateAll (acc : Access) (kind : Kind) : List (XWord × Nat) → M (List (XWord × Place × Nat))
  | [] => return []
  | (a, n) :: t => do
    let p ← locate a acc kind
    let rest ← locateAll acc kind t
    return (a, p, n) :: rest

/-- A number put into an ascending list without repeats. -/
def insertNat (n : Nat) : List Nat → List Nat
  | [] => [n]
  | m :: t => if n < m then n :: m :: t else if n = m then m :: t else m :: insertNat n t

/-- The numbers of a list, ascending and without repeats. -/
def ascending (l : List Nat) : List Nat := l.foldr insertNat []

/-! ### The order of wings (R187) -/

/-- The wings among the homes of an interval of memory; host memory and fabric windows have none. -/
def homeWings (s : State) (pa : Nat) : List Nat :=
  if spaceOf pa = .dram ∨ spaceOf pa = .expander then [homeHall s pa / 16] else []

/-- A write of wing `w` that leaves it for its home or for copies in other wings carries the vector clock of `w`, which counts
it once. Every other wing is told of it, so that each may apply the next one (log entry 42). -/
def leaveFor (s : State) (w : Nat) (targets : List Nat) : State :=
  if targets.all fun u => u == w then s
  else
    let s := { s with vclocks := tput s.vclocks (16 * w + w) (tget 0 s.vclocks (16 * w + w) + 1) }
    let stamp := (List.range 16).map fun v => tget 0 s.vclocks (16 * w + v)
    let us := (List.range 16).filter fun u => u != w
    post { s with remotes := s.remotes ++ us.map fun u => ⟨Fin.ofNat 16 w, Fin.ofNat 16 u, stamp⟩ }
      (us.map fun u => .remoteWriteApply (Fin.ofNat 16 u))

/-! ### Mapped copies of class D lines (R141, R147) -/

/-- The mapped lines, with their vault offsets, that a class D line of memory is copied in, in rooms other than `room`. -/
def mappedLines (s : State) (room : Option Nat) (key line : Nat) : List (Nat × Nat) :=
  s.cores.flatMap fun (c, q) => q.mappings.flatMap fun m => m.homes.filterMap fun (i, h) =>
    if h.key = key ∧ h.pa / 128 = line ∧ actsAs s h.pa h.cls = 0 ∧ some (roomOf c) ≠ room then some (c, m.off + 128 * i) else none

/-- A dirty line that was written back had an uncorrectable word, of which the host is to be told (R359). -/
def loseLine (s : State) (key line : Nat) : State :=
  if s.lostLines.contains (key, line) then s else { s with lostLines := s.lostLines ++ [(key, line)] }

/-- A mapped word of a core written back to word `i` of its line where it is dirty (R141), with its poison (R357, R359). -/
def backHome (key line c : Nat) (v : VaultWord) (s : State) (i : Nat) : State :=
  let a := memKey key (128 * line + 4 * i)
  if v.v && v.d then
    let s := if v.poison then loseLine s key line else s
    leaveFor { s with
      mem := memWrite s.mem a (bytesOfNat 4 v.data.toNat)
      poison := (s.poison.filter fun x => x != a) ++ (if v.poison then [a] else []) } (wingOf c) (homeWings s (128 * line))
  else s

/-- A mapped word after a recall. -/
def recalledWord (drop : Bool) (v : VaultWord) : VaultWord := { v with d := false, v := v.v && !drop }

/-- The cellar entry of a vault word that a recoverable superstep has written (R364). -/
def uncommitted (s : State) (r off : Nat) : Option LogEntry :=
  (roomAt s r).log.find? fun e => e.off == off && ((launchAt s e.launch).map Launch.mode).getD 0 == 1

/-- One mapped word after the home has recalled it: its value written back if it is dirty, its copy dropped if another room writes
the word. Of a word that a recoverable superstep has written, its committed value is recalled, and what the superstep wrote stays
in the room (R364). -/
def recallMapped (drop : Bool) (key line c off : Nat) (s : State) (i : Nat) : State :=
  match physicalRoom s (roomOf c) with
  | none => s
  | some pr =>
    let o := off + 4 * i
    match uncommitted s (roomOf c) o with
    | some e =>
      let s := backHome key line c (readChecked e.old) s i
      onRoom s (roomOf c) fun q => { q with
        log := q.log.map fun f => if f = e then { e with old := recalledWord drop (readChecked e.old) } else f }
    | none =>
      let (v, s) := checkedAt s (roomOf c) pr o
      putVault (backHome key line c v s i) pr o (recalledWord drop v)

/-- The words of a line that an interval of physical addresses touches. -/
def touchedWords (pa n line : Nat) : List Nat :=
  (List.range 32).filter fun i => decide (128 * line + 4 * i < pa + n) && decide (pa < 128 * line + 4 * i + 4)

/-- The home serves a reader of words of a line, of room `room`: those that another room has dirty are written back, and their
copies stay (R147). -/
def readLine (room : Option Nat) (pa n : Nat) (s : State) (key line : Nat) : State :=
  (mappedLines s room key line).foldl
    (fun s (c, off) => (touchedWords pa n line).foldl (recallMapped false key line c off) s) s

/-- The home serves a writer of words of a line, of room `room`: dirty copies are ordered before the write, and the copies of
other rooms become invalid (R147). -/
def claimLine (room : Option Nat) (pa n : Nat) (s : State) (key line : Nat) : State :=
  (mappedLines s room key line).foldl
    (fun s (c, off) => (touchedWords pa n line).foldl (recallMapped true key line c off) s) s

/-- The lines an interval of physical addresses touches. -/
def linesOf (pa n : Nat) : List Nat := (List.range ((pa % 128 + n + 127) / 128)).map fun i => pa / 128 + i

/-- Every line of an interval serves a reader. -/
def readSpan (s : State) (room : Option Nat) (key pa n : Nat) : State :=
  (linesOf pa n).foldl (fun s l => readLine room pa n s key l) s

/-- Every line of an interval serves a writer. -/
def claimSpan (s : State) (room : Option Nat) (key pa n : Nat) : State :=
  (linesOf pa n).foldl (fun s l => claimLine room pa n s key l) s

/-- The wings that hold a valid mapped copy of a word that an interval touches, in rooms other than `room`. -/
def copyWings (s : State) (room : Option Nat) (key pa n : Nat) : List Nat :=
  (linesOf pa n).flatMap fun line => (mappedLines s room key line).filterMap fun (c, off) =>
    match physicalRoom s (roomOf c) with
    | none => none
    | some pr => if (touchedWords pa n line).any fun i => (vaultAt s pr (off + 4 * i)).v then some (wingOf c) else none

/-! ### Accumulate-only lines (R144 to R146) -/

/-- A value combined with another (R144): floats add by RNE, and compare under R52. -/
def combine (op : AccOp) (ty : Ty) (a b : Nat) : Nat :=
  match op with
  | .add => if ty.isInt then (a + b) % 2 ^ ty.bits else (fAdd (fmtOf ty) 0 a b).bits
  | .min => if ty.isInt then (if intOf ty a ≤ intOf ty b then a else b) else (fMinMax (fmtOf ty) false a b).bits
  | .max => if ty.isInt then (if intOf ty a ≤ intOf ty b then b else a) else (fMinMax (fmtOf ty) true a b).bits

/-- Whether two partials of a line share a word. -/
def shareWord (o : Nat) (p : Partial) (o' : Nat) (q : Partial) : Bool :=
  decide (o < o' + q.ty.size) && decide (o' < o + p.ty.size)

/-- Whether a partial may take in another: of the same word, operation and type (R144). -/
def sameKind (o : Nat) (p : Partial) (o' : Nat) (q : Partial) : Bool := o == o' && p.op == q.op && p.ty == q.ty

/-- A partial with another combined into it. -/
def withPart (p q : Partial) : Partial := { p with value := BitVec.ofNat 64 (combine p.op p.ty p.value.toNat q.value.toNat) }

/-- A room's partial put into the last one of its word where that is of its operation and type (R145): the newest come first. -/
def joinPart (o : Nat) (p : Partial) : Table Partial → Option (Table Partial)
  | [] => none
  | (o', q) :: t =>
    if shareWord o p o' q then (if sameKind o p o' q then some ((o', withPart q p) :: t) else none)
    else (joinPart o p t).map fun u => (o', q) :: u

/-- A partial that a home receives of a room. -/
def addPart (l : Table Partial) (e : Nat × Partial) : Table Partial := (joinPart e.1 e.2 l).getD (e :: l)

/-- A room's partials of a line in surrender order, as byte offsets and partials: those at the home, then its own (R145). -/
def roomParts (s : State) (key line r : Nat) : Table Partial :=
  let kept := s.homeParts.filterMap fun (k, l, o, q, p) => if k = key ∧ l = line ∧ q = r then some (o, p) else none
  let own := (roomAt s r).acc.flatMap fun a => if a.key = key ∧ a.line = line then a.parts else []
  ((kept ++ own).foldl addPart []).reverse

/-- The rooms that hold or surrendered a partial of a line, ascending. -/
def partialRooms (s : State) (key line : Nat) : List Nat :=
  let own := s.rooms.filterMap fun (r, q) => if q.acc.any fun a => a.key == key && a.line == line then some r else none
  let kept := s.homeParts.filterMap fun (k, l, _, q, _) => if k = key ∧ l = line then some q else none
  ascending (own ++ kept)

/-- A partial combined into memory (R146). -/
def applyPart (key line : Nat) (m : List Host.Cell) (e : Nat × Partial) : List Host.Cell :=
  let a := memKey key (128 * line + e.1)
  memWrite m a (bytesOfNat e.2.ty.size (combine e.2.op e.2.ty (natOfBytes (memBytes m a e.2.ty.size)) e.2.value.toNat))

/-- Whether a line has partials anywhere. -/
def hasPartials (s : State) (key line : Nat) : Bool :=
  s.homeParts.any (fun (k, l, _, _, _) => k == key && l == line) ||
  s.rooms.any fun (_, q) => q.acc.any fun a => a.key == key && a.line == line && !a.parts.isEmpty

/-- A room's accumulation area after the recall of a line: partials of an open superstep stay (R364). -/
def dropLine (key line : Nat) (q : Room) : Room :=
  { q with acc := q.acc.filterMap (fun a =>
      if a.key == key && a.line == line then (if a.open_.isEmpty then none else some { a with parts := [] })
      else some a) }

/-- One room's partials come to the home of their line, which combines them (R146). What they change is no longer as mapped
copies hold it (R147). -/
def recallRoom (key line : Nat) (s : State) (r : Nat) : State :=
  let ps := roomParts s key line r
  let s := ps.foldl (fun s (o, p) => claimLine none (128 * line + o) p.ty.size s key line) s
  leaveFor { s with mem := ps.foldl (applyPart key line) s.mem } (r / 256) (homeWings s (128 * line))

/-- The home recalls a line's partials, of the rooms in ascending order, onto memory's value; the line leaves accumulate-only
state (R146). -/
def recallLine (s : State) (key line : Nat) : State :=
  if hasPartials s key line then
    let s := (partialRooms s key line).foldl (recallRoom key line) s
    { s with
      homeParts := s.homeParts.filter (fun (k, l, _, _, _) => !(k == key && l == line))
      rooms := s.rooms.map (fun (r, q) => (r, dropLine key line q)) }
  else s

/-- The lines an interval of physical addresses touches are recalled. -/
def recallSpan (s : State) (key pa n : Nat) : State :=
  (List.range ((pa % 128 + n + 127) / 128)).foldl (fun s i => recallLine s key (pa / 128 + i)) s

/-! ### Reading and writing at a place -/

/-- The parts of an interval of bytes that lie in different words: word address, first byte, number of bytes. -/
def wordParts (a n : Nat) : List (Nat × Nat × Nat) :=
  (wordsIn a n).map fun w => (w, max a w - w, min (a + n) (w + 4) - max a w)

/-- Bytes of a word. -/
def bytesOfWord (w : Word) (first n : Nat) : List Byte := ((bytesOfNat 4 w.toNat).drop first).take n

/-- A word with bytes replaced from a position. -/
def patchWord (w : Word) (first : Nat) (bs : List Byte) : Word :=
  let old := bytesOfNat 4 w.toNat
  BitVec.ofNat 32 (natOfBytes (old.take first ++ bs ++ old.drop (first + bs.length)))

/-- Whether words of memory are poisoned (R357): the first poisoned word of an interval. -/
def poisonIn (s : State) (a n : Nat) : Option Nat := (wordsIn a n).find? fun w => s.poison.contains w

/-- The bytes at a place (R158, R410), without consumption of poison: the bytes and whether a word is poisoned. -/
def peekVault (addr : XWord) (r : Nat) : List (Nat × Nat × Nat) → M (List Byte × Bool)
  | [] => return ([], false)
  | (w, first, n) :: t => do
    let v ← vaultWord addr r w
    let (bs, bad) ← peekVault addr r t
    return (bytesOfWord v.data first n ++ bs, v.poison || bad)

/-- The bytes at a place as room `room` reads them, or an agent of none, and whether one of its words is poisoned. A reader of an
accumulate-only line recalls it first (R146). -/
def peek (addr : XWord) (p : Place) (n : Nat) (room : Option Nat := none) : M (List Byte × Bool) := do
  match p with
  | .vault r off => peekVault addr r (wordParts off n)
  | .mem key pa => do
    modify fun s => readSpan (recallSpan s key pa n) room key pa n
    let s ← get
    return (memBytes s.mem (memKey key pa) n, (poisonIn s (memKey key pa) n).isSome)

/-- Writes vault words: V = 1, D = 1 where the word is mapped, F unchanged; a word written whole loses its poison
(R140, R158, R357). The other bytes of a word written in part stay as they were, also where it was invalid: DESIGN CHOICE
(log entry 101). -/
def pokeVault (r : Nat) (mapped : Nat → Bool) : List (Nat × Nat × Nat) → List Byte → M Unit
  | [], _ => return ()
  | (w, first, n) :: t, bs => do
    let v ← vaultWord 0 r w
    setVault r w { v with
      data := patchWord v.data first (bs.take n), v := true, d := v.d || mapped w, check := none
      poison := v.poison && decide (n < 4) }
    pokeVault r mapped t (bs.drop n)

/-- Whether a vault word lies in a mapping of its core (R139). -/
def isMapped (s : State) (r off : Nat) : Option Mapping :=
  (coreAt s (16 * r + off / 2 ^ 19 % 16)).mappings.find? fun m => m.off ≤ off && decide (off < m.off + m.len)

/-- The state after bytes are written in memory by an agent of wing `w` and room `room`, or of none: words written whole lose
their poison. The room's own mapped copies stay as they are. -/
def pokeMem (s : State) (w key pa : Nat) (bs : List Byte) (room : Option Nat := none) : State :=
  let s := recallSpan s key pa bs.length
  let targets := homeWings s pa ++ copyWings s room key pa bs.length
  let s := claimSpan s room key pa bs.length
  let whole := wholeWordsIn (memKey key pa) bs.length
  leaveFor { s with
    mem := memWrite s.mem (memKey key pa) bs
    poison := s.poison.filter (fun a => !whole.contains a) } w targets

/-- A write of wing `w` to a vault of a room (R187). -/
def leaveVault (w r : Nat) : M Unit := modify fun s => leaveFor s w [r / 256]

/-- Writes bytes at a place, as an agent of wing `w` and room `room`, or of none. -/
def poke (w : Nat) (p : Place) (bs : List Byte) (room : Option Nat := none) : M Unit := do
  match p with
  | .vault r off => do
    let s ← get
    pokeVault r (fun o => (isMapped s r o).isSome) (wordParts off bs.length) bs
    leaveVault w r
  | .mem key pa => modify fun s => pokeMem s w key pa bs room

/-- Marks the words at a place poisoned (R357). -/
def poisonAt (p : Place) (n : Nat) : M Unit := do
  match p with
  | .vault r off => (wordsIn off n).forM fun o => do
    let v ← vaultWord 0 r o
    setVault r o { v with poison := true }
  | .mem key pa => modify fun s => { s with
      poison := ((wordsIn (memKey key pa) n).filter (fun a => !s.poison.contains a)) ++ s.poison }

end Sys2Proof.Machine
end

