-- ==== Sys2Proof/Machine/Foundation.lean ====
section
/-! DEFINITION. What the foundation does for the whole house: the event arbiter and the host's event ring (R342, R385),
the shutter (R371), and the status words of pairs and supersteps that it latches (R361, R362). -/

namespace Sys2Proof.Machine

open Sys2Proof

/-! ### Events toward the host (R342, R385) -/

/-- The context field of an event that concerns no context (Table 20.9). -/
def noContext : Nat := 0xFFFF

/-- An interrupt toward the host. -/
def interrupt (s : State) (vec : Nat) : State := { s with irqs := s.irqs ++ [vec] }

/-- A foundation event takes the next sequence number (R385). -/
def sequenced (s : State) : State := { s with arbiter := s.arbiter + 1 }

/-- The bytes of an event record (Table 20.9). -/
def eventRecord (type ctx unit seq : Nat) (addr info : XWord) : List Byte :=
  bytesOfNat 1 type ++ [0] ++ bytesOfNat 2 ctx ++ bytesOfNat 4 unit ++ bytesOfNat 8 seq ++
    bytesOfNat 8 addr.toNat ++ bytesOfNat 8 info.toNat

/-- An event that the ring cannot take is dropped and counted, saturating at 4,095 (R342). -/
def dropEvent (r : EventRing) : EventRing := { r with edrp := min 4095 (r.edrp + 1) }

/-- Whether the event ring is full (R342). -/
def EventRing.full (r : EventRing) : Bool := decide (2 ^ r.elc ≤ (r.eh - r.et).toNat)

/-- The event ring has become full, or still is and drops an event (R342): EOV, and evec as EOV comes to be set. -/
def eventsFull (s : State) : State :=
  let r := s.eventRing
  if !r.full || r.eov then s else interrupt { s with eventRing := { r with eov := true } } r.evec

/-- Posts an event in the host's event ring (R342): the record, EH, the interrupt; the ring may then be full. A full ring drops
it, and so does a disabled one. -/
def postEvent (s : State) (type ctx unit : Nat) (addr info : XWord) : State :=
  let s := sequenced s
  let r := s.eventRing
  if !r.een then { s with eventRing := dropEvent r }
  else if r.full then eventsFull { s with eventRing := dropEvent r }
  else
    let a := (r.ebase.toNat + 32 * (r.eh.toNat % 2 ^ r.elc)) % 2 ^ 52
    let s := { pokeMem s 0 0 a (eventRecord type ctx unit (s.arbiter - 1) addr info) with
      eventRing := { r with eh := r.eh + 1 } }
    eventsFull (if r.eie then interrupt s r.evec else s)

/-! ### Submission rings (R339, R341) -/

/-- A submission ring. -/
def ringAt (s : State) (i : Nat) : SubRing := tget SubRing.reset s.subRings i

/-- The state with a submission ring changed. -/
def onSubRing (s : State) (i : Nat) (f : SubRing → SubRing) : State :=
  { s with subRings := tset SubRing.reset s.subRings i (f (ringAt s i)) }

/-- The entry of a ring's storage that is next: the first not completed (R339). -/
def storedEntry (s : State) (r : SubRing) : SubEntry :=
  let a := memKey 0 (r.base.toNat + 64 * (r.c.toNat % 2 ^ r.lc))
  let bs := memBytes s.mem a 64
  let f := fun i n => fieldAt bs i n
  let op := f 0 1
  let known := decide (1 ≤ op) && decide (op ≤ 4)
  let zeros := f 1 3 == 0 && f 6 2 == 0 && f 12 52 == 0
  let used := (if op = 1 then decide (f 4 2 < 1024) else f 4 2 == 0) && (op == 4 || f 8 4 == 0)
  ⟨op, f 4 2, BitVec.ofNat 32 (f 8 4), known && zeros && used⟩

/-- The entry of a ring that is next: as it was taken, or as its storage has it (R341). -/
def readEntryAt (s : State) (r : SubRing) : SubEntry := r.entry.getD (storedEntry s r)

/-- Whether the foundation serves a ring's next entry (R341, Table 26.4 step 7): in overrun it completes the one it has taken, and
takes no other. -/
def served (s : State) (r : SubRing) : Bool :=
  r.en && decide (7 ≤ s.bootStep) && (decide (r.c.toNat < r.r.toNat) || (!r.ov && decide (r.c.toNat < r.w.toNat)))

/-- Whether a context is out of its rooms or on its way out (R255): its tasks are dispatched no more. -/
def departing (s : State) (ctx : Nat) : Bool :=
  (contextAt s ctx).switchedOut || (contextAt s ctx).suspended.isSome ||
    s.subRings.any fun (_, r) => r.ctx == ctx && served s r && (readEntryAt s r).valid && (readEntryAt s r).op == 2

/-! ### Status words -/

/-- pair.state of a core (Table 25.4). `used` is the number of release buffer entries in use, which the leader holds. -/
def pairWord (s : State) (c : Nat) : XWord :=
  match (coreAt s c).pair with
  | none => 0
  | some p =>
    let lead := if p.leader then some p else (coreAt s (c - 1)).pair
    let used := (lead.map fun q => q.buffer.length).getD 0
    BitVec.ofNat 64 (p.agreed.toNat * 2 ^ 32 + p.since % 1024 * 2 ^ 22 + used % 128 * 2 ^ 15 +
      p.retry % 4 * 2 ^ 10 + (if p.leader then 1 else 2))

/-- ss.state of a slot (Table 25.5). -/
def superstepWord (s : State) (v : Slot) : XWord :=
  match gangOf s v with
  | none => 0
  | some (_, r) => BitVec.ofNat 64 (r.seq % 2 ^ 32 * 2 ^ 32 + r.rollbacks % 4 * 2 ^ 24 + r.mode % 4)

/-! ### The shutter (R371) -/

/-- The selector of a snapshot register (Table 25.10). -/
def snapKey (cls unit index : Nat) : Nat := cls * 2 ^ 28 + unit * 2 ^ 12 + index

/-- The parked reasons of a core's slots, slot 0 in the low byte (Table 25.10). -/
def parkedWord (q : Core) : XWord :=
  let code := fun k => ((q.slots.get k).wait.map Wait.code).getD 0
  BitVec.ofNat 64 (code 0 + 2 ^ 8 * code 1 + 2 ^ 16 * code 2 + 2 ^ 24 * code 3)

/-- ss.state of a core: that of its first slot whose launch runs in supersteps. -/
def coreSuperstep (s : State) (q : Core) : XWord :=
  ([0, 1, 2].findSome? fun k =>
    let w := superstepWord s (q.slots.get k)
    if w = 0 then none else some w).getD 0

/-- What a core latches (Table 25.10). -/
def snapCore (s : State) (c : Nat) (q : Core) : Table XWord :=
  [(1, (q.slots.get 0).pc), (2, (q.slots.get 1).pc), (3, (q.slots.get 2).pc), (4, (q.slots.get 3).pc),
    (5, parkedWord q), (6, BitVec.ofNat 64 q.pointer.val), (7, pairWord s c), (8, coreSuperstep s q)].map
    fun (i, v) => (snapKey 0 c i, v)

/-- Cellar entries in use: one for a log entry, two for a held effect (R363). -/
def cellarUsed (q : Room) : Nat := q.log.length + 2 * q.hold.length

/-- What a room latches (Table 25.10). -/
def snapRoom (r : Nat) (q : Room) : Table XWord :=
  let running := (q.window.find? fun c => c.state == .running).map Command.id
  [(1, BitVec.ofNat 64 q.window.length), (2, BitVec.ofNat 64 (running.getD 0)),
    (3, BitVec.ofNat 64 (cellarUsed q)), (4, q.corrected.setWidth 64)].map fun (i, v) => (snapKey 1 r i, v)

/-- What a hall latches (Table 25.10). -/
def snapHall (h : Nat) (q : Hall) : Table XWord :=
  [(1, BitVec.ofNat 64 q.pending.length), (2, Config.snapLayout q.buffer.length q.drop),
    (3, BitVec.ofNat 64 q.rings.length), (4, q.corrected.setWidth 64)].map fun (i, v) => (snapKey 2 h i, v)

/-- What the foundation latches (Table 25.10). -/
def snapFoundation (s : State) (source : Nat) : Table XWord :=
  [(1, BitVec.ofNat 64 s.arbiter), (2, (mapVersion s).setWidth 64), (3, BitVec.ofNat 64 source)].map
    fun (i, v) => (snapKey 3 0 i, v)

/-- A shutter trigger (R371): every block latches its registers at one value of the time base. -/
def fireShutter (s : State) (source : Nat) : State :=
  let s := sequenced s
  let cores := (s.cores.filter fun (c, _) => !isThreshold c).flatMap fun (c, q) => snapCore s c q
  let regs := cores ++ s.rooms.flatMap (fun (r, q) => snapRoom r q) ++ s.halls.flatMap (fun (h, q) => snapHall h q) ++
    snapFoundation s source
  { s with shutter := some ⟨s.time, source, regs⟩ }

/-- Whether a selector names a register of Table 25.10. -/
def snapExists (sel : Nat) : Bool :=
  let unit := sel / 2 ^ 12 % 2 ^ 16
  let i := sel % 2 ^ 12
  match sel / 2 ^ 28 % 16 with
  | 0 => i ≤ 8
  | 1 => decide (unit < 4096) && decide (i ≤ 4)
  | 2 => decide (unit < 256) && decide (i ≤ 4)
  | 3 => decide (unit = 0) && decide (i ≤ 3)
  | _ => false

/-- A snapshot register (R371, R393): 0 before any trigger; what a unit at reset latches where the unit is not listed. -/
def snapRead (s : State) (sel : Nat) : XWord :=
  match s.shutter with
  | none => 0
  | some q =>
    if !snapExists sel then 0
    else if sel % 2 ^ 12 = 0 then BitVec.ofNat 64 q.time
    else (tfind q.regs sel).getD
      (match sel / 2 ^ 28 % 16, sel % 2 ^ 12 with
        | 0, 6 => 2
        | 2, 2 => Config.snapLayout 0 false
        | _, _ => 0)

end Sys2Proof.Machine
end

