-- ==== Sys2Proof/Machine/Launch.lean ====
section
/-! DEFINITION. Contexts, launch records, stage queues, tasks and save frames (R112, R120, R125, R126, R232 to R255,
R412): what the foundation, the lobbies and the landing do for launches. -/

namespace Sys2Proof.Machine

open Sys2Proof

/-! ### Contexts (R232, R233) -/

/-- A dword of a context descriptor (Table 14.2). -/
def contextDword (s : State) (ctx k : Nat) : XWord := tget 0 s.contextTable (8 * ctx + k)

/-- Whether a context is live: VAL (R233). -/
def contextLive (s : State) (ctx : Nat) : Bool := (contextDword s ctx 5).getLsbD 0

/-- The pool, save area, key, frame count, first room, rooms granted and migration threshold of a context. -/
def ctxPool (s : State) (ctx : Nat) : XWord := contextDword s ctx 0
def ctxSave (s : State) (ctx : Nat) : XWord := contextDword s ctx 1
def ctxKey (s : State) (ctx : Nat) : Nat := (contextDword s ctx 2).toNat / 2 ^ 32 % 1024
def ctxFrames (s : State) (ctx : Nat) : Nat := (contextDword s ctx 2).toNat % 2 ^ 32
def ctxFirst (s : State) (ctx : Nat) : Nat := (contextDword s ctx 3).toNat % 4096
def ctxCount (s : State) (ctx : Nat) : Nat := (contextDword s ctx 3).toNat / 2 ^ 16 % 2 ^ 13
def ctxMthr (s : State) (ctx : Nat) : Nat := (contextDword s ctx 4).toNat % 2 ^ 32

/-- The hall whose L2 TLB serves the foundation's own accesses for a context: the lowest of its grant (R412). -/
def foundationHall (s : State) (ctx : Nat) : Nat := ctxFirst s ctx / 16

/-- A table with the translation buffer of one unit as a lookup has left it. -/
def lookedUp {α : Type} (tlb : α → List TlbEntry) (put : α → List TlbEntry → α) (old new : Nat → α) (t : Table α) (c : Nat) : Table α :=
  if tlb (new c) = tlb (old c) then t else tput t c (put (old c) (tlb (new c)))

/-- What lookups leave of the state `u` that an access had reached from `s` where it comes to nothing (R297): their entries of the
L1 TLBs and the order of use. -/
def lookups (s u : State) : State := { s with
  cores := (u.cores.map Prod.fst).foldl (lookedUp Core.tlb (fun q l => { q with tlb := l }) (coreAt s) (coreAt u)) s.cores
  halls := (u.halls.map Prod.fst).foldl (lookedUp Hall.tlb (fun q l => { q with tlb := l }) (hallAt s) (hallAt u)) s.halls }

/-- Runs a program and gives back the state it began from where it stops, but for its lookups. -/
def attempt {α : Type} (act : M α) : M (Except Stop α) := fun s =>
  match act s with
  | .ok a s' => .ok (.ok a) s'
  | .error e u => .ok (.error e) (lookups s u)

/-- An access of the foundation, a lobby or the landing that its page refuses (R412): the operation waits, and where the
cause is another than not present the host is told. -/
def asEngine {α : Type} (hall ctx : Nat) (act : M α) : M α := fun s =>
  match act s with
  | .error (.trap cause addr _ _) s' => .error (.engine hall (some (ctx, addr, cause)) []) s'
  | .error (.park _ due) s' => .error (.engine hall none due) s'
  | r => r

/-- Bytes of a context's memory at intervals, as an engine of a hall reads them. -/
def readParts (hall ctx : Nat) : List (XWord × Nat) → M (List Byte × Bool)
  | [] => return ([], false)
  | (a, m) :: t => do
    let p ← locateFor hall 0 ctx .foundation a .read
    let (bs, bad) ← peek a p m
    let (cs, bad') ← readParts hall ctx t
    return (bs ++ cs, bad || bad')

/-- Intervals of at most 16 KiB, each within one granule. -/
def granules : Nat → XWord → Nat → List (XWord × Nat)
  | 0, _, _ => []
  | f + 1, a, n =>
    let m := 16384 - a.toNat % 16384
    if n ≤ m then [(a, n)] else (a, m) :: granules f (a + BitVec.ofNat 64 m) (n - m)

/-- Bytes of a context's memory read by an engine at a hall (R412). -/
def engineRead (hall ctx : Nat) (addr : XWord) (n : Nat) : M (List Byte × Bool) :=
  asEngine hall ctx (readParts hall ctx (granules (n / 16384 + 2) addr n))

/-- The places of an interval of a context's memory, for an engine. -/
def enginePlaces (hall ctx : Nat) (acc : Access) (kind : Kind) : List (XWord × Nat) → M (List (Place × Nat))
  | [] => return []
  | (a, n) :: t => do
    let p ← locateFor hall 0 ctx .foundation a acc kind
    let rest ← enginePlaces hall ctx acc kind t
    return (p, n) :: rest

/-- Writes bytes at places in order. -/
def pokeAll (w : Nat) : List (Place × Nat) → List Byte → M Unit
  | [], _ => return ()
  | (p, n) :: t, bs => do
    poke w p (bs.take n)
    pokeAll w t (bs.drop n)

/-- Bytes of a context's memory written by an engine at a hall (R412). -/
def engineWrite (hall ctx : Nat) (addr : XWord) (bs : List Byte) (kind : Kind := .plain) : M Unit := do
  let ps ← asEngine hall ctx (enginePlaces hall ctx .write kind (granules (bs.length / 16384 + 2) addr bs.length))
  pokeAll (hall / 16) ps bs

/-- An aligned dword read by the foundation for a context. -/
def foundationDword (ctx : Nat) (addr : XWord) : M XWord := do
  let s ← get
  let (bs, _) ← engineRead (foundationHall s ctx) ctx addr 8
  return BitVec.ofNat 64 (natOfBytes bs)

/-! ### Launch records (R234 to R236, Tables 14.3 to 14.6) -/

/-- A dword of a launch's record. -/
def recWord (r : Launch) (k : Nat) : XWord := r.words.getD k 0

/-- Bits of a record dword. -/
def recBits (r : Launch) (k hi lo : Nat) : Nat := bitsOf (recWord r k).toNat hi lo

def recRooms (r : Launch) : Nat := recBits r 2 28 16
def recFirst (r : Launch) : Nat := recBits r 2 11 0
def recScratch (r : Launch) : Nat := recBits r 3 47 32
def recPri (r : Launch) : Nat := recBits r 3 26 24
def recSlots (r : Launch) (c : Nat) : Nat := recBits r 4 (2 * c + 1) (2 * c)
def recPR (r : Launch) : Bool := (recWord r 9).getLsbD 1
def recSS (r : Launch) : Bool := (recWord r 9).getLsbD 0

/-- A barrier configuration word of the record, 0 to 11 in the order of Table 14.3. -/
def recBarrier (r : Launch) (i : Nat) : Word := BitVec.ofNat 32 ((recWord r (10 + i / 2)).toNat / 2 ^ (32 * (i % 2)))

/-- A seed field, 0 to 15. -/
def recSeed (r : Launch) (i : Nat) : Word := BitVec.ofNat 32 ((recWord r (16 + i / 2)).toNat / 2 ^ (32 * (i % 2)))

/-- The declaration of a stage (Table 14.4). -/
def recStage (r : Launch) (st : Nat) : Nat := (recWord r (24 + st)).toNat

def stageDeclared (r : Launch) (st : Nat) : Bool := decide (st < 8) && bitAt (recStage r st) 16
def stageCap (r : Launch) (st : Nat) : Nat := recStage r st % 2 ^ 13
def stageMigrates (r : Launch) (st : Nat) : Bool := bitAt (recStage r st) 17
def stageWarms (r : Launch) (st : Nat) : Bool := bitAt (recStage r st) 18
def stageSucc (r : Launch) (st : Nat) : Option Nat :=
  if bitAt (recStage r st) 19 then some (recStage r st / 2 ^ 20 % 8) else none

/-- The entry PC of a stage: the record's entry plus the stage's signed offset. -/
def stageEntry (r : Launch) (st : Nat) : XWord :=
  recWord r 0 + BitVec.ofInt 64 (signedOf 32 (recStage r st / 2 ^ 32))

/-- The declared stages, ascending. -/
def declaredStages (r : Launch) : List Nat := (List.range 8).filter (stageDeclared r)

/-- The rooms of a launch's set, and its halls, ascending. -/
def launchRooms (r : Launch) : List Nat := (List.range (recRooms r)).map fun i => recFirst r + i
def launchHalls (r : Launch) : List Nat := ascending ((launchRooms r).map fun q => q / 16)

/-- The state code of a record (Table 15.3): 0 idle, 1 armed, 2 running, 3 saved. -/
def recordState (s : State) (ctx record : Nat) : Nat :=
  match launchAt s (launchKey ctx record) with
  | none => 0
  | some r => if r.rooms.isEmpty then 1 else if (contextAt s ctx).switchedOut then 3 else 2

/-- The arm sequence of a record. -/
def armSequence (s : State) (ctx record : Nat) : BitVec 32 := tget 0 (contextAt s ctx).arms record

/-- The record result word (Table 15.3). -/
def recordWord (s : State) (ctx record code : Nat) (a : Bool) : XWord :=
  BitVec.ofNat 64 ((armSequence s ctx record).toNat * 2 ^ 32 + code % 16 * 2 ^ 8 + a.toNat * 4 + recordState s ctx record)

/-- Whether a barrier configuration word is reserved: bits [31:22], or an op of 9 to 15 (Table 7.5). -/
def barrierReserved (w : Word) : Bool := w.toNat / 2 ^ 22 != 0 || decide (9 ≤ w.toNat / 2 ^ 18 % 16)

/-- A launch of the words of a record, as it is armed. -/
def armedLaunch (words : List XWord) (seq : BitVec 32) (order house : Nat) : Launch where
  words := words
  arm := seq
  order := order
  rooms := []
  startTime := 0
  owed := 0
  chimney := []
  sent := []
  barriers := []
  leftSlots := []
  lost := false
  estate := [house]
  seq := 0
  rollbacks := 0
  mode := 0
  keptTasks := []
  taken := []
  ckTensors := []
  ckBarriers := []

/-- Whether a must-be-zero bit of a record is set (Table 14.3, Table 14.4). -/
def recordZeros (r : Launch) : Bool :=
  recBits r 2 63 29 != 0 || recBits r 2 15 12 != 0 || recBits r 3 63 48 != 0 || recBits r 3 31 27 != 0 ||
  recBits r 3 23 0 != 0 || recBits r 4 63 32 != 0 || recBits r 9 63 2 != 0 ||
  (List.range 8).any fun st => recBits r (24 + st) 31 23 != 0 || recBits r (24 + st) 15 13 != 0

/-- Check 6 of Table 14.6: the stages. -/
def stagesBad (r : Launch) : Bool :=
  !stageDeclared r 0 || recStage r 0 / 2 ^ 32 != 0 ||
  (declaredStages r).any fun st =>
    decide (stageCap r st < 16) || decide (4096 < stageCap r st) || (stageEntry r st).toNat % 4 != 0 ||
    match stageSucc r st with
    | some q => !stageDeclared r q
    | none => false

/-- The checks of Table 14.6 that the record's words decide, 2 to 8, for a context's grant; 0 where all pass. -/
def armCheck (s : State) (ctx : Nat) (r : Launch) : Nat :=
  let first := recFirst r
  let count := recRooms r
  if (recWord r 0).toNat % 4 ≠ 0 ∨ (recWord r 1).toNat % 4 ≠ 0 ∨ recordZeros r then 2
  else if count = 0 ∨ 4096 < first + count ∨ first < ctxFirst s ctx ∨ ctxFirst s ctx + ctxCount s ctx < first + count then 3
  else if recBits r 4 31 0 = 0 ∨ (recPR r ∧ (List.range 8).any fun m => recSlots r (2 * m) != recSlots r (2 * m + 1)) then 4
  else if 480 < recScratch r ∨ recScratch r % 16 ≠ 0 then 5
  else if stagesBad r then 6
  else if (List.range 12).any fun i => barrierReserved (recBarrier r i) then 7
  else if recWord r 7 = 0 ∨ (recWord r 7).toNat % 128 ≠ 0 ∨ (recWord r 5).toNat % 32 ≠ 0 ∨ (recWord r 8).toNat % 64 ≠ 0 then 8
  else 0

/-- The dwords of a record from memory (R234). -/
def recordDwords (ctx record : Nat) : M (List XWord) := do
  let s ← get
  let base := ctxPool s ctx + BitVec.ofNat 64 (256 * record)
  let (bs, _) ← engineRead (foundationHall s ctx) ctx base 256
  return (List.range 32).map fun k => BitVec.ofNat 64 (natOfBytes ((bs.drop (8 * k)).take 8))

/-- The foundation reaches an interval of a context's memory for reading and writing, on every page of it (check 9). -/
def reachable (hall ctx : Nat) (e : XWord × Nat) : M Unit := do
  let _ ← asEngine hall ctx (enginePlaces hall ctx .update .plain (granules (e.2 / 16384 + 2) e.1 e.2))

/-- The bytes of a launch's queue area (R239). -/
def queueBytes (r : Launch) : Nat := 128 * ((declaredStages r).map (stageCap r)).sum * (launchHalls r).length

/-- What check 9 asks the foundation to reach besides the record: the queue area, the completion record, the graph header. -/
def armTargets (r : Launch) : List (XWord × Nat) :=
  (recWord r 7, queueBytes r) :: [(recWord r 8, 64), (recWord r 5, 32)].filter fun e => e.1 != 0

/-- Reads the record and judges the arm (R236): 0 and the launch, or the code of the first failing check. A page that is
not present makes the arm wait (R412). -/
def judgeArm (ctx record : Nat) : M (Nat × Launch) := do
  let s ← get
  let none := armedLaunch [] 0 0 s.house
  if recordState s ctx record ≠ 0 then return (1, none)
  else do
    let words ← attempt (recordDwords ctx record)
    match words with
    | .error (.engine _ (some _) _) => return (9, none)
    | .error e => throw e
    | .ok words => do
      let r := armedLaunch words (armSequence s ctx record + 1) s.serial s.house
      let code := armCheck s ctx r
      if code ≠ 0 then return (code, r)
      else do
        let h := foundationHall s ctx
        let ok ← attempt ((armTargets r).forM (reachable h ctx))
        match ok with
        | .error (.engine _ (some _) _) => return (9, r)
        | .error e => throw e
        | .ok _ => return (0, r)

/-- The starts of a launch that its unstarted rooms wait for (R237). -/
def startsOf (l : Nat) (r : Launch) : List Due :=
  ((launchRooms r).filter fun q => !r.rooms.contains q).map fun q => .launchStart (l / 1024) (l % 1024) q

/-- The hall under which operations wait that need a room or a save frame to be free, and not a page. -/
def noHall : Nat := 256

/-- The operations that need a room or a save frame are tried again. -/
def retryHeld (s : State) : State :=
  let again := (s.blocked.filter fun e => e.on.hall == noHall).map Blocked.due
  post { s with blocked := s.blocked.filter fun e => e.on.hall != noHall } again

/-- The state with the starts of every armed launch due again: a slot, a partition or a context has changed. -/
def repostStarts (s : State) : State := post (retryHeld s) (s.launches.flatMap fun (l, r) => startsOf l r)

/-- Arms a record (R235, R236): the code, 0 where it is accepted. -/
def armRecord (ctx record : Nat) : M Nat := do
  let (code, r) ← judgeArm ctx record
  if code = 0 then
    modify fun s =>
      let l := launchKey ctx record
      let s := { s with launches := tput s.launches l r, serial := s.serial + 1 }
      let s := onContext s ctx fun x => { x with arms := tput x.arms record r.arm }
      post s (startsOf l r)
  return code

/-- Writes a patchable dword of an idle record, without a check of W (R258, R412): whether it was written. -/
def patchRecord (ctx record k : Nat) (v : XWord) : M Bool := do
  let s ← get
  if recordState s ctx record ≠ 0 then return false
  else do
    let a := ctxPool s ctx + BitVec.ofNat 64 (256 * record + 8 * k)
    engineWrite (foundationHall s ctx) ctx a (bytesOfNat 8 v.toNat) .record
    return true

/-! ### Queues (R239 to R241) -/

/-- The key of a stage's queue in its hall. -/
def queueKey (l st : Nat) : Nat := 8 * l + st

/-- A queue of a launch in a hall. -/
def queueAt (s : State) (hall l st : Nat) : Queue := tget Queue.reset (hallAt s hall).queues (queueKey l st)

/-- The state with one queue changed. -/
def onQueue (s : State) (hall l st : Nat) (f : Queue → Queue) : State :=
  onHall s hall fun h => { h with queues := tput h.queues (queueKey l st) (f (queueAt s hall l st)) }

/-- Whether a queue is full: its entries and reservations reach cap (R261). -/
def queueFull (s : State) (hall l : Nat) (r : Launch) (st : Nat) : Bool :=
  let q := queueAt s hall l st
  decide (stageCap r st ≤ q.count + q.reserved)

/-- The address of entry `i` of a queue (R239). -/
def entryAddress (r : Launch) (hall st i : Nat) : XWord :=
  let halls := launchHalls r
  let h := (halls.findIdx? fun x => x == hall).getD 0
  let below := ((declaredStages r).filter fun q => decide (q < st)).foldl (fun n q => n + stageCap r q) 0
  recWord r 7 + BitVec.ofNat 64 (128 * (below * halls.length + stageCap r st * h + i % stageCap r st))

/-- The cores of a hall that serve a stage of a launch (R242), ascending. -/
def servingCores (s : State) (hall l st : Nat) : List Nat :=
  s.cores.filterMap fun (c, q) =>
    if !isThreshold c && hallOf c == hall && tfind q.stages l == some st then some c else none

/-- Stores an entry in a queue (R239, R241): its mask word and present fields. -/
def storeEntry (hall l : Nat) (r : Launch) (st : Nat) (words : List Word) : M Unit := do
  let s ← get
  let q := queueAt s hall l st
  engineWrite hall (l / 1024) (entryAddress r hall st (q.head + q.count)) (words.flatMap fun w => bytesOfNat 4 w.toNat)
  modify fun s =>
    post (onQueue s hall l st fun q => { q with count := q.count + 1 })
      ((servingCores s hall l st).map fun c => .prefetcherFill c)

/-- Decodes an entry against a queue's state (R240): the fields of the task, which are the new state. -/
def decodeFields {α : Type} (mask : Nat) : Nat → List α → List α → List α
  | _, [], _ => []
  | f, d :: ds, ws =>
    if bitAt mask f then ws.headD d :: decodeFields mask (f + 1) ds ws.tail
    else d :: decodeFields mask (f + 1) ds ws

/-! ### Tasks (R17, R238, R240) -/

/-- A task of a launch's stage with its fields, for a slot whose barrier seen counts it inherits (R17, R30, R263). -/
def newTask (l : Nat) (r : Launch) (st : Nat) (fields : List Word) (old : Slot) : Slot :=
  let field := fun i => (fields.getD i 0).setWidth 64
  { Slot.reset with
    x := (List.range 15).foldl (fun x i => x.set! (i + 17) (field (i + 1))) Slot.reset.x
    trap := { TrapRegs.reset with vec := recWord r 1 }
    pc := stageEntry r st + (field 0 <<< 2)
    live := true
    ctx := l / 1024
    launch := some (l % 1024)
    stage := st
    arm := r.arm
    seen := old.seen
    pairMode := recPR r }

/-- The fields of an entry that came of poisoned words, from those of its words and of the decode state before: all of them, where the
mask or field 0 did (log entry 113). -/
def lostFields (mask : Nat) (old words : List Bool) : List Bool :=
  let fs := decodeFields mask 0 old words.tail
  if words.headD false || fs.headD false then fs.map fun _ => true else fs

/-- A task whose fields came of poisoned words in part: their registers are uncorrectable (R357, R358). -/
def withLost (lost : List Bool) (v : Slot) : Slot :=
  let rs := (List.range 15).filter fun i => lost.getD (i + 1) false
  { v with bad := rs.foldl (fun t i => tput t (i + 17) (registerCheck (v.x.get (Fin.ofNat 32 (i + 17))).toNat ^^^ 3)) v.bad }

/-- Whether a task slot of a core is held by a launch: a task of it runs there, or will (R76). -/
def slotOf (l : Nat) (v : Slot) : Bool := launchOf v == some l

/-! ### Save frames (R251, Table 14.11) -/

/-- The bytes of a list of dwords. -/
def dwords (l : List XWord) : List Byte := l.flatMap fun v => bytesOfNat 8 v.toNat

/-- Bytes cut or filled with zeros to a length. -/
def padTo (n : Nat) (bs : List Byte) : List Byte := (bs ++ List.replicate (n - bs.length) 0).take n

/-- SSTAT of a stream (Table 6.6). -/
def streamCount (v : Stream) : Nat := v.desc.toNat / 2 ^ 64 % 2 ^ 32
def streamWrites (v : Stream) : Bool := v.desc.getLsbD 130
def streamDone (v : Stream) : Bool := v.pos.toNat == streamCount v
def streamStatus (v : Stream) : XWord :=
  if !v.configured then 0
  else BitVec.ofNat 64 ((streamDone v).toNat * 2 ^ 41 + v.overrun.toNat * 2 ^ 40 +
    (match v.bound with | some r => r.val * 2 ^ 35 + 2 ^ 34 | none => 0) +
    (streamWrites v).toNat * 2 ^ 33 + 2 ^ 32 + (streamCount v - v.pos.toNat))

/-- The 48 bytes of a stream in a frame. -/
def streamBytes (v : Stream) : List Byte :=
  bytesOfNat 32 v.desc.toNat ++ bytesOfNat 4 v.pos.toNat ++ bytesOfNat 4 ((streamStatus v).toNat / 2 ^ 32) ++
    List.replicate 8 0

/-- The 32 bytes of a retry latch in a frame (log entry 16: R251 gives no inner layout). -/
def latchBytes (l : Option Latch) : List Byte :=
  match l with
  | none => List.replicate 32 0
  | some q => bytesOfNat 4 (encode q.instr).toNat ++ bytesOfNat 4 (1 + 2 * q.sent.toNat) ++ bytesOfNat 8 q.addr.toNat ++
      bytesOfNat 8 q.operand.toNat ++ bytesOfNat 8 q.expected.toNat

/-- The status dword of a frame. -/
def frameStatus (s : State) (c : Nat) (v : Slot) (started : Bool) : Nat :=
  (!started).toNat * 2 ^ 63 + ((v.wait.map Wait.code).getD 0) * 2 ^ 56 + v.loops.length * 2 ^ 53 +
    v.hints.length % 8 * 2 ^ 50 + (pairWord s c).toNat % 4 * 2 ^ 48 + (superstepWord s v).toNat % 4 * 2 ^ 46

/-- The first 4,032 bytes of a frame (R90, R251). -/
def frameBody (s : State) (c : Nat) (v : Slot) (started : Bool) : List Byte :=
  dwords v.x.toList ++ v.w.toList.flatMap (fun w => bytesOfNat 32 w.toNat) ++
  bytesOfNat 4 (2 ^ 32 - 1) ++ (v.p.toList.drop 1).flatMap (fun p => bytesOfNat 4 p.toNat) ++
  dwords (v.h.toList.map fun h => h.getD 0) ++ v.s.toList.flatMap streamBytes ++
  padTo 96 (dwords (v.loops.flatMap fun e => [e.remaining, e.start, e.stop])) ++
  padTo 32 (v.hints.flatMap fun h => bytesOfNat 4 (encode h).toNat) ++ latchBytes v.latch ++
  dwords [v.trap.cause, v.trap.pc, v.trap.addr, v.trap.info, v.trap.vec, v.trap.save, v.fpCtl, v.fpFlags, restartPc v] ++
  bytesOfNat 8 (frameStatus s c v started) ++
  (List.range 52).flatMap (fun i => bytesOfNat 4 (tget 0 v.seen i).toNat) ++
  bytesOfNat 4 (v.launch.getD 0) ++ bytesOfNat 4 v.stage ++ bytesOfNat 4 v.arm.toNat ++ bytesOfNat 4 c ++
  dwords [v.cyc, v.retired] ++ List.replicate 1984 0

/-- A whole frame: the body and its digest (R251). -/
def frameBytes (s : State) (c : Nat) (v : Slot) (started : Bool) : List Byte :=
  let body := frameBody s c v started
  body ++ sha512 body

/-- The 48 bytes of a stream as a restore reads them, from byte `at_` of a frame. -/
def frameStream (bs : List Byte) (at_ : Nat) (v : Stream) : Stream :=
  let st := fieldAt bs (at_ + 36) 4
  { v with
    configured := bitAt st 0, desc := BitVec.ofNat 256 (fieldAt bs at_ 32), pos := BitVec.ofNat 32 (fieldAt bs (at_ + 32) 4)
    bound := if bitAt st 2 then some (Fin.ofNat 32 (st / 8)) else none, overrun := bitAt st 8 }

/-- The retry latch as a restore reads it (log entry 16). -/
def frameLatch (bs : List Byte) (v : Option Latch) : Option Latch :=
  if bitAt (fieldAt bs 1700 4) 0 then v.map fun q => { q with
    instr := ((decode (BitVec.ofNat 32 (fieldAt bs 1696 4))).toOption).getD q.instr
    sent := bitAt (fieldAt bs 1700 4) 1, addr := BitVec.ofNat 64 (fieldAt bs 1704 8)
    operand := BitVec.ofNat 64 (fieldAt bs 1712 8), expected := BitVec.ofNat 64 (fieldAt bs 1720 8) }
  else none

/-- A task as a restore reads it from its frame (R251): what Table 14.11 lists comes from the frame's bytes, and the rest of
it from what the device keeps of the task. An address of instructions is a multiple of 4 (R32). -/
def frameTask (bs : List Byte) (v : Slot) : Slot :=
  let code := fun (x : XWord) => x &&& ~~~3#64
  let word := fun i => BitVec.ofNat 32 (fieldAt bs i 4)
  let dword := fun i => BitVec.ofNat 64 (fieldAt bs i 8)
  let status := fieldAt bs 1800 8
  let hints := (List.range (bitsOf status 52 50)).filterMap fun i => (decode (word (1664 + 4 * i))).toOption
  { v with
    x := (List.range 31).foldl (fun x i => x.set! (i + 1) (dword (8 * (i + 1)))) v.x
    w := Vector.ofFn fun (i : Fin 32) => BitVec.ofNat 256 (fieldAt bs (256 + 32 * i.val) 32)
    p := (List.range 7).foldl (fun p i => p.set! (i + 1) (word (1280 + 4 * (i + 1)))) v.p
    h := Vector.ofFn fun (i : Fin 8) => let b := dword (1312 + 8 * i.val); if b = 0 then none else some b
    s := Vector.ofFn fun (i : Fin 4) => frameStream bs (1376 + 48 * i.val) (v.s.get i)
    loops := (List.range (bitsOf status 55 53)).map fun i =>
      ⟨dword (1568 + 24 * i), code (dword (1576 + 24 * i)), code (dword (1584 + 24 * i))⟩
    hints := hints, hintPc := if hints.isEmpty then v.hintPc else code (dword 1792)
    pc := code (dword 1792) + BitVec.ofNat 64 (4 * hints.length)
    latch := frameLatch bs v.latch
    trap := ⟨dword 1728, code (dword 1736), dword 1744, dword 1752, code (dword 1760), dword 1768⟩
    fpCtl := dword 1776, fpFlags := dword 1784
    seen := (List.range 52).foldl (fun t i => tset 0 t i (word (1808 + 4 * i))) []
    launch := v.launch.map fun _ => fieldAt bs 2016 4
    stage := fieldAt bs 2020 4, arm := word 2024, cyc := dword 2032, retired := dword 2040 }

/-- The free save frame of lowest index of a context (R252). -/
def freeFrame (s : State) (ctx : Nat) : Option Nat :=
  let used := (contextAt s ctx).saved.filterMap SavedTask.frame
  let i := (List.range (used.length + 1)).find? fun i => !used.contains i
  i.bind fun i => if i < ctxFrames s ctx then some i else none

/-- The address of a save frame (R232). -/
def frameAddress (s : State) (ctx i : Nat) : XWord := ctxSave s ctx + BitVec.ofNat 64 (4096 * i)

/-- A task as it is saved (R115, R111): its wait and registration are released, the fetched elements discarded, and its seen
counts and the issue state (R90) go with it. -/
def savedImage (v : Slot) : Slot :=
  { v with wait := none, carries := true, s := v.s.map fun q => { q with fetched := [] } }

/-- A slot whose task has gone; it stays in its launch, with its barrier seen counts. Its streams, loop stack, hints and
handle bindings are discarded, and with H = 1 its trap state (R263); its other registers keep what the task left until the
next task starts (R17). -/
def vacated (v : Slot) : Slot :=
  { v with
    live := false, wait := none, delay := 0, yielded := false, latch := none, held := [], remoteHall := 0
    remoteCount := 0, remoteOff := false, arrivedIn := none, copyError := none, loops := [], hints := []
    s := Vector.replicate 4 Stream.reset, h := Vector.replicate 8 none
    trap := if inHandler v then { v.trap with cause := 0, pc := 0, addr := 0, info := 0 } else v.trap }

/-- A slot that a launch has given back: its registers keep what the last task left until the next one starts (R17). -/
def freed (v : Slot) : Slot :=
  { vacated v with launch := none, stage := 0, arm := 0, seen := [], pairMode := false }

/-- Drops the watches of a slot (R115, R124). -/
def dropWatches (q : Core) (k : Fin 4) : Core := { q with watches := q.watches.filter fun w => w.slot != k }

/-- Writes a task to a frame (R251) and lists it as saved with its checkpoint and its chain; `waits` is the cause it waits
for. One that has not started brings no seen counts (R121). -/
def saveTask (c : Nat) (v : Slot) (check : Option Slot) (chain chainCheck : Option ChainRole) (frame : Nat)
    (waits : Option Wait) (started switched : Bool) : M Unit := do
  let s ← get
  let h := foundationHall s v.ctx
  engineWrite h v.ctx (frameAddress s v.ctx frame) (frameBytes s c v started)
  modify fun s => onContext s v.ctx fun x => { x with
    saved := x.saved ++ [⟨{ savedImage v with carries := started }, check.map savedImage, chain, chainCheck, c, some frame, waits, switched⟩] }

/-- Stores the entries a task holds for its successor: each turns its reservation into an entry (R262). -/
def storeHeld (hall : Nat) (v : Slot) : List HeldEntry → M Unit
  | [] => return ()
  | e :: t => do
    match launchOf v with
    | none => return ()
    | some l => do
      match launchAt (← get) l with
      | none => return ()
      | some r => do
        storeEntry hall l r e.stage e.words
        modify fun s => onQueue s hall l e.stage fun q => { q with reserved := q.reserved - 1 }
        storeHeld hall v t

/-! ### Barriers of a launch (R37, R120) -/

/-- The key of a barrier: tier, instance and number. -/
def barrierKey (tier : Tier) (unit n : Nat) : Nat := 64 * (2 ^ 20 * tier.code + unit) + n

/-- The instance of a tier a core lies in. -/
def unitOf (tier : Tier) (c : Nat) : Nat :=
  match tier with
  | .slot => c | .core => c | .room => roomOf c | .hall => hallOf c | .wing => wingOf c | .house => 0 | .estate => 0

/-- The index of a barrier among the seen counts of a frame (Table 14.11). -/
def seenIndex (tier : Tier) (n : Nat) : Nat :=
  match tier with
  | .hall => 16 + n | .wing => 32 + n | .house => 40 + n | .estate => 48 + n | _ => n

/-- A barrier of a launch. -/
def barrierAt (r : Launch) (key : Nat) : Barrier := tget Barrier.reset r.barriers key

/-- The record's barriers configured as a launch starts in a room (R238, Table 14.3). -/
def configureBarriers (r : Launch) (room : Nat) : Launch :=
  let set := fun (r : Launch) (tier : Tier) (unit n i : Nat) =>
    let key := barrierKey tier unit n
    if (tfind r.barriers key).isSome then r
    else { r with barriers := tput r.barriers key { Barrier.reset with config := recBarrier r i } }
  let c := 16 * room
  let r := (List.range 4).foldl (fun r n => set r .room (unitOf .room c) n n) r
  let r := (List.range 4).foldl (fun r n => set r .hall (unitOf .hall c) n (4 + n)) r
  let r := (List.range 2).foldl (fun r n => set r .wing (unitOf .wing c) n (8 + n)) r
  let r := set r .house 0 0 10
  set r .estate 0 0 11

end Sys2Proof.Machine
end

