-- ==== Sys2Proof/Machine/Sealed.lean ====
section
/-! DEFINITION. Sealed memory (R271 to R285): regions, names, the name index and its reference counts, root cells. -/

namespace Sys2Proof.Machine

open Sys2Proof

/-- A dword of a region descriptor (Table 16.1). -/
def regionDword (s : State) (g k : Nat) : XWord := tget 0 s.regionTable (8 * g + k)

def regionBase (s : State) (g : Nat) : XWord := regionDword s g 0
def regionLen (s : State) (g : Nat) : Nat := (regionDword s g 1).toNat
def regionKey (s : State) (g : Nat) : Nat := (regionDword s g 3).toNat / 2 ^ 32 % 1024
def regionIc (s : State) (g : Nat) : Nat := (regionDword s g 3).toNat % 64
def regionSeed (s : State) (g : Nat) : Nat := (regionDword s g 4).toNat
def regionDeclared (s : State) (g : Nat) : Bool := (regionDword s g 5).getLsbD 0
def regionCtx (s : State) (g : Nat) : Nat := (regionDword s g 6).toNat % 4096

/-- The declared regions of a context. -/
def regionsOf (s : State) (ctx : Nat) : List Nat :=
  (List.range 256).filter fun g => regionDeclared s g && regionCtx s g == ctx

/-- The declared region of a context whose object range holds an address (R271). -/
def regionAt (s : State) (ctx : Nat) (a : XWord) : Option Nat :=
  (regionsOf s ctx).find? fun g =>
    decide ((regionBase s g).toNat ≤ a.toNat) && decide (a.toNat < (regionBase s g).toNat + regionLen s g)

/-! ### Names (R275, R276) -/

/-- The salt of a region (R275). -/
def saltOf (s : State) (g : Nat) : List Byte :=
  (sha512 (bytesOfNat 8 (regionSeed s g) ++ bytesOfNat 2 g ++ bytesOfNat 2 (regionKey s g))).take 8

/-- The hash of an object: the first 124 bits of its digest (R275). -/
def hashOf (s : State) (g : Nat) (contents : List Byte) : Nat :=
  natOfBytes ((sha512 (saltOf s g ++ bytesOfNat 2 (contents.length / 128) ++ contents)).take 16).reverse / 16

/-- A name of a hash and a collision index (R275). -/
def nameOf (hash index : Nat) : BitVec 128 := BitVec.ofNat 128 (hash * 16 + index)

/-- Whether contents are those of a node (R274). -/
def isNode (bs : List Byte) : Bool :=
  bs.length == 128 && fieldAt bs 0 4 / 2 ^ 28 == 1 && fieldAt bs 4 12 == 0

/-- The type code of child `c` of a node (Table 11.2). -/
def childCode (bs : List Byte) (c : Nat) : Nat := fieldAt bs 0 4 / 2 ^ (4 * c) % 16

/-- The field of child `c` of a node (Table 11.2). -/
def childField (bs : List Byte) (c : Nat) : BitVec 128 := BitVec.ofNat 128 (fieldAt bs (16 + 16 * c) 16)

/-- The names that a node's child fields hold: those of codes 2 to 5 (R278). -/
def childNames (bs : List Byte) : List (BitVec 128) :=
  if isNode bs then
    ((List.range 4).filter fun c => 2 ≤ childCode bs c && childCode bs c ≤ 5).map (childField bs)
  else []

/-! ### The index (R277 to R280) -/

/-- The index of a region. -/
def indexOf (s : State) (g : Nat) : List SealedEntry := tget [] s.indexes g

/-- Entries of one shard of a region's index (R277). -/
def shardSize (s : State) (g : Nat) : Nat := 2 ^ regionIc s g / 256

/-- The logical hall whose larder holds an entry of a region's index, by its number. -/
def indexHall (s : State) (g i : Nat) : Nat := i / shardSize s g

/-- The virtual address of an entry of a region's index. -/
def indexAddress (s : State) (g i : Nat) : XWord := regionDword s g 2 + BitVec.ofNat 64 (32 * i)

/-- The page of an entry of a region's index, where the translations of its larder's hall have it. -/
def indexPage (s : State) (g i : Nat) : Option TlbEntry :=
  (hallAt s (indexHall s g i)).tlb.find? fun e => covers e (regionCtx s g) (pageOf (indexAddress s g i))

/-- The bytes of an index entry (Table 16.2); a free one is all zero. -/
def entryBytes : Option SealedEntry → List Byte
  | none => List.replicate 32 0
  | some e => bytesOfNat 16 e.name.toNat ++ bytesOfNat 4 e.line ++
    bytesOfNat 4 (e.key + e.node.toNat * 2 ^ 13 + e.perm.toNat * 2 ^ 14 + e.len * 2 ^ 16) ++ bytesOfNat 4 e.count ++
    List.replicate 4 0

/-- An index entry written where its page lies. -/
def putEntry (s : State) (g i : Nat) (e : TlbEntry) : State := { s with
  mem := memWrite s.mem (memKey (attrKey e.attr) (frameOf e (indexAddress s g i)))
    (entryBytes ((indexOf s g).find? fun x => x.place == i)) }

/-- The larder of an index entry writes it (R277), at once where its page's translation is at hand, else when that has come: no
operation waits for it (log entry 125). -/
def writeEntry (s : State) (g i : Nat) : State :=
  match indexPage s g i with
  | some e => putEntry s g i e
  | none =>
    if s.indexOwed.contains (g, i) then s
    else post { s with indexOwed := s.indexOwed ++ [(g, i)] }
      [.translationMiss (indexHall s g i) ⟨regionCtx s g, indexAddress s g i, .read, .foundation⟩]

/-- A hall's larder writes the entries that it owes and whose pages are at hand. -/
def writeOwed (s : State) (hall : Nat) : State :=
  let due := s.indexOwed.filter fun (g, i) => indexHall s g i == hall && (indexPage s g i).isSome
  due.foldl (fun s (g, i) => writeEntry s g i) { s with indexOwed := s.indexOwed.filter fun e => !due.contains e }

/-- The numbers of the entries that differ between two indexes. -/
def changedEntries (old new : List SealedEntry) : List Nat :=
  ((new.filter fun e => !old.contains e) ++ old.filter fun e => !new.contains e).map SealedEntry.place

/-- The state with a region's index changed. -/
def onIndex (s : State) (g : Nat) (f : List SealedEntry → List SealedEntry) : State :=
  let new := f (indexOf s g)
  (changedEntries (indexOf s g) new).foldl (fun s i => writeEntry s g i) { s with indexes := tput s.indexes g new }

/-- The number of the entry that a new name takes: the lowest free one of its shard (log entry 125). -/
def freePlace (s : State) (g hash : Nat) : Nat :=
  let first := hash / 2 ^ 116 * shardSize s g
  let taken := (indexOf s g).map SealedEntry.place
  ((List.range (shardSize s g)).find? fun i => !taken.contains (first + i)).getD 0 + first

/-- The entry of a name. -/
def entryOf (s : State) (g : Nat) (name : BitVec 128) : Option SealedEntry :=
  if name = 0 then none else (indexOf s g).find? fun e => e.name == name

/-- The greatest reference count (R279). -/
def countTop : Nat := 2 ^ 32 - 1

/-- A count after an add (Table 16.3). -/
def counted (e : SealedEntry) : SealedEntry :=
  if e.count = countTop then e
  else { e with count := e.count + 1, perm := e.perm || decide (e.count + 1 = countTop) }

/-- Adds one reference to a name (R279): whether the name is present. Name 0 is never counted. -/
def addRef (s : State) (g : Nat) (name : BitVec 128) : State × Bool :=
  match entryOf s g name with
  | none => (s, false)
  | some _ => (onIndex s g fun l => l.map fun e => if e.name = name then counted e else e, true)

/-- Releases one reference to a name (R279, R280): at 0 the entry goes at once, and the releases of a node's children
are deferred. -/
def dropRef (s : State) (g : Nat) (name : BitVec 128) : State × Bool :=
  match entryOf s g name with
  | none => (s, false)
  | some e =>
    if e.perm then (s, true)
    else if 1 < e.count then
      (onIndex s g fun l => l.map fun x => if x.name = name then { x with count := x.count - 1 } else x, true)
    else
      let s := onIndex s g fun l => l.filter fun x => x.name != name
      let s := { s with deferred := s.deferred ++ e.kids.map fun k => (g, k) }
      (post s (e.kids.map fun _ => .deferredRelease), true)

/-- The deferred releases of a context are performed, in their order, until none is left (R280); `fuel` at most. -/
def releaseDeferred (ctx : Nat) : Nat → State → State
  | 0, s => s
  | fuel + 1, s => match s.deferred.find? fun e => regionCtx s e.1 == ctx with
    | none => s
    | some e => releaseDeferred ctx fuel (dropRef { s with deferred := s.deferred.erase e } e.1 e.2).1

/-- As many releases as there can be deferred, now and by those: each entry of an index goes once. -/
def releasesLeft (s : State) : Nat := s.deferred.length + ((s.indexes.flatMap Prod.snd).map fun e => e.kids.length).sum

/-- Why an allocation fails (R276 to R278). -/
inductive LarderFail where
  | indices | full | shard | missingChild (child : Nat)
  deriving DecidableEq, Repr

/-- Whether lines of the object range hold an object. -/
def linesTaken (es : List SealedEntry) (line n : Nat) : Bool :=
  es.any fun e => decide (line < e.line + e.len + 1) && decide (e.line < line + n)

/-- The lines at which room for an object may begin: the start of the range and the end of each object. -/
def lineChoices (es : List SealedEntry) : List Nat := ascending (0 :: es.map fun e => e.line + e.len + 1)

/-- The lines the larder chooses for a new object of `n` lines (R278): where it likes, if they are free. -/
def placeObject (s : State) (g n : Nat) : Option Nat :=
  let es := indexOf s g
  let fits := fun line => decide (line + n ≤ regionLen s g / 128) && !linesTaken es line n
  let like := Config.larderPlace s.tick g (es.map fun e => e.line) n
  if fits like then some like else (lineChoices es).find? fits

/-- Whether the shard of a hash is full (R277). -/
def shardFull (s : State) (g hash : Nat) : Bool :=
  decide (shardSize s g ≤ ((indexOf s g).filter fun e => e.name.toNat / 2 ^ 120 == hash / 2 ^ 116).length)

/-- The address of a line of a region's object range. -/
def lineAddress (s : State) (g line : Nat) : XWord := regionBase s g + BitVec.ofNat 64 (128 * line)

/-- The logical hall whose larder holds the shard of a hash (R277). -/
def homeLarder (hash : Nat) : Nat := hash / 2 ^ 116

/-- Where a line of an object lies for the larder of a hall: through the translations of a context there (R277, R297; log entry
64). -/
def larderFind (ctx hall : Nat) (x : XWord) : M Place := asEngine hall ctx (locateFor hall 0 ctx .foundation x .read)

/-- The bytes of `n` lines, each located by the agent that asks. -/
def lineBytes (find : XWord → M Place) (a : XWord) : Nat → M (List Byte × Bool)
  | 0 => return ([], false)
  | n + 1 => do
    let p ← find a
    let (bs, bad) ← peek a p 128
    let (cs, bad') ← lineBytes find (a + 128) n
    return (bs ++ cs, bad || bad')

/-- Writes lines of an object range, which only the larders do (R272). -/
def writeLines (find : XWord → M Place) (w : Nat) (a : XWord) : Nat → List Byte → M Unit
  | 0, _ => return ()
  | n + 1, bs => do
    let p ← find a
    poke w p (bs.take 128)
    writeLines find w (a + 128) n (bs.drop 128)

/-- The contents of an object. -/
def objectBytes (find : XWord → M Place) (g : Nat) (e : SealedEntry) : M (List Byte × Bool) := do
  let s ← get
  lineBytes find (lineAddress s g e.line) (e.len + 1)

/-- The object among candidates of the same hash and length whose contents are those looked up (R278). -/
def findEqual (find : XWord → M Place) (g : Nat) (contents : List Byte) : List SealedEntry → M (Option SealedEntry)
  | [] => return none
  | e :: t => do
    let (bs, _) ← objectBytes find g e
    if bs = contents then return some e else findEqual find g contents t

/-- Adds references to names in order. -/
def addRefs (s : State) (g : Nat) (names : List (BitVec 128)) : State :=
  names.foldl (fun s n => (addRef s g n).1) s

/-- Releases references to names in order. -/
def dropRefs (s : State) (g : Nat) (names : List (BitVec 128)) : State :=
  names.foldl (fun s n => (dropRef s g n).1) s

/-- The first child of a node whose name the region does not hold (R278). -/
def missingOf (s : State) (g : Nat) (contents : List Byte) : Option Nat :=
  if isNode contents then (List.range 4).find? fun c =>
    decide (2 ≤ childCode contents c) && decide (childCode contents c ≤ 5) && (entryOf s g (childField contents c)).isNone
  else none

/-- The region that a name of a context is in (R286): the declared region of the lowest number whose index holds it. -/
def regionOfName (s : State) (ctx : Nat) (name : BitVec 128) : Option Nat :=
  (regionsOf s ctx).find? fun g => (entryOf s g name).isSome

/-- A lookup of contents of a context at the home larder of their hash (R277, R278): the name, with one reference added, and
whether the object is new. `owned` says that the asker holds references to a node's children, which then pass to the node
(R208). -/
def lookupOrAllocate (ctx g : Nat) (contents : List Byte) (owned : Bool) : M (Except LarderFail (BitVec 128 × Bool)) := do
  let s ← get
  let hash := hashOf s g contents
  let find := larderFind ctx (homeLarder hash)
  let n := contents.length / 128
  let same := (List.range 16).filterMap fun i => (indexOf s g).find? fun e => e.name == nameOf hash i
  let hit ← findEqual find g contents (same.filter fun e => e.len + 1 == n)
  match hit with
  | some e => do
    modify fun s => (addRef s g e.name).1
    return .ok (e.name, false)
  | none => do
    let kids := childNames contents
    match missingOf s g contents with
    | some c => return .error (.missingChild c)
    | none =>
      let index := (List.range 16).find? fun i =>
        !(hash == 0 && i == 0) && !((indexOf s g).any fun e => e.name == nameOf hash i)
      match index with
      | none => return .error .indices
      | some i => match placeObject s g n with
        | none => return .error .full
        | some line =>
          if shardFull s g hash then return .error .shard
          else do
            writeLines find (homeLarder hash / 16) (lineAddress s g line) n contents
            modify fun s => onIndex s g fun l =>
              l ++ [⟨nameOf hash i, line, n - 1, false, isNode contents, regionKey s g, 1, kids, freePlace s g hash⟩]
            if !owned then modify fun s => addRefs s g kids
            return .ok (nameOf hash i, true)

/-! ### Names of a context -/

/-- The state after a reference to a name of a context is released. -/
def dropName (ctx : Nat) (s : State) (name : BitVec 128) : State :=
  match regionOfName s ctx name with
  | some g => (dropRef s g name).1
  | none => s

/-- The state after a reference to a name of a context is added. -/
def addName (ctx : Nat) (s : State) (name : BitVec 128) : State :=
  match regionOfName s ctx name with
  | some g => (addRef s g name).1
  | none => s

/-- The root of a tensor slot's descriptor; 0 where it is no tree (Table 12.3). -/
def treeRoot (d : List XWord) : BitVec 128 :=
  if (d.getD 0 0).toNat % 4 = 1 then d.getD 3 0 ++ d.getD 2 0 else 0

/-! ### Root cells (R282, R209) -/

/-- A sealed compare-and-swap of a root cell: whether it succeeds, or none where the cell is poisoned (R358). The names are of a
region, or each of its own region in a context (R286). -/
def swapRoot (w ctx : Nat) (region : Option Nat) (addr : XWord) (cell : Place) (expected new : BitVec 128) : M (Option Bool) := do
  let (bs, bad) ← peek addr cell 16
  let old := BitVec.ofNat 128 (natOfBytes bs)
  if bad then return none
  else if old = expected then do
    poke w cell (bytesOfNat 16 new.toNat)
    modify fun s =>
      let s := match region.orElse fun _ => regionOfName s ctx new with
        | some g => (addRef s g new).1
        | none => s
      match region.orElse fun _ => regionOfName s ctx old with
      | some g => (dropRef s g old).1
      | none => s
    return some true
  else return some false

end Sys2Proof.Machine
end

