-- ==== Sys2Proof/Machine/Board.lean ====
section
/-! DEFINITION. The range scoreboard of a room (R142, R137) and the homes of mapped words: whose words a store writes, and which
it may not write (R140, R147). -/

namespace Sys2Proof.Machine

open Sys2Proof

/-! ### The range scoreboard (R142) -/

/-- The transfer whose entry an interval of a room's vault overlaps. -/
def boardHit (s : State) (r off n : Nat) : Option Nat :=
  ((roomAt s r).board.find? fun e => decide (e.lo < off + n) && decide (off < e.hi)).map Interval.id

/-- The partition that a core is to have once a move that waits for a page goes on (R137). -/
def movingTo (s : State) (c : Nat) : Option Nat := s.blocked.findSome? fun e => match e.due with
  | .partitionMove d kib => if d = c then some kib else none
  | _ => none

/-- Whether an interval of a vault lies in the range that a waiting partition move surrenders. -/
def inMove (s : State) (r off n : Nat) : Bool :=
  let c := 16 * r + off / 2 ^ 19 % 16
  match movingTo s c with
  | none => false
  | some kib => decide (1024 * kib < off % 2 ^ 19 + n) && decide (off % 2 ^ 19 < 1024 * (coreAt s c).partition)

/-- An access of the C, S or M path that overlaps an entry stalls until it retires, and one to a range that a partition move
surrenders until the move is over (R137). -/
def stallOn (p : Place) (n : Nat) : M Unit := do
  match p with
  | .mem _ _ => pure ()
  | .vault r off => match boardHit (← get) r off n with
    | none => do
      ensure (!inMove (← get) r off n) (throw (.later []))
    | some id => throw (.retry [.copyTransferComplete id, .scoreboardRetire r id])

/-- Entries of a range scoreboard (R142). -/
def boardSize : Nat := 16

/-- Waits for free entries of the scoreboards that a transfer needs: one for each interval of a room's vault. -/
def awaitBoards : List (Nat × Nat × Nat) → M Unit
  | [] => pure ()
  | (r, _, _) :: t => do
    let b := (roomAt (← get) r).board
    if b.length + ((r :: t.map Prod.fst).filter (fun q => q == r)).length ≤ boardSize then awaitBoards t
    else match b with
      | e :: _ => throw (.retry [.copyTransferComplete e.id, .scoreboardRetire r e.id])
      | [] => awaitBoards t

/-! ### Mapped words (R140, R147) -/

/-- The global address a mapping gives a vault offset. -/
def mappedVa (m : Mapping) (off : Nat) : XWord := m.va + BitVec.ofNat 64 (off - m.off)

/-- A mapping whose line of a vault offset has its home found; a sealed page makes the range read-only (R140). -/
def homedMapping (m : Mapping) (off : Nat) (h : LineHome) (ro : Bool) : Mapping :=
  { m with homes := tput m.homes ((off - m.off) / 128) h, readOnly := m.readOnly || ro }

/-- The home of a line of a core's mapping has been found. -/
def foundHome (s : State) (c : Nat) (m : Mapping) (off : Nat) (h : LineHome) (ro : Bool) : State :=
  onCore s c fun q => { q with mappings := q.mappings.map fun x => if x.off = m.off then homedMapping m off h ro else x }

/-- A room becomes the owner of a word of memory whose copy it writes (R147). -/
def claimWord (r key pa : Nat) (s : State) : State :=
  leaveFor (claimSpan s (some r) key pa 4) (r / 256) (copyWings s (some r) key pa 4)

/-- The home of the line at a vault offset of a core's mapping, where it has been found or its translation is at hand. -/
def lineHome (s : State) (c : Nat) (m : Mapping) (base : Nat) : Option LineHome :=
  match tfind m.homes ((base - m.off) / 128) with
  | some h => some h
  | none => (slotLookup s c m.ctx (pageOf (mappedVa m base))).map fun ((e : TlbEntry), (_ : State)) =>
    ⟨attrKey e.attr, frameOf e (mappedVa m base), attrClass e.attr⟩

/-- The access that finds the home of a mapped line whose words a core has written: it holds nothing up (R147). -/
def claimMiss (c : Nat) (m : Mapping) (base : Nat) : Due :=
  .translationMiss (hallOf c) ⟨m.ctx, mappedVa m base, .write, .prefetch c⟩

/-- A store to a mapped word makes its room the owner of the global word (R147); where the home of its line is not known yet, once
that has been found. -/
def claimMapped (r off : Nat) : M Unit := do
  let s ← get
  let c := 16 * r + off / 2 ^ 19 % 16
  match isMapped s r off with
  | none => pure ()
  | some m =>
    let base := off / 128 * 128
    match lineHome s c m base with
    | none => set (post s [claimMiss c m base])
    | some h => do
      set (foundHome s c m base h false)
      if actsAs s h.pa h.cls = 0 then modify (claimWord r h.key (h.pa + off % 128 / 4 * 4))

/-- A room becomes the owner of the dirty words of line `i` of a core's mapping, whose translation is at hand (R147). -/
def claimDirty (c : Nat) (m : Mapping) (s : State) (i : Nat) : State :=
  let base := m.off + 128 * i
  match lineHome s c m base, physicalRoom s (roomOf c) with
  | some h, some pr =>
    let dirty := (List.range 32).filter fun j => (vaultAt s pr (base + 4 * j)).d
    let s := foundHome s c m base h false
    if actsAs s h.pa h.cls = 0 then dirty.foldl (fun s j => claimWord (roomOf c) h.key (h.pa + 4 * j) s) s else s
  | _, _ => s

/-- The translation of a page has arrived for what a core has written in mapped lines of it (R147). -/
def claimArrived (s : State) (c ctx : Nat) (a : XWord) : State :=
  ((coreAt s c).mappings.filter fun m => m.ctx == ctx).foldl (fun s m =>
    ((List.range (m.len / 128)).filter fun i =>
      (tfind m.homes i).isNone && pageOf (mappedVa m (m.off + 128 * i)) == pageOf a).foldl (claimDirty c m) s) s

/-- The first byte of an interval at a place that lies in a range that a sealed page fills (R140). -/
def readOnlyAt (s : State) (p : Place) (n : Nat) : Option Nat :=
  match p with
  | .mem _ _ => none
  | .vault r off => ((wordsIn off n).find? fun o => ((isMapped s r o).map Mapping.readOnly).getD false).map fun o => o - off

/-- Whether an interval at a place reaches into a range that a sealed page fills. -/
def isReadOnly (s : State) (p : Place) (n : Nat) : Bool := (readOnlyAt s p n).isSome

/-- A store into a range that a sealed page fills traps 0x06 (R140), at its first byte that lies there. -/
def checkReadOnly (a : XWord) (p : Place) (n : Nat) : M Unit := do
  match readOnlyAt (← get) p n with
  | some i => trap 0x06 (a + BitVec.ofNat 64 i)
  | none => pure ()

/-- Every mapped word of an interval that is about to be written is claimed (R147). -/
def claimPlace (p : Place) (n : Nat) : M Unit :=
  match p with
  | .mem _ _ => pure ()
  | .vault r off => (wordsIn off n).forM (claimMapped r)

end Sys2Proof.Machine
end

