-- ==== Sys2Proof/Machine/Waits.lean ====
section
/-! DEFINITION. Slots that go on together, and slots that wait (R22 to R25, R67, R88, R113 to R124, R160, R162, R360,
R361, R363): chains, pairs, word watches, rings and barriers. A wait of codes 1 to 3 and 8 to 10 is completed by the
change that ends it, which performs the waiting instruction as one step with its test (R114); a wait of any other code
ends with the instruction issuing again. -/

namespace Sys2Proof.Machine

open Sys2Proof

/-! ### Chains (R22 to R24, R88) -/

/-- The core indices of a room in snake order (R22). -/
def snake : List Nat := [0, 1, 2, 3, 7, 6, 5, 4, 8, 9, 10, 11, 15, 14, 13, 12]

/-- The snake position of a core. -/
def snakePos (c : Nat) : Nat := (snake.findIdx? fun i => i == c % 16).getD 0

/-- The core `n` snake positions after a core. -/
def snakeAfter (c n : Nat) : Nat := 16 * (c / 16) + snake.getD (snakePos c + n) 0

/-- Whether a wait is completed by the change that ends it, and not by the instruction issuing again. -/
def Wait.inPlace : Wait → Bool
  | .ring _ _ _ _ | .word _ _ _ | .barrier _ _ _ _ | .commit _ _ _ | .event _ _ | .join _ _ _ | .pairJoin | .kick => true
  | _ => false

/-- The members of a core's chain that are still in it, in order. -/
def membersOf (s : State) (r : ChainRole) : List Nat :=
  ((List.range r.len).map fun n => snakeAfter r.leader n).filter fun d => (coreAt s d).chain.map ChainRole.id == some r.id

/-- The followers of a chain's leader, in order. -/
def followers (s : State) (c : Nat) : List Nat :=
  match (coreAt s c).chain with
  | some r => if r.pos = 0 then (membersOf s r).filter fun d => d != c else []
  | none => []

/-- The entry that slot 0 of a chain's member executes next: a follower's, or what a follower that has become a leader still
has of its former leader's (R24). -/
def forwarded (s : State) (c : Nat) (k : Fin 4) : Option Forward :=
  match (coreAt s c).chain with
  | some r => if k = 0 then r.queue.head? else none
  | none => none

/-- How many instructions a member of a chain is behind its leader. -/
def behind (s : State) (c : Nat) : Nat := ((coreAt s c).chain.map fun r => r.queue.length).getD 0

/-- Whether slot 0 of a core waits at an instruction that it has issued. -/
def waitsIssued (s : State) (c : Nat) : Bool := ((slotAt s c 0).wait.map Wait.inPlace).getD false

/-- How many of its entries a member of a chain has not issued. -/
def unissued (s : State) (c : Nat) : Nat := behind s c - (waitsIssued s c).toNat

/-- Whether the issuing slot follows a chain's leader at its instruction. -/
def followed : M (Option Forward) := do
  let s ← get
  return forwarded s s.cur.1 s.cur.2

/-- A core's place in a chain changed. -/
def onChain (s : State) (c : Nat) (f : ChainRole → ChainRole) : State :=
  onCore s c fun q => { q with chain := q.chain.map f }

/-- The entry leaves the queue of a follower. -/
def popForward (s : State) (c : Nat) : State := onChain s c fun r => { r with queue := r.queue.tail }

/-- Whether a slot leads a chain that has been sent the instruction at which it waits. -/
def hasSent (s : State) (c : Nat) (k : Fin 4) : Bool :=
  k == 0 && ((coreAt s c).chain.map ChainRole.sent).getD false

/-- The entries of every follower of a leader changed, each of which then has a turn. -/
def toFollowers (s : State) (c : Nat) (f : State → Nat → List Forward → List Forward) : State :=
  (followers s c).foldl (fun s d =>
    let s := onChain s d fun r => { r with queue := f s d r.queue }
    { s with agenda := s.agenda ++ [.core d] }) s

/-- An entry goes to every follower of a leader (R22). -/
def forwardTo (s : State) (c : Nat) (f : Forward) : State := toFollowers s c fun _ _ q => q ++ [f]

/-- The register a hearth command's id goes to (R222). -/
def idDest : Instr → Reg
  | .hmm d _ _ _ _ | .hadd d _ _ _ _ | .hmv d _ _ _ _ | .hcvt d _ _ _ _ => d
  | _ => 0

/-- The leader's instruction goes to its followers with the leader's outcome; it is no business of any other slot. A CHAIN
is no instruction of the chain that it forms, and an UNCHAIN ends the leader's chain once it is on its way (R323). -/
def forward (s : State) (i : Instr) (pc next : XWord) (loops : List Loop) : State :=
  if s.cur.2 ≠ 0 ∨ behind s s.cur.1 ≠ 0 then s
  else match i with
    | .chain _ => s
    | .unchain => onCore (forwardTo s s.cur.1 ⟨some i, pc, next, loops, 0⟩) s.cur.1 fun q => { q with chain := none }
    | _ => forwardTo s s.cur.1 ⟨some i, pc, next, loops, (slotAt s s.cur.1 0).x.get (idDest i)⟩

/-- A leader that comes to wait at its instruction sends it on once, also where it issues again (R23, R115). -/
def forwardWaiting (s : State) (i : Instr) (pc next : XWord) (loops : List Loop) : State :=
  if hasSent s s.cur.1 s.cur.2 then s
  else if s.cur.2 = 0 ∧ (coreAt s s.cur.1).chain.isSome then onChain (forward s i pc next loops) s.cur.1 fun r => { r with sent := r.pos == 0 && r.queue.isEmpty }
  else s

/-- A follower's entries once its leader's chain has ended at an address: it parts there, and where it has issued the leader's
last instruction already, behind that. -/
def partEntries (sent : Bool) (pc : XWord) (loops : List Loop) (s : State) (d : Nat) (q : List Forward) : List Forward :=
  let at_ := fun (pc : XWord) (loops : List Loop) => (⟨none, pc, pc, loops, 0⟩ : Forward)
  let v := slotAt s d 0
  match sent, q.getLast? with
  | false, _ => q ++ [at_ pc loops]
  | true, none => [at_ v.pc v.loops]
  | true, some f => if q.length = 1 && waitsIssued s d then q ++ [at_ f.next f.loops] else q.dropLast ++ [at_ pc loops]

/-- A leader's chain ends at an address (R24): each follower parts from it there. -/
def dissolve (s : State) (c : Nat) (pc : XWord) (loops : List Loop) : State :=
  onCore (toFollowers s c (partEntries (hasSent s c 0) pc loops)) c fun q => { q with chain := none }

/-- A follower leaves its chain, and those after it form a chain of their own (R24). They keep what the old leader had sent
them up to the instruction that the follower leaves at, or that one of them has issued beyond it; what comes after it the new
leader issues itself. -/
def unchain (s : State) (c : Nat) : State :=
  match (coreAt s c).chain with
  | none => s
  | some r =>
    let members := membersOf s r
    let pos := fun (d : Nat) => ((coreAt s d).chain.map ChainRole.pos).getD 0
    let rest := members.filter fun d => decide (r.pos < pos d)
    let cut := rest.foldl (fun n d => min n (unissued s d)) r.queue.length
    let s := { onCore s c (fun q => { q with chain := none }) with serial := s.serial + 1 }
    let s := (members.filter fun d => decide (pos d < r.pos)).foldl (fun s d => onChain s d fun t => { t with len := r.pos }) s
    match rest with
    | [] => s
    | d :: _ =>
      rest.foldl (fun s e => onChain s e fun t => { t with
        id := s.serial, leader := d, pos := t.pos - r.pos - 1, len := r.len - 1 - r.pos, queue := t.queue.take (t.queue.length - cut) }) s

/-! ### Pairs (R25, R360, R361) -/

/-- The follower of a slot that leads a pair. -/
def followerOf (s : State) (c : Nat) (k : Fin 4) : Option Nat :=
  match pairOf s c k with
  | some p => if p.leader then some (c + 1) else none
  | none => none

/-- Whether a slot is the follower of a pair. -/
def isSecond (s : State) (c : Nat) (k : Fin 4) : Bool :=
  match pairOf s c k with
  | some p => !p.leader
  | none => false

/-- The release buffer of the pair a slot runs in. -/
def bufferOf (s : State) (c : Nat) (k : Fin 4) : List Effect :=
  match pairOf s c k with
  | some p => if p.leader then p.buffer else ((coreAt s (c - 1)).pair.map Pair.buffer).getD []
  | none => []

/-- The new value of a register named by its byte (R361). -/
def namedBytes (w : Slot) (n : Nat) : List Byte :=
  if n < 0x20 then bytesOfNat 8 (w.x.get (Fin.ofNat 32 n)).toNat
  else if n < 0x40 then bytesOfNat 32 (w.w.get (Fin.ofNat 32 n)).toNat
  else bytesOfNat 4 (w.p.get (Fin.ofNat 8 n)).toNat

/-- The fingerprint bytes of the registers an instruction has written (R361). -/
def printBytes (wrote : List Nat) (w : Slot) : List Byte :=
  wrote.eraseDups.flatMap fun n => bytesOfNat 1 n ++ namedBytes w n

/-- The address bytes of a place. -/
def placeBytes : Place → List Byte
  | .vault r off => bytesOfNat 8 (0xFE * 2 ^ 48 + r * 2 ^ 23 + off)
  | .mem _ pa => bytesOfNat 8 pa

/-- The fingerprint bytes of a buffered effect (R361). -/
def effectBytes : Effect → List Byte
  | .store p bs => placeBytes p ++ bs
  | .flag r off d f => placeBytes (.vault r off) ++ bytesOfNat 4 ((d.map BitVec.toNat).getD 0) ++ bytesOfNat 1 f.toNat
  | .bring _ pa bs _ => bytesOfNat 8 pa ++ bs
  | .accumulate key pa _ ty v => placeBytes (.mem key pa) ++ bytesOfNat ty.size v.toNat
  | .wsig m => placeBytes m.payload ++ bytesOfNat m.size m.value.toNat
  | .kick _ _ header p => bytesOfNat 8 header.toNat ++ bytesOfNat 4 p.toNat
  | .rootSwap _ _ cell expected new _ => placeBytes cell ++ bytesOfNat 16 expected.toNat ++ bytesOfNat 16 new.toNat
  | .unref _ name => bytesOfNat 8 0 ++ bytesOfNat 16 name.toNat
  | _ => []

/-- The bytes of an effect that the issuing slot sends, for its half's fingerprint (R361): the address, then the data. -/
def feed (bs : List Byte) : M Unit := modify fun s =>
  if (coreAt s s.cur.1).pair.isNone then s
  else onCore s s.cur.1 fun q => { q with pair := q.pair.map fun p => if p.slot = s.cur.2 then { p with fed := p.fed ++ bs } else p }

/-- Each half of a pair changed. -/
def onHalves (s : State) (c : Nat) (f : Nat → Pair → Pair) : State :=
  onCore (onCore s c fun q => { q with pair := q.pair.map (f c) }) (c + 1) fun q => { q with pair := q.pair.map (f (c + 1)) }

/-- One half of a pair after an instruction: its fingerprint, and the count of instructions since the last compare. Where the
instruction has sent an effect, the checkpoint is the slot after it, so that the effect is never repeated (R360). -/
def fedHalf (p : Pair) (v w : Slot) (wrote : List Nat) (sent : List Byte) (buffered : Nat) : Pair :=
  let ran := v.retired != w.retired
  { p with
    print := crcBytes p.print (printBytes wrote w ++ sent)
    since := p.since + ran.toNat, clear := p.clear && !ran, wrote := [], fed := []
    checkpoint := if p.leaves && ran then w else p.checkpoint
    kept := if p.leaves && ran then buffered else p.kept
    leaves := p.leaves && !ran }

/-- The state `t` after the leader ran, with the follower's slot as it ran on the same data (R25); a follower that did
not come out the same way no longer agrees. -/
def joinHalves (s t : State) (twin : Option State) (c f : Nat) (k : Fin 4) : State :=
  let sent := fun (u : State) (d : Nat) => ((coreAt u d).pair.map Pair.fed).getD []
  let half := fun (u : State) (d : Nat) (p : Pair) =>
    fedHalf p (slotAt s d k) (slotAt u d k) (((coreAt u d).pair.map Pair.wrote).getD [])
      ((sent u d).drop (sent s d).length) (bufferOf t c k).length
  let t1 := onCore t c fun q => { q with pair := q.pair.map (half t c) }
  let t2 := match twin with
    | some u => onCore (putSlot t1 f k (slotAt u f k)) f fun q => { q with
        pair := q.pair.map (half u f) }
    | none => onCore t1 f fun q => { q with pair := q.pair.map fun p => { p with print := p.print + 1 } }
  match pairOf t2 c k with
  | some p => if 1024 ≤ p.since then postFirst t2 [.pairCompare c] else t2
  | none => t2

/-- Runs a program in both halves of a pair, or once in any other slot. -/
def mirrored {α : Type} (act : M α) : M α := fun s =>
  match act s with
  | .error e t => .error e t
  | .ok a t =>
    match followerOf s s.cur.1 s.cur.2 with
    | none => .ok a t
    | some f =>
      let twin := match act { s with cur := (f, s.cur.2) } with
        | .ok _ u => some u
        | .error _ _ => none
      .ok a (joinHalves s t twin s.cur.1 f s.cur.2)

/-- In a pair, goes on only where a compare has agreed since the last instruction; the compare is its own step first (R360). A
suspect pair stands at its checkpoint, where the last one agreed. -/
def agreedFirst : M Unit := do
  let s ← get
  match pairOf s (leadCore s s.cur.1 s.cur.2) s.cur.2 with
  | none => pure ()
  | some p => ensure (p.clear || p.suspect) (throw (.retry [.pairCompare (leadCore s s.cur.1 s.cur.2)]))

/-- An effect that leaves a pair only after an agreed compare makes the compare its own step first (R172, R360). -/
def compareFirst : M Unit := do
  agreedFirst
  let s ← get
  match pairOf s (leadCore s s.cur.1 s.cur.2) s.cur.2 with
  | none => pure ()
  | some _ => set (onHalves s (leadCore s s.cur.1 s.cur.2) fun _ p => { p with leaves := true })

/-- In a pair, an effect that leaves at once: the compare first, then the address and the data for the fingerprint (R172, R361). -/
def compareFor (addr : XWord) (data : List Byte) : M Unit := do
  compareFirst
  feed (bytesOfNat 8 addr.toNat ++ data)

/-! ### Ending an instruction -/

/-- The slot of a chain's follower goes where the leader went (R88). -/
def followLeader (v : Slot) (f : Forward) : Slot := { v with pc := f.next, loops := f.loops, delay := 0, yielded := false }

/-- Whether a hint is a SCHED. -/
def isSched : Instr → Bool
  | .hintSchedYield _ | .hintSchedHold => true
  | _ => false

/-- Retirement, in a chain's follower by the leader's outcome and without SCHED (R88). -/
def finish (flow : Flow) : M Unit := do
  let f ← followed
  match f with
  | some _ => onMe fun v => { v with hints := v.hints.filter fun h => !isSched h }
  | none => pure ()
  retire flow
  match f, flow with
  | some _, .wait _ | some _, .trapped _ _ _ _ | none, .wait _ | none, .trapped _ _ _ _ => pure ()
  | none, _ => modify fun s => if hasSent s s.cur.1 s.cur.2 then onChain s s.cur.1 fun r => { r with sent := false } else s
  | some f, _ => do
    onMe fun v => followLeader v f
    modify fun s => popForward s s.cur.1

/-- The issuing slot's wait is over, and its watch free (R113, R124). -/
def release : M Unit := modify fun s =>
  let s := onSlot s s.cur.1 s.cur.2 fun v => { v with wait := none }
  onCore s s.cur.1 fun q => dropWatches q s.cur.2

/-- A parked slot issues its instruction again; both halves of a pair. -/
def wake (s : State) (c : Nat) (k : Fin 4) : State :=
  let one := fun (s : State) (d : Nat) =>
    onCore (onSlot s d k fun v => { v with wait := none }) d fun q => dropWatches q k
  match followerOf s c k with
  | some f => one (one s c) f
  | none => one s c

/-- Performs and retires the instruction that a parked slot waits at; where it cannot be performed, it issues again. -/
def complete (c : Nat) (k : Fin 4) (act : M Flow) : M Unit := do
  let r ← attempt (asSlot c k (mirrored (do
    release
    let flow ← act
    finish flow)))
  match r with
  | .ok _ => pure ()
  | .error _ => modify fun s => wake s c k

/-- An entry put into a list in the order of its ticket. -/
def insertTicket {α : Type} (e : Nat × α) : List (Nat × α) → List (Nat × α)
  | [] => [e]
  | f :: t => if e.1 < f.1 then e :: f :: t else f :: insertTicket e t

/-- What the slots of a core wait for, of a kind. -/
def coreWaiters {α : Type} (s : State) (pick : Wait → Option α) (c : Nat) : List (Nat × Nat × Fin 4 × α) :=
  (List.finRange 4).filterMap fun k =>
    let v := slotAt s c k
    if isSecond s c k then none
    else (v.wait.bind pick).map fun a => (v.ticket, c, k, a)

/-- The slots that wait for something of a kind, in the order in which they registered (R117, R124). -/
def waiters {α : Type} (s : State) (pick : Wait → Option α) : List (Nat × Nat × Fin 4 × α) :=
  (s.cores.flatMap fun e => coreWaiters s pick e.1).foldr insertTicket []

/-! ### The cellar (R363, R367) -/

/-- Cellar entries a room has (R363). -/
def cellarSize : Nat := 65536

/-- Logs the old value of a vault word before its first write in a launch's recoverable superstep (R364); a full cellar
makes the superstep non-recoverable (R367). -/
def logWord (l r w : Nat) : M Unit := modify fun s =>
  match launchAt s l, physicalRoom s r with
  | some v, some pr =>
    if v.mode ≠ 1 ∨ ((roomAt s r).log.any fun e => e.launch == l && e.off == w) then s
    else if cellarUsed (roomAt s r) + 1 ≤ cellarSize then
      onRoom s r fun q => { q with log := ⟨l, w, vaultAt s pr w, false⟩ :: q.log }
    else onLaunch s l fun v => { v with mode := 2 }
  | _, _ => s

/-- Logs vault words of a room. -/
def logWords (l r : Nat) (ws : List Nat) : M Unit := ws.forM (logWord l r)

/-- The recoverable superstep a slot is in: its launch (R362). -/
def recoverable (s : State) (v : Slot) : Option Nat :=
  match gangOf s v with
  | some (l, r) => if r.mode = 1 then some l else none
  | none => none

/-- The vault words of an interval are about to be written by the issuing slot (R364). -/
def touchVault (r off n : Nat) : M Unit := do
  let s ← get
  match recoverable s (slotAt s s.cur.1 s.cur.2) with
  | some l => logWords l r (wordsIn off n)
  | none => pure ()

/-! ### Full/empty words (R124, R160) -/

/-- A value of a type in an x register: i types extend their sign, every other zero (R69). -/
def extTy (ty : Ty) (v : Nat) : XWord :=
  if ty.signed then BitVec.ofInt 64 (signedOf ty.bits v) else BitVec.ofNat 64 (v % 2 ^ ty.bits)

/-- Whether a waiting full/empty instruction may complete at a word with this F bit. -/
def wordMet (full : Bool) : WordOp → Bool
  | .take _ _ => full
  | .keep _ _ => full
  | .put _ => !full

/-- A change of a word that the issuing slot makes in the vault of a room leaves its wing for it (R187). -/
def crossTo (r : Nat) : M Unit := do
  let s ← get
  leaveVault (wingOf s.cur.1) r

/-- What a full/empty instruction does at its word (R160). -/
def wordStep (addr : XWord) (r off : Nat) (op : WordOp) : M Flow := do
  stallOn (.vault r off) 4
  let v ← vaultWord addr r off
  match op with
  | .take ty d => do
    if v.poison then poisoned addr
    else do
      feed (effectBytes (.flag r off none false))
      touchVault r off 4
      setVault r off { v with f := false }
      crossTo r
      wx d (extTy ty v.data.toNat)
      return .seq
  | .keep ty d => do
    if v.poison then poisoned addr
    else do
      wx d (extTy ty v.data.toNat)
      return .seq
  | .put data => do
    feed (effectBytes (.flag r off (some data) true))
    checkReadOnly addr (.vault r off) 4
    claimMapped r off
    touchVault r off 4
    let mapped := (isMapped (← get) r off).isSome
    setVault r off ⟨data, true, v.d || mapped, true, none, false⟩
    crossTo r
    return .seq

/-- The F bit of a vault word. -/
def isFull (s : State) (r off : Nat) : Bool :=
  match physicalRoom s r with
  | some pr => (readChecked (vaultAt s pr off)).f
  | none => false

/-- A change of a word's F bit re-tests its watches in registration order (R124, R160), `fuel` at most. -/
def serveWord (r off : Nat) : Nat → M Unit
  | 0 => pure ()
  | fuel + 1 => do
    let s ← get
    let ws := waiters s fun w => match w with
      | .word r' off' op => if r' = r ∧ off' = off then some op else none
      | _ => none
    match ws.find? fun (_, _, _, op) => wordMet (isFull s r off) op with
    | none => pure ()
    | some (_, c, k, op) => do
      complete c k (wordStep 0 r off op)
      serveWord r off fuel

/-- The watches of a word are tested. -/
def testWord (r off : Nat) : M Unit := do
  let s ← get
  serveWord r off (4 * s.cores.length + 4)

/-! ### Rings (R116 to R119, R162) -/

/-- A ring header (Table 7.3). -/
structure RingHead where
  p : Nat
  c : Nat
  base : XWord
  lc : Nat
  sz : Nat
  span : Bool
  zeros : Bool
  deriving DecidableEq, Repr

/-- A vault word read into an address, a count or a register: poison is consumed (R358). -/
def cleanWord (addr : XWord) (r off : Nat) : M Word := do
  let v ← vaultWord addr r off
  if v.poison then poisoned addr else return v.data

/-- Consecutive clean vault words. -/
def cleanWords (addr : XWord) (r : Nat) : List Nat → M (List Word)
  | [] => return []
  | o :: t => do
    let w ← cleanWord addr r o
    let ws ← cleanWords (addr + 4) r t
    return w :: ws

/-- Reads a ring header. -/
def readRing (addr : XWord) (r off : Nat) : M RingHead := do
  let ws ← cleanWords addr r ((List.range 8).map fun i => off + 4 * i)
  let w := fun i => (ws.getD i 0).toNat
  return ⟨w 1, w 0, BitVec.ofNat 64 (w 2 + 2 ^ 32 * w 3), w 4 / 16 % 16, w 4 % 8, bitAt (w 6) 0,
    decide (w 4 / 8 % 2 = 0 ∧ w 4 / 256 = 0 ∧ w 5 = 0 ∧ w 6 / 2 = 0 ∧ w 7 = 0)⟩

/-- Slot size, capacity and counts of a ring (R116, R117). -/
def RingHead.size (h : RingHead) : Nat := 4 * 2 ^ h.sz
def RingHead.cap (h : RingHead) : Nat := 2 ^ h.lc
def RingHead.filled (h : RingHead) : Nat := (h.p + 2 ^ 32 - h.c) % 2 ^ 32
def RingHead.free (h : RingHead) : Int := h.cap - h.filled

/-- The vault offset of relative slot `k` past a count (R117). -/
def RingHead.slotOff (h : RingHead) (count k : Nat) : Nat :=
  h.base.toNat % vaultBytes + (count + k) % 2 ^ 32 % h.cap * h.size

/-- Whether a waiting ring instruction may complete (R162). -/
def ringMet (h : RingHead) (k : Nat) : RingOp → Bool
  | .load _ => decide (k < h.filled)
  | .loadWide _ => decide (k < h.filled)
  | .store _ => decide (k < h.free)
  | .again load => if load then decide (k < h.filled) else decide (k < h.free)

/-- The address of relative slot `k` past a count. -/
def RingHead.slotAddr (h : RingHead) (count k : Nat) : XWord :=
  h.base + BitVec.ofNat 64 ((count + k) % 2 ^ 32 % h.cap * h.size)

/-- Whether words of an interval of a vault are invalid words of a mapping (R140). -/
def unfilled (s : State) (r off n : Nat) : Bool :=
  match physicalRoom s r with
  | none => false
  | some pr => (wordsIn off n).any fun o => !(vaultAt s pr o).v && (isMapped s r o).isSome

/-- The bytes of a slot of a ring's storage; poison is consumed, and a mapped word must have been filled. -/
def ringBytes (a : XWord) (r off n : Nat) : M (List Byte) := do
  let (bs, bad) ← peekVault a r (wordParts off n)
  if unfilled (← get) r off n then throw (.later [])
  else if bad then do
    let s ← get
    let i := (wordsIn off n).findIdx? fun o => match physicalRoom s r with
      | some pr => (readChecked (vaultAt s pr o)).poison
      | none => false
    poisoned (a + BitVec.ofNat 64 (4 * i.getD 0))
  else return bs

/-! ### Acquires wider than room (R148) -/

/-- Makes the clean words of a line of a mapping invalid. -/
def invalidateLine (r off : Nat) (s : State) : State :=
  match physicalRoom s r with
  | none => s
  | some pr => (List.range 32).foldl (fun s i =>
      let v := vaultAt s pr (off + 4 * i)
      if v.v && !v.d then putVault s pr (off + 4 * i) { v with v := false } else s) s

/-- An acquire wider than room by a core makes the clean words of its mapped ranges invalid that act as class S. -/
def acquired (s : State) (c : Nat) : State :=
  (coreAt s c).mappings.foldl (fun s m => m.homes.foldl (fun s (i, h) =>
    if actsAs s h.pa h.cls = 1 then invalidateLine (roomOf c) (m.off + 128 * i) s else s) s) s

/-- An acquire of the issuing slot at a scope. -/
def acquire (scope : Tier) : M Unit :=
  if 2 < scope.code then modify fun s => acquired s s.cur.1 else pure ()

/-- The scope of a ring's span (R116, R118). -/
def RingHead.scope (h : RingHead) : Tier := if h.span then .hall else .room

/-- What a ring instruction does once its slot is filled or free (R162). -/
def ringStep (r off k : Nat) (op : RingOp) : M Flow := do
  stallOn (.vault r off) 32
  let h ← readRing 0 r off
  match op with
  | .load d => do
    feed (bytesOfNat 8 (h.slotAddr h.c k).toNat)
    stallOn (.vault r (h.slotOff h.c k)) (min 8 h.size)
    let bs ← ringBytes (h.slotAddr h.c k) r (h.slotOff h.c k) (min 8 h.size)
    wx d (BitVec.ofNat 64 (natOfBytes bs))
    acquire h.scope
    return .seq
  | .loadWide d => do
    feed (bytesOfNat 8 (h.slotAddr h.c k).toNat)
    stallOn (.vault r (h.slotOff h.c k)) (min 32 h.size)
    let bs ← ringBytes (h.slotAddr h.c k) r (h.slotOff h.c k) (min 32 h.size)
    if (boundTo (← me) d).isSome then throw (.later [])
    else do
      wwStored d (BitVec.ofNat 256 (natOfBytes bs))
      acquire h.scope
      return .seq
  | .store bs => do
    feed (bytesOfNat 8 (h.slotAddr h.p k).toNat ++ bs)
    stallOn (.vault r (h.slotOff h.p k)) bs.length
    checkReadOnly (h.slotAddr h.p k) (.vault r (h.slotOff h.p k)) bs.length
    claimPlace (.vault r (h.slotOff h.p k)) bs.length
    touchVault r (h.slotOff h.p k) bs.length
    poke (r / 256) (.vault r (h.slotOff h.p k)) bs
    return .seq
  | .again _ => throw (.later [])

/-- The waiters of a ring are tested in registration order (R117). -/
def serveRing (r off : Nat) : List (Nat × Nat × Fin 4 × Nat × RingOp) → M Unit
  | [] => pure ()
  | (_, c, k, n, op) :: t => do
    let h ← attempt (readRing 0 r off)
    match h with
    | .error _ => modify fun s => wake s c k
    | .ok h => if ringMet h n op then complete c k (ringStep r off n op)
    serveRing r off t

/-- A change of a ring's counts re-tests its waiters (R117). -/
def testRing (r off : Nat) : M Unit := do
  let s ← get
  serveRing r off (waiters s fun w => match w with
    | .ring r' off' k op => if r' = r ∧ off' = off then some (k, op) else none
    | _ => none)

/-! ### Barriers (R67, R120 to R123) -/

/-- The op of a configuration word (Table 7.5). -/
def barrierOp (w : Word) : Nat := w.toNat / 2 ^ 18 % 16

/-- The participant count of a configuration word. -/
def barrierN (w : Word) : Nat := w.toNat % 2 ^ 18

/-- The key of the partial of a core's slot in a house: the order of R67. -/
def partialKey (house core slot : Nat) : Nat := 4 * (65536 * house + core) + slot

/-- One combine of two values (Table 7.5). -/
def barrierCombine (op : Nat) (a b : XWord) : XWord :=
  match op with
  | 1 => a + b
  | 2 => BitVec.ofNat 64 (fAdd fmtF64 0 a.toNat b.toNat).bits
  | 3 => if a.toInt ≤ b.toInt then a else b
  | 4 => if a.toInt ≤ b.toInt then b else a
  | 5 => BitVec.ofNat 64 (fMinMax fmtF64 false a.toNat b.toNat).bits
  | 6 => BitVec.ofNat 64 (fMinMax fmtF64 true a.toNat b.toNat).bits
  | 7 => a &&& b
  | 8 => a ||| b
  | _ => 0

/-- Values of one unit's parts combined into the value of the unit: parts whose keys divide to the same number, in
ascending order (R67). -/
def combineLevel (op width : Nat) : Table XWord → Table XWord
  | [] => []
  | (k, v) :: t =>
    let rec go (key : Nat) (acc : XWord) : Table XWord → Table XWord
      | [] => [(key, acc)]
      | (j, w) :: u => if j / width = key then go key (barrierCombine op acc w) u else (key, acc) :: go (j / width) w u
    go (k / width) v t

/-- The combine of a phase (R67, R122): per core, room, hall, wing, house and estate. -/
def combineAll (op : Nat) (partials : Table XWord) : XWord :=
  if op = 0 then 0
  else match [4, 16, 16, 16, 16, 64].foldl (fun t w => combineLevel op w t) partials with
    | [] => 0
    | (_, v) :: _ => v

/-- A barrier after its phase has completed (R122). -/
def barrierDone (b : Barrier) : Barrier :=
  let code := b.worst.getD 0
  { b with
    e := b.worst.isSome, code := code
    result := if b.worst.isSome then BitVec.ofNat 64 (2 ^ 63 + code.toNat) else combineAll (barrierOp b.config) b.partials
    phase := !b.phase, done := b.done + 1, arrived := 0, worst := none, partials := [], slots := [] }

/-- A barrier with one more arrival: the arriving slot, its coordinates and value, a fault code. -/
def barrierCounted (b : Barrier) (slot : Option Nat) (value : Option (Nat × XWord)) (code : Option (BitVec 8)) : Barrier :=
  let partials := match value with
    | none => b.partials
    | some (key, v) => match tfind b.partials key with
      | none => tput b.partials key v
      | some w => tput b.partials key (barrierCombine (barrierOp b.config) w v)
  let worst := match code, b.worst with
    | none, w => w
    | some c, none => some c
    | some c, some d => some (if c.toNat ≤ d.toNat then d else c)
  { b with arrived := b.arrived + 1, partials := partials, worst := worst, slots := slot.toList ++ b.slots }

/-- The tier of a barrier's key, as the scope of its acquires (R171). -/
def barrierTier (key : Nat) : Tier := if key / 2 ^ 26 ≤ 2 then .room else .hall

/-- The waiters of a barrier leave it (R122), which is an acquire at its tier. -/
def serveBarrier (wide : Tier) (done : BitVec 32) (result : XWord) : List (Nat × Nat × Fin 4 × Nat × Option Reg) → M Unit
  | [] => pure ()
  | (_, c, k, index, d) :: t => do
    complete c k (do
      onMe fun v => { v with seen := tput v.seen index done }
      match d with
      | some d => wx d result
      | none => pure ()
      acquire wide
      return .seq)
    serveBarrier wide done result t

/-- Whether a launch's estate barriers are held by another house: the lowest-numbered one it uses (R347). -/
def estateAbove (s : State) (r : Launch) : Bool := r.estate.any fun h => decide (h < s.house)

/-- Whether a barrier's key names an estate barrier. -/
def isEstate (key : Nat) : Bool := key / 2 ^ 26 == Tier.estate.code

/-- The arrival of a unit of this house at an estate barrier that another house holds (R347). -/
def estateArrival (s : State) (l key : Nat) (slot : Option Nat) (value : Option XWord) (code : Option (BitVec 8)) : EstateArrival where
  ctx := l / 1024
  record := l % 1024
  n := key % 64
  house := s.house
  core := slot.getD 0 / 4
  slot := slot.getD 0 % 4
  value := value
  code := (code.map BitVec.toNat).getD 0

/-- A barrier of a launch whose phase has completed, and its waiters leave (R122). -/
def completePhase (l key : Nat) (b : Barrier) : M Unit := do
  modify fun s => onLaunch s l fun r => { r with barriers := tput r.barriers key b }
  let s ← get
  serveBarrier (barrierTier key) b.done b.result (waiters s fun w => match w with
    | .barrier l' key' index d => if l' = l ∧ key' = key then some (index, d) else none
    | _ => none)

/-- An arrival at a barrier of a launch (R122): whether it counts. One at an estate barrier that another house holds crosses the
fabric (R347). A barrier that is not used, a reserved combine code
and a second arrival of a slot in a phase are misuse (R120, R122). -/
def arriveAt (l key : Nat) (slot : Option Nat) (value : Option (Nat × XWord)) (code : Option (BitVec 8)) : M Bool := do
  let s ← get
  match launchAt s l with
  | none => return false
  | some r =>
    let b := barrierAt r key
    if isEstate key && estateAbove s r then
      if slot.any fun k => b.slots.contains k then return false
      else do
        set (onLaunch { s with estateSent := s.estateSent ++ [.arrival (estateArrival s l key slot (value.map Prod.snd) code)] } l
          fun r => { r with barriers := tput r.barriers key { b with slots := slot.toList ++ b.slots } })
        return true
    else if barrierN b.config = 0 ∨ 9 ≤ barrierOp b.config ∨ (slot.any fun k => b.slots.contains k) then return false
    else
      let b := barrierCounted b slot value code
      if barrierN b.config ≤ b.arrived then do
        completePhase l key (barrierDone b)
        return true
      else do
        modify fun s => onLaunch s l fun r => { r with barriers := tput r.barriers key b }
        return true

end Sys2Proof.Machine
end

