-- ==== Sys2Proof/Machine/Effects.lean ====
section
/-! DEFINITION. Effects that leave a core: graph operations of the landing (R246 to R248), kicks (R305), WSIG (R170,
R368), and the performing of an effect that a pair or a superstep has held back (R361, R364, R368). -/

namespace Sys2Proof.Machine

open Sys2Proof

/-! ### Graphs (R246 to R248) -/

/-- A graph header (Table 14.9). -/
structure GraphHeader where
  g : Nat
  n : Nat
  dg : Nat
  err : Bool
  deriving DecidableEq, Repr

/-- Reads a graph header. -/
def readHeader (hall l : Nat) (r : Launch) : M GraphHeader := do
  let (bs, _) ← engineRead hall (l / 1024) (recWord r 5) 16
  return ⟨fieldAt bs 4 4, fieldAt bs 0 4, fieldAt bs 12 4, bitAt (fieldAt bs 8 4) 0⟩

/-- Writes a graph header. -/
def writeHeader (hall l : Nat) (r : Launch) (h : GraphHeader) : M Unit :=
  engineWrite hall (l / 1024) (recWord r 5)
    (bytesOfNat 4 h.n ++ bytesOfNat 4 h.g ++ bytesOfNat 4 h.err.toNat ++ bytesOfNat 4 h.dg)

/-- The address of a node record (R246). -/
def nodeAddress (r : Launch) (v : Nat) : XWord := recWord r 5 + BitVec.ofNat 64 (32 + 32 * v)

/-- The bytes of a node record (Table 14.10). -/
def readNode (hall l : Nat) (r : Launch) (v : Nat) : M (List Byte) := do
  return (← engineRead hall (l / 1024) (nodeAddress r v) 32).1

/-- Writes a counter word: (gen, count). -/
def writeCounter (hall l : Nat) (r : Launch) (v gen count : Nat) : M Unit :=
  engineWrite hall (l / 1024) (nodeAddress r v) (bytesOfNat 4 count ++ bytesOfNat 4 gen)

/-- The counter value of a completed node (Table 14.10). -/
def nodeComplete : Nat := 2 ^ 32 - 1

/-- The task of a fired node goes to its stage's queue in the hall, or is held by the landing while the queue is full (R247). -/
def fireNode (hall l : Nat) (r : Launch) (v : Nat) : M Unit := do
  let bs ← readNode hall l r v
  let stage := fieldAt bs 12 4 % 8
  let words : List Word := [0xFFFF, BitVec.ofNat 32 (fieldAt bs 16 4), BitVec.ofNat 32 v, BitVec.ofNat 32 (fieldAt bs 20 4)] ++
    List.replicate 13 0
  let s ← get
  if queueFull s hall l r stage then
    modify fun s => onHall s hall fun h => { h with landing := h.landing ++ [⟨l, stage, words⟩] }
  else storeEntry hall l r stage words

/-- Fires the nodes of a list whose init is 0, in order (R247): their counters read (g, 0). -/
def fireInitial (hall l : Nat) (r : Launch) (g : Nat) : List Nat → M Unit
  | [] => return ()
  | v :: t => do
    let bs ← readNode hall l r v
    if fieldAt bs 8 4 = 0 then do
      writeCounter hall l r v g 0
      fireNode hall l r v
    fireInitial hall l r g t

/-- A new graph instance (R247, R268): g after the operation and the code. -/
def armGraph (hall l : Nat) (r : Launch) (expected : Nat) : M (Nat × Nat) := do
  if recWord r 5 = 0 then return (0, 3)
  else do
    let h ← readHeader hall l r
    if h.g ≠ expected then return (h.g, 2)
    else if h.dg ≠ h.g then return (h.g, 1)
    else do
      let g := if h.g = 2 ^ 32 - 1 then 1 else h.g + 1
      writeHeader hall l r { h with g := g }
      fireInitial hall l r g (List.range h.n)
      return (g, 0)

/-- Decrements the counters of successors in array order (R247), and answers with those whose count came to 0. -/
def decrementAll (hall l : Nat) (r : Launch) (g n : Nat) : List Nat → M (List Nat)
  | [] => return []
  | i :: t => do
    let (sb, _) ← engineRead hall (l / 1024) (recWord r 5 + BitVec.ofNat 64 (32 + 32 * n + 4 * i)) 4
    let v := natOfBytes sb
    let bs ← readNode hall l r v
    let c := (if fieldAt bs 4 4 ≠ g then fieldAt bs 8 4 else fieldAt bs 0 4)
    let c := (c + 2 ^ 32 - 1) % 2 ^ 32
    writeCounter hall l r v g c
    let fired ← decrementAll hall l r g n t
    return if c = 0 then v :: fired else fired

/-- Whether every node of generation g has completed (R248). -/
def allComplete (hall l : Nat) (r : Launch) (g : Nat) : List Nat → M Bool
  | [] => return true
  | v :: t => do
    let bs ← readNode hall l r v
    if fieldAt bs 4 4 = g ∧ fieldAt bs 0 4 = nodeComplete then allComplete hall l r g t else return false

/-- A node reports complete (R248, R269). The nodes it fires are enqueued in ascending index (R247). -/
def graphDone (hall l : Nat) (r : Launch) (v : Nat) : M Unit := do
  if recWord r 5 = 0 then return ()
  else do
    let h ← readHeader hall l r
    if h.n ≤ v then writeHeader hall l r { h with err := true }
    else do
      let bs ← readNode hall l r v
      if fieldAt bs 4 4 = h.g ∧ fieldAt bs 0 4 = 0 then do
        writeCounter hall l r v h.g nodeComplete
        let first := fieldAt bs 24 4
        let fired ← decrementAll hall l r h.g h.n ((List.range (fieldAt bs 28 4)).map fun i => first + i)
        (ascending fired).forM (fireNode hall l r)
        if ← allComplete hall l r h.g (List.range h.n) then writeHeader hall l r { h with dg := h.g }
      else writeHeader hall l r { h with err := true }

/-- The landing accepts the completion of a node (R269): what cannot be done with it at once, it does later, in order. -/
def acceptDone (l hall v : Nat) : M Unit := do
  let later : M Unit := modify fun s =>
    post (onHall s hall fun h => { h with doneNodes := h.doneNodes ++ [(l, v)] }) [.landingRetry hall]
  let s ← get
  match launchAt s l with
  | none => pure ()
  | some r =>
    if !(hallAt s hall).doneNodes.isEmpty then later
    else match ← attempt (graphDone hall l r v) with
      | .ok _ => pure ()
      | .error _ => later

/-! ### Kicks and signals -/

/-- A kick reaches the laundry of a hall (R305). -/
def sendKick (hall : Nat) (k : Kick) : M Unit := modify fun s =>
  post (onHall s hall fun h => { h with kicks := h.kicks ++ [k] }) [.laundryKickAccept hall]

/-- The sender of a WSIG, as the duplicate table lists it (R368). -/
def wsigSender (m : WsigMsg) : List Nat := [m.house, m.core, m.slot, m.launch]

/-- Whether a WSIG's tuple is above the highest applied from its sender (R368). -/
def wsigFresh (s : State) (m : WsigMsg) : Bool :=
  match s.wsigSeen.find? fun e => e.take 4 == wsigSender m with
  | none => true
  | some e => decide (e.getD 4 0 < m.seq) || (e.getD 4 0 == m.seq && decide (e.getD 5 0 < m.ordinal))

/-- A WSIG is applied (R170, R368): the payload, then the counter; or it is dropped whole. -/
def applyWsig (w : Nat) (m : WsigMsg) (room : Option Nat := none) : M Unit := do
  let s ← get
  if wsigFresh s m then do
    poke w m.payload (bytesOfNat m.size m.value.toNat) room
    let (bs, bad) ← peek 0 m.signal 8 room
    poke w m.signal (bytesOfNat 8 (natOfBytes bs + 1)) room
    if bad then poisonAt m.signal 8
    modify fun s => { s with
      wsigSeen := (wsigSender m ++ [m.seq, m.ordinal]) :: s.wsigSeen.filter fun e => e.take 4 != wsigSender m }

/-! ### Accumulation (R144, R145) -/

/-- Entries of the accumulation area of a room (R144). -/
def accSize : Nat := 256

/-- A line's partials go to its home (R145). -/
def surrenderLine (s : State) (room : Nat) (a : AccLine) : State :=
  { s with homeParts := s.homeParts ++ a.parts.map fun (o, p) => (a.key, a.line, o, room, p) }

/-- One partial with a contribution: combined into it, or in the place of a surrendered one. -/
def contributed (t : Table Partial) (off : Nat) (p : Partial) : Table Partial :=
  match tfind t off with
  | some q => tput t off { q with value := BitVec.ofNat 64 (combine q.op q.ty q.value.toNat p.value.toNat) }
  | none => tput t off p

/-- Whether a contribution is of another operation or type than a partial of one of its words. -/
def clashes (t : Table Partial) (off : Nat) (p : Partial) : Bool :=
  t.any fun (o, q) => shareWord off p o q && !sameKind off p o q

/-- The accumulation entry of a line in a room. -/
def accLine (q : Room) (key line : Nat) : AccLine :=
  (q.acc.find? fun a => a.key == key && a.line == line).getD ⟨key, line, [], []⟩

/-- A room surrenders a line: its partials go, and what is not committed of it stays in the room (R364). -/
def surrenderFrom (s : State) (room : Nat) (a : AccLine) : State :=
  onRoom (surrenderLine s room a) room (dropLine a.key a.line)

/-- A room's accumulation area with a line's entry written as the most recently used, which stands first; a 257th entry
with partials surrenders the one used least recently (R145). -/
def putAcc (s : State) (room : Nat) (a : AccLine) : State :=
  let others := fun (q : Room) => q.acc.filter fun b => !(b.key == a.key && b.line == a.line)
  let full := (others (roomAt s room)).filter fun b => !b.parts.isEmpty
  let s := match full.getLast? with
    | some b => if a.parts.isEmpty ∨ full.length < accSize then s else surrenderFrom s room b
    | none => s
  onRoom s room fun q => { q with acc := a :: others q }

/-- Whether a room has no vault cache for a line (R363): a launch of recoverable supersteps runs in it, and the slice of the line is
all scratchpad and cellar (log entry 105). -/
def noVaultCache (s : State) (room line : Nat) : Bool :=
  (coreAt s (16 * room + line % 16)).partition == 480 && s.launches.any fun (_, r) => recSS r && r.rooms.contains room

/-- A room performs a contribution (R144): one of another operation or type surrenders the line first. Without a vault cache for its
line it goes to the home (R145, R363). -/
def contribute (room : Nat) (key pa : Nat) (op : AccOp) (ty : Ty) (v : XWord) : M Unit := modify fun s =>
  let p : Partial := ⟨op, ty, v⟩
  let old := accLine (roomAt s room) key (pa / 128)
  if noVaultCache s room (pa / 128) then surrenderLine s room ⟨key, pa / 128, [(pa % 128, p)], []⟩
  else if clashes old.parts (pa % 128) p then
    putAcc (surrenderLine s room old) room { old with parts := tput [] (pa % 128) p }
  else putAcc s room { old with parts := contributed old.parts (pa % 128) p }

/-- A contribution of an open superstep is kept in its room, in order, until the commit (R364). -/
def keepContribution (l room : Nat) (key pa : Nat) (op : AccOp) (ty : Ty) (v : XWord) : M Unit := modify fun s =>
  let old := accLine (roomAt s room) key (pa / 128)
  putAcc s room { old with open_ := old.open_ ++ [(l, pa % 128, ⟨op, ty, v⟩)] }

/-- Changes the F bit of a vault word, with new data or the old (R160). -/
def setFlag (r off : Nat) (data : Option Word) (f : Bool) : M Unit := do
  let v ← vaultWord 0 r off
  let mapped := (isMapped (← get) r off).isSome
  match data with
  | some w => setVault r off ⟨w, true, v.d || mapped, f, none, false⟩
  | none => setVault r off { v with f := f }

/-- The command whose root swap has failed records SWF (R209, R217): in its status, where it has left the window. -/
def noteFailedSwap (s : State) (room : Nat) (of : Option (Nat × Nat)) : State :=
  let mark := fun (c : CommandStatus) => if of = some (c.launch, c.id) then { c with swapFailed := true } else c
  let here := fun (c : Command) => if of = some (c.launch, c.id) then { c with swapFailed := true } else c
  onRoom s room fun q => { q with left := q.left.map mark, window := q.window.map here }

/-- Performs an effect that was held (R361, R368), as an agent of room `room`. -/
def perform (room : Nat) : Effect → M Unit
  | .store p bs => poke (room / 256) p bs (some room)
  | .flag r off data f => do
    setFlag r off data f
    leaveVault (room / 256) r
    testWord r off
  | .bring key pa bs bad => do
    modify fun s => pokeMem s (room / 256) key pa bs (some room)
    if bad then poisonAt (.mem key pa) bs.length
  | .accumulate key pa op ty v => contribute room key pa op ty v
  | .wsig m => applyWsig (room / 256) m (some room)
  | .kick hall ctx header p => sendKick hall ⟨header, ctx, p, none⟩
  | .rootSwap ctx g cell expected new command => do
    let ok ← swapRoot (room / 256) ctx g 0 cell expected new
    if ok ≠ some true then modify fun s => noteFailedSwap s room command
  | .unref g name => modify fun s => (dropRef s g name).1
  | .patch ctx record k v => do
    let _ ← patchRecord ctx record k v
  | .arm ctx record => do
    let _ ← armRecord ctx record
  | .graphArm l hall expected => do
    match launchAt (← get) l with
    | none => return ()
    | some r => do
      let _ ← armGraph hall l r expected.toNat
  | .graphDone l hall v => acceptDone l hall v.toNat
  | .enqueue l hall st words => do
    match launchAt (← get) l with
    | none => return ()
    | some r => do
      storeEntry hall l r st words
      modify fun s => onQueue s hall l st fun q => { q with reserved := q.reserved - 1 }

/-- Whether a held effect is an entry that a commit stores (R270, R368). -/
def Effect.isEntry : Effect → Bool
  | .enqueue _ _ _ _ => true
  | _ => false

/-- Performs held effects in order. -/
def performAll (room : Nat) : List Effect → M Unit
  | [] => return ()
  | e :: t => do
    perform room e
    performAll room t

/-! ### Supersteps made non-recoverable (R367) -/

/-- The held effects of a launch in a room, in order (R364). -/
def heldOf (s : State) (l room : Nat) : List Held :=
  (roomAt s room).hold.filter fun h => h.launch == l

/-- The rooms perform those of their held effects that `which` takes, in order, rooms ascending (R367, R368). One
that cannot be read is dropped. -/
def performHeld (which : Effect → Bool) (l : Nat) : List Nat → M Unit
  | [] => return ()
  | room :: t => do
    let hs := (heldOf (← get) l room).filter fun h => which h.effect
    performAll room ((hs.filter fun h => !h.lost).map Held.effect)
    modify fun s => onRoom s room fun q => { q with hold := q.hold.filter fun h => !hs.contains h }
    performHeld which l t

/-- The rooms perform all that they hold. -/
def performHolds (l : Nat) (rooms : List Nat) : M Unit := performHeld (fun _ => true) l rooms

/-- A superstep becomes non-recoverable (R367): mode 2, and the held effects are performed. -/
def makeNonRecoverable (l : Nat) : M Unit := do
  match launchAt (← get) l with
  | none => return ()
  | some r => do
    modify fun s => onLaunch s l fun r => { r with mode := 2 }
    performHolds l (launchRooms r)

/-- Holds an effect of the issuing slot in its room (R364); a full cellar makes the superstep non-recoverable and the
effect is performed directly (R367). -/
def holdEffect (l : Nat) (e : Effect) : M Unit := do
  let s ← get
  let room := roomOf s.cur.1
  if cellarUsed (roomAt s room) + 2 ≤ cellarSize then
    set (onRoom s room fun q => { q with hold := q.hold ++ [⟨l, s.cur.1, s.cur.2, e, false⟩] })
  else do
    makeNonRecoverable l
    perform room e

/-- What the issuing slot's launch still holds, once its superstep is non-recoverable, is performed before anything else leaves
(R367). -/
def heldFirst : M Unit := do
  let s ← get
  match gangOf s (slotAt s s.cur.1 s.cur.2) with
  | some (l, r) => if r.mode = 2 && (launchRooms r).any fun q => !(heldOf s l q).isEmpty then performHolds l (launchRooms r) else pure ()
  | none => pure ()

/-- An effect leaves the issuing slot's core, whose fingerprint it joins in a pair (R361). In a recoverable superstep vault words are logged first, and what leaves
the room is held or kept (R364). -/
def emit (e : Effect) : M Unit := do
  feed (effectBytes e)
  heldFirst
  let s ← get
  let room := roomOf s.cur.1
  match recoverable s (slotAt s s.cur.1 s.cur.2) with
  | none => perform room e
  | some l => match e with
    | .store (.vault r off) bs => do
      logWords l r (wordsIn off bs.length)
      perform room e
    | .flag r off _ _ => do
      logWords l r [off]
      perform room e
    | .accumulate key pa op ty v => keepContribution l room key pa op ty v
    | .store (.mem _ _) _ | .bring _ _ _ _ | .wsig _ | .kick _ _ _ _ | .rootSwap _ _ _ _ _ _ | .unref _ _ | .patch _ _ _ _ | .arm _ _
    | .graphArm _ _ _ | .graphDone _ _ _ | .enqueue _ _ _ _ => holdEffect l e

/-- Effects a release buffer holds (R361). -/
def bufferSize : Nat := 64

/-- An effect of the issuing slot (R25, R361): in a pair it waits in the leader's release buffer for an agreed compare,
which a full buffer forces. -/
def sendEffect (e : Effect) : M Unit := do
  let s ← get
  let lead := leadCore s s.cur.1 s.cur.2
  match pairOf s lead s.cur.2 with
  | none => emit e
  | some p =>
    if bufferSize ≤ p.buffer.length then throw (.retry [.pairCompare lead])
    else do
      feed (effectBytes e)
      modify fun s => onCore s lead fun q => { q with pair := q.pair.map fun p => { p with buffer := p.buffer ++ [e] } }

/-- The context that owns a line: the live one of its key id (R359). -/
def lineOwner (s : State) (key : Nat) : Nat :=
  ((List.range 4096).find? fun x => contextLive s x && ctxKey s x == key).getD noContext

/-- The host is told of the uncorrectable dirty lines that a step has written back (R359). -/
def reportLost (s : State) : State :=
  s.lostLines.foldl (fun s (key, line) => postEvent s 5 (lineOwner s key) (homeHall s (128 * line)) (BitVec.ofNat 64 (128 * line)) 0)
    { s with lostLines := [] }

/-- A superstep whose cellar or journal has overflowed performs what it holds (R367). -/
def settle : M Unit := do
  modify fun s => if s.lostLines.isEmpty then s else reportLost s
  let s ← get
  s.launches.forM fun (l, r) =>
    if r.mode = 2 && s.rooms.any (fun (q, v) => !v.hold.isEmpty && r.rooms.contains q) then performHolds l (launchRooms r)
    else pure ()

end Sys2Proof.Machine
end

