-- ==== Sys2Proof/Machine/Access.lean ====
section
/-! DEFINITION. Loads and stores of a slot (R140 to R142, R153, R156, R158, R358, R364): where an access lies, the stall
on the range scoreboard, the fill of a mapped word, what the slot sees of stores that have not left yet, consumption of
poison. -/

namespace Sys2Proof.Machine

open Sys2Proof

/-! ### What has not left yet (R364, R361) -/

/-- Bytes from `a` with those of a store from `b` laid over them. -/
def layOver (a b : Nat) (data bs : List Byte) : List Byte :=
  bs.mapIdx fun i x => if b ≤ a + i ∧ a + i < b + data.length then data.getD (a + i - b) x else x

/-- The bytes at a place with those of an effect that has not left yet. -/
def overlay (p : Place) (bs : List Byte) : Effect → List Byte
  | .store q data => match p, q with
    | .vault r a, .vault r' b => if r = r' then layOver a b data bs else bs
    | .mem k a, .mem k' b => if k = k' then layOver a b data bs else bs
    | _, _ => bs
  | .bring k' b data _ => match p with
    | .mem k a => if k = k' then layOver a b data bs else bs
    | _ => bs
  | .flag r b (some w) _ => match p with
    | .vault r' a => if r = r' then layOver a b (bytesOfNat 4 w.toNat) bs else bs
    | _ => bs
  | _ => bs

/-- The whole words of a store: where they begin, and a byte 0 for each of their bytes. -/
def wholeWords (a n : Nat) : Nat × List Byte :=
  let lead := (4 - a % 4) % 4
  (a + lead, List.replicate ((n - lead) / 4 * 4) 0)

/-- An effect with a byte 1 for each byte of a word that is poisoned after it, and 0 for one that it writes whole; a store of part of a
word leaves its mark (R357). -/
def marks : Effect → Effect
  | .store (.vault r a) data => .store (.vault r (wholeWords a data.length).1) (wholeWords a data.length).2
  | .store (.mem k a) data => .store (.mem k (wholeWords a data.length).1) (wholeWords a data.length).2
  | .bring key pa data bad => .bring key pa (data.map fun _ => if bad then 1 else 0) bad
  | .flag r off (some _) f => .flag r off (some 0) f
  | e => e

/-- The stores a slot sees before they leave: those held in its room, and those in its pair's release buffer. -/
def unsent (s : State) (c : Nat) (k : Fin 4) : List Effect :=
  (roomAt s (roomOf c)).hold.map Held.effect ++ bufferOf s c k

/-- Whether the word of a byte of a place is poisoned (R357). -/
def poisonedAt (s : State) (p : Place) (i : Nat) : Bool :=
  match p with
  | .vault r off => match physicalRoom s r with
    | none => false
    | some pr => (readChecked (vaultAt s pr ((off + i) / 4 * 4))).poison
  | .mem key pa => s.poison.contains ((memKey key pa + i) / 4 * 4)

/-- The first poisoned byte of an interval, whose own words are poisoned where `bad` says so, under stores that have not left
yet. -/
def poisonUnder (s : State) (es : List Effect) (p : Place) (n : Nat) (bad : Bool) : Option Nat :=
  let own := if bad then (List.range n).map fun i => if poisonedAt s p i then (1 : Byte) else 0 else List.replicate n 0
  ((es.map marks).foldl (overlay p) own).findIdx? fun b => b != 0

/-- A held LPATCH as a store to its record, for an access of `n` bytes at `a` of the issuing slot (R258, R270). -/
def patchedAt (s : State) (a : XWord) (p : Place) (n : Nat) : Effect → Effect
  | .patch ctx record k v =>
    let b := ctxPool s ctx + BitVec.ofNat 64 (256 * record + 8 * k)
    match p with
    | .mem key pa =>
      if (slotAt s s.cur.1 s.cur.2).ctx = ctx ∧ b.toNat < a.toNat + n ∧ a.toNat < b.toNat + 8 then
        .store (.mem key (pa + b.toNat - a.toNat)) (bytesOfNat 8 v.toNat)
      else .patch ctx record k v
    | .vault _ _ => .patch ctx record k v
  | e => e

/-- The bytes at a place under stores that have not left yet, as a room reads them, and the first that is poisoned. -/
def peekUnder (es : List Effect) (a : XWord) (p : Place) (n : Nat) (room : Option Nat) : M (List Byte × Option Nat) := do
  let (bs, bad) ← peek a p n room
  let s ← get
  let es := es.map (patchedAt s a p n)
  return (es.foldl (overlay p) bs, poisonUnder (← get) es p n bad)

/-- The address of the word of a byte of an access. -/
def wordAt (a : XWord) (i : Nat) : XWord := BitVec.ofNat 64 ((a.toNat + i) / 4 * 4)

/-- The bytes at a place as the issuing slot sees them; poison is consumed (R358). -/
def seeAt (a : XWord) (p : Place) (n : Nat) : M (List Byte) := do
  let s ← get
  let (bs, bad) ← peekUnder (unsent s s.cur.1 s.cur.2) a p n (some (roomOf s.cur.1))
  match bad with
  | some i => poisoned (wordAt a i)
  | none => return bs

/-! ### Mapped words (R140) -/

/-- Whether a mapped word is fetched before it is read: an invalid one, or a clean one whose copy here is lost (R140, R357). -/
def needsFill (w : VaultWord) : Bool := !w.v || ((readChecked w).poison && !(readChecked w).d)

/-- The offsets of the words of the line of a vault offset that are fetched. -/
def invalidWords (s : State) (r off : Nat) : List Nat :=
  match physicalRoom s r with
  | none => []
  | some pr => ((List.range 32).map fun i => off / 128 * 128 + 4 * i).filter fun o => needsFill (vaultAt s pr o)

/-- Fills vault words from memory, as stores `es` that have not left yet leave it: V := 1, D := 0, F unchanged, poison with its word
(R140, R357); `log` logs a word first. -/
def fillWords (log : Nat → M Unit) (es : List Effect) (r : Nat) (m : Mapping) (key pa base : Nat) : List Nat → M Unit
  | [] => pure ()
  | o :: t => do
    let (bs, bad) ← peekUnder es (mappedVa m o) (.mem key (pa + (o - base))) 4 (some r)
    let v ← vaultWord 0 r o
    log o
    setVault r o ⟨BitVec.ofNat 32 (natOfBytes bs), true, false, v.f, none, bad.isSome⟩
    fillWords log es r m key pa base t

/-- A slice of L2 that takes in a line may evict another, which it chooses (R147): the home recalls every copy of that line. -/
def evictFor (s : State) (pa : Nat) : State :=
  match Config.evicted s.tick (homeHall s pa) with
  | some (key, line) =>
    if homeHall s (128 * line) = homeHall s pa ∧ line ≠ pa / 128 then claimLine none (128 * line) 128 s key line else s
  | none => s

/-- The stores that an agent which fills a mapped word sees before they leave: a slot those held in its room (R364). -/
def heldFor (s : State) (r : Nat) : Agent → List Effect
  | .slot _ _ => (roomAt s r).hold.map Held.effect
  | _ => []

/-- Fills the invalid words of the line of a vault offset through the M path, for an access of an agent at `a` (R140). The fill
takes a scoreboard entry for its line (R142), and the class of the page it reads: one that acts as class N traps 0x05 at the
access. A page that fails the fill is told with the global address of the line (log entry 102). -/
def fillLine (hall : Nat) (agent : Agent) (log : Nat → M Unit) (a : XWord) (r off : Nat) (m : Mapping) : M Unit := do
  let base := off / 128 * 128
  awaitBoards [(r, base, base + 128)]
  let (key, pa, attr) ← translate hall m.ctx agent (mappedVa m base) .read .fill
  let s ← get
  ensure (actsAs s pa (attrClass attr) != 2) (trap 0x05 a)
  if actsAs s pa (attrClass attr) = 0 then set (evictFor s pa)
  fillWords log (heldFor s r agent) r m key pa base (invalidWords s r off)
  modify fun s => foundHome s (16 * r + off / 2 ^ 19 % 16) m base ⟨key, pa, attrClass attr⟩ (attrSL attr)

/-- Words of mapped ranges that an agent reads in an interval of a vault are fetched first where their copy is not valid. -/
def fillFor (hall : Nat) (agent : Agent) (log : Nat → Nat → M Unit) (a : XWord) (p : Place) (n : Nat) : M Unit := do
  match p with
  | .mem _ _ => pure ()
  | .vault r off => (wordsIn off n).forM fun o => do
    let s ← get
    match isMapped s r o, physicalRoom s r with
    | some m, some pr => if needsFill (vaultAt s pr o) then fillLine hall agent (log r) a r o m else pure ()
    | _, _ => pure ()

/-- Words of mapped ranges in an interval are filled for an access of the issuing slot at `a`. -/
def fillAt (a : XWord) (p : Place) (n : Nat) : M Unit := do
  let s ← get
  fillFor (hallOf s.cur.1) (.slot (leadCore s s.cur.1 s.cur.2) s.cur.2) (fun r o => touchVault r o 4) a p n

/-- What an engine's access to a place finds done before it reads or writes: no partition move is under way there (R137), words of
mapped ranges are fetched or become their room's own, and a range that a sealed page fills is not written (R140, R147). `log` logs a word that a fill changes. -/
def readyPlace (hall : Nat) (agent : Agent) (log : Nat → Nat → M Unit) (acc : Access) (a : XWord) (p : Place) (n : Nat) : M Unit := do
  match p with
  | .mem _ _ => pure ()
  | .vault r off => do
    ensure (!inMove (← get) r off n) (throw (.later []))
    if writes acc then do
      checkReadOnly a p n
      claimPlace p n
    else fillFor hall agent log a p n

/-! ### Prefetches (R159, R245) -/

/-- What a prefetch of a core does with the line of an address (R159): it reads the line, which recalls its partials (R146), and
neither waits nor traps. One that misses the L2 TLB goes to the translation unit as an access of its own (R298). -/
def prefetchLine (c ctx : Nat) (x : XWord) : M Unit := do
  let line := x - BitVec.ofNat 64 (x.toNat % 128)
  if isThreshold c || !isCanonical x || isVaultAddr x then pure ()
  else match ← attempt (translate (hallOf c) ctx (.prefetch c) line .read .plain) with
    | .error (.park _ due) => modify fun s => post s due
    | .error _ => pure ()
    | .ok (key, pa, attr) => do
      let s ← get
      if actsAs s pa (attrClass attr) = 2 then pure ()
      else do
        let _ ← attempt (peek line (.mem key pa) 128 (some (roomOf c)))
        pure ()

/-! ### Remote accesses (R249) -/

/-- The hall that homes a place. -/
def placeHall (s : State) : Place → Option Nat
  | .vault r _ => some (r / 16)
  | .mem _ pa => if spaceOf pa = .dram ∨ spaceOf pa = .expander then some (homeHall s pa) else none

/-- The candidate hall and count after an access whose home is hall `h` (R249). -/
def countedRemote (v : Slot) (h : Nat) : Slot :=
  if v.remoteCount ≠ 0 ∧ v.remoteHall = h then { v with remoteCount := v.remoteCount + 1 }
  else if v.remoteCount = 0 then { v with remoteHall := h, remoteCount := 1 }
  else { v with remoteCount := v.remoteCount - 1 }

/-- Whether a slot runs a task of a migratable stage. -/
def migratable (s : State) (v : Slot) : Bool :=
  match (launchOf v).bind (launchAt s) with
  | some r => stageMigrates r v.stage
  | none => false

/-- A C-path access of a migratable task is counted where its home is another hall; at the context's threshold the lobby
migrates the task (R249). -/
def countRemote (p : Place) : M Unit := do
  let s ← get
  let v := slotAt s s.cur.1 s.cur.2
  match placeHall s p with
  | none => pure ()
  | some h =>
    if h = hallOf s.cur.1 ∨ !migratable s v ∨ v.remoteOff then pure ()
    else do
      onMe fun v => countedRemote v h
      let w ← me
      if ctxMthr s v.ctx ≠ 0 ∧ w.remoteCount = ctxMthr s v.ctx then
        modify fun s => post s [.taskMigration s.cur.1 s.cur.2 w.remoteHall]

/-! ### Loads and stores (R158, R159) -/

/-- The bytes of located parts. -/
def seeParts : List (XWord × Place × Nat) → M (List Byte)
  | [] => return []
  | (a, p, n) :: t => do
    stallOn p n
    fillAt a p n
    let bs ← seeAt a p n
    let cs ← seeParts t
    return bs ++ cs

/-- The parts of a C-path access are counted for R249. -/
def countParts (ps : List (XWord × Place × Nat)) : M Unit := ps.forM fun (_, p, _) => countRemote p

/-- The bytes of a load of the issuing slot. -/
def loadBytes (a : XWord) (n : Nat) : M (List Byte) := do
  let ps ← locateAll .read .plain (partsOf a n)
  countParts ps
  seeParts ps

/-- The parts of a store, after every check. -/
def storeParts (a : XWord) (n : Nat) : M (List (XWord × Place × Nat)) := do
  let ps ← locateAll .write .plain (partsOf a n)
  ps.forM fun (b, p, m) => do
    checkReadOnly b p m
    stallOn p m
  ps.forM fun (_, p, m) => claimPlace p m
  return ps

/-- Bytes leave for located parts. -/
def sendParts : List (XWord × Place × Nat) → List Byte → M Unit
  | [], _ => pure ()
  | (_, p, n) :: t, bs => do
    sendEffect (.store p (bs.take n))
    sendParts t (bs.drop n)

/-- A store of the issuing slot. -/
def storeBytes (a : XWord) (bs : List Byte) : M Unit := do
  let ps ← storeParts a bs.length
  countParts ps
  sendParts ps bs

/-- Every element's parts of a gather, in order; the lowest failing element decides a trap (R159). -/
def locateElems (acc : Access) (n : Nat) : List XWord → M (List (List (XWord × Place × Nat)))
  | [] => return []
  | a :: t => do
    let ps ← if acc = .write then storeParts a n else locateAll acc .plain (partsOf a n)
    let rest ← locateElems acc n t
    return ps :: rest

/-- The elements of a gather. -/
def seeElems : List (List (XWord × Place × Nat)) → M (List (List Byte))
  | [] => return []
  | ps :: t => do
    countParts ps
    let bs ← seeParts ps
    let rest ← seeElems t
    return bs :: rest

/-- The elements of a scatter leave in ascending order. -/
def sendElems : List (List (XWord × Place × Nat)) → List (List Byte) → M Unit
  | ps :: t, bs :: us => do
    countParts ps
    sendParts ps bs
    sendElems t us
  | _, _ => pure ()

/-- Traps 0x03 at an address that is not a multiple of a size (R156). -/
def aligned (a : XWord) (n : Nat) : M Unit := ensure (a.toNat % n == 0) (trap 0x03 a)

end Sys2Proof.Machine
end

