-- ==== Sys2Proof/Machine/Lobby.lean ====
section
/-! DEFINITION. The lobby, the prefetcher and the chimney (R16, R112, R125, R126, R136, R137, R237 to R245, R249 to R254,
R262 to R267): how tasks come to slots and leave them, and how a launch starts and completes. -/

namespace Sys2Proof.Machine

open Sys2Proof

/-! ### Slots of a launch -/

/-- Task slots of a core, in order. -/
def taskSlots : List (Fin 4) := [0, 1, 2]

/-- Whether a slot has left a launch by DONE. -/
def hasLeft (r : Launch) (c : Nat) (k : Fin 4) : Bool := r.leftSlots.contains (c, k.val)

/-- The slots of a core that a launch may yet put tasks in: its slot count less those that hold its tasks, or stay with
it, and those that have left. -/
def slotsOwed (s : State) (l : Nat) (r : Launch) (c : Nat) : Nat :=
  let mine := (taskSlots.filter fun k => launchOf (slotAt s c k) == some l).length
  let left := (r.leftSlots.filter fun e => e.1 == c).length
  recSlots r (c % 16) - mine - left

/-- Whether a slot is one that a launch's tasks run in, now or once it is free: it stays with the launch, or it has no launch,
has not left this one, and the launch is owed slots on the core (R125, R266). -/
def slotOffered (s : State) (l : Nat) (r : Launch) (c : Nat) (k : Fin 4) : Bool :=
  let v := slotAt s c k
  launchOf v == some l || (v.launch.isNone && decide (0 < slotsOwed s l r c) && !hasLeft r c k)

/-- Whether a task of a launch may be promoted into a slot (R16, R244): an empty one that it is offered. -/
def slotOpen (s : State) (l : Nat) (r : Launch) (c : Nat) (k : Fin 4) : Bool :=
  let v := slotAt s c k
  !v.live && v.wait.isNone && decide (k ≠ 3) && slotOffered s l r c k

/-- The priority of a slot's task. -/
def slotPri (s : State) (v : Slot) : Nat := (((launchOf v).bind (launchAt s)).map recPri).getD 0

/-- The cores of a room. -/
def coresOf (room : Nat) : List Nat := (List.range 16).map fun i => 16 * room + i

/-- The launches that run on a core's room. -/
def launchesIn (s : State) (room : Nat) : List (Nat × Launch) :=
  s.launches.filter fun (l, r) => r.rooms.contains room && !(contextAt s (l / 1024)).switchedOut

/-- Whether a core's scratchpad may belong to a context (R136). -/
def ownerAllows (s : State) (ctx c : Nat) : Bool :=
  match (coreAt s c).owner with
  | none => true
  | some x => x == ctx || !(launchesIn s (roomOf c)).any fun (l, _) => l / 1024 == x

/-! ### Pairs of a launch (R270, R360) -/

/-- Half of a pair as it forms. -/
def newHalf (k : Fin 4) (leader : Bool) (v : Slot) : Pair := ⟨k, leader, 0, 0, 0, 0, [], v, false, false, [], false, 0, none, []⟩

/-- Couples slot `k` of core `c` and the next core; the follower takes the leader's task. -/
def couple (s : State) (c : Nat) (k : Fin 4) : State :=
  let v := slotAt s c k
  let bank := tfind (coreAt s c).banks k.val
  let s := putSlot s (c + 1) k v
  onCore (onCore s c fun q => { q with pair := some (newHalf k true v) }) (c + 1) fun q => { q with
    pair := some (newHalf k false v)
    banks := match bank with | some b => tput q.banks k.val b | none => tdel q.banks k.val }

/-- Whether a slot and its neighbour can be coupled: cores that issue and are in no pair and no chain, and an empty neighbour. -/
def canCouple (s : State) (c : Nat) (k : Fin 4) : Bool :=
  c % 2 == 0 && (coreAt s c).pair.isNone && (coreAt s (c + 1)).pair.isNone && (coreAt s c).chain.isNone &&
    (coreAt s (c + 1)).chain.isNone && !(coreAt s c).halted && !(coreAt s (c + 1)).halted && !(slotAt s (c + 1) k).live

/-- Whether a task of pair mode may run in slot `k` of a core: the next core's slot is open to its launch too, and the two can be
coupled (R125, R360, R395). -/
def pairOpen (s : State) (c : Nat) (k : Fin 4) (v : Slot) : Bool :=
  canCouple s c k && match (launchOf v).bind fun l => (launchAt s l).map fun r => (l, r) with
    | none => false
    | some (l, r) => slotOpen s l r (c + 1) k

/-- Takes a pair apart. -/
def uncouple (s : State) (c : Nat) : State :=
  onCore (onCore s c fun q => { q with pair := none }) (c + 1) fun q => { q with pair := none }

/-! ### Promotion (R16) -/

/-- A task as it starts or resumes in a slot: a task of a save brings its own seen counts, another takes the slot's (R121). The
slot is not ready for the cycles of the promotion. -/
def promoted (old task : Slot) : Slot :=
  { task with seen := if task.carries then task.seen else old.seen, carries := false, wait := some .promotion }

/-- Whether a launch of higher priority waits for slots of a core, and for nothing else (R237, R254). -/
def claimed (s : State) (c pri : Nat) : Bool :=
  let room := roomOf c
  s.launches.any fun (l, r) =>
    (launchRooms r).contains room && !r.rooms.contains room && decide (0 < recSlots r (c % 16)) && decide (pri < recPri r) &&
      !departing s (l / 1024) && (physicalRoom s room).isSome &&
      (coresOf room).all fun d => ownerAllows s (l / 1024) d && (coreAt s d).partition == recScratch r

/-- Whether a shadow slot's task may run in slot `k` of its core once that is open: its warming is over, a chained task is for
slot 0, one of pair mode has its second slot open (log entry 32), its context is not on its way out, and no launch of higher priority waits for the slot of a task that was saved. -/
def runnable (s : State) (c : Nat) (k : Fin 4) (h : Shadow) : Bool :=
  h.waitsOn.isEmpty && h.warming.isEmpty && (h.chain.isNone || k == 0) && (!h.task.pairMode || pairOpen s c k h.task) && !departing s h.task.ctx &&
    !(h.task.carries && claimed s c (slotPri s h.task))

/-- Whether a slot is open to the launch of a task. -/
def openTo (s : State) (c : Nat) (k : Fin 4) (v : Slot) : Bool :=
  match (launchOf v).bind fun l => (launchAt s l).map fun r => (l, r) with
  | none => false
  | some (l, r) => slotOpen s l r c k

/-- The saved tasks of a core whose cause has cleared (R252). -/
def returning (s : State) (c : Nat) : List SavedTask :=
  let ctx := (coreAt s c).owner.getD 0
  if departing s ctx then [] else (contextAt s ctx).saved.filter fun t => t.core == c && t.waits.isNone && !t.switched

/-- Whether a saved task of higher priority waits in a frame for the slot that a saved task would resume in (R254). -/
def outwaits (s : State) (c : Nat) (k : Fin 4) (v : Slot) : Bool :=
  v.carries && (returning s c).any fun t => decide (slotPri s v < slotPri s t.task) && openTo s c k t.task

/-- The shadow slot that may be promoted into a slot: the one filled earlier, or one of higher priority where that is a saved
task (R254). -/
def promotable (s : State) (c : Nat) (k : Fin 4) : Option Shadow :=
  let hs := (coreAt s c).shadows.filter fun h => runnable s c k h && openTo s c k h.task && !outwaits s c k h.task
  match hs with
  | [] => none
  | h :: t =>
    if h.task.carries then some (t.foldl (fun a b => if slotPri s a.task < slotPri s b.task then b else a) h) else some h

/-- Promotes a shadow slot into a task slot (R16); a task of pair mode takes both cores of the pair. -/
def promote (s : State) (c : Nat) (k : Fin 4) (h : Shadow) : State :=
  let s := putSlot s c k (promoted (slotAt s c k) h.task)
  let s := onCore s c fun q => { q with
    shadows := q.shadows.filter (fun x => x != h)
    banks := match h.check with | some b => tput q.banks k.val b | none => tdel q.banks k.val
    chain := if h.chain.isSome then h.chain else q.chain
    chainBank := if k = 0 then h.chainCheck else q.chainBank }
  let s := if h.task.pairMode then couple s c k else s
  post s [.promotionEnd c k, .prefetcherFill c]

/-- PROMOTION (R16). -/
def promotionAct (c : Nat) (k : Fin 4) : M Unit := modify fun s =>
  match promotable s c k with
  | some h => promote s c k h
  | none => s

/-- A task that comes back with a valid latch is ready no sooner than its latch is empty (R319): it waits for the response,
or its fault is delivered again. -/
def promotedWithLatch (s : State) (c : Nat) (k : Fin 4) (q : Latch) : State :=
  if q.sent then onSlot s c k fun v => { v with wait := some .latch }
  else deliver s c k (slotAt s c k).trap

/-- PROMOTION_END (R16): the promotion cycles are over. The task's first instruction is an acquire: that of the enqueue it was
decoded from (R241), of the node that fired it (R248, R268), or of its save (R180). -/
def promotionEndAct (c : Nat) (k : Fin 4) : M Unit := modify fun s =>
  let v := slotAt s c k
  if v.wait ≠ some .promotion then s
  else
    let s := acquired s c
    match v.latch with
    | some q => promotedWithLatch s c k q
    | none => wake s c k

/-! ### Tasks leaving a slot -/

/-- What a task's leaving makes due; a task of pair mode may have waited for the slot on the other core. -/
def afterLeaving (c : Nat) (k : Fin 4) (v : Slot) : List Due :=
  [.promotion c k, .prefetcherFill c] ++ (if c % 2 = 1 then [.promotion (c - 1) k] else []) ++ (v.launch.toList.map fun r => .launchQuiescent v.ctx r)

/-- A slot's accesses wait on its hall's translation unit no more. -/
def dropMisses (s : State) (c : Nat) (k : Fin 4) : State :=
  let keep := fun (l : List MissReq) => l.filter fun m => m.agent != .slot c k
  if isThreshold c then s
  else onHall s (hallOf c) fun h => { h with
    pending := h.pending.map (fun (i, e) => (i, { e with waiters := keep e.waiters }))
    buffer := h.buffer.map (fun (i, e) => (i, { e with waiters := keep e.waiters }))
    overflow := keep h.overflow, dropped := keep h.dropped, parked := keep h.parked }

/-- A slot empties and stays in its launch. -/
def vacate (s : State) (c : Nat) (k : Fin 4) : State :=
  let v := slotAt s c k
  let s := dropMisses s c k
  let s := onCore (putSlot s c k (vacated v)) c fun q => dropWatches { q with banks := tdel q.banks k.val } k
  post (repostStarts s) (afterLeaving c k v)

/-- A transfer that a slot's leaving waits for (R173, R263). -/
def transferOf (s : State) (c : Nat) (k : Fin 4) : Option Nat :=
  (s.transfers.find? fun t => t.core == c && t.slot == k).map Transfer.id

/-- Waits until the slot's M-path transfers are written. -/
def awaitTransfers (c : Nat) (k : Fin 4) : M Unit := do
  match transferOf (← get) c k with
  | some id => throw (.retry [.copyTransferComplete id])
  | none => pure ()

/-! ### Write-backs of a save or a move (R137, R141, R180) -/

/-- The words of an interval of vault offsets. -/
def offsets (lo n : Nat) : List Nat := (List.range (n / 4)).map fun i => lo + 4 * i

/-- The dirty words of a core's mapping. -/
def dirtyWords (s : State) (r : Nat) (m : Mapping) : List Nat :=
  match physicalRoom s r with
  | none => []
  | some pr => (offsets m.off m.len).filter fun o => (readChecked (vaultAt s pr o)).d

/-- Writes back the dirty word at an offset of a mapping of a core, as an effect of the slot at hand and an access of an agent
(R141): it becomes clean. -/
def backFor (agent : Agent) (c o : Nat) : M Unit := do
  let r := roomOf c
  match isMapped (← get) r o with
  | none => pure ()
  | some m => do
    let v ← vaultWord (mappedVa m o) r o
    if v.d then do
      let (key, pa, attr) ← translate (hallOf c) m.ctx agent (mappedVa m o) .write .back
      modify fun s => foundHome s c m o ⟨key, pa - (o - m.off) % 128, attrClass attr⟩ false
      touchVault r o 4
      setVault r o { v with d := false }
      if v.poison then modify fun s => loseLine s key (pa / 128)
      emit (.bring key pa (bytesOfNat 4 v.data.toNat) v.poison)

/-- Writes back words of a core for a save or a move, as its slot `k`, and answers with those it had to discard: a page that is
not present makes the whole wait. -/
def backEach (c : Nat) (k : Fin 4) : List Nat → M (List Nat)
  | [] => return []
  | o :: t => do
    match ← attempt (asSlot c k (backFor .foundation c o)) with
    | .ok _ => backEach c k t
    | .error (.park _ due) => throw (.engine (hallOf c) none due)
    | .error (.trap _ _ _ _) => do
      let v ← vaultWord 0 (roomOf c) o
      setVault (roomOf c) o { v with d := false }
      return o :: (← backEach c k t)
    | .error e => throw e

/-- Writes back words of a core for a save or a move; the host is told of those that are discarded (R137). -/
def backOrDiscard (c : Nat) (k : Fin 4) (ws : List Nat) : M Unit := do
  match ← backEach c k ws with
  | [] => pure ()
  | o :: t => modify fun s => match isMapped s (roomOf c) o with
    | none => s
    | some m => postEvent s 14 m.ctx (roomOf c) (mappedVa m o) (BitVec.ofNat 64 (t.length + 1))

/-- The words of a list that lie on pages that act as class S; one whose page is not translated waits. -/
def sharedWords (c : Nat) : List Nat → M (List Nat)
  | [] => return []
  | o :: t => do
    let s ← get
    let cls ← match isMapped s (roomOf c) o with
      | none => pure 0
      | some m => match tfind m.homes ((o - m.off) / 128) with
        | some h => pure (actsAs s h.pa h.cls)
        | none => match hallLookup s (hallOf c) m.ctx (pageOf (mappedVa m o)) with
          | some (e, _) => pure (actsAs s (frameOf e (mappedVa m o)) (attrClass e.attr))
          | none => throw (.engine (hallOf c) none [.translationMiss (hallOf c) ⟨m.ctx, mappedVa m o, .write, .foundation⟩])
    let rest ← sharedWords c t
    return if cls = 1 then o :: rest else rest

/-! ### The fence of a save (R180) -/

/-- The commands of a slot in a window. -/
def commandsOf (s : State) (c : Nat) (k : Fin 4) : List Command :=
  (roomAt s (roomOf c)).window.filter fun q => q.core == c && q.slot == k

/-- Whether a laundry still serves kicks of a slot. -/
def servesKicks (s : State) (c : Nat) (k : Fin 4) : Bool :=
  (hallAt s (hallOf c)).rings.any fun r => r.kickers.any fun e => e.1 == c && e.2.1 == k

/-- Whether a command stands still until a program resumes or drops one of its context that has stopped (R214). -/
def standsStill (s : State) (room : Nat) (q : Command) : Bool :=
  q.state != .running && (roomAt s room).window.any fun p => p.ctx == q.ctx && p.state == .stopped

/-- The full fence at house scope of a slot whose task leaves it for a frame or for another hall (R180): its transfers are written,
its hearth commands and kicks are done, and its core's dirty words of class S are released. In a context switch commands and
requests stop as Table 14.12 gives, and a command that stands still is not waited for (log entry 103). -/
def fenceSave (c : Nat) (k : Fin 4) (switched : Bool) : M Unit := do
  awaitTransfers c k
  let s ← get
  ensure (switched || ((commandsOf s c k).all (standsStill s (roomOf c)) && !servesKicks s c k)) (throw (.later []))
  let ws ← sharedWords c ((coreAt s c).mappings.flatMap (dirtyWords s (roomOf c)))
  backOrDiscard c k ws

/-- An arrival that a waiting BARRW has made is withdrawn where its phase is still open (R115). -/
def withdrawArrival (s : State) (c : Nat) (k : Fin 4) : State :=
  match (slotAt s c k).wait with
  | some (.barrier l key _ (some _)) => onLaunch s l fun r =>
    let b := barrierAt r key
    if b.slots.contains (4 * c + k.val) then { r with
      barriers := tput r.barriers key { b with
        arrived := b.arrived - 1, slots := b.slots.filter (fun i => i != 4 * c + k.val)
        partials := tdel b.partials (partialKey s.house c k.val) } }
    else r
  | _ => s

/-- A task's held entries leave it (R262): each is stored, or in a recoverable superstep stored at the commit (R270). -/
def sendHeld (v : Slot) : List HeldEntry → M Unit
  | [] => return ()
  | e :: t => do
    match launchOf v with
    | none => return ()
    | some l => do
      let s ← get
      emit (.enqueue l (hallOf s.cur.1) e.stage e.words)
      sendHeld v t

/-- The H bit a slot goes on with where its delivery comes to nothing: the one it had, or 0 where the supervisor had begun
to serve it. -/
def undelivered (q : Core) (k : Fin 4) (v : Slot) : Slot :=
  match q.deliveries.find? fun d => d.slot == k with
  | some d => { v with trap := { v.trap with cause := withH (d.trap.cause.extractLsb' 63 1) v.trap.cause } }
  | none => if q.activation = some k then { v with trap := { v.trap with cause := withH 0 v.trap.cause } } else v

/-- A slot that is saved has no delivery and no kick on its way (R115): after its restart the instruction comes to both
again. A supervisor that serves it has lost its origin. -/
def dropRequests (s : State) (c : Nat) (k : Fin 4) : State :=
  let s := onSlot s c k (undelivered (coreAt s c) k)
  let s := onCore s c fun q => { q with
    deliveries := q.deliveries.filter (fun d => d.slot != k)
    activation := if q.activation = some k then some 3 else q.activation }
  onHall s (hallOf c) fun h => { h with kicks := h.kicks.filter fun q => q.from_ != some (c, k) }

/-- The cores that are still in the chain that a slot runs in; or its own core (R23). -/
def coresWithChain (s : State) (c : Nat) (k : Fin 4) : List Nat :=
  match (coreAt s c).chain with
  | some r => if k = 0 then membersOf s r else [c]
  | none => [c]

/-- Saves the task of one slot to a frame; a pair from an agreed state, as one task. -/
def saveOne (c : Nat) (k : Fin 4) (waits : Option Wait) (switched : Bool) : M Unit := do
  let s ← get
  let v := slotAt s c k
  match freeFrame s v.ctx with
  | none => throw (.retry [])
  | some f => do
    asSlot c k compareFirst
    fenceSave c k switched
    let mode := (pairOf s c k).isSome
    asSlot c k (sendHeld v v.held)
    modify fun s => dropRequests (withdrawArrival s c k) c k
    let v := slotAt (← get) c k
    let q := coreAt s c
    let chain := if k = 0 then q.chain else none
    saveTask c { v with held := [], pairMode := v.pairMode || mode } (tfind q.banks k.val) chain
      (if k = 0 then q.chainBank else none) f waits true switched
    modify fun s =>
      let s := if k = 0 then onCore s c fun q => { q with chain := none, chainBank := none } else s
      match followerOf s c k with
      | some d => vacate (vacate (uncouple s c) d k) c k
      | none => vacate s c k

/-- Saves slot `k` of each of some cores. -/
def saveMembers (c : Nat) (k : Fin 4) (waits : Option Wait) (switched : Bool) : List Nat → M Unit
  | [] => return ()
  | d :: t => do
    if (slotAt (← get) d k).live then saveOne d k (if d = c then waits else none) switched
    saveMembers c k waits switched t

/-- Saves the task of a slot to the free frame of lowest index (R251 to R254, R262), and with it the chain it runs in (R23):
whether frames were free. -/
def saveSlot (c : Nat) (k : Fin 4) (waits : Option Wait) (switched : Bool) : M Bool := do
  let s ← get
  let cores := coresWithChain s c k
  let ctx := (slotAt s c k).ctx
  let used := ((contextAt s ctx).saved.filterMap SavedTask.frame).length
  if ctxFrames s ctx < used + cores.length then return false
  else do
    saveMembers c k waits switched cores
    return true

/-! ### Queues (R239, R240, R244) -/

/-- The words of the entry at the head of a queue. -/
def headEntry (hall l : Nat) (r : Launch) (st : Nat) : M (List Word) := do
  let q := queueAt (← get) hall l st
  let (bs, _) ← engineRead hall (l / 1024) (entryAddress r hall st q.head) 68
  let words := (List.range 17).map fun i => BitVec.ofNat 32 (natOfBytes ((bs.drop (4 * i)).take 4))
  let mask := (words.headD 0).toNat
  return words.take (1 + ((List.range 16).filter (bitAt mask)).length)

/-- Which words of the entry at the head of a queue are poisoned (R357). -/
def entryPoison (hall l : Nat) (r : Launch) (st : Nat) : M (List Bool) := do
  let a := entryAddress r hall st (queueAt (← get) hall l st).head
  let (_, bad) ← engineRead hall (l / 1024) a 68
  if bad then (List.range 17).mapM fun i => do return (← engineRead hall (l / 1024) (a + BitVec.ofNat 64 (4 * i)) 4).2
  else return List.replicate 17 false

/-- A queue after its head has been dequeued. -/
def dequeued (r : Launch) (st : Nat) (q : Queue) (fields : List Word) (lost : List Bool) : Queue :=
  { q with head := (q.head + 1) % stageCap r st, count := q.count - 1, decode := fields, lost := lost }

/-- The lines of the range that a warmed task declares (R245): at most 64 KiB from concat(field 14, field 13) on. -/
def warmLines (fields : List Word) : List XWord :=
  let field := fun i => (fields.getD i 0).toNat
  (linesOf (2 ^ 32 * field 14 + field 13) (min (field 15) (2 ^ 16))).map fun i => BitVec.ofNat 64 (128 * i)

/-- One line of a warming (R245): it is prefetched, and its transfer has a scoreboard entry of the room until it retires. Where in the
vault cache it lies no access can tell (log entry 104). -/
def warmLine (c ctx : Nat) (x : XWord) : M Nat := do
  prefetchLine c ctx x
  let id ← nextSerial
  let room := roomOf c
  modify fun s => post (onRoom s room fun q => { q with board := q.board ++ [⟨id, 0, 0⟩] }) [.scoreboardRetire room id]
  return id

/-- The warmings of a core's shadow slots go on, as far as the room has free scoreboard entries (R142, R245). -/
def warmOn (c : Nat) : List Shadow → M (List Shadow)
  | [] => return []
  | h :: t => do
    let free := boardSize - (roomAt (← get) (roomOf c)).board.length
    let ids ← (h.warming.take free).mapM (warmLine c h.task.ctx)
    let rest ← warmOn c t
    return { h with waitsOn := h.waitsOn ++ ids, warming := h.warming.drop free } :: rest

/-- The warmings of a core go on. -/
def warmCore (c : Nat) : M Unit := do
  let hs := (coreAt (← get) c).shadows
  if hs.all fun h => h.warming.isEmpty then pure ()
  else do
    let hs ← warmOn c hs
    modify fun s => onCore s c fun q => { q with shadows := hs }

/-- Dequeues an entry into a shadow slot of a core (R240, R244). -/
def takeEntry (c l : Nat) (r : Launch) (st : Nat) : M Unit := do
  let hall := hallOf c
  let words ← headEntry hall l r st
  let bad ← entryPoison hall l r st
  let q := queueAt (← get) hall l st
  let fields := decodeFields (words.headD 0).toNat 0 q.decode words.tail
  let lost := lostFields (words.headD 0).toNat q.lost bad
  let lines := if stageWarms r st then warmLines fields else []
  modify fun s =>
    let s := onQueue s hall l st fun q => dequeued r st q fields lost
    let s := onHall s hall fun h => { h with lastQueue := 8 * (l % 1024) + st }
    let s := if r.mode = 1 then onLaunch s l fun r => { r with
        keptTasks := r.keptTasks ++ [(hall, st, q.decode ++ words)] } else s
    let s := onCore s c fun v => { v with
      shadows := v.shadows ++ [⟨withLost lost (newTask l r st fields Slot.reset), none, none, none, [], some (q.decode, words), s.serial, lines⟩] }
    post { s with serial := s.serial + 1 } ([.landingRetry hall] ++ taskSlots.map fun k => .promotion c k)

/-- The queues that a core's launches serve and that hold entries: launch, record and stage. -/
def readyQueues (s : State) (c : Nat) : List (Nat × Launch × Nat) :=
  (coreAt s c).stages.filterMap fun (l, st) =>
    match launchAt s l with
    | none => none
    | some r =>
      if 0 < (queueAt s (hallOf c) l st).count ∧ !departing s (l / 1024) ∧
        !(recPR r && c % 2 == 1) ∧ taskSlots.any (slotOffered s l r c)
      then some (l, r, st) else none

/-- The queue that the prefetcher takes from (R244): the highest priority, then the first after the last winner. -/
def chooseQueue (s : State) (c : Nat) : Option (Nat × Launch × Nat) :=
  let qs := readyQueues s c
  let top := qs.foldl (fun m (_, r, _) => max m (recPri r)) 0
  let best := qs.filter fun (_, r, _) => recPri r == top
  let key := fun (q : Nat × Launch × Nat) => 8 * (q.1 % 1024) + q.2.2
  let last := (hallAt s (hallOf c)).lastQueue
  let least := fun (l : List (Nat × Launch × Nat)) =>
    l.foldl (fun (m : Option (Nat × Launch × Nat)) q => match m with
      | none => some q
      | some p => if key q < key p then some q else some p) none
  match least (best.filter fun q => decide (last < key q)) with
  | some q => some q
  | none => least best

/-! ### Saved and migrated tasks (R244, R250 to R254, R369) -/

/-- The saved task of a core that returns first: its cause has cleared, and no other of its kind has a higher priority
(R254). -/
def readySaved (s : State) (c : Nat) : Option SavedTask :=
  (returning s c).foldl (fun (m : Option SavedTask) t => match m with
    | none => some t
    | some u => if slotPri s u.task < slotPri s t.task then some t else some u) none

/-- A report to the chimney from a slot, or in place of one that is lost. -/
def chimneyAdd (s : State) (l : Nat) (tier : Tier) (unit child : Nat) (rep : Report) : State :=
  let key := 2 ^ 20 * tier.code + unit
  post (onLaunch s l fun r => { r with chimney := tput r.chimney key (tget [] r.chimney key ++ [(child, rep)]) })
    [.chimneyMessage (l / 1024) (l % 1024) tier unit]

/-- A task whose frame is damaged is lost (R369): its launch counts one DONE of code 0xFF, and may be quiescent without
it (R267). -/
def loseTask (s : State) (t : SavedTask) (reason : Nat) : State :=
  let s := postEvent s 4 t.task.ctx 0 (frameAddress s t.task.ctx (t.frame.getD 0)) (BitVec.ofNat 64 reason)
  match launchOf t.task with
  | none => s
  | some l =>
    let s := onLaunch s l fun r => { r with lost := true, leftSlots := (t.core, 3) :: r.leftSlots }
    post (chimneyAdd s l .core t.core t.core ⟨0xFF, 0, 0, 1⟩) [.launchQuiescent (l / 1024) (l % 1024)]

/-- The steps that a frame of a context, free again, makes due: of parked tasks and suspect pairs that could not be saved. -/
def awaitingFrames (s : State) (ctx : Nat) : List Due :=
  (s.cores.flatMap fun (c, q) => taskSlots.filterMap fun k =>
    match (q.slots.get k).wait with
    | some (.page (some _)) => if (q.slots.get k).ctx = ctx then some (Due.faultSaveDeferred c k) else none
    | _ => none) ++
  s.cores.filterMap fun (c, q) => q.pair.bind fun p =>
    if p.suspect && p.leader && (q.slots.get p.slot).ctx == ctx then some (.pairCompare c) else none

/-- The saved task leaves its frame. -/
def freeSaved (s : State) (t : SavedTask) : State :=
  let s := onContext s t.task.ctx fun x => { x with saved := x.saved.filter fun u => u != t }
  post (repostStarts s) (awaitingFrames s t.task.ctx)

/-- A frame in memory checked against its digest (R251): 0, or the reason code of R369, and the frame's bytes. -/
def readFrame (ctx hall frame : Nat) : M (Nat × List Byte) := do
  let s ← get
  let (bs, bad) ← engineRead hall ctx (frameAddress s ctx frame) 4096
  return (if bad then 2 else if sha512 (bs.take 4032) = bs.drop 4032 then 0 else 1, bs)

/-- A task comes to a shadow slot of a core from a save (R244). -/
def shadowSaved (s : State) (c : Nat) (t : SavedTask) (task : Slot) : State :=
  let s := onCore s c fun q => { q with shadows := q.shadows ++ [⟨task, t.check, t.chain, t.chainCheck, [], none, s.serial, []⟩] }
  post { s with serial := s.serial + 1 } (taskSlots.map fun k => .promotion c k)

/-- A task comes back from its frame to a shadow slot of its core (R244, R251), as the frame's bytes have it. -/
def takeSaved (c : Nat) (t : SavedTask) : M Unit := do
  let s ← get
  match t.frame with
  | none => set (shadowSaved (freeSaved s t) c t t.task)
  | some f => do
    let (reason, bs) ← readFrame t.task.ctx (foundationHall s t.task.ctx) f
    modify fun s =>
      let s := freeSaved s t
      if reason = 0 then shadowSaved s c t (frameTask bs t.task) else loseTask s t reason

/-- The migrated task that a core takes: its launch has the core serve the task's stage. -/
def readyMigrant (s : State) (c : Nat) : Option SavedTask :=
  (hallAt s (hallOf c)).migrants.find? fun t => match launchOf t.task with
    | none => false
    | some l => tfind (coreAt s c).stages l == some t.task.stage && !departing s t.task.ctx

/-- A migrated task comes to a shadow slot. -/
def takeMigrant (s : State) (c : Nat) (t : SavedTask) : State :=
  shadowSaved (onHall s (hallOf c) fun h => { h with migrants := h.migrants.filter fun u => u != t }) c t t.task

/-- The saved task in a core's shadow slots that one of higher priority in a frame takes the place of (R254). -/
def displaced (s : State) (c : Nat) (t : SavedTask) : Option Shadow :=
  (coreAt s c).shadows.reverse.find? fun h => h.task.carries && decide (slotPri s h.task < slotPri s t.task)

/-- A shadow slot's task goes back to a frame. -/
def backToFrame (c : Nat) (h : Shadow) : M Unit := do
  match freeFrame (← get) h.task.ctx with
  | none => throw (.retry [])
  | some f => do
    saveTask c h.task h.check h.chain h.chainCheck f none true false
    modify fun s => onCore s c fun q => { q with shadows := q.shadows.filter fun x => x != h }

/-- An empty shadow slot is filled from the first source that offers a task (R244). Where both hold tasks and a saved one has a
higher priority than a saved one of theirs, they change places (R254). -/
def fillShadow (c : Nat) : M Unit := do
  let s ← get
  if 2 ≤ (coreAt s c).shadows.length then
    match readySaved s c with
    | none => pure ()
    | some t => match displaced s c t with
      | none => pure ()
      | some h => do
        takeSaved c t
        backToFrame c h
  else match readySaved s c with
    | some t => takeSaved c t
    | none => match readyMigrant s c with
      | some t => set (takeMigrant s c t)
      | none => match chooseQueue s c with
        | some (l, r, st) => takeEntry c l r st
        | none => pure ()

/-- PREFETCHER_FILL (R244, R245). -/
def prefetcherFillAct (c : Nat) : M Unit := do
  if (coreAt (← get) c).halted then pure ()
  else do
    fillShadow c
    warmCore c

/-! ### Launch start (R136, R137, R237, R238, R242) -/

/-- Whether two launches ask for task slots of one core (R237). -/
def shareCore (r q : Launch) : Bool := (List.range 16).any fun i => decide (0 < recSlots r i) && decide (0 < recSlots q i)

/-- Whether another armed launch that waits for the same core of the room starts before this one (R237). -/
def outranked (s : State) (l : Nat) (r : Launch) (room : Nat) : Bool :=
  s.launches.any fun (m, q) =>
    m != l && (launchRooms q).contains room && !q.rooms.contains room && shareCore r q &&
      (decide (recPri r < recPri q) || (recPri r == recPri q && decide (q.order < r.order)))

/-- The slots of a core that hold no task, and those that hold one of a launch of lower priority, in order. -/
def emptySlots (s : State) (c : Nat) : List (Fin 4) := taskSlots.filter fun k => !(slotAt s c k).live
def lowerSlots (s : State) (c pri : Nat) : List (Fin 4) :=
  taskSlots.filter fun k => (slotAt s c k).live && decide (slotPri s (slotAt s c k) < pri)

/-- The slots that a launch takes on a core, and those of them that it pre-empts (R237, R254); none where it cannot. -/
def slotsFor (s : State) (r : Launch) (c : Nat) : Option (List (Fin 4) × List (Fin 4)) :=
  let n := recSlots r (c % 16)
  let free := (emptySlots s c).take n
  let out := (lowerSlots s c (recPri r)).take (n - free.length)
  if free.length + out.length = n then some (taskSlots.filter fun k => free.contains k || out.contains k, out) else none

/-- Pre-empts tasks of a core (R254): whether every one found a frame. -/
def preemptAll (c : Nat) : List (Fin 4) → M Bool
  | [] => return true
  | k :: t => do
    let s ← get
    if isSecond s c k then preemptAll c t
    else if ← saveSlot c k none false then preemptAll c t else return false

/-- Pre-empts what a launch needs on the cores of a room. -/
def preemptRoom (r : Launch) : List Nat → M Bool
  | [] => return true
  | c :: t => do
    match slotsFor (← get) r c with
    | none => return false
    | some (_, out) => if ← preemptAll c out then preemptRoom r t else return false

/-- The stage that a core of a launch serves at its start (R242). -/
def startStage (r : Launch) (c : Nat) : Nat :=
  let below := ((launchRooms r).filter fun q => q / 16 == hallOf c && decide (q < roomOf c)).length
  let st := declaredStages r
  st.getD ((16 * below + c % 16) % st.length) 0

/-- A seed task of a launch (R238). -/
def seedTask (l : Nat) (r : Launch) (old : Slot) : Slot :=
  newTask l r 0 ((List.range 16).map (recSeed r)) { old with seen := [] }

/-- The vault words of a core's scratchpad zeroed, as another context takes it (R136). -/
def zeroSlice (s : State) (c lo hi : Nat) : State :=
  match physicalRoom s (roomOf c) with
  | none => s
  | some pr =>
    let base := c % 16 * 2 ^ 19
    let listed := (s.vault.map Prod.fst).filter fun a =>
      decide (2 ^ 21 * pr + (base + lo) / 4 ≤ a) && decide (a < 2 ^ 21 * pr + (base + hi) / 4)
    let s := { s with vault := listed.foldl tdel s.vault }
    let spares := (List.range 32).filter fun i =>
      let e := repairWord s pr i
      let off := e.toNat / 2 ^ 12 % 16 * 2 ^ 19 + e.toNat % 4096 * 128
      spareOf s pr off == some i && decide (base + lo ≤ off) && decide (off < base + hi)
    let clear := fun (t : Table VaultWord) (i : Nat) => (List.range 32).foldl (fun t w => tdel t (1024 * pr + 32 * i + w)) t
    { s with spares := spares.foldl clear s.spares }

/-- A core belongs to a context (R136): a change of owner clears the scratchpad and its mappings. Dirty words of the old owner's mappings
are not written back: DESIGN CHOICE (log entry 116). -/
def takeCore (s : State) (ctx c : Nat) : State :=
  if (coreAt s c).owner = some ctx then s
  else
    let s := zeroSlice s c 0 (1024 * (coreAt s c).partition)
    onCore s c fun q => { q with owner := some ctx, mappings := [] }

/-- The words of the image that the runtime loads with a launch it arms (R10). -/
def runtimeWords (s : State) (l : Nat) (r : Launch) : List Word :=
  ((s.runtime.find? fun e => e.launch == l && e.arm == r.arm).map RuntimeLaunch.vault).getD []

/-- The runtime loads its launch's image into a room (R10): at vault offset 0, each word valid, clean and empty. Every word of it is
loaded, also past the scratchpad of core 0: DESIGN CHOICE (log entry 115). -/
def loadImage (words : List Word) (room : Nat) (s : State) : State :=
  match physicalRoom s room with
  | none => s
  | some pr => words.zipIdx.foldl (fun s (w, i) => putVault s pr (4 * i) ⟨w, true, false, false, none, false⟩) s

/-- Places the seed tasks of a launch on a core (R238). Their first instruction is the acquire of the launch's arming (R259). -/
def seedCore (l : Nat) (r : Launch) (s : State) (c : Nat) : State :=
  let ks := match slotsFor s r c with
    | some (ks, _) => ks
    | none => []
  let s := acquired s c
  let s := onCore s c fun q => { q with stages := tput q.stages l (startStage r c) }
  let s := onSlot s c 3 fun v => { v with ctx := l / 1024 }
  let s := ks.foldl (fun s k =>
    let s := onCore s c fun q => { q with banks := tdel q.banks k.val }
    putSlot s c k (seedTask l r (slotAt s c k))) s
  if recSS r then onCore s c fun q => { q with banks := ks.foldl (fun b k => tput b k.val (q.slots.get k)) q.banks }
  else s

/-- Couples the seeds of a launch with PR = 1 (R360). -/
def coupleSeeds (l : Nat) (s : State) (c : Nat) : State :=
  match taskSlots.find? fun k => launchOf (slotAt s c k) == some l && launchOf (slotAt s (c + 1) k) == some l with
  | some k =>
    if c % 2 = 0 ∧ (coreAt s c).pair.isNone ∧ (coreAt s (c + 1)).pair.isNone then couple s c k else s
  | none => s

/-- Task slots that a launch's record counts. -/
def owedOf (r : Launch) : Nat := recRooms r * ((List.range 16).map (recSlots r)).sum

/-- The slot file of a context in a room is of kind none at launch start (R195); the roots are released (R196). -/
def clearFile (s : State) (ctx room : Nat) : State :=
  let mine := (roomAt s room).tensors.filter fun e => e.1 / 64 == ctx
  let s := mine.foldl (fun s e => if treeRoot e.2.desc = 0 then s else dropName ctx s (treeRoot e.2.desc)) s
  onRoom s room fun q => { q with tensors := q.tensors.filter fun e => e.1 / 64 != ctx }

/-- The accumulation lines of a room whose partials lie in the vault cache of a core's slice go to their homes (R137, R145; log
entry 105). -/
def surrenderSlice (s : State) (c : Nat) : State :=
  ((roomAt s (roomOf c)).acc.filter fun a => a.line % 16 == c % 16).foldl (fun s a => surrenderFrom s (roomOf c) a) s

/-- The launch starts in a room (R238); one of recoverable supersteps takes its cellar from the vault cache (R363). -/
def startIn (l : Nat) (r : Launch) (room : Nat) (s : State) : State :=
  let first := r.rooms.isEmpty
  let s := clearFile s (l / 1024) room
  let s := onLaunch s l fun r =>
    let r := configureBarriers { r with rooms := ascending (room :: r.rooms), owed := owedOf r } room
    let r := if first then { r with startTime := s.time } else r
    if !recSS r then r
    else
      let r := if r.mode = 0 then { r with seq := 1, mode := 1 } else r
      let old := r.barriers.filter fun (k, _) => (tfind r.ckBarriers k).isNone
      { r with
        ckBarriers := old.foldl (fun t (k, b) => tput t k b) r.ckBarriers
        ckTensors := tput r.ckTensors room ((roomAt s room).tensors.filter fun e => e.1 / 64 == l / 1024) }
  let s := onRoom s room fun q => { q with nextId := tput q.nextId l 1 }
  let s := (coresOf room).foldl (fun s c => takeCore s (l / 1024) c) s
  let s := if recSS r then (coresOf room).foldl surrenderSlice s else s
  let s := loadImage (runtimeWords s l r) room s
  let s := (coresOf room).foldl (seedCore l r) s
  let s := if recPR r then (coresOf room).foldl (coupleSeeds l) s else s
  post (repostStarts s) ((coresOf room).map fun c => .prefetcherFill c)

/-- The cores of a room whose partition is not the one a launch asks for. -/
def wrongPartition (s : State) (r : Launch) (room : Nat) : List Nat :=
  (coresOf room).filter fun c => (coreAt s c).partition != recScratch r

/-- LAUNCH_START (R237, R238): an armed launch starts in a room of its set once every condition holds. -/
def launchStartAct (ctx record room : Nat) : M Unit := do
  let s ← get
  let l := launchKey ctx record
  match launchAt s l with
  | none => pure ()
  | some r =>
    if !(launchRooms r).contains room || r.rooms.contains room || departing s ctx ||
      (physicalRoom s room).isNone || outranked s l r room ||
      (coresOf room).any (fun c => !ownerAllows s ctx c || (slotsFor s r c).isNone)
    then pure ()
    else match wrongPartition s r room with
      | c :: t => set (post s ((c :: t).map fun d => .partitionMove d (recScratch r)))
      | [] => do
        let ok ← attempt (do
          if ← preemptRoom r (coresOf room) then pure () else throw (.retry []))
        match ok with
        | .ok _ => modify fun s => startIn l r room s
        | .error (.retry []) => pure ()
        | .error e => throw e

/-! ### The partition (R137) -/

/-- The launches that hold a core's partition: those running in its room. -/
def largerRequest (s : State) (c kib : Nat) : Bool :=
  (launchesIn s (roomOf c)).any fun (_, r) => decide (kib < recScratch r)

/-- Whether the room is one where a launch that asks for a partition waits to start. -/
def partitionWanted (s : State) (c kib : Nat) : Bool :=
  s.launches.any fun (_, r) => (launchRooms r).contains (roomOf c) && !r.rooms.contains (roomOf c) && recScratch r == kib

/-- The mappings of a core that a smaller partition surrenders. -/
def surrendered (q : Core) (c kib : Nat) : List Mapping :=
  q.mappings.filter fun m => decide (c % 16 * 2 ^ 19 + 1024 * kib < m.off + m.len)

/-- A partition move's words: cleared as they become scratchpad, of no further use as they become cache. -/
def movePartition (s : State) (c kib : Nat) : State :=
  let old := (coreAt s c).partition
  let s := if old < kib then surrenderSlice s c else s
  let s := if old < kib then zeroSlice s c (1024 * old) (1024 * kib) else zeroSlice s c (1024 * kib) (1024 * old)
  onCore s c fun q => { q with
    partition := kib, mappings := q.mappings.filter (fun m => !(surrendered q c kib).contains m) }

/-- A word of a mapping that is taken apart, its dirty value written back (R164): an invalid one becomes 0; F stays. -/
def unmapWord (v : VaultWord) : VaultWord :=
  let v := readChecked v
  if v.v then { v with d := false } else ⟨0, true, false, v.f, none, false⟩

/-- The words of a mapping that is taken apart. -/
def unmapWords (room : Nat) (s : State) (m : Mapping) : State :=
  match physicalRoom s room with
  | none => s
  | some pr => (offsets m.off m.len).foldl (fun s o =>
      let (v, s) := checkedAt s room pr o
      putVault s pr o (unmapWord v)) s

/-- PARTITION_MOVE (R137). -/
def partitionMoveAct (c kib : Nat) : M Unit := do
  let s ← get
  if !partitionWanted s c kib || (coreAt s c).partition == kib || 480 < kib || kib % 16 != 0 ||
    (decide (kib < (coreAt s c).partition) && largerRequest s c kib)
  then pure ()
  else do
    let ms := surrendered (coreAt s c) c kib
    backOrDiscard c 3 (ms.flatMap (dirtyWords s (roomOf c)))
    modify fun s => repostStarts (movePartition (ms.foldl (unmapWords (roomOf c)) s) c kib)

/-! ### Stages (R243) -/

/-- The demand of a stage in a hall, as entries and capacity: 0 where its successor's queue is full. -/
def demandOf (s : State) (hall l : Nat) (r : Launch) (st : Nat) : Nat × Nat :=
  let q := queueAt s hall l st
  let blocked := match stageSucc r st with
    | some t => queueFull s hall l r t
    | none => false
  (if blocked then 0 else q.count + q.reserved, stageCap r st)

/-- Whether one fraction is less than another. -/
def fracLess (a b : Nat × Nat) : Bool := decide (a.1 * b.2 < b.1 * a.2)

/-- The stage whose demand is extreme; the lowest number wins a tie. -/
def extreme (better : Nat × Nat → Nat × Nat → Bool) : List (Nat × (Nat × Nat)) → Option (Nat × (Nat × Nat))
  | [] => none
  | e :: t => match extreme better t with
    | none => some e
    | some f => if better f.2 e.2 then some f else some e

/-- The lobby of a hall rebalances one launch (R243). -/
def rebalance (hall l : Nat) (r : Launch) (s : State) : State :=
  let ds := (declaredStages r).map fun st => (st, demandOf s hall l r st)
  match extreme (fun a b => fracLess b a) ds, extreme fracLess ds with
  | some (hi, dhi), some (lo, dlo) =>
    let far := decide (dhi.2 * dlo.2 < 4 * (dhi.1 * dlo.2 - dlo.1 * dhi.2))
    let cores := servingCores s hall l lo
    let keep := cores.length == 1 && decide (0 < (queueAt s hall l lo).count + (queueAt s hall l lo).reserved)
    match cores.getLast? with
    | some c => if far && !keep then
        post (onCore s c fun q => { q with stages := tput q.stages l hi }) [.prefetcherFill c] else s
    | none => s
  | _, _ => s

/-- LOBBY_REBALANCE (R243). -/
def lobbyRebalanceAct (hall : Nat) : M Unit := modify fun s =>
  s.launches.foldl (fun s (l, r) => if (launchHalls r).contains hall then rebalance hall l r s else s) s

/-! ### Migration (R249, R250) -/

/-- Bytes of a task's live state (R249). -/
def liveBytes (v : Slot) : Nat :=
  31 * 8 + 7 * 4 + 32 * ((List.range 32).filter fun i => v.wWritten.getLsbD i).length + 24 * v.loops.length

/-- Whether a task may move to a hall (R249). -/
def mayMigrate (s : State) (c : Nat) (k : Fin 4) (h : Nat) : Bool :=
  let v := slotAt s c k
  match (launchOf v).bind fun l => (launchAt s l).map fun r => (l, r) with
  | none => false
  | some (_, r) =>
    h != hallOf c && (launchHalls r).contains h && decide (liveBytes v ≤ 1024) &&
      v.s.toList.all (fun q => !q.configured) && (coreAt s c).mappings.isEmpty && v.latch.isNone &&
      ((coreAt s c).watches.all fun w => w.slot != k) && ((coreAt s c).chain.isNone || k != 0) &&
      (pairOf s c k).isNone && !(r.mode == 1)

/-- A task moves to a hall (R250, R262): it goes on there at `pc`. -/
def migrateTask (c : Nat) (k : Fin 4) (h : Nat) : M Unit := do
  fenceSave c k false
  let v := slotAt (← get) c k
  storeHeld (hallOf c) v v.held
  modify fun s =>
    let s := dropRequests (withdrawArrival s c k) c k
    let t := { savedImage (slotAt s c k) with held := [], remoteCount := 0, remoteHall := 0, remoteOff := false }
    let s := onHall s h fun q => { q with migrants := q.migrants ++ [⟨t, none, none, none, c, none, none, false⟩] }
    let s := vacate s c k
    post s (((s.cores.filter fun (d, _) => hallOf d == h && !isThreshold d)).map fun (d, _) => .prefetcherFill d)

/-- TASK_MIGRATION (R249, R250): at an instruction boundary of a task whose count has reached the threshold. One that fails a
condition counts no more until the next window. -/
def taskMigrationAct (c : Nat) (k : Fin 4) (h : Nat) : M Unit := do
  let s ← get
  let v := slotAt s c k
  if v.live && migratable s v && ctxMthr s v.ctx != 0 && v.remoteHall == h && decide (ctxMthr s v.ctx ≤ v.remoteCount) then
    (if mayMigrate s c k h then migrateTask c k h else set (onSlot s c k fun v => { v with remoteOff := true }))
  else pure ()

/-- MIGRATION_WINDOW (R249). -/
def migrationWindowAct (c : Nat) (k : Fin 4) : M Unit := modify fun s =>
  onSlot s c k fun v => { v with remoteHall := 0, remoteCount := 0, remoteOff := false }

/-- FAULT_SAVE_DEFERRED (R252): a parked faulting task is saved once a frame of its context is free; one whose page was dropped
stays (R302). -/
def faultSaveDeferredAct (c : Nat) (k : Fin 4) : M Unit := do
  let v := slotAt (← get) c k
  match v.wait with
  | some (.page (some i)) => if v.live && decide (k ≠ 3) then do
      let _ ← saveSlot c k (some (.page (some i))) false
  | _ => pure ()

/-! ### The chimney (R125, R126, R267) -/

/-- Two reports combined (R125). -/
def Report.merge (a b : Report) : Report :=
  ⟨max a.code b.code, a.flags ||| b.flags, (a.value + b.value) % 2 ^ 40, a.dones + b.dones⟩

/-- How many reports a node of a launch's tree waits for. -/
def childrenOf (r : Launch) (tier : Tier) (unit : Nat) : Nat :=
  let rooms := launchRooms r
  match tier with
  | .core => recSlots r (unit % 16)
  | .room => ((List.range 16).filter fun i => recSlots r i != 0).length
  | .hall => (rooms.filter fun q => q / 16 == unit).length
  | .wing => (ascending ((rooms.filter fun q => q / 256 == unit).map fun q => q / 16)).length
  | .house => (ascending (rooms.map fun q => q / 256)).length
  | _ => 0

/-- The parent of a node. -/
def parentOf (tier : Tier) (unit : Nat) : Tier × Nat :=
  match tier with
  | .core => (.room, unit / 16)
  | .room => (.hall, unit / 16)
  | .hall => (.wing, unit / 16)
  | _ => (.house, 0)

/-- The combined report of a node: its children in ascending index. -/
def combinedReport (l : List (Nat × Report)) : Report :=
  (l.foldr insertTicket []).foldl (fun a (_, b) => Report.merge a b) ⟨0, 0, 0, 0⟩

/-- The status word of a report (Table 7.7). -/
def statusWord (a : Report) : Nat := a.code % 256 * 2 ^ 56 + a.flags % 2 ^ 16 * 2 ^ 40 + a.value % 2 ^ 40

/-- Entries left in the queues of a launch. -/
def queuedOf (s : State) (l : Nat) (r : Launch) : Nat :=
  ((launchHalls r).map fun h => ((declaredStages r).map fun st => (queueAt s h l st).count).sum).sum

/-- The launch completion record (Table 7.8). -/
def completionRecord (s : State) (l : Nat) (r : Launch) (a : Report) : List Byte :=
  let left := queuedOf s l r
  dwords [BitVec.ofNat 64 (r.arm.toNat * 2 ^ 32 + l % 1024), BitVec.ofNat 64 (statusWord a),
    BitVec.ofNat 64 (a.dones * 2 ^ 32 + r.owed),
    BitVec.ofNat 64 (left * 2 ^ 32 + r.lost.toNat * 4 + (decide (0 < left)).toNat * 2 + 1),
    BitVec.ofNat 64 r.startTime, BitVec.ofNat 64 s.time, 0, 0]

/-- A room's accumulation area without the open contributions of a launch. -/
def withoutOpen (l : Nat) (q : Room) : Room :=
  { q with acc := (q.acc.map fun a => { a with open_ := a.open_.filter fun e => e.1 != l }).filter fun a =>
      !(a.open_.isEmpty && a.parts.isEmpty) }

/-- A room after a launch has gone: without its cellar, its ids, its hold and its open contributions. -/
def roomWithout (l : Nat) (q : Room) : Room :=
  { withoutOpen l q with
    log := q.log.filter (fun e => e.launch != l), nextId := tdel q.nextId l
    hold := q.hold.filter (fun h => h.launch != l)
    left := q.left.filter (fun e => e.launch != l) }

/-- A hall after a launch has gone. -/
def hallWithout (l : Nat) (h : Hall) : Hall :=
  { h with queues := h.queues.filter (fun e => e.1 / 8 != l), landing := h.landing.filter (fun e => e.launch != l)
           doneNodes := h.doneNodes.filter (fun e => e.1 != l)
           journal := h.journal.filter (fun e => e.launch != l)
           migrants := h.migrants.filter (fun t => launchOf t.task != some l) }

/-- A core after a launch has gone. -/
def coreWithout (l : Nat) (q : Core) : Core :=
  { q with stages := tdel q.stages l, shadows := q.shadows.filter (fun h => launchOf h.task != some l)
           slots := q.slots.map fun v => if launchOf v = some l ∧ !v.live then freed v else v }

/-- The record is idle again (R126, Table 14.5), and no image is left for a later launch of it (R10). -/
def retireLaunch (s : State) (l : Nat) : State :=
  let s := { s with
    launches := tdel s.launches l
    rooms := s.rooms.map (fun (r, q) => (r, roomWithout l q))
    halls := s.halls.map (fun (h, q) => (h, hallWithout l q))
    cores := s.cores.map (fun (c, q) => (c, coreWithout l q))
    runtime := s.runtime.filter fun e => !(e.launch == l && (tfind s.launches l).any fun r => e.arm == r.arm)
    wsigSeen := s.wsigSeen.filter (fun e => e.getD 3 0 != l) }
  let s := onContext s (l / 1024) fun x => { x with saved := x.saved.filter fun t => launchOf t.task != some l }
  post (repostStarts s) (awaitingFrames s (l / 1024))

/-- The foundation completes a launch (R126): the record, word 3 last, then the event, and the record is idle. -/
def completeLaunch (l : Nat) (r : Launch) (a : Report) : M Unit := do
  let s ← get
  let bs := completionRecord s l r a
  let addr := recWord r 8
  let hall := foundationHall s (l / 1024)
  if addr = 0 then pure ()
  else do
    engineWrite hall (l / 1024) addr (bs.take 24 ++ List.replicate 8 0 ++ bs.drop 32)
    engineWrite hall (l / 1024) (addr + 24) ((bs.drop 24).take 8)
  modify fun s => retireLaunch (postEvent s 13 (l / 1024) (l % 1024) addr (BitVec.ofNat 64 (statusWord a))) l

/-- CHIMNEY_MESSAGE (R125, R126): a node whose children have all reported forwards one message; at the foundation the
launch completes. -/
def chimneyMessageAct (ctx record : Nat) (tier : Tier) (unit : Nat) : M Unit := do
  let s ← get
  let l := launchKey ctx record
  match launchAt s l with
  | none => pure ()
  | some r =>
    let key := 2 ^ 20 * tier.code + unit
    let kids := tget [] r.chimney key
    if kids.length < childrenOf r tier unit ∨ kids = [] ∨ r.sent.contains key then pure ()
    else if tier = .house then completeLaunch l r (combinedReport kids)
    else
      let (t, u) := parentOf tier unit
      set (chimneyAdd (onLaunch s l fun r => { r with sent := key :: r.sent }) l t u unit (combinedReport kids))

/-- The status word of DONE as a report (Table 7.7). -/
def reportOf (x : XWord) : Report := ⟨x.toNat / 2 ^ 56, x.toNat / 2 ^ 40 % 2 ^ 16, x.toNat % 2 ^ 40, 1⟩

/-- Whether a launch is quiescent (R267). -/
def quiescent (s : State) (l : Nat) (r : Launch) : Bool :=
  (launchRooms r).all (fun q => r.rooms.contains q) &&
  (s.cores.all fun (_, q) => taskSlots.all (fun k => !(launchOf (q.slots.get k) == some l && (q.slots.get k).live)) &&
    q.shadows.all fun h => launchOf h.task != some l) &&
  ((launchHalls r).all fun h => ((declaredStages r).all fun st =>
    (queueAt s h l st).count == 0 && (queueAt s h l st).reserved == 0) &&
    (hallAt s h).landing.all (fun e => e.launch != l) && (hallAt s h).doneNodes.all (fun e => e.1 != l) && (hallAt s h).migrants.all (fun t => launchOf t.task != some l)) &&
  (contextAt s (l / 1024)).saved.all (fun t => launchOf t.task != some l)

/-- DONEs of status 0 for every slot of a core that the launch still counts. -/
def supplyDones (l : Nat) (r : Launch) (s : State) (c : Nat) : State :=
  let given := (tget [] r.chimney (2 ^ 20 * Tier.core.code + c)).length
  (List.range (recSlots r (c % 16) - given)).foldl (fun s _ => chimneyAdd s l .core c c ⟨0, 0, 0, 1⟩) s

/-- LAUNCH_QUIESCENT (R267). -/
def launchQuiescentAct (ctx record : Nat) : M Unit := modify fun s =>
  let l := launchKey ctx record
  match launchAt s l with
  | none => s
  | some r =>
    if quiescent s l r then ((launchRooms r).flatMap coresOf).foldl (supplyDones l r) s else s

/-! ### Ending a task (R262, R263, R266) -/

/-- A slot leaves its launch (R266). -/
def leaveLaunch (s : State) (c : Nat) (k : Fin 4) (l : Nat) (rep : Report) : State :=
  let v := slotAt s c k
  let s := onCore (putSlot s c k (freed v)) c fun q =>
    dropWatches { q with banks := tdel q.banks k.val } k
  let s := onLaunch s l fun r => { r with leftSlots := r.leftSlots ++ [(c, k.val)] }
  post (repostStarts (chimneyAdd s l .core c c rep)) (afterLeaving c k v)

/-- A shadow task's entry goes back to the front of its queue, with the decode state before it (R266). -/
def returnShadow (c l : Nat) (r : Launch) (h : Shadow) : M Unit := do
  let hall := hallOf c
  match h.fromQueue with
  | none => modify fun s => onHall s hall fun q => { q with migrants := ⟨h.task, h.check, h.chain, h.chainCheck, c, none, none, false⟩ :: q.migrants }
  | some (decode, words) => do
    let s ← get
    let st := h.task.stage
    let q := queueAt s hall l st
    if stageCap r st ≤ q.count + q.reserved then
      modify fun s => onHall s hall fun q => { q with migrants := ⟨h.task, h.check, h.chain, h.chainCheck, c, none, none, false⟩ :: q.migrants }
    else do
      let head := (q.head + stageCap r st - 1) % stageCap r st
      engineWrite hall (l / 1024) (entryAddress r hall st head) (words.flatMap fun w => bytesOfNat 4 w.toNat)
      modify fun s => post (onQueue s hall l st fun q => { q with head := head, count := q.count + 1, decode := decode })
        ((servingCores s hall l st).map fun d => .prefetcherFill d)

/-- The shadow tasks of a launch return to the front of their queues, the last first, once no slot of the core is left to
take them (R266). -/
def returnShadows (c l : Nat) (r : Launch) : M Unit := do
  let s ← get
  if taskSlots.any fun k => launchOf (slotAt s c k) == some l then pure ()
  else do
    let hs := (coreAt s c).shadows.filter fun h => launchOf h.task == some l
    hs.reverse.forM (returnShadow c l r)
    modify fun s => onCore s c fun q => { q with shadows := q.shadows.filter fun h => launchOf h.task != some l }

/-- What the end of a task does first (R263): its streams are ended, its latch is empty, its transfers are written, and the fence at
its scope is an acquire. -/
def beginEnd (scope : Tier) : M Unit := do
  (List.finRange 4).forM endStream
  ensure (← me).latch.isNone (throw (.later []))
  let s ← get
  awaitTransfers s.cur.1 s.cur.2
  acquire scope

/-- The end of a task (R263), after the commit of an open superstep: its held entries are stored; the slot stays in the launch. -/
def endTask : M Flow := do
  let s ← get
  let (c, k) := s.cur
  beginEnd .hall
  let v ← me
  storeHeld (hallOf c) v v.held
  modify fun s =>
    match followerOf s c k with
    | some d => vacate (vacate (uncouple s c) d k) c k
    | none => vacate (if isSecond s c k then uncouple s (c - 1) else s) c k
  return .gone

/-- The end of a task that leaves its launch with a status (R266); a pair counts for both slots (R394). -/
def endLaunch (status : XWord) : M Flow := do
  let s ← get
  let (c, k) := s.cur
  beginEnd .house
  let v ← me
  storeHeld (hallOf c) v v.held
  match launchOf v with
  | none => do
    modify fun s => vacate s c k
    return .gone
  | some l => do
    modify fun s =>
      match followerOf s c k with
      | some d => leaveLaunch (leaveLaunch (uncouple s c) d k l ⟨0, 0, 0, 1⟩) c k l (reportOf status)
      | none => leaveLaunch (if isSecond s c k then uncouple s (c - 1) else s) c k l (reportOf status)
    match launchAt (← get) l with
    | none => pure ()
    | some r => do
      returnShadows c l r
      match followerOf s c k with
      | some d => returnShadows d l r
      | none => pure ()
    return .gone

end Sys2Proof.Machine
end

