-- ==== Sys2Proof/Machine/Insn.lean ====
section
/-! DEFINITION. How an instruction and a step of another agent run (R24, R26, R28, R29, R46, R113, R360, R412): the
acceptance, the body, retirement, and what becomes of a stop. -/

namespace Sys2Proof.Machine

open Sys2Proof

/-- A slot parks (R113): its wait, the ticket of its registration, its word watch. -/
def parkSlot (s : State) (c : Nat) (k : Fin 4) (w : Wait) : State :=
  let s := { onSlot s c k (fun v => { v with wait := some w, ticket := s.serial }) with serial := s.serial + 1 }
  match w with
  | .word r off op => onCore s c fun q => { q with watches := q.watches ++ [⟨k, r, off, wordMet true op⟩] }
  | _ => s

/-- The issuing slot parks at its instruction, with its pair's other half; a chain's leader that waits has issued. -/
def parkAt (i : Instr) (s : State) (w : Wait) : State :=
  let (c, k) := s.cur
  let v := slotAt s c k
  let s := if w.inPlace then forwardWaiting s i v.pc (nextPc v .seq).1 (nextPc v .seq).2 else s
  match followerOf s c k with
  | some d => parkSlot (parkSlot s c k w) d k w
  | none => parkSlot s c k w

/-- A slot that traps leaves its chain (R24): a leader ends it, a follower parts from it. -/
def partChain (s : State) (c : Nat) (k : Fin 4) : State :=
  if k ≠ 0 then s
  else match (coreAt s c).chain with
    | none => s
    | some r =>
      if r.pos = 0 then dissolve s c (restartPc (slotAt s c k)) (slotAt s c k).loops else unchain s c

/-- A core that a double fault has just stopped fires the shutter (R29, R371). -/
def shutterOn (was now : State) (c : Nat) : State :=
  if (coreAt now c).halted && !(coreAt was c).halted then fireShutter now 2 else now

/-- Trap entry of the issuing slot, and of the other half of its pair (R25, R28). -/
def enterTrap (s : State) (c : Nat) (k : Fin 4) (pc : XWord) (cause : Nat) (addr : XWord) (sub info : Nat) : State :=
  let t := partChain s c k
  let t := takeTrap t c k pc cause addr sub info
  let t := match followerOf s c k with
    | some d => takeTrap t d k pc cause addr sub info
    | none => t
  shutterOn s t c

/-- A trap of the issuing slot after its instruction (R26): in a pair it is taken once a compare has agreed (R25). -/
def trapAgreed (s : State) (c : Nat) (k : Fin 4) (pc : XWord) (cause : Nat) (addr : XWord) (info : Nat) : State :=
  match pairOf s (leadCore s c k) k with
  | some p =>
    if p.clear then enterTrap s c k pc cause addr 0 info
    else postFirst (onHalves s (leadCore s c k) fun _ p => { p with due := some (pc, cause, addr, info) }) [.pairCompare (leadCore s c k)]
  | none => enterTrap s c k pc cause addr 0 info

/-- The remote-access counters of a core's slots (R249). -/
def remotesOf (q : Core) : List (Nat × Nat) := q.slots.toList.map fun v => (v.remoteHall, v.remoteCount)

/-- A slot with the remote-access counter of another state of it. -/
def withRemote (v w : Slot) : Slot := { v with remoteHall := w.remoteHall, remoteCount := w.remoteCount }

/-- A core's share of what a trapping instruction leaves: its translations, the homes found for its mapped lines, and its counts of
remote accesses. -/
def keptCore (s u : State) (t : Table Core) (c : Nat) : Table Core :=
  let p := coreAt s c
  let q := coreAt u c
  if q.tlb = p.tlb ∧ q.mappings = p.mappings ∧ remotesOf q = remotesOf p then t
  else tput t c { p with tlb := q.tlb, mappings := q.mappings, slots := Vector.zipWith withRemote p.slots q.slots }

/-- A room's share: its accumulation area, what its cellar logged of fills, its count of corrected words. -/
def keptRoom (s u : State) (t : Table Room) (r : Nat) : Table Room :=
  let q := roomAt u r
  if q.acc = (roomAt s r).acc ∧ q.log = (roomAt s r).log ∧ q.corrected = (roomAt s r).corrected then t
  else tput t r { roomAt s r with acc := q.acc, log := q.log, corrected := q.corrected }

/-- A hall's share: its translations, its count of corrected words. -/
def keptHall (s u : State) (t : Table Hall) (h : Nat) : Table Hall :=
  let q := hallAt u h
  if q.tlb = (hallAt s h).tlb ∧ q.corrected = (hallAt s h).corrected then t
  else tput t h { hallAt s h with tlb := q.tlb, corrected := q.corrected }

/-- Whether a turn is one that an access makes due: it applies a remote write, or migrates a task. -/
def ofAccess : Turn → Bool
  | .event (.remoteWriteApply _) | .event (.taskMigration _ _ _) => true
  | _ => false

/-- What an instruction that traps leaves of the state `u` it had reached from `s`: it has taken no effect of its own (R26), and
what the memory hierarchy has done for it, fills, recalls, translations and counts of accesses, is not undone (R8). -/
def left (s u : State) : State := { s with
  mem := u.mem, poison := u.poison, lostLines := u.lostLines, vault := u.vault, spares := u.spares, homeParts := u.homeParts, vclocks := u.vclocks, remotes := u.remotes
  agenda := s.agenda ++ (u.agenda.drop s.agenda.length).filter ofAccess
  cores := (u.cores.map Prod.fst).foldl (keptCore s u) s.cores
  rooms := (u.rooms.map Prod.fst).foldl (keptRoom s u) s.rooms
  halls := (u.halls.map Prod.fst).foldl (keptHall s u) s.halls }

/-- The wait of an operation that has stopped at a page: the steps that fall due name the page it has missed. -/
def pageWait (hall : Nat) (due : List Due) : PageWait :=
  ⟨hall, due.findSome? fun d => match d with
    | .translationMiss _ m => some m
    | _ => none⟩

/-- Whether an access waits in a hall's translation unit. -/
def waitsInUnit (s : State) (hall : Nat) (m : MissReq) : Bool :=
  let h := hallAt s hall
  h.overflow.contains m || h.dropped.contains m || h.pending.any (fun (_, e) => e.waiters.contains m) ||
    h.buffer.any fun (_, e) => e.waiters.contains m

/-- The steps that fall due of those that an operation names: an access that waits already is not made anew (R302). -/
def newDue (s : State) (due : List Due) : List Due := due.filter fun d => match d with
  | .translationMiss hall m => !waitsInUnit s hall m
  | _ => true

/-- A rollback is refused at the third consumption of poison in a superstep: it becomes non-recoverable, and what is held is
performed (R366, R367). -/
def refusedRollback (s : State) : State :=
  match gangOf s (slotAt s s.cur.1 s.cur.2) with
  | none => s
  | some (l, _) => match makeNonRecoverable l s with
    | .ok _ t => t
    | .error _ _ => onLaunch s l fun r => { r with mode := 2 }

/-- What becomes of a stop of the issuing slot's instruction, which had reached `u`: the instruction has taken no effect, and its
lookups stay (R297). -/
def stopped (i : Instr) (s u : State) : Stop → Host.Outcome State Fault Refusal
  | .trap cause addr sub info =>
    let s := if cause = 0x0E ∧ info = 4 then refusedRollback (left s u) else left s u
    match pairOf s (leadCore s s.cur.1 s.cur.2) s.cur.2 with
    | some p =>
      if p.clear then .next (enterTrap s s.cur.1 s.cur.2 (restartPc (slotAt s s.cur.1 s.cur.2)) cause addr sub info)
      else .next (postFirst s [.pairCompare (leadCore s s.cur.1 s.cur.2)])
    | none => .next (enterTrap s s.cur.1 s.cur.2 (restartPc (slotAt s s.cur.1 s.cur.2)) cause addr sub info)
  | .park w due => .next (post (parkAt i (lookups s u) w) due)
  | .retry first => .next (postFirst (lookups s u) first)
  | .later due => .next (post (lookups s u) due)
  | .engine hall report due =>
    let s := lookups s u
    let s := match report with
      | some (ctx, addr, cause) => postEvent s 15 ctx hall addr (BitVec.ofNat 64 cause)
      | none => s
    .next (post (parkAt i s (.engine (pageWait hall due))) (newDue s due))
  | .fault f => .fault f

/-- What becomes of an instruction that has taken effect: a chain's followers get it, a trap after it is taken, a wait
begins. -/
def ended (i : Instr) (s t : State) (flow : Flow) : State :=
  let (c, k) := s.cur
  let v := slotAt s c k
  let w := slotAt t c k
  let t := if w.retired != v.retired && (forwarded s c k).isNone && !hasSent s c k then forward t i v.pc w.pc w.loops else t
  match flow with
  | .after cause addr info => trapAgreed t c k w.pc cause addr info
  | .wait q => parkAt i t q
  | .trapped cause addr sub info => enterTrap t c k (restartPc w) cause addr sub info
  | _ => t

/-- Runs an instruction of the issuing slot (R46, R26): the checks, the body, retirement. -/
def insn (i : Instr) (s : State) (body : M Flow) : Host.Outcome State Fault Refusal :=
  let act : M Flow := do
    accept i
    let flow ← body
    finish flow
    return flow
  let run : M Flow := do
    let flow ← mirrored act
    settle
    return flow
  match run s with
  | .ok flow t => .next (ended i s t flow)
  | .error e u => stopped i s u e

/-- A hint joins the pending ones and goes nowhere else (R15, R86). -/
def hint (i : Instr) (s : State) : Host.Outcome State Fault Refusal :=
  let act : M Flow := do
    accept i
    let f ← followed
    addHint i
    match f with
    | some f => do
      onMe fun v => followLeader v f
      modify fun s => popForward s s.cur.1
    | none => pure ()
    return .gone
  match mirrored act s with
  | .ok flow t => .next (ended i s t flow)
  | .error e u => stopped i s u e

/-- An operation waits for a page of a hall (R302, R412), and steps fall due. -/
def blockOn (s : State) (hall : Nat) (due : List Due) (d : Due) : State :=
  let e : Blocked := ⟨pageWait hall due, d⟩
  post (if s.blocked.contains e then s else { s with blocked := s.blocked ++ [e] }) (newDue s due)

/-- A step that needs others first comes again after them, or waits with one of them that waits for a page. -/
def afterFirst (s : State) (first : List Due) (d : Due) : State :=
  match s.blocked.find? fun e => first.contains e.due with
  | some e => { s with blocked := s.blocked ++ [{ e with due := d }] }
  | none => postFirst s (first ++ [d])

/-- A step of another agent that could not be taken comes again after those it needs first, or when what it waits for is there
(R412). -/
def comeAgain (s : State) (d : Due) : Stop → State
  | .retry first => afterFirst s first d
  | .engine hall report due =>
    let s := match report with
      | some (ctx, addr, cause) => postEvent s 15 ctx hall addr (BitVec.ofNat 64 cause)
      | none => s
    blockOn s hall due d
  | .later due | .park _ due => post s (due ++ [d])
  | .trap _ _ _ _ | .fault _ => s

/-- Runs a step of another agent. A step that needs others first comes again after them; one that waits for a page comes
again when its hall's translations change (R412). -/
def event (d : Due) (s : State) (act : M Unit) : Host.Outcome State Fault Refusal :=
  let run : M Unit := do
    act
    settle
  match run s with
  | .ok _ t => .next t
  | .error (.fault f) _ => .fault f
  | .error e u => .next (comeAgain (lookups s u) d e)

/-- The operations of engines whose wait is over are tried again, and slots that wait for an engine's page issue again (R412). -/
def unblock (s : State) (ready : PageWait → Bool) : State :=
  let again := (s.blocked.filter fun e => ready e.on).map Blocked.due
  let s := { s with blocked := s.blocked.filter (fun e => !ready e.on) }
  let s := s.cores.foldl (fun s (c, q) => (List.finRange 4).foldl (fun s k =>
    match (q.slots.get k).wait with
    | some (.engine w) => if ready w then wake s c k else s
    | _ => s) s) s
  post s again

/-- Whether a wait is over once one of some accesses that a hall's unit held is released (R299, R303). -/
def PageWait.forMisses (hall : Nat) (ms : List MissReq) (w : PageWait) : Bool := w.hall == hall && w.miss.any ms.contains

/-- Whether a wait is over once the host has sent its hall a message of kind 2 (R412): it has missed no page. -/
def PageWait.forHost (hall : Nat) (w : PageWait) : Bool := w.hall == hall && w.miss.isNone

end Sys2Proof.Machine
end

