-- ==== Sys2Proof/Machine/Operands.lean ====
section
/-! DEFINITION. Operand forms: integers at a width (R69), immediates with a WIDE hint (R40, R74), elements of w registers
(R91), registers bound to streams (R19, R103 to R109). -/

namespace Sys2Proof.Machine

open Sys2Proof

/-! ### Integers (R69) -/

/-- Val(v, ty): the low bits of a register as a number of a type. -/
def valTy (ty : Ty) (v : XWord) : Int := intOf ty (v.toNat % 2 ^ ty.bits)

/-- The raw bits of an operand: the low w bits of its register. -/
def rawTy (ty : Ty) (v : XWord) : Nat := v.toNat % 2 ^ ty.bits

/-- Ext of an exact result: modulo 2^w, then widened. -/
def extInt (ty : Ty) (r : Int) : XWord := extTy ty (wrapInt ty.bits r)

/-! ### Immediates (R40, R74, R158) -/

/-- The immediate of ADDI and SLTI: sign-extended, from bit 37 under WIDE. -/
def immSigned (v : Slot) (imm : BitVec 16) : XWord :=
  match wideOf v with
  | some p => BitVec.ofInt 64 (signedOf 38 (p.toNat * 2 ^ 16 + imm.toNat))
  | none => imm.signExtend 64

/-- The immediate of ANDI, ORI, XORI and SLTNI: zero-extended. -/
def immUnsigned (v : Slot) (imm : BitVec 16) : XWord :=
  match wideOf v with
  | some p => BitVec.ofNat 64 (p.toNat * 2 ^ 16 + imm.toNat)
  | none => imm.setWidth 64

/-- The offset of LD, ST, VLD and VST, before it is scaled: 12 bits signed, or 34 under WIDE. -/
def offSigned (v : Slot) (off : BitVec 12) : XWord :=
  match wideOf v with
  | some p => BitVec.ofInt 64 (signedOf 34 (p.toNat * 2 ^ 12 + off.toNat))
  | none => off.signExtend 64

/-! ### Elements (R18, R91) -/

/-- Elements a w register holds at a type. -/
def elemsIn (ty : Ty) : Nat := 32 / ty.size

/-- The elements of a w register, element 0 first. -/
def elems (ty : Ty) (v : VWide) : List Nat :=
  (List.range (elemsIn ty)).map fun j => v.toNat / 2 ^ (ty.bits * j) % 2 ^ ty.bits

/-- A number whose digits of `w` bits are given, the lowest first. -/
def joinNat (w : Nat) : List Nat → Nat
  | [] => 0
  | a :: t => a % 2 ^ w + 2 ^ w * joinNat w t

/-- A w register of elements. -/
def joinElems (ty : Ty) (l : List Nat) : VWide := BitVec.ofNat 256 (joinNat ty.bits l)

/-- Whether element `j` is active in a predicate (R18). -/
def active (ty : Ty) (p : BitVec 32) (j : Nat) : Bool := p.getLsbD (ty.size * j)

/-- The mask bits of elements that satisfy a test (R93). -/
def maskOf (ty : Ty) (l : List Bool) : BitVec 32 :=
  BitVec.ofNat 32 (joinNat ty.size (l.map fun b => if b then 2 ^ ty.size - 1 else 0))

/-! ### Streams (R103 to R109) -/

/-- Fields of a stream descriptor (Table 6.5). -/
def streamBase (v : Stream) : XWord := BitVec.ofNat 64 v.desc.toNat
def streamStride (v : Stream) : XWord := BitVec.ofInt 64 (signedOf 32 (v.desc.toNat / 2 ^ 96))
def streamWidth (v : Stream) : Nat := 4 * 2 ^ (v.desc.toNat / 2 ^ 128 % 4)
def streamIndirect (v : Stream) : Bool := v.desc.getLsbD 131
def streamIndexWide (v : Stream) : Bool := v.desc.getLsbD 132
def streamIndexBase (v : Stream) : XWord := BitVec.ofNat 64 (v.desc.toNat / 2 ^ 192)
def streamItemStride (v : Stream) : XWord :=
  let is := v.desc.toNat / 2 ^ 192 % 2 ^ 32
  if is = 0 then BitVec.ofNat 64 (streamWidth v) else BitVec.ofInt 64 (signedOf 32 is)

/-- Items in an element. -/
def streamItems (v : Stream) : Nat := 32 / streamWidth v

/-- Runs an access so that a trap names a given address (R109). -/
def atAddress {α : Type} (a : XWord) (act : M α) : M α := fun s =>
  match act s with
  | .error (.trap cause _ sub info) t => .error (.trap cause a sub info) t
  | r => r

/-- Bytes read on the S path. -/
def streamRead (a : XWord) (n : Nat) : M (List Byte) := atAddress a do
  let ps ← locateAll .read .plain (partsOf a n)
  seeParts ps

/-- The address of item `t` (R103); an index entry is read on the way. A fault of the entry reports the entry's own address:
DEDUCED from R109 (log entry 100). -/
def itemAddress (v : Stream) (t : Nat) : M XWord := do
  if streamIndirect v then do
    let z := if streamIndexWide v then 8 else 4
    let bs ← streamRead (streamIndexBase v + BitVec.ofNat 64 (t * z)) z
    return streamBase v + BitVec.ofNat 64 (natOfBytes bs) * streamStride v
  else
    return streamBase v + BitVec.ofNat 64 (t / streamItems v) * streamStride v +
      BitVec.ofNat 64 (t % streamItems v) * streamItemStride v

/-- The items of an element: those below count, the missing ones zero (R106). -/
def fetchItems (v : Stream) : List Nat → M (List Byte)
  | [] => return []
  | t :: rest => do
    let bs ← if t < streamCount v then do
        let a ← itemAddress v t
        streamRead a (streamWidth v)
      else pure (List.replicate (streamWidth v) 0)
    let cs ← fetchItems v rest
    return bs ++ cs

/-- The element of a read stream at a position. -/
def fetchElement (v : Stream) (pos : Nat) : M VWide := do
  let bs ← fetchItems v ((List.range (streamItems v)).map fun i => pos + i)
  return BitVec.ofNat 256 (natOfBytes bs)

/-- A position after `n` items, at most the count. -/
def advance (v : Stream) (n : Nat) : BitVec 32 := BitVec.ofNat 32 (min (streamCount v) (v.pos.toNat + n))

/-- Pops an element of a read stream (R106). The zeros of an exhausted stream count as the last element popped: DESIGN CHOICE
(log entry 99). -/
def popStream (k : Fin 4) : M VWide := do
  let v := (← me).s.get k
  if streamWrites v then trap 0x0B 0 k.val
  else if streamDone v then do
    onStream k fun q => { q with overrun := true, last := some 0 }
    return 0
  else do
    let e ← match v.fetched with
      | e :: _ => pure e
      | [] => fetchElement v v.pos.toNat
    onStream k fun q => { q with pos := advance q (streamItems q), fetched := q.fetched.tail, last := some e }
    return e

/-- The parts of the items of a pushed element with their bytes, each item checked: those beyond the count are not written (R106). -/
def itemParts (v : Stream) (e : Nat) : List Nat → M (List (List (XWord × Place × Nat) × List Byte))
  | [] => return []
  | i :: rest => do
    let t := v.pos.toNat + i
    if t < streamCount v then do
      let a ← itemAddress v t
      let w := streamWidth v
      let ps ← atAddress a (storeParts a w)
      return (ps, bytesOfNat w (e / 2 ^ (8 * w * i))) :: (← itemParts v e rest)
    else itemParts v e rest

/-- A pushed element leaves in item order, once every item has been checked (R26, R91). -/
def pushItems (v : Stream) (e : Nat) (is : List Nat) : M Unit := do
  (← itemParts v e is).forM fun (ps, bs) => sendParts ps bs

/-- Pushes an element to a write stream (R106). A push to an exhausted stream counts as the last element pushed: DESIGN CHOICE
(log entry 99). -/
def pushStream (k : Fin 4) (e : VWide) : M Unit := do
  let v := (← me).s.get k
  if !streamWrites v then trap 0x0B 0 k.val
  else do
    pushItems v e.toNat (List.range (streamItems v))
    onStream k fun q => { q with
      pos := advance q (streamItems q), overrun := q.overrun || streamDone v, last := some e }

/-! ### Reading and writing w registers (R19, R105) -/

/-- Reads w registers in operand order; a bound register named twice is popped once (R19). -/
def readVecs : List Reg → List (Reg × VWide) → M (List VWide)
  | [], _ => return []
  | r :: rest, seen => do
    let v ← me
    let e ← match seen.find? (fun q => q.1 = r), boundTo v r with
      | some (_, e), _ => pure e
      | none, some k => popStream k
      | none, none => rwStored r
    let more ← readVecs rest ((r, e) :: seen)
    return e :: more

/-- Reads one w register. -/
def rw (r : Reg) : M VWide := do
  let l ← readVecs [r] []
  return l.headD 0

/-- Reads two w registers. -/
def rw2 (a b : Reg) : M (VWide × VWide) := do
  let l ← readVecs [a, b] []
  return (l.headD 0, l.getD 1 0)

/-- Writes a w register, or pushes the stream it is bound to. -/
def ww (r : Reg) (e : VWide) : M Unit := do
  match boundTo (← me) r with
  | some k => pushStream k e
  | none => wwStored r e

/-- A register that is read as well as written, or is one of a group, must not be bound (R97, R98, R105). -/
def unbound (r : Reg) : M Unit := do
  match boundTo (← me) r with
  | some k => trap 0x0B 0 k.val
  | none => pure ()

/-- Reads a register that is written as well. -/
def rwOwn (r : Reg) : M VWide := do
  unbound r
  rwStored r

/-- A register `n` above another. -/
def regPlus (r : Reg) (n : Nat) : Reg := Fin.ofNat 32 (r.val + n)

end Sys2Proof.Machine
end

