-- ==== Sys2Proof/Machine/Flags.lean ====
section
/-! DEFINITION. The floating-point flags and the rounding mode (R55 to R58, R101): what an instruction's elements raise, and
the trap 0x08 that an enabled flag takes. -/

namespace Sys2Proof.Machine

open Sys2Proof

/-- The effective mode (R55): a bound RM hint's, or fp.ctl's. -/
def modeNow : M Nat := do
  let v ← me
  return match rmOf v with
    | some (_, m) => m
    | none => v.fpCtl.toNat % 8

/-- Whether the instruction is an intermediate step of a conversion chain (R56). -/
def intermediate : M Bool := do
  return match rmOf (← me) with
    | some (i, _) => i
    | none => false

/-- The flags of all elements together. -/
def orFlags : List (Nat × Nat) → Nat
  | [] => 0
  | (_, f) :: t => f ||| orFlags t

/-- The lowest index among the elements that raised an enabled flag. -/
def lowestRaised (enabled : Nat) : List (Nat × Nat) → Nat
  | [] => 0
  | (j, f) :: t =>
    if f &&& enabled = 0 then lowestRaised enabled t
    else if t.any (fun e => e.2 &&& enabled != 0) then min j (lowestRaised enabled t) else j

/-- Raises flags by element (R58): an enabled one traps 0x08 and leaves fp.flags alone. -/
def raise (fs : List (Nat × Nat)) : M Unit := do
  let v ← me
  let all := orFlags fs
  let enabled := v.fpCtl.toNat / 256 % 32
  if all &&& enabled ≠ 0 then trap 0x08 0 0 (all + 256 * lowestRaised enabled fs)
  else onMe fun v => { v with fpFlags := v.fpFlags ||| BitVec.ofNat 64 all }

/-- Elements' results with their indices. -/
def indexed (rs : List FRes) : List (Nat × Nat) := rs.mapIdx fun j r => (j, r.flags)

/-- Raises the flags of a list of element results. -/
def raiseAll (rs : List FRes) : M Unit := raise (indexed rs)

/-! ### Reductions (R63, R64, R101) -/

/-- A partial result of a tree: its bits and the lowest lane below it. -/
structure Lane where
  bits : Nat
  lane : Nat
  deriving DecidableEq, Repr

/-- One level of the pairwise tree, with the flags of each operation under its lowest lane. -/
def laneLevel (op : Nat → Nat → FRes) : List Lane → List Lane × List (Nat × Nat)
  | a :: b :: t =>
    let r := op a.bits b.bits
    let (ls, fs) := laneLevel op t
    (⟨r.bits, min a.lane b.lane⟩ :: ls, (min a.lane b.lane, r.flags) :: fs)
  | l => (l, [])

/-- The pairwise tree over at most 2^n lanes (R63). -/
def laneTree (op : Nat → Nat → FRes) : Nat → List Lane → Nat × List (Nat × Nat)
  | 0, l => ((l.headD ⟨0, 0⟩).bits, [])
  | n + 1, l =>
    let (ls, fs) := laneLevel op l
    let (r, gs) := laneTree op n ls
    (r, fs ++ gs)

/-- Lanes of a list of bits. -/
def lanesOf (l : List Nat) : List Lane := l.mapIdx fun j b => ⟨b, j⟩

/-- A float reduction of the lanes of a register: the result, and the flags by lane (R101). -/
def reduceTree (op : Nat → Nat → FRes) (l : List Nat) : Nat × List (Nat × Nat) := laneTree op 5 (lanesOf l)

/-- The products of VDOT that raise a flag of their own in the exact b16 form, by lane (R64, R101). -/
def productFlags (f : Fmt) (xs : List (Nat × Nat)) : List (Nat × Nat) :=
  xs.mapIdx fun j (a, b) =>
    let signal := (unpack f a).isSignal || (unpack f b).isSignal
    let nan := (unpack f a).isNan || (unpack f b).isNan
    (j, if signal || (!nan && (mulVals (unpack f a) (unpack f b)).isNone) then flagNV else 0)

end Sys2Proof.Machine
end

