-- ==== Sys2Proof/Machine/Integer.lean ====
section
/-! DEFINITION. The integer, immediate and address instructions (R69 to R78). -/

namespace Sys2Proof.Machine

open Sys2Proof

/-! ### Shared forms -/

/-- xd := Ext(f(a, b) mod 2^w), with a and b read as numbers of the type (R69, R71). -/
def intOp (ty : Ty) (d a b : Reg) (f : Int → Int → Int) : M Flow := do
  let x ← rx a
  let y ← rx b
  wx d (extInt ty (f (valTy ty x) (valTy ty y)))
  return .seq

/-- xd := Ext(f(A, B)), with A and B the raw bits (R69, R71). -/
def rawOp (ty : Ty) (d a b : Reg) (f : Nat → Nat → Nat) : M Flow := do
  let x ← rx a
  let y ← rx b
  wx d (extTy ty (f (rawTy ty x) (rawTy ty y)))
  return .seq

/-- xd := Ext(f(A)) (R71). -/
def rawOp1 (ty : Ty) (d a : Reg) (f : Nat → Nat) : M Flow := do
  let x ← rx a
  wx d (extTy ty (f (rawTy ty x)))
  return .seq

/-- Count of zero bits of the low `n` bits of a number from bit n − 1 down. -/
def leadingZeros (v : Nat) : Nat → Nat
  | 0 => 0
  | n + 1 => if bitAt v n then 0 else 1 + leadingZeros v n

/-- Count of zero bits from bit 0 up, at most `n`. -/
def trailingZeros : Nat → Nat → Nat
  | 0, _ => 0
  | n + 1, v => if v % 2 = 1 then 0 else 1 + trailingZeros n (v / 2)

/-- Count of one bits among the low `n` bits. -/
def popCount : Nat → Nat → Nat
  | 0, _ => 0
  | n + 1, v => v % 2 + popCount n (v / 2)

/-- A w-bit value shifted right with copies of its top bit. -/
def sraNat (w v n : Nat) : Nat := wrapInt w (signedOf w v / 2 ^ n)

/-- A w-bit value rotated right. -/
def rotNat (w v n : Nat) : Nat := (v / 2 ^ n + v * 2 ^ (w - n)) % 2 ^ w

/-- The position and length fields of BFX and BFI (R73). -/
def bfPos (x : XWord) : Nat := x.toNat % 64
def bfLen (x : XWord) : Nat := min 64 (x.toNat / 256 % 128)

/-- BFX (R73): `len` bits from `pos`, those above the operand copies of its sign or zeros. -/
def bitField (ty : Ty) (a pos len : Nat) : Int :=
  if len = 0 then 0
  else
    let wide : Int := intOf ty a
    let f := wrapInt len (wide / 2 ^ pos)
    if ty.signed then signedOf len f else f

/-- BFI (R73): the low `len` bits of xa placed at `pos`, as far as they fit in the operand. -/
def bitInsert (w t a pos len : Nat) : Nat :=
  let n := if pos < w then min len (w - pos) else 0
  t - t / 2 ^ pos % 2 ^ n * 2 ^ pos + a % 2 ^ n * 2 ^ pos

/-! ### INT (R71 to R73) -/

/-- ADD (R71). -/
def execAdd (ty : Ty) (d a b : Reg) (s : State) : Host.Outcome State Fault Refusal :=
  insn (.add ty d a b) s (intOp ty d a b fun x y => x + y)

/-- SUB (R71). -/
def execSub (ty : Ty) (d a b : Reg) (s : State) : Host.Outcome State Fault Refusal :=
  insn (.sub ty d a b) s (intOp ty d a b fun x y => x - y)

/-- MUL (R71). -/
def execMul (ty : Ty) (d a b : Reg) (s : State) : Host.Outcome State Fault Refusal :=
  insn (.mul ty d a b) s (intOp ty d a b fun x y => x * y)

/-- MULH (R71): the floor of the exact product over 2^w. -/
def execMulh (ty : Ty) (d a b : Reg) (s : State) : Host.Outcome State Fault Refusal :=
  insn (.mulh ty d a b) s (intOp ty d a b fun x y => x * y / 2 ^ ty.bits)

/-- A division that traps 0x09 on a zero divisor (R72). -/
def divOp (ty : Ty) (d a b : Reg) (f : Int → Int → Int) : M Flow := do
  let x ← rx a
  let y ← rx b
  if valTy ty y = 0 then trap 0x09
  else do
    wx d (extInt ty (f (valTy ty x) (valTy ty y)))
    return .seq

/-- DIV (R72): rounds toward zero. -/
def execDiv (ty : Ty) (d a b : Reg) (s : State) : Host.Outcome State Fault Refusal :=
  insn (.div ty d a b) s (divOp ty d a b Int.tdiv)

/-- REM (R72): the remainder has the sign of the dividend. -/
def execRem (ty : Ty) (d a b : Reg) (s : State) : Host.Outcome State Fault Refusal :=
  insn (.rem ty d a b) s (divOp ty d a b Int.tmod)

/-- AND (R71). -/
def execAnd (ty : Ty) (d a b : Reg) (s : State) : Host.Outcome State Fault Refusal :=
  insn (.and ty d a b) s (rawOp ty d a b fun x y => x &&& y)

/-- OR (R71). -/
def execOr (ty : Ty) (d a b : Reg) (s : State) : Host.Outcome State Fault Refusal :=
  insn (.or ty d a b) s (rawOp ty d a b fun x y => x ||| y)

/-- XOR (R71). -/
def execXor (ty : Ty) (d a b : Reg) (s : State) : Host.Outcome State Fault Refusal :=
  insn (.xor ty d a b) s (rawOp ty d a b fun x y => x ^^^ y)

/-- ANDN (R71): A and not B. -/
def execAndn (ty : Ty) (d a b : Reg) (s : State) : Host.Outcome State Fault Refusal :=
  insn (.andn ty d a b) s (rawOp ty d a b fun x y => x &&& (2 ^ ty.bits - 1 - y))

/-- SLL (R71). -/
def execSll (ty : Ty) (d a b : Reg) (s : State) : Host.Outcome State Fault Refusal :=
  insn (.sll ty d a b) s (rawOp ty d a b fun x y => x * 2 ^ (y % ty.bits))

/-- SRL (R71). -/
def execSrl (ty : Ty) (d a b : Reg) (s : State) : Host.Outcome State Fault Refusal :=
  insn (.srl ty d a b) s (rawOp ty d a b fun x y => x / 2 ^ (y % ty.bits))

/-- SRA (R71). -/
def execSra (ty : Ty) (d a b : Reg) (s : State) : Host.Outcome State Fault Refusal :=
  insn (.sra ty d a b) s (rawOp ty d a b fun x y => sraNat ty.bits x (y % ty.bits))

/-- ROT (R71). -/
def execRot (ty : Ty) (d a b : Reg) (s : State) : Host.Outcome State Fault Refusal :=
  insn (.rot ty d a b) s (rawOp ty d a b fun x y => rotNat ty.bits x (y % ty.bits))

/-- MIN (R71). -/
def execMin (ty : Ty) (d a b : Reg) (s : State) : Host.Outcome State Fault Refusal :=
  insn (.min ty d a b) s (intOp ty d a b fun x y => if x ≤ y then x else y)

/-- MAX (R71). -/
def execMax (ty : Ty) (d a b : Reg) (s : State) : Host.Outcome State Fault Refusal :=
  insn (.max ty d a b) s (intOp ty d a b fun x y => if x ≤ y then y else x)

/-- SLT (R71). -/
def execSlt (ty : Ty) (d a b : Reg) (s : State) : Host.Outcome State Fault Refusal :=
  insn (.slt ty d a b) s (intOp ty d a b fun x y => if x < y then 1 else 0)

/-- SEQ (R71). -/
def execSeq (ty : Ty) (d a b : Reg) (s : State) : Host.Outcome State Fault Refusal :=
  insn (.seq ty d a b) s (rawOp ty d a b fun x y => if x = y then 1 else 0)

/-- CLZ (R71). -/
def execClz (ty : Ty) (d a : Reg) (s : State) : Host.Outcome State Fault Refusal :=
  insn (.clz ty d a) s (rawOp1 ty d a fun x => leadingZeros x ty.bits)

/-- CTZ (R71). -/
def execCtz (ty : Ty) (d a : Reg) (s : State) : Host.Outcome State Fault Refusal :=
  insn (.ctz ty d a) s (rawOp1 ty d a fun x => trailingZeros ty.bits x)

/-- POPC (R71). -/
def execPopc (ty : Ty) (d a : Reg) (s : State) : Host.Outcome State Fault Refusal :=
  insn (.popc ty d a) s (rawOp1 ty d a fun x => popCount ty.bits x)

/-- EXT (R71). -/
def execExt (ty : Ty) (d a : Reg) (s : State) : Host.Outcome State Fault Refusal :=
  insn (.ext ty d a) s (rawOp1 ty d a fun x => x)

/-- BFX (R73). -/
def execBfx (ty : Ty) (d a b : Reg) (s : State) : Host.Outcome State Fault Refusal :=
  insn (.bfx ty d a b) s (do
    let x ← rx a
    let y ← rx b
    wx d (extInt ty (bitField ty (rawTy ty x) (bfPos y) (bfLen y)))
    return .seq)

/-- BFI (R73). -/
def execBfi (ty : Ty) (d a b : Reg) (s : State) : Host.Outcome State Fault Refusal :=
  insn (.bfi ty d a b) s (do
    let x ← rx a
    let y ← rx b
    let t ← rx d
    wx d (extTy ty (bitInsert ty.bits (rawTy ty t) x.toNat (bfPos y) (bfLen y)))
    return .seq)

/-- CMOV (R71): xd is left unchanged where B is zero. -/
def execCmov (ty : Ty) (d a b : Reg) (s : State) : Host.Outcome State Fault Refusal :=
  insn (.cmov ty d a b) s (do
    let x ← rx a
    let y ← rx b
    if rawTy ty y ≠ 0 then wx d (extTy ty (rawTy ty x))
    return .seq)

/-! ### Immediate forms (R74) -/

/-- An immediate form on full registers. -/
def immOp (d a : Reg) (imm : Slot → XWord) (f : XWord → XWord → XWord) : M Flow := do
  let x ← rx a
  let v ← me
  wx d (f x (imm v))
  return .seq

/-- ADDI (R74). -/
def execAddi (d a : Reg) (imm : BitVec 16) (s : State) : Host.Outcome State Fault Refusal :=
  insn (.addi d a imm) s (immOp d a (fun v => immSigned v imm) fun x y => x + y)

/-- ANDI (R74). -/
def execAndi (d a : Reg) (imm : BitVec 16) (s : State) : Host.Outcome State Fault Refusal :=
  insn (.andi d a imm) s (immOp d a (fun v => immUnsigned v imm) fun x y => x &&& y)

/-- ORI (R74). -/
def execOri (d a : Reg) (imm : BitVec 16) (s : State) : Host.Outcome State Fault Refusal :=
  insn (.ori d a imm) s (immOp d a (fun v => immUnsigned v imm) fun x y => x ||| y)

/-- XORI (R74). -/
def execXori (d a : Reg) (imm : BitVec 16) (s : State) : Host.Outcome State Fault Refusal :=
  insn (.xori d a imm) s (immOp d a (fun v => immUnsigned v imm) fun x y => x ^^^ y)

/-- A shift form by an immediate count. -/
def shiftOp (d a : Reg) (f : XWord → XWord) : M Flow := do
  let x ← rx a
  wx d (f x)
  return .seq

/-- SLLI (R74). -/
def execSlli (d a : Reg) (n : BitVec 6) (s : State) : Host.Outcome State Fault Refusal :=
  insn (.slli d a n) s (shiftOp d a fun x => x <<< n.toNat)

/-- SRLI (R74). -/
def execSrli (d a : Reg) (n : BitVec 6) (s : State) : Host.Outcome State Fault Refusal :=
  insn (.srli d a n) s (shiftOp d a fun x => x >>> n.toNat)

/-- SRAI (R74). -/
def execSrai (d a : Reg) (n : BitVec 6) (s : State) : Host.Outcome State Fault Refusal :=
  insn (.srai d a n) s (shiftOp d a fun x => x.sshiftRight n.toNat)

/-- ROTI (R74). -/
def execRoti (d a : Reg) (n : BitVec 6) (s : State) : Host.Outcome State Fault Refusal :=
  insn (.roti d a n) s (shiftOp d a fun x => x.rotateRight n.toNat)

/-- SLTI (R74). -/
def execSlti (d a : Reg) (imm : BitVec 16) (s : State) : Host.Outcome State Fault Refusal :=
  insn (.slti d a imm) s (immOp d a (fun v => immSigned v imm) fun x y => if x.toInt < y.toInt then 1 else 0)

/-- SLTNI (R74). -/
def execSltni (d a : Reg) (imm : BitVec 16) (s : State) : Host.Outcome State Fault Refusal :=
  insn (.sltni d a imm) s (immOp d a (fun v => immUnsigned v imm) fun x y => if x.toNat < y.toNat then 1 else 0)

/-- LUI (R74). -/
def execLui (d : Reg) (imm : BitVec 21) (s : State) : Host.Outcome State Fault Refusal :=
  insn (.lui d imm) s (do
    wx d (imm.signExtend 64 <<< 16)
    return .seq)

/-! ### ADDR (R75 to R78) -/

/-- LEA (R75). -/
def execLea (d a b : Reg) (n : BitVec 4) (s : State) : Host.Outcome State Fault Refusal :=
  insn (.lea d a b n) s (do
    let x ← rx a
    let y ← rx b
    wx d (x + (y <<< n.toNat))
    return .seq)

/-- The position of a number in an ascending list. -/
def positionIn (l : List Nat) (n : Nat) : Nat := (l.filter fun m => decide (m < n)).length

/-- The rank and group size of a slot at a level (R76): at level slot among the launch's task slots on the core, at the
others among the launch's units that share the unit's parent. -/
def rankOf (s : State) (c : Nat) (k : Fin 4) (level : Tier) : Nat × Nat :=
  let v := slotAt s c k
  match launchOf v with
  | none => (0, 1)
  | some l => match launchAt s l with
    | none => (0, 1)
    | some r =>
      if k = 3 then (0, 1)
      else match level with
        | .slot =>
          let held := taskSlots.filter fun j =>
            launchOf (slotAt s c j) == some l || r.leftSlots.contains (c, j.val)
          (positionIn (held.map Fin.val) k.val, recSlots r (c % 16))
        | .core =>
          let g := (List.range 16).map fun i => 16 * roomOf c + i
          (positionIn g c, g.length)
        | .room =>
          let g := (launchRooms r).filter fun q => q / 16 == hallOf c
          (positionIn g (roomOf c), g.length)
        | .hall =>
          let g := (launchHalls r).filter fun h => h / 16 == wingOf c
          (positionIn g (hallOf c), g.length)
        | .wing =>
          let g := ascending ((launchHalls r).map fun h => h / 16)
          (positionIn g (wingOf c), g.length)
        | .house =>
          (positionIn (ascending r.estate) s.house, (ascending r.estate).length)
        | .estate => (0, 1)

/-- The rank of the issuing slot; both halves of a pair see the leader's (R89). -/
def myRank (level : Tier) : M (Nat × Nat) := do
  let s ← get
  return rankOf s (leadCore s s.cur.1 s.cur.2) s.cur.2 level

/-- The share of an extent (R77). -/
def shareOf (x : XWord) (k n : Nat) : XWord :=
  let e := x.toNat % 2 ^ 32
  let g := if x.toNat / 2 ^ 32 = 0 then 1 else x.toNat / 2 ^ 32
  let m := (e + g - 1) / g
  let lo := g * (k * m / n)
  let hi := min e (g * ((k + 1) * m / n))
  BitVec.ofNat 64 (hi % 2 ^ 32 * 2 ^ 32 + lo % 2 ^ 32)

/-- PART (R77). -/
def execPart (d a : Reg) (level : Tier) (s : State) : Host.Outcome State Fault Refusal :=
  insn (.part d a level) s (do
    let x ← rx a
    let (k, n) ← myRank level
    wx d (shareOf x k n)
    return .seq)

/-- COORD (R78). -/
def execCoord (d : Reg) (level : Tier) (s : State) : Host.Outcome State Fault Refusal :=
  insn (.coord d level) s (do
    let (k, _) ← myRank level
    wx d (BitVec.ofNat 64 (k % 2 ^ 32))
    return .seq)

end Sys2Proof.Machine
end

