-- ==== Sys2Proof/Machine/Control.lean ====
section
/-! DEFINITION. Branches, jumps, loops and hints (R79 to R88, R103). In a chain's follower every outcome is the leader's
(R88). -/

namespace Sys2Proof.Machine

open Sys2Proof

/-- The target of a branch: PC + 4 · the signed offset (R79). -/
def branchTarget {n : Nat} (v : Slot) (off : BitVec n) : XWord := v.pc + (off.signExtend 64 <<< 2)

/-- A control transfer of a chain's follower, which goes where the leader went (R88); or the slot's own. -/
def transfer (own : M Flow) : M Flow := do
  match ← followed with
  | some f => return .taken f.next
  | none => own

/-- A compare-branch (R79). -/
def branchOp (a b : Reg) (off : BitVec 16) (test : XWord → XWord → Bool) : M Flow := do
  let x ← rx a
  let y ← rx b
  transfer (do
    let v ← me
    if test x y then return .taken (branchTarget v off) else return .seq)

/-- BEQ (R79). -/
def execBeq (a b : Reg) (off : BitVec 16) (s : State) : Host.Outcome State Fault Refusal :=
  insn (.beq a b off) s (branchOp a b off fun x y => x == y)

/-- BNE (R79). -/
def execBne (a b : Reg) (off : BitVec 16) (s : State) : Host.Outcome State Fault Refusal :=
  insn (.bne a b off) s (branchOp a b off fun x y => x != y)

/-- BLT (R79). -/
def execBlt (a b : Reg) (off : BitVec 16) (s : State) : Host.Outcome State Fault Refusal :=
  insn (.blt a b off) s (branchOp a b off fun x y => decide (x.toInt < y.toInt))

/-- BGE (R79). -/
def execBge (a b : Reg) (off : BitVec 16) (s : State) : Host.Outcome State Fault Refusal :=
  insn (.bge a b off) s (branchOp a b off fun x y => decide (y.toInt ≤ x.toInt))

/-- BLTN (R79). -/
def execBltn (a b : Reg) (off : BitVec 16) (s : State) : Host.Outcome State Fault Refusal :=
  insn (.bltn a b off) s (branchOp a b off fun x y => decide (x.toNat < y.toNat))

/-- BGEN (R79). -/
def execBgen (a b : Reg) (off : BitVec 16) (s : State) : Host.Outcome State Fault Refusal :=
  insn (.bgen a b off) s (branchOp a b off fun x y => decide (y.toNat ≤ x.toNat))

/-- J (R80). -/
def execJ (off : BitVec 26) (s : State) : Host.Outcome State Fault Refusal :=
  insn (.j off) s (transfer (do
    let v ← me
    return .taken (branchTarget v off)))

/-- JAL (R80): x31 takes the return address. -/
def execJal (off : BitVec 26) (s : State) : Host.Outcome State Fault Refusal :=
  insn (.jal off) s (do
    let v ← me
    wx 31 (v.pc + 4)
    transfer (return .taken (branchTarget v off)))

/-- A jump to the address in xa (R81): a follower's own register is not read (R88). -/
def jumpOp (a : Reg) (link : Bool) : M Flow := do
  let v ← me
  match ← followed with
  | some f => do
    if link then wx 31 (v.pc + 4)
    return .taken f.next
  | none => do
    let t ← rx a
    if t.toNat % 4 ≠ 0 then trap 0x03 t
    else do
      if link then wx 31 (v.pc + 4)
      return .taken t

/-- JR (R81). -/
def execJr (a : Reg) (s : State) : Host.Outcome State Fault Refusal := insn (.jr a) s (jumpOp a false)

/-- JALR (R81). -/
def execJalr (a : Reg) (s : State) : Host.Outcome State Fault Refusal := insn (.jalr a) s (jumpOp a true)

/-- LOOP (R83): a zero count skips the body; a fifth entry traps with 1, a body that leaves the enclosing one with the
word. -/
def execLoop (a : Reg) (len : BitVec 16) (s : State) : Host.Outcome State Fault Refusal :=
  insn (.loop a len) s (do
    match ← followed with
    | some _ => return .seq
    | none => do
      let v ← me
      let n ← rx a
      let stop := v.pc + BitVec.ofNat 64 (4 * len.toNat)
      if inHandler v then illegal (.loop a len)
      else if n = 0 then return .goto (stop + 4)
      else if 4 ≤ v.loops.length then trap 0x01 0 0 1
      else if (v.loops.head?.map fun e => decide (e.stop.toNat < stop.toNat)).getD false then illegal (.loop a len)
      else do
        onMe fun v => { v with loops := ⟨n, v.pc + 4, stop⟩ :: v.loops }
        return .seq)

/-- BSX (R85): branches while the stream is not exhausted. -/
def execBsx (k : Fin 4) (off : BitVec 16) (s : State) : Host.Outcome State Fault Refusal :=
  insn (.bsx k off) s (transfer (do
    let v ← me
    let q := v.s.get k
    if !q.configured then trap 0x0B 0 k.val
    else if streamDone q then return .seq
    else return .taken (branchTarget v off)))

/-! ### Hints (R38 to R42, R86) -/

/-- HINT.WIDE (R40, R86). -/
def execHintWide (p : BitVec 22) (s : State) : Host.Outcome State Fault Refusal := hint (.hintWide p) s

/-- HINT.RM (R55, R56, R86). -/
def execHintRm (int : Bool) (mode : BitVec 3) (s : State) : Host.Outcome State Fault Refusal := hint (.hintRm int mode) s

/-- HINT.DEP (R41, R86). -/
def execHintDep (p1 p2 : BitVec 7) (n : BitVec 4) (g : BitVec 3) (skip : Bool) (s : State) :
    Host.Outcome State Fault Refusal := hint (.hintDep p1 p2 n g skip) s

/-- HINT.SCHED yield (R86, R87). -/
def execHintSchedYield (n : BitVec 8) (s : State) : Host.Outcome State Fault Refusal := hint (.hintSchedYield n) s

/-- HINT.SCHED hold (R86, R87). -/
def execHintSchedHold (s : State) : Host.Outcome State Fault Refusal := hint .hintSchedHold s

/-- HINT.SAT (R59, R86). -/
def execHintSat (s : State) : Host.Outcome State Fault Refusal := hint .hintSat s

/-- HINT.CACHE (R86, R157). -/
def execHintCache (policy : BitVec 3) (s : State) : Host.Outcome State Fault Refusal := hint (.hintCache policy) s

/-- A word that encodes no instruction traps 0x01 with itself in trap.info (R46, R47). -/
def execIllegalInstruction (w : BitVec 32) (s : State) : Host.Outcome State Fault Refusal :=
  stopped (.illegalInstruction w) s s (.trap 0x01 0 0 w.toNat)

end Sys2Proof.Machine
end

