-- ==== Sys2Proof/Machine/Vector.lean ====
section
/-! DEFINITION. Vector arithmetic, conversions, permutations, reductions and predicates (R91 to R102). -/

namespace Sys2Proof.Machine

open Sys2Proof

/-! ### Shared forms -/

/-- An exact integer result of an element. -/
def intRes (ty : Ty) (r : Int) : FRes := ⟨wrapInt ty.bits r, 0⟩

/-- Elements of two registers combined one by one. -/
def zipElems (ty : Ty) (x y : VWide) (f : Nat → Nat → FRes) : List FRes :=
  ((elems ty x).zip (elems ty y)).map fun (a, b) => f a b

/-- The results written, after the flags have been raised (R58, R91). -/
def writeResults (ty : Ty) (d : Reg) (rs : List FRes) : M Flow := do
  raiseAll rs
  ww d (joinElems ty (rs.map FRes.bits))
  return .seq

/-- A form of two sources that works element by element (R92). -/
def vecOp (ty : Ty) (d a b : Reg) (f : Nat → Nat → Nat → FRes) : M Flow := do
  let (x, y) ← rw2 a b
  let m ← modeNow
  writeResults ty d (zipElems ty x y (f m))

/-- A form of one source that works element by element (R92). -/
def vecOp1 (ty : Ty) (d a : Reg) (f : Nat → Nat → FRes) : M Flow := do
  let x ← rw a
  let m ← modeNow
  writeResults ty d ((elems ty x).map (f m))

/-- An operation of integers, or of floats at a rounding mode. -/
def either (ty : Ty) (fi : Int → Int → Int) (ff : Fmt → Nat → Nat → Nat → FRes) (m a b : Nat) : FRes :=
  if ty.isInt then intRes ty (fi (intOf ty a) (intOf ty b)) else ff (fmtOf ty) m a b

/-! ### VARITH (R92) -/

/-- VADD (R92). -/
def execVadd (ty : Ty) (d a b : Reg) (s : State) : Host.Outcome State Fault Refusal :=
  insn (.vadd ty d a b) s (vecOp ty d a b (either ty (fun x y => x + y) fAdd))

/-- VSUB (R92). -/
def execVsub (ty : Ty) (d a b : Reg) (s : State) : Host.Outcome State Fault Refusal :=
  insn (.vsub ty d a b) s (vecOp ty d a b (either ty (fun x y => x - y) fSub))

/-- VMUL (R92). -/
def execVmul (ty : Ty) (d a b : Reg) (s : State) : Host.Outcome State Fault Refusal :=
  insn (.vmul ty d a b) s (vecOp ty d a b (either ty (fun x y => x * y) fMul))

/-- VMULH (R92): the high half of the exact double-width product. -/
def execVmulh (ty : Ty) (d a b : Reg) (s : State) : Host.Outcome State Fault Refusal :=
  insn (.vmulh ty d a b) s (vecOp ty d a b fun _ x y => intRes ty (intOf ty x * intOf ty y / 2 ^ ty.bits))

/-- VMIN (R52, R92). -/
def execVmin (ty : Ty) (d a b : Reg) (s : State) : Host.Outcome State Fault Refusal :=
  insn (.vmin ty d a b) s (vecOp ty d a b (either ty (fun x y => if x ≤ y then x else y) fun f _ => fMinMax f false))

/-- VMAX (R52, R92). -/
def execVmax (ty : Ty) (d a b : Reg) (s : State) : Host.Outcome State Fault Refusal :=
  insn (.vmax ty d a b) s (vecOp ty d a b (either ty (fun x y => if x ≤ y then y else x) fun f _ => fMinMax f true))

/-- VABS (R92): a float's sign bit cleared, nothing else. -/
def execVabs (ty : Ty) (d a : Reg) (s : State) : Host.Outcome State Fault Refusal :=
  insn (.vabs ty d a) s (vecOp1 ty d a fun _ x =>
    if ty.isInt then intRes ty (signedOf ty.bits x).natAbs else ⟨x % 2 ^ (ty.bits - 1), 0⟩)

/-- VNEG (R92): a float's sign bit inverted, nothing else. -/
def execVneg (ty : Ty) (d a : Reg) (s : State) : Host.Outcome State Fault Refusal :=
  insn (.vneg ty d a) s (vecOp1 ty d a fun _ x =>
    if ty.isInt then intRes ty (-(signedOf ty.bits x)) else ⟨(x + 2 ^ (ty.bits - 1)) % 2 ^ ty.bits, 0⟩)

/-- VAND (R92). -/
def execVand (ty : Ty) (d a b : Reg) (s : State) : Host.Outcome State Fault Refusal :=
  insn (.vand ty d a b) s (vecOp ty d a b fun _ x y => ⟨x &&& y, 0⟩)

/-- VOR (R92). -/
def execVor (ty : Ty) (d a b : Reg) (s : State) : Host.Outcome State Fault Refusal :=
  insn (.vor ty d a b) s (vecOp ty d a b fun _ x y => ⟨x ||| y, 0⟩)

/-- VXOR (R92). -/
def execVxor (ty : Ty) (d a b : Reg) (s : State) : Host.Outcome State Fault Refusal :=
  insn (.vxor ty d a b) s (vecOp ty d a b fun _ x y => ⟨x ^^^ y, 0⟩)

/-- VSHL (R92). -/
def execVshl (ty : Ty) (d a b : Reg) (s : State) : Host.Outcome State Fault Refusal :=
  insn (.vshl ty d a b) s (vecOp ty d a b fun _ x y => ⟨x * 2 ^ (y % ty.bits) % 2 ^ ty.bits, 0⟩)

/-- VSHR (R92): copies of the sign bit for i types, zeros for n types. -/
def execVshr (ty : Ty) (d a b : Reg) (s : State) : Host.Outcome State Fault Refusal :=
  insn (.vshr ty d a b) s (vecOp ty d a b fun _ x y => intRes ty (intOf ty x / 2 ^ (y % ty.bits)))

/-- VDIV (R92). -/
def execVdiv (ty : Ty) (d a b : Reg) (s : State) : Host.Outcome State Fault Refusal :=
  insn (.vdiv ty d a b) s (vecOp ty d a b fun m x y => fDiv (fmtOf ty) m x y)

/-- VSQRT (R92). -/
def execVsqrt (ty : Ty) (d a : Reg) (s : State) : Host.Outcome State Fault Refusal :=
  insn (.vsqrt ty d a) s (vecOp1 ty d a fun m x => fSqrt (fmtOf ty) m x)

/-! ### Compares and select (R93, R94) -/

/-- Flags of a compare (R57): NV for a signalling NaN, and for any NaN where `strict`. -/
def compareFlags (f : Fmt) (strict : Bool) (a b : Nat) : Nat :=
  if strict && ((unpack f a).isNan || (unpack f b).isNan) then flagNV else signalFlag f [a, b]

/-- A compare of elements into pd (R93). -/
def cmpOp (ty : Ty) (pd a b : Reg) (strict : Bool) (fi : Int → Int → Bool) (ff : Order → Bool) : M Flow := do
  let (x, y) ← rw2 a b
  let ps := (elems ty x).zip (elems ty y)
  let test := fun (p : Nat × Nat) =>
    if ty.isInt then fi (intOf ty p.1) (intOf ty p.2) else ff (fCompare (fmtOf ty) p.1 p.2)
  if !ty.isInt then raise (ps.mapIdx fun j (u, v) => (j, compareFlags (fmtOf ty) strict u v))
  wp pd (maskOf ty (ps.map test))
  return .seq

/-- VCMPEQ (R93). -/
def execVcmpeq (ty : Ty) (pd a b : Reg) (s : State) : Host.Outcome State Fault Refusal :=
  insn (.vcmpeq ty pd a b) s (cmpOp ty pd a b false (fun x y => x == y) fun o => o == .eq)

/-- VCMPNE (R93). -/
def execVcmpne (ty : Ty) (pd a b : Reg) (s : State) : Host.Outcome State Fault Refusal :=
  insn (.vcmpne ty pd a b) s (cmpOp ty pd a b false (fun x y => x != y) fun o => o != .eq)

/-- VCMPLT (R93). -/
def execVcmplt (ty : Ty) (pd a b : Reg) (s : State) : Host.Outcome State Fault Refusal :=
  insn (.vcmplt ty pd a b) s (cmpOp ty pd a b true (fun x y => decide (x < y)) fun o => o == .lt)

/-- VCMPLE (R93). -/
def execVcmple (ty : Ty) (pd a b : Reg) (s : State) : Host.Outcome State Fault Refusal :=
  insn (.vcmple ty pd a b) s (cmpOp ty pd a b true (fun x y => decide (x ≤ y)) fun o => o == .lt || o == .eq)

/-- VCMPUN (R93). -/
def execVcmpun (ty : Ty) (pd a b : Reg) (s : State) : Host.Outcome State Fault Refusal :=
  insn (.vcmpun ty pd a b) s (cmpOp ty pd a b false (fun _ _ => false) fun o => o == .un)

/-- The elements of one list where a mask is active, and of another elsewhere. -/
def pick (ty : Ty) (p : BitVec 32) (x y : List Nat) : List Nat :=
  x.mapIdx fun j e => if active ty p j then e else y.getD j 0

/-- VSEL (R94): wd is read as well as written. -/
def execVsel (ty : Ty) (d a pb : Reg) (s : State) : Host.Outcome State Fault Refusal :=
  insn (.vsel ty d a pb) s (do
    let old ← rwOwn d
    let x ← rw a
    let p ← rp pb
    ww d (joinElems ty (pick ty p (elems ty x) (elems ty old)))
    return .seq)

/-! ### Fused multiply-add (R95) -/

/-- The four variants: whether the product and the addend are negated. -/
def fmaOp (ty : Ty) (d a b c : Reg) (np nc : Bool) : M Flow := do
  let l ← readVecs [a, b, c] []
  let m ← modeNow
  let xs := elems ty (l.headD 0)
  let ys := elems ty (l.getD 1 0)
  let zs := elems ty (l.getD 2 0)
  writeResults ty d (xs.mapIdx fun j x => fFma (fmtOf ty) m np nc x (ys.getD j 0) (zs.getD j 0))

/-- VFMA (R95). -/
def execVfma (ty : Ty) (d a b c : Reg) (s : State) : Host.Outcome State Fault Refusal :=
  insn (.vfma ty d a b c) s (fmaOp ty d a b c false false)

/-- VFMS (R95). -/
def execVfms (ty : Ty) (d a b c : Reg) (s : State) : Host.Outcome State Fault Refusal :=
  insn (.vfms ty d a b c) s (fmaOp ty d a b c false true)

/-- VFNMA (R95). -/
def execVfnma (ty : Ty) (d a b c : Reg) (s : State) : Host.Outcome State Fault Refusal :=
  insn (.vfnma ty d a b c) s (fmaOp ty d a b c true false)

/-- VFNMS (R95). -/
def execVfnms (ty : Ty) (d a b c : Reg) (s : State) : Host.Outcome State Fault Refusal :=
  insn (.vfnms ty d a b c) s (fmaOp ty d a b c true true)

/-! ### Conversions (R96 to R98) -/

/-- Elements converted, an intermediate step raising only the invalid flag (R56). -/
def convertAll (src dst : Ty) (xs : List Nat) : M (List FRes) := do
  let m ← modeNow
  let int ← intermediate
  let sat := satOf (← me)
  return xs.map fun x =>
    let r := convert src dst m sat x
    if int then { r with flags := r.flags &&& flagNV } else r

/-- Elements that a conversion handles. -/
def convertCount (src dst : Ty) : Nat := 32 / max src.size dst.size

/-- VCVT (R96): the low elements; higher destination elements are zero. -/
def execVcvt (ty : Ty) (d a : Reg) (src : Ty) (s : State) : Host.Outcome State Fault Refusal :=
  insn (.vcvt ty d a src) s (do
    let x ← rw a
    let rs ← convertAll src ty ((elems src x).take (convertCount src ty))
    writeResults ty d rs)

/-- The flags of a conversion under the numbers of its destination elements. -/
def raiseFrom (n : Nat) (rs : List FRes) : M Unit := raise (rs.mapIdx fun j r => (j + n, r.flags))

/-- VCVTX (R96): the high elements of a wider destination, or of a narrower one that keeps its others. -/
def execVcvtx (ty : Ty) (d a : Reg) (src : Ty) (s : State) : Host.Outcome State Fault Refusal :=
  insn (.vcvtx ty d a src) s (do
    let m := convertCount src ty
    if ty.size < src.size then do
      let old ← rwOwn d
      let x ← rw a
      let rs ← convertAll src ty ((elems src x).take m)
      raiseFrom m rs
      let keep := elems ty old
      ww d (joinElems ty (keep.take m ++ rs.map FRes.bits ++ keep.drop (2 * m)))
      return .seq
    else do
      let x ← rw a
      let rs ← convertAll src ty (((elems src x).drop (if ty.size = src.size then 0 else m)).take m)
      writeResults ty d rs)

/-- Registers of a group of 32 elements. -/
def groupRegs (r : Reg) (ty : Ty) : List Reg := (List.range ty.size).map fun i => regPlus r i

/-- Reads the registers of a group, none of which may be bound (R97). -/
def readGroup : List Reg → M (List VWide)
  | [] => return []
  | r :: t => do
    let x ← rwOwn r
    let xs ← readGroup t
    return x :: xs

/-- VQNT (R97). -/
def execVqnt (ty : Ty) (d a : Reg) (src : Ty) (s : State) : Host.Outcome State Fault Refusal :=
  insn (.vqnt ty d a src) s (do
    let xs ← readGroup (groupRegs a src)
    let m ← modeNow
    let b := quantise ty m (fmtOf src) (xs.flatMap (elems src))
    raise [(0, b.flags)]
    ww d (BitVec.ofNat 256 (natOfBytes (packGroup ty b.q ++ [BitVec.ofNat 8 b.scale])))
    return .seq)

/-- Writes the registers of a group. -/
def writeGroup : List Reg → List VWide → M Unit
  | r :: t, x :: u => do
    wwStored r x
    writeGroup t u
  | _, _ => pure ()

/-- The registers of a group from a list of elements. -/
def groupOf (ty : Ty) (l : List Nat) : List VWide :=
  (List.range ty.size).map fun i => joinElems ty ((l.drop (elemsIn ty * i)).take (elemsIn ty))

/-- VXPQ (R98): rounded by fp.ctl[2:0]. -/
def execVxpq (ty : Ty) (d a : Reg) (src : Ty) (s : State) : Host.Outcome State Fault Refusal :=
  insn (.vxpq ty d a src) s (do
    (groupRegs d ty).forM unbound
    let x ← rw a
    let bs := bytesOfNat 32 x.toNat
    let scale := (bs.getD (groupBytes src) 0).toNat
    let v ← me
    let rs := (List.range 32).map fun j =>
      if scale = 0xFF then invalid (fmtOf ty)
      else roundVal (fmtOf ty) (v.fpCtl.toNat % 8) false (weightVal (unpackWeight src bs j) scale)
    raiseAll rs
    writeGroup (groupRegs d ty) (groupOf ty (rs.map FRes.bits))
    return .seq)

/-! ### Moving elements (R99, R100) -/

/-- Elements of a list where a mask is active. -/
def packActive (ty : Ty) (p : BitVec 32) (l : List Nat) : List Nat :=
  (l.mapIdx fun j e => (j, e)).filterMap fun (j, e) => if active ty p j then some e else none

/-- Active elements of a mask. -/
def activeCount (ty : Ty) (p : BitVec 32) : Nat := ((List.range (elemsIn ty)).filter (active ty p)).length

/-- Elements moved to the active positions from position `j` on, zeros elsewhere. -/
def spread (ty : Ty) (p : BitVec 32) : Nat → Nat → List Nat → List Nat
  | 0, _, _ => []
  | n + 1, j, l =>
    if active ty p j then l.headD 0 :: spread ty p n (j + 1) l.tail else 0 :: spread ty p n (j + 1) l

/-- VCPS (R99). -/
def execVcps (ty : Ty) (d pa b : Reg) (s : State) : Host.Outcome State Fault Refusal :=
  insn (.vcps ty d pa b) s (do
    let old ← rwOwn d
    let p ← rp pa
    ww d (joinElems ty (packActive ty p (elems ty old)))
    wx b (BitVec.ofNat 64 (activeCount ty p))
    return .seq)

/-- VXPD (R99). -/
def execVxpd (ty : Ty) (d pa b : Reg) (s : State) : Host.Outcome State Fault Refusal :=
  insn (.vxpd ty d pa b) s (do
    let old ← rwOwn d
    let p ← rp pa
    ww d (joinElems ty (spread ty p (elemsIn ty) 0 (elems ty old)))
    wx b (BitVec.ofNat 64 (activeCount ty p))
    return .seq)

/-- VPERM (R100). -/
def execVperm (ty : Ty) (d a b : Reg) (s : State) : Host.Outcome State Fault Refusal :=
  insn (.vperm ty d a b) s (do
    let (x, y) ← rw2 a b
    ww d (joinElems ty ((elems ty y).map fun i => (elems ty x).getD i 0))
    return .seq)

/-- VSPLAT (R100). -/
def execVsplat (ty : Ty) (d a : Reg) (s : State) : Host.Outcome State Fault Refusal :=
  insn (.vsplat ty d a) s (do
    let x ← rx a
    ww d (joinElems ty (List.replicate (elemsIn ty) x.toNat))
    return .seq)

/-- VINS (R100): wd is read as well as written. -/
def execVins (ty : Ty) (d a b : Reg) (s : State) : Host.Outcome State Fault Refusal :=
  insn (.vins ty d a b) s (do
    let x ← rx a
    let y ← rx b
    let old ← rwOwn d
    ww d (if y.toNat < elemsIn ty then joinElems ty ((elems ty old).set y.toNat x.toNat) else old)
    return .seq)

/-- VEXT (R100). -/
def execVext (ty : Ty) (d a b : Reg) (s : State) : Host.Outcome State Fault Refusal :=
  insn (.vext ty d a b) s (do
    let x ← rw a
    let y ← rx b
    wx d (if y.toNat < elemsIn ty then extTy ty ((elems ty x).getD y.toNat 0) else 0)
    return .seq)

/-- VMOV (R100). -/
def execVmov (d a : Reg) (s : State) : Host.Outcome State Fault Refusal :=
  insn (.vmov d a) s (do
    let x ← rw a
    ww d x
    return .seq)

/-! ### Reductions (R63, R64, R101) -/

/-- A reduction of a register to an x register. -/
def reduceOp (ty : Ty) (d a : Reg) (fi : Int → Int → Int) (ff : Fmt → Nat → Nat → Nat → FRes) : M Flow := do
  let x ← rw a
  let m ← modeNow
  let l := elems ty x
  if ty.isInt then do
    let is := l.map (intOf ty)
    wx d (extInt ty (is.tail.foldl fi (is.headD 0)))
    return .seq
  else do
    let (r, fs) := reduceTree (ff (fmtOf ty) m) l
    raise fs
    wx d (BitVec.ofNat 64 r)
    return .seq

/-- VREDA (R63, R101). -/
def execVreda (ty : Ty) (d a : Reg) (s : State) : Host.Outcome State Fault Refusal :=
  insn (.vreda ty d a) s (reduceOp ty d a (fun x y => x + y) fAdd)

/-- VREDN (R63, R101). -/
def execVredn (ty : Ty) (d a : Reg) (s : State) : Host.Outcome State Fault Refusal :=
  insn (.vredn ty d a) s (reduceOp ty d a (fun x y => if x ≤ y then x else y) fun f _ => fMinMax f false)

/-- VREDX (R63, R101). -/
def execVredx (ty : Ty) (d a : Reg) (s : State) : Host.Outcome State Fault Refusal :=
  insn (.vredx ty d a) s (reduceOp ty d a (fun x y => if x ≤ y then y else x) fun f _ => fMinMax f true)

/-- The dot product of two registers: the bits of the result, and the flags by lane (R64). -/
def dotOf (ty : Ty) (m : Nat) (x y : List Nat) : XWord × List (Nat × Nat) :=
  let ps := x.zip y
  let ints : Int := (ps.map fun (a, b) => intOf ty a * intOf ty b).foldl (fun (u v : Int) => u + v) 0
  match ty with
  | .b16 =>
    let r := exactDot (fmtB16, fmtB16) m ps
    let own := productFlags fmtB16 ps
    let rest := r.flags - (r.flags &&& orFlags own)
    (BitVec.ofNat 64 r.bits, own ++ [(0, rest)])
  | .f32 | .f64 =>
    let f := fmtOf ty
    let prods := ps.map fun (a, b) => fMul f m a b
    let (r, fs) := reduceTree (fAdd f m) (prods.map FRes.bits)
    (BitVec.ofNat 64 r, indexed prods ++ fs)
  | .i8 => (BitVec.ofInt 64 (signedOf 32 (wrapInt 32 ints)), [])
  | _ => (BitVec.ofInt 64 ints, [])

/-- VDOT (R64, R101). -/
def execVdot (ty : Ty) (d a b : Reg) (s : State) : Host.Outcome State Fault Refusal :=
  insn (.vdot ty d a b) s (do
    let (x, y) ← rw2 a b
    let m ← modeNow
    let (r, fs) := dotOf ty m (elems ty x) (elems ty y)
    raise fs
    wx d r
    return .seq)

/-! ### Predicates (R102) -/

/-- A form of two masks. -/
def predOp (pd pa pb : Reg) (f : BitVec 32 → BitVec 32 → BitVec 32) : M Flow := do
  let x ← rp pa
  let y ← rp pb
  wp pd (f x y)
  return .seq

/-- PAND (R102). -/
def execPand (pd pa pb : Reg) (s : State) : Host.Outcome State Fault Refusal :=
  insn (.pand pd pa pb) s (predOp pd pa pb fun x y => x &&& y)

/-- POR (R102). -/
def execPor (pd pa pb : Reg) (s : State) : Host.Outcome State Fault Refusal :=
  insn (.por pd pa pb) s (predOp pd pa pb fun x y => x ||| y)

/-- PXOR (R102). -/
def execPxor (pd pa pb : Reg) (s : State) : Host.Outcome State Fault Refusal :=
  insn (.pxor pd pa pb) s (predOp pd pa pb fun x y => x ^^^ y)

/-- PNOT (R102). -/
def execPnot (pd pa : Reg) (s : State) : Host.Outcome State Fault Refusal :=
  insn (.pnot pd pa) s (do
    let x ← rp pa
    wp pd (~~~x)
    return .seq)

/-- PCNT (R102). -/
def execPcnt (ty : Ty) (d pa : Reg) (s : State) : Host.Outcome State Fault Refusal :=
  insn (.pcnt ty d pa) s (do
    let x ← rp pa
    wx d (BitVec.ofNat 64 (activeCount ty x))
    return .seq)

/-- PFST (R102). -/
def execPfst (ty : Ty) (d pa : Reg) (s : State) : Host.Outcome State Fault Refusal :=
  insn (.pfst ty d pa) s (do
    let x ← rp pa
    wx d (BitVec.ofNat 64 (((List.range (elemsIn ty)).find? (active ty x)).getD (elemsIn ty)))
    return .seq)

/-- PSET (R102). -/
def execPset (pd a : Reg) (s : State) : Host.Outcome State Fault Refusal :=
  insn (.pset pd a) s (do
    let x ← rx a
    wp pd (x.setWidth 32)
    return .seq)

/-- PGET (R102). -/
def execPget (d pa : Reg) (s : State) : Host.Outcome State Fault Refusal :=
  insn (.pget d pa) s (do
    let x ← rp pa
    wx d (x.setWidth 64)
    return .seq)

end Sys2Proof.Machine
end

