-- ==== Sys2Proof/Machine/StreamOps.lean ====
section
/-! DEFINITION. The stream instructions (R103 to R110) and STREAM_FETCH. -/

namespace Sys2Proof.Machine

open Sys2Proof

/-- The stream an s operand names (R35). -/
def streamOf (r : Reg) : Fin 4 := Fin.ofNat 4 r.val

/-- The must-be-zero bits of a descriptor (Table 6.5). -/
def streamZeros (v : Stream) : Bool :=
  v.desc.toNat / 2 ^ 133 % 2 ^ 59 != 0 || (!streamIndirect v && v.desc.toNat / 2 ^ 224 != 0)

/-- The first value of a descriptor that is not a multiple of its width (R104): base, estride, istride, ixbase. -/
def streamMisaligned (v : Stream) : Option XWord :=
  let w := streamWidth v
  let is := if streamIndirect v || decide (v.desc.toNat / 2 ^ 192 % 2 ^ 32 = 0) then 0 else streamItemStride v
  let ix := if streamIndirect v then streamIndexBase v else 0
  if (streamBase v).toNat % w ≠ 0 then some (streamBase v)
  else if (streamStride v).toNat % w ≠ 0 then some (streamStride v)
  else if is.toNat % w ≠ 0 then some is
  else if ix.toNat % (if streamIndexWide v then 8 else 4) ≠ 0 then some ix
  else none

/-- SCFG (R104). -/
def execScfg (sd a : Reg) (s : State) : Host.Outcome State Fault Refusal :=
  insn (.scfg sd a) s (do
    let x ← rx a
    let k := streamOf sd
    if ((← me).s.get k).configured then trap 0x0B 0 k.val
    else do
      aligned x 8
      let bs ← loadBytes x 32
      let q : Stream := { Stream.reset with configured := true, desc := BitVec.ofNat 256 (natOfBytes bs) }
      if streamZeros q then trap 0x0B 0 k.val
      else match streamMisaligned q with
        | some v => trap 0x03 v
        | none => do
          onStream k fun _ => q
          return .seq)

/-- SBIND (R105). The stream number of its trap is that of `sa` in every case: DESIGN CHOICE (log entry 98). -/
def execSbind (d sa : Reg) (s : State) : Host.Outcome State Fault Refusal :=
  insn (.sbind d sa) s (do
    let v ← me
    let k := streamOf sa
    if !(v.s.get k).configured || (v.s.get k).bound.isSome || (boundTo v d).isSome then trap 0x0B 0 k.val
    else do
      onStream k fun q => { q with bound := some d }
      return .seq)

/-- SEND (R107): every pushed item has been written by then. -/
def execSend (sd : Reg) (s : State) : Host.Outcome State Fault Refusal :=
  insn (.send sd) s (do
    let k := streamOf sd
    if !((← me).s.get k).configured then trap 0x0B 0 k.val
    else do
      endStream k
      return .seq)

/-- SSTAT of a stream (R108). -/
def execSstat (d sa : Reg) (s : State) : Host.Outcome State Fault Refusal :=
  insn (.sstat d sa) s (do
    let q := (← me).s.get (streamOf sa)
    wx d (streamStatus q)
    return .seq)

/-- SSKIP (R107): the position moves on by xa items and stops at the count. -/
def execSskip (sd a : Reg) (s : State) : Host.Outcome State Fault Refusal :=
  insn (.sskip sd a) s (do
    let x ← rx a
    let k := streamOf sd
    if !((← me).s.get k).configured then trap 0x0B 0 k.val
    else do
      onStream k fun q => { q with pos := advance q x.toNat, fetched := [] }
      return .seq)

/-- Elements that an engine holds ahead of the pops; the specification gives the depth of no engine (log entry 18). -/
def fetchDepth : Nat := 4

/-- A miss of a stream's fetch: it holds the engine and not the slot (R298). -/
def ofEngine (c : Nat) : Due → Due
  | .translationMiss hall m => .translationMiss hall { m with agent := .prefetch c }
  | d => d

/-- A read stream fetches its next element (R109, R110): a fetch that fails raises nothing here. One that misses the L2 TLB goes to
the translation unit, and is made again once it is answered (R298). -/
def fetchAhead (k : Fin 4) : M Unit := do
  let q := (← me).s.get k
  let pos := q.pos.toNat + streamItems q * q.fetched.length
  if q.configured && !streamWrites q && decide (pos < streamCount q) && decide (q.fetched.length < fetchDepth) then do
    let r ← attempt (fetchElement q pos)
    match r with
    | .ok e => onStream k fun q => { q with fetched := q.fetched ++ [e] }
    | .error (.park _ due) => modify fun s => post s (newDue s (due.map (ofEngine s.cur.1)))
    | .error _ => pure ()
  else pure ()

/-- The elements fetched for one stream of a slot are those fetched for a pair's follower (R111). -/
def shareFetched (c : Nat) (k n : Fin 4) (s : State) : State :=
  match followerOf s c k with
  | some f => onSlot s f k fun v => { v with s := v.s.set n { v.s.get n with fetched := ((slotAt s c k).s.get n).fetched } }
  | none => s

/-- STREAM_FETCH (R109): items are fetched and translated ahead of the pops; a pair fetches once, for both cores. -/
def execStreamFetch (c : Nat) (k : Fin 4) (n : Fin 4) (s : State) : Host.Outcome State Fault Refusal :=
  event (.streamFetch c k n) s (do
    let s ← get
    if isSecond s c k then pure ()
    else do
      asSlot c k (fetchAhead n)
      modify (shareFetched c k n))

end Sys2Proof.Machine
end

