-- ==== Sys2Proof/Machine/Loads.lean ====
section
/-! DEFINITION. Loads, stores, gathers, scatters and PF (R156 to R159), full/empty words (R160, R161), and rings (R162,
R163). -/

namespace Sys2Proof.Machine

open Sys2Proof

/-! ### Loads and stores (R158) -/

/-- The address of a form with an offset scaled by the access size. -/
def scaledAddress (a : Reg) (off : BitVec 12) (z : Nat) : M XWord := do
  let x ← rx a
  let v ← me
  return x + offSigned v off * BitVec.ofNat 64 z

/-- A scalar load from an address. -/
def loadScalar (ty : Ty) (d : Reg) (x : XWord) : M Flow := do
  let bs ← loadBytes x ty.size
  wx d (extTy ty (natOfBytes bs))
  return .seq

/-- A scalar store to an address. -/
def storeScalar (ty : Ty) (d : Reg) (x : XWord) : M Flow := do
  let v ← rx d
  storeBytes x (bytesOfNat ty.size v.toNat)
  return .seq

/-- LD (R158). -/
def execLd (ty : Ty) (d a : Reg) (off : BitVec 12) (s : State) : Host.Outcome State Fault Refusal :=
  insn (.ld ty d a off) s (do
    let x ← scaledAddress a off ty.size
    loadScalar ty d x)

/-- ST (R158). -/
def execSt (ty : Ty) (d a : Reg) (off : BitVec 12) (s : State) : Host.Outcome State Fault Refusal :=
  insn (.st ty d a off) s (do
    let x ← scaledAddress a off ty.size
    storeScalar ty d x)

/-- VLD (R158). -/
def execVld (ty : Ty) (d a : Reg) (off : BitVec 12) (s : State) : Host.Outcome State Fault Refusal :=
  insn (.vld ty d a off) s (do
    let x ← scaledAddress a off 32
    let bs ← loadBytes x 32
    ww d (BitVec.ofNat 256 (natOfBytes bs))
    return .seq)

/-- VST (R158). -/
def execVst (ty : Ty) (d a : Reg) (off : BitVec 12) (s : State) : Host.Outcome State Fault Refusal :=
  insn (.vst ty d a off) s (do
    let x ← scaledAddress a off 32
    let e ← rw d
    storeBytes x (bytesOfNat 32 e.toNat)
    return .seq)

/-! ### Indexed and strided forms (R159) -/

/-- The sum of two registers, as an address. -/
def sumAddress (a b : Reg) : M XWord := do
  let x ← rx a
  let y ← rx b
  return x + y

/-- LDX (R159). -/
def execLdx (ty : Ty) (d a b : Reg) (s : State) : Host.Outcome State Fault Refusal :=
  insn (.ldx ty d a b) s (do
    let x ← sumAddress a b
    loadScalar ty d x)

/-- STX (R159). -/
def execStx (ty : Ty) (d a b : Reg) (s : State) : Host.Outcome State Fault Refusal :=
  insn (.stx ty d a b) s (do
    let x ← sumAddress a b
    storeScalar ty d x)

/-- The addresses of a gather: the base and scaled signed indices. -/
def indexAddresses (ty : Ty) (x : XWord) (e : VWide) : List XWord :=
  (elems ty e).map fun j => x + BitVec.ofInt 64 (signedOf ty.bits j * ty.size)

/-- The addresses of a strided form. -/
def strideAddresses (ty : Ty) (x y : XWord) : List XWord :=
  (List.range (elemsIn ty)).map fun j => x + BitVec.ofNat 64 j * y

/-- Reads elements into a w register. -/
def gather (ty : Ty) (d : Reg) (as : List XWord) : M Flow := do
  let ps ← locateElems .read ty.size as
  let es ← seeElems ps
  ww d (joinElems ty (es.map natOfBytes))
  return .seq

/-- Writes elements of a w register. -/
def scatter (ty : Ty) (e : VWide) (as : List XWord) : M Flow := do
  let ps ← locateElems .write ty.size as
  sendElems ps ((elems ty e).map (bytesOfNat ty.size))
  return .seq

/-- VLDX (R159). -/
def execVldx (ty : Ty) (d a b : Reg) (s : State) : Host.Outcome State Fault Refusal :=
  insn (.vldx ty d a b) s (do
    let x ← rx a
    let e ← rw b
    gather ty d (indexAddresses ty x e))

/-- VSTX (R159): wb is read before wd, in operand order. -/
def execVstx (ty : Ty) (d a b : Reg) (s : State) : Host.Outcome State Fault Refusal :=
  insn (.vstx ty d a b) s (do
    let x ← rx a
    let (i, e) ← rw2 b d
    scatter ty e (indexAddresses ty x i))

/-- VLDS (R159). -/
def execVlds (ty : Ty) (d a b : Reg) (s : State) : Host.Outcome State Fault Refusal :=
  insn (.vlds ty d a b) s (do
    let x ← rx a
    let y ← rx b
    gather ty d (strideAddresses ty x y))

/-- VSTS (R159). -/
def execVsts (ty : Ty) (d a b : Reg) (s : State) : Host.Outcome State Fault Refusal :=
  insn (.vsts ty d a b) s (do
    let x ← rx a
    let y ← rx b
    let e ← rw d
    scatter ty e (strideAddresses ty x y))

/-- PF (R159). -/
def execPf (a b : Reg) (s : State) : Host.Outcome State Fault Refusal :=
  insn (.pf a b) s (do
    let x ← sumAddress a b
    let v ← me
    prefetchLine (← myCore) v.ctx x
    return .seq)

/-! ### Full/empty words (R160) -/

/-- The word of a full/empty form (R143): alignment first, then a vault address in a scratchpad; an invalid mapped word
is filled. -/
def fePlace (a : Reg) (off : BitVec 5) : M (XWord × Nat × Nat) := do
  let x ← rx a
  let x := x + (off.signExtend 64 <<< 5)
  aligned x 4
  ensure (isCanonical x && isVaultAddr x) (trap 0x05 x)
  let p ← locate x .read
  match p with
  | .mem _ _ => trap 0x05 x
  | .vault r o => do
    stallOn p 4
    fillAt x p 4
    countRemote p
    return (x, r, o)

/-- Word watches of a core (R124). -/
def watchCount : Nat := 8

/-- A full/empty form that may wait, at its word: it acts at once, or takes a watch (R114, R124). -/
def feWaitAt (x : XWord) (r o : Nat) (op : WordOp) : M Flow := do
  let s ← get
  if wordMet (isFull s r o) op then do
    let flow ← wordStep x r o op
    testWord r o
    return flow
  else if watchCount ≤ (coreAt s s.cur.1).watches.length then trap 0x15
  else return .wait (.word r o op)

/-- A load of a full/empty form (R160). -/
def feWait (a : Reg) (off : BitVec 5) (op : WordOp) : M Flow := do
  compareFirst
  let (x, r, o) ← fePlace a off
  feWaitAt x r o op

/-- A store of a full/empty form: the fill stands where its page turns out to be sealed, and the store traps 0x06 (R140). -/
def feStore (a : Reg) (off : BitVec 5) (act : XWord → Nat → Nat → M Flow) : M Flow := do
  compareFirst
  let (x, r, o) ← fePlace a off
  if isReadOnly (← get) (.vault r o) 4 then return .trapped 0x06 x 0 0
  else act x r o

/-- LDF (R160). -/
def execLdf (ty : Ty) (d a : Reg) (off : BitVec 5) (s : State) : Host.Outcome State Fault Refusal :=
  insn (.ldf ty d a off) s (feWait a off (.take ty d))

/-- LDFK (R160). -/
def execLdfk (ty : Ty) (d a : Reg) (off : BitVec 5) (s : State) : Host.Outcome State Fault Refusal :=
  insn (.ldfk ty d a off) s (feWait a off (.keep ty d))

/-- STE (R160). -/
def execSte (ty : Ty) (d a : Reg) (off : BitVec 5) (s : State) : Host.Outcome State Fault Refusal :=
  insn (.ste ty d a off) s (do
    let v ← rx d
    feStore a off (fun x r o => feWaitAt x r o (.put (v.setWidth 32))))

/-- STF (R160). -/
def execStf (ty : Ty) (d a : Reg) (off : BitVec 5) (s : State) : Host.Outcome State Fault Refusal :=
  insn (.stf ty d a off) s (do
    let v ← rx d
    feStore a off (fun _ r o => do
      claimMapped r o
      emit (.flag r o (some (v.setWidth 32)) true)
      return .seq))

/-- FEMPTY (R160). -/
def execFempty (a : Reg) (off : BitVec 5) (s : State) : Host.Outcome State Fault Refusal :=
  insn (.fempty a off) s (do
    compareFirst
    let (_, r, o) ← fePlace a off
    emit (.flag r o none false)
    return .seq)

/-- FSTAT (R160, Table 9.3). -/
def execFstat (d a : Reg) (off : BitVec 5) (s : State) : Host.Outcome State Fault Refusal :=
  insn (.fstat d a off) s (do
    let (x, r, o) ← fePlace a off
    let v ← vaultWord x r o
    wx d (BitVec.ofNat 64 (v.f.toNat + 2 * v.d.toNat + 4 * v.v.toNat))
    return .seq)

/-! ### Rings (R162, R163) -/

/-- Ring misuse (R162). -/
def misuse {α : Type} (h : Fin 8) : M α := trap 0x0A 0 h.val

/-- The room and offset of a ring header: a vault address, aligned to 32, within a scratchpad of a running launch. -/
def headerPlace (s : State) (v : Slot) (a : XWord) : Option (Nat × Nat) :=
  if isThreshold s.cur.1 || a.toNat % 32 != 0 || !isCanonical a || !isVaultAddr a then none
  else match vaultRoom (roomOf s.cur.1) a with
    | none => none
    | some r =>
      let off := a.toNat % vaultBytes
      if roomRuns s v.ctx r && inScratchpad s r off then some (r, off) else none

/-- Whether a ring's storage lies within the scratchpad of one core of the header's room (R116, R163). -/
def storageFits (s : State) (r : Nat) (h : RingHead) : Bool :=
  let off := h.base.toNat % vaultBytes
  isCanonical h.base && isVaultAddr h.base && vaultRoom r h.base == some r && h.base.toNat % h.size == 0 &&
  decide (off % 2 ^ 19 + h.size * h.cap ≤ 1024 * (coreAt s (16 * r + off / 2 ^ 19 % 16)).partition)

/-- Whether a header meets Table 7.3 and its storage fits. -/
def headerGood (s : State) (r : Nat) (h : RingHead) : Bool :=
  h.zeros && decide (h.lc ≤ 10) && decide (h.sz ≤ 6) && storageFits s r h

/-- A header that a handle may be bound to, from its address. -/
def readHandle (h : Fin 8) (a : XWord) : M (Nat × Nat × RingHead) := do
  let s ← get
  match headerPlace s (slotAt s s.cur.1 s.cur.2) a with
  | none => misuse h
  | some (r, off) => do
    stallOn (.vault r off) 32
    fillAt a (.vault r off) 32
    let q ← readRing a r off
    let s ← get
    if headerGood s r q then return (r, off, q) else misuse h

/-- The ring of a bound handle. -/
def ringOf (h : Fin 8) : M (Nat × Nat × RingHead) := do
  match (← me).h.get h with
  | none => misuse h
  | some a => readHandle h a

/-- A ring access of `width` bytes at most: it acts at once, or waits (R114, R162). -/
def ringWait (h : Fin 8) (k : BitVec 15) (load : Bool) (width : Nat) (act : Nat → Nat → RingHead → M Flow) (op : M RingOp) : M Flow := do
  compareFirst
  let (r, off, q) ← ringOf h
  if q.cap ≤ k.toNat then misuse h
  else if ringMet q k.toNat (.again load) then do
    let o := q.slotOff (if load then q.c else q.p) k.toNat
    let n := min width q.size
    stallOn (.vault r o) n
    if load then fillAt (q.slotAddr q.c k.toNat) (.vault r o) n
    act r off q
  else do
    let op ← op
    park (.ring r off k.toNat op)

/-- QLD (R162). -/
def execQld (d : Reg) (h : Fin 8) (k : BitVec 15) (s : State) : Host.Outcome State Fault Refusal :=
  insn (.qld d h k) s (ringWait h k true 8 (fun r off _ => ringStep r off k.toNat (.load d)) (return .load d))

/-- Whether a w register is bound to a stream. -/
def isBound (d : Reg) : M Bool := do return (boundTo (← me) d).isSome

/-- QLDV (R162): a bound register pushes the element. -/
def execQldv (d : Reg) (h : Fin 8) (k : BitVec 15) (s : State) : Host.Outcome State Fault Refusal :=
  insn (.qldv d h k) s (ringWait h k true 32
    (fun r off q => do
      if ← isBound d then do
        feed (bytesOfNat 8 (q.slotAddr q.c k.toNat).toNat)
        let bs ← ringBytes (q.slotAddr q.c k.toNat) r (q.slotOff q.c k.toNat) (min 32 q.size)
        ww d (BitVec.ofNat 256 (natOfBytes bs))
        acquire q.scope
        return .seq
      else ringStep r off k.toNat (.loadWide d))
    (do if ← isBound d then return .again true else return .loadWide d))

/-- QST (R162). -/
def execQst (d : Reg) (h : Fin 8) (k : BitVec 15) (s : State) : Host.Outcome State Fault Refusal :=
  insn (.qst d h k) s (do
    let v ← rx d
    ringWait h k false 8 (fun r off q => ringStep r off k.toNat (.store (bytesOfNat (min 8 q.size) v.toNat)))
      (do
        let (_, _, q) ← ringOf h
        return .store (bytesOfNat (min 8 q.size) v.toNat)))

/-- QSTV (R162): a bound register is popped once the slot of the ring is free. -/
def execQstv (d : Reg) (h : Fin 8) (k : BitVec 15) (s : State) : Host.Outcome State Fault Refusal :=
  insn (.qstv d h k) s (ringWait h k false 32
    (fun r off q => do
      let e ← rw d
      ringStep r off k.toNat (.store (bytesOfNat (min 32 q.size) e.toNat)))
    (do
      if ← isBound d then return .again false
      else do
        let (_, _, q) ← ringOf h
        let e ← rw d
        return .store (bytesOfNat (min 32 q.size) e.toNat)))

/-! ### Releases wider than room (R148) -/

/-- Writes back the dirty word at an offset of a mapping of the issuing slot's core (R141): it becomes clean. -/
def backWord (c o : Nat) : M Unit := do
  let s ← get
  backFor (.slot c s.cur.2) c o

/-- Writes back words in order; a fault or a wait leaves the words not yet written dirty (R164). -/
def backWords (act : Nat → M Unit) : List Nat → M (Option Flow)
  | [] => return none
  | o :: t => do
    match ← attempt (act o) with
    | .ok _ => backWords act t
    | .error (.trap cause addr sub info) => return some (.trapped cause addr sub info)
    | .error (.park w due) => do
      modify fun s => post s due
      return some (.wait w)
    | .error e => throw e

/-- The class that the page of a mapped word acts as, where it is known or the translation is at hand; a miss waits. -/
def classOf (c : Nat) (m : Mapping) (o : Nat) : M Nat := do
  let s ← get
  match tfind m.homes ((o - m.off) / 128) with
  | some h => return actsAs s h.pa h.cls
  | none => match slotLookup s c m.ctx (pageOf (mappedVa m o)) with
    | some (e, _) => return actsAs s (frameOf e (mappedVa m o)) (attrClass e.attr)
    | none => park .translation [.translationMiss (hallOf c) ⟨m.ctx, mappedVa m o, .write, .slot c s.cur.2⟩]

/-- A dirty word of a release: written back if it is of class S. -/
def releaseWord (c o : Nat) : M Unit := do
  match isMapped (← get) (roomOf c) o with
  | none => pure ()
  | some m => do
    if (← classOf c m o) = 1 then backWord c o

/-- A release of the issuing slot at a scope, before the rest of its instruction (R148, R168). -/
def released (scope : Tier) (rest : M Flow) : M Flow := do
  let s ← get
  let c := leadCore s s.cur.1 s.cur.2
  let dirty := (coreAt s c).mappings.flatMap (dirtyWords s (roomOf c))
  if scope.code ≤ 2 || dirty.isEmpty then rest
  else do
    compareFirst
    match ← backWords (releaseWord c) dirty with
    | some flow => return flow
    | none => rest

/-- A count of a ring changes, and its waiters are tested (R117): at `at_` in the header. -/
def ringCount (r off at_ value : Nat) : M Flow := do
  feed (placeBytes (.vault r (off + at_)) ++ bytesOfNat 4 value)
  touchVault r (off + at_) 4
  poke (r / 256) (.vault r (off + at_)) (bytesOfNat 4 value)
  testRing r off
  return .seq

/-- QPUB (R162): a release at the ring's span (R118). -/
def execQpub (h : Fin 8) (n : BitVec 15) (s : State) : Host.Outcome State Fault Refusal :=
  insn (.qpub h n) s (do
    compareFirst
    let (r, off, q) ← ringOf h
    if q.free < (n.toNat : Int) then misuse h
    else released q.scope (ringCount r off 4 (q.p + n.toNat)))

/-- QREL (R162). -/
def execQrel (h : Fin 8) (n : BitVec 15) (s : State) : Host.Outcome State Fault Refusal :=
  insn (.qrel h n) s (do
    compareFirst
    let (r, off, q) ← ringOf h
    if q.filled < n.toNat then misuse h
    else released q.scope (ringCount r off 0 (q.c + n.toNat)))

/-- QSTAT (R162). -/
def execQstat (d : Reg) (h : Fin 8) (s : State) : Host.Outcome State Fault Refusal :=
  insn (.qstat d h) s (do
    let (_, _, q) ← ringOf h
    wx d (BitVec.ofNat 64 (q.p * 2 ^ 32 + q.c))
    return .seq)

/-- Whether a header's span takes in the issuing core (R163). -/
def spanHolds (c r : Nat) (q : RingHead) : Bool := if q.span then r / 16 == hallOf c else r == roomOf c

/-- QBIND (R163): every failure is misuse and leaves the handle as it was. -/
def execQbind (h : Fin 8) (d : Reg) (s : State) : Host.Outcome State Fault Refusal :=
  insn (.qbind h d) s (do
    let x ← rx d
    let (r, _, q) ← readHandle h x
    if spanHolds (← myCore) r q then do
      onMe fun v => { v with h := v.h.set h (some x) }
      return .seq
    else misuse h)

end Sys2Proof.Machine
end

