-- ==== Sys2Proof/Machine/Copies.lean ====
section
/-! DEFINITION. Mapped ranges (R139 to R141, R164) and copies (R142, R165). -/

namespace Sys2Proof.Machine

open Sys2Proof

/-! ### Mapped ranges (R164) -/

/-- Operands that must be positive multiples of 128: the first that is not traps 0x03. -/
def positive128 : List XWord → M Unit
  | [] => pure ()
  | v :: t => if v.toNat % 128 = 0 ∧ v ≠ 0 then positive128 t else trap 0x03 v

/-- The room and offset of a range in the issuing core's own scratchpad. -/
def ownRange (a : XWord) (n : Nat) : M (Nat × Nat) := do
  let s ← get
  let c := leadCore s s.cur.1 s.cur.2
  let off := a.toNat % vaultBytes
  if !isThreshold c && isCanonical a && isVaultAddr a && vaultRoom (roomOf c) a == some (roomOf c) &&
      off / 2 ^ 19 == c % 16 && decide (off % 2 ^ 19 + n ≤ 1024 * (coreAt s c).partition) &&
      roomRuns s (slotAt s s.cur.1 s.cur.2).ctx (roomOf c) then
    return (roomOf c, off)
  else trap 0x05 a

/-- Whether two intervals overlap. -/
def overlaps (a n b m : Nat) : Bool := decide (a < b + m) && decide (b < a + n)

/-- Mappings of a core (R139). -/
def mappingCount : Nat := 8

/-- Changes the words of an interval of a vault, logged first in a recoverable superstep. -/
def changeWords (r : Nat) (f : VaultWord → VaultWord) : List Nat → M Unit
  | [] => pure ()
  | o :: t => do
    let v ← vaultWord 0 r o
    touchVault r o 4
    setVault r o (f v)
    changeWords r f t

/-- Whether an interval of addresses is translated as a whole (R127, R128). -/
def isTranslated (g : XWord) (n : Nat) : Bool :=
  let last := g + BitVec.ofNat 64 (n - 1)
  isCanonical g && isCanonical last && !isVaultAddr g && !isVaultAddr last

/-- MAP (R139, R164). -/
def execMap (d a b : Reg) (s : State) : Host.Outcome State Fault Refusal :=
  insn (.map d a b) s (do
    let x ← rx d
    let g ← rx a
    let n ← rx b
    positive128 [x, g, n]
    compareFirst
    let (r, off) ← ownRange x n.toNat
    let s ← get
    let c := leadCore s s.cur.1 s.cur.2
    let q := coreAt s c
    if !isTranslated g n.toNat || decide (mappingCount ≤ q.mappings.length) ||
        q.mappings.any (fun m => overlaps m.off m.len off n.toNat || overlaps m.va.toNat m.len g.toNat n.toNat) then
      trap 0x05 x
    else do
      stallOn (.vault r off) n.toNat
      changeWords r (fun v => { v with v := false, d := false }) (offsets off n.toNat)
      modify fun s => onCore s c fun q => { q with
        mappings := q.mappings ++ [⟨off, g, n.toNat, (slotAt s s.cur.1 s.cur.2).ctx, [], false⟩] }
      return .seq)

/-- The mapping that a range lies within; traps 0x05 at the range where there is none, or where `whole` asks for exactly
one mapping. -/
def rangeMapping (x : XWord) (n : Nat) (whole : Bool) : M (Nat × Nat × Mapping) := do
  let (r, off) ← ownRange x n
  let s ← get
  let c := leadCore s s.cur.1 s.cur.2
  match (coreAt s c).mappings.find? fun m => decide (m.off ≤ off) && decide (off + n ≤ m.off + m.len) with
  | none => trap 0x05 x
  | some m =>
    if whole && !(m.off == off && m.len == n) then trap 0x05 x
    else do
      stallOn (.vault r off) n
      return (r, off, m)

/-- The dirty words of an interval of a vault. -/
def dirtyIn (s : State) (r off n : Nat) : List Nat :=
  match physicalRoom s r with
  | none => []
  | some pr => (offsets off n).filter fun o => (vaultAt s pr o).d

/-- UNMAP (R164). -/
def execUnmap (d a : Reg) (s : State) : Host.Outcome State Fault Refusal :=
  insn (.unmap d a) s (do
    let x ← rx d
    let n ← rx a
    positive128 [x, n]
    compareFirst
    let (r, off, m) ← rangeMapping x n.toNat true
    let s ← get
    let c := leadCore s s.cur.1 s.cur.2
    match ← backWords (backWord c) (dirtyIn s r off n.toNat) with
    | some flow => return flow
    | none => do
      changeWords r unmapWord (offsets off n.toNat)
      modify fun s => onCore s c fun q => { q with mappings := q.mappings.filter fun y => y.off != m.off }
      return .seq)

/-- SYNCW (R164). -/
def execSyncw (d a : Reg) (s : State) : Host.Outcome State Fault Refusal :=
  insn (.syncw d a) s (do
    let x ← rx d
    let n ← rx a
    positive128 [x, n]
    compareFirst
    let (r, off, _) ← rangeMapping x n.toNat false
    let s ← get
    match ← backWords (backWord (leadCore s s.cur.1 s.cur.2)) (dirtyIn s r off n.toNat) with
    | some flow => return flow
    | none => return .seq)

/-- INVW (R164). -/
def execInvw (d a : Reg) (s : State) : Host.Outcome State Fault Refusal :=
  insn (.invw d a) s (do
    let x ← rx d
    let n ← rx a
    positive128 [x, n]
    compareFirst
    let (r, off, _) ← rangeMapping x n.toNat false
    changeWords r (fun v => { v with v := v.v && v.d }) (offsets off n.toNat)
    return .seq)

/-- The global address of a word of a mapped range of a room that runs the slot's context (R164). -/
def mappedAddress (s : State) (x : XWord) : Option XWord :=
  let v := slotAt s s.cur.1 s.cur.2
  if !isCanonical x || !isVaultAddr x then none
  else match vaultRoom (roomOf s.cur.1) x with
    | none => none
    | some r =>
      let o := x.toNat % vaultBytes / 4 * 4
      if roomRuns s v.ctx r then (isMapped s r o).map fun m => mappedVa m o else none

/-- MAPQ (R164). -/
def execMapq (d a : Reg) (s : State) : Host.Outcome State Fault Refusal :=
  insn (.mapq d a) s (do
    let x ← rx a
    wx d ((mappedAddress (← get) x).getD (BitVec.ofNat 64 (2 ^ 63)))
    return .seq)

/-! ### Copies (R165) -/

/-- The longest copy. -/
def copyMax : Nat := 2 ^ 24

/-- Pieces of a copy, each within one granule of its source and of its destination. -/
def copyPieces : Nat → XWord → XWord → Nat → List (XWord × XWord × Nat)
  | 0, _, _, _ => []
  | fuel + 1, src, dst, n =>
    if n = 0 then []
    else
      let m := min n (min (16384 - src.toNat % 16384) (16384 - dst.toNat % 16384))
      (src, dst, m) :: copyPieces fuel (src + BitVec.ofNat 64 m) (dst + BitVec.ofNat 64 m) (n - m)

/-- An interval that a copy reads or writes. -/
structure CopyAccess where
  addr : XWord
  write : Bool
  len : Nat
  deriving DecidableEq, Repr

/-- An access put into a list in the order of addresses. -/
def insertAccess (e : CopyAccess) : List CopyAccess → List CopyAccess
  | [] => [e]
  | f :: t => if e.addr ≤ f.addr then e :: f :: t else f :: insertAccess e t

/-- The accesses of the pieces of a copy, in the order of addresses; a multicast to no room reads its source all the same. -/
def copyAccesses (src : XWord) (n : Nat) (pieces : List (XWord × XWord × Nat)) : List CopyAccess :=
  let reads := if pieces.isEmpty then copyPieces (n / 16384 + 2) src src n else pieces
  (reads.map (fun p => CopyAccess.mk p.1 false p.2.2) ++ pieces.map fun p => CopyAccess.mk p.2.1 true p.2.2).foldr insertAccess []

/-- Where an access of a copy lies, after every check. -/
def copyPlace (e : CopyAccess) : M Place := do
  let p ← locate e.addr (if e.write then .write else .read)
  if e.write then checkReadOnly e.addr p e.len else pure ()
  stallOn p e.len
  if e.write then pure () else fillAt e.addr p e.len
  return p

/-- The places of accesses, in order: the first that fails or waits decides. -/
def copyPlaces : List CopyAccess → M (List (CopyAccess × Place))
  | [] => return []
  | e :: t => do
    let p ← copyPlace e
    let ps ← copyPlaces t
    return (e, p) :: ps

/-- The segments of a copy, checked whole (R165): the lowest failing address decides. -/
def copySegments (src : XWord) (dsts : List XWord) (n : Nat) : M (List Segment) := do
  let pieces := dsts.flatMap fun dst => copyPieces (2 * (n / 16384) + 4) src dst n
  let places ← copyPlaces (copyAccesses src n pieces)
  let at_ := fun (a : XWord) (w : Bool) =>
    ((places.find? fun e => e.1.addr == a && e.1.write == w).map Prod.snd).getD (.mem 0 a.toNat)
  return pieces.map fun (a, b, m) => ⟨at_ a false, a, at_ b true, m⟩

/-- Whether a byte at a place lies in the source of a copy. -/
def inSource (segs : List Segment) (p : Place) (i : Nat) : Bool :=
  segs.any fun g => match g.src, p with
    | .vault r a, .vault r' b => r == r' && decide (a ≤ b + i) && decide (b + i < a + g.len)
    | .mem k a, .mem k' b => k == k' && decide (a ≤ b + i) && decide (b + i < a + g.len)
    | _, _ => false

/-- A place some bytes on. -/
def placePlus : Place → Nat → Place
  | .vault r o, i => .vault r (o + i)
  | .mem k a, i => .mem k (a + i)

/-- Puts a copied word where it goes, with its poison: what goes to memory leaves the room (R364). -/
def putCopied (p : Place) (bs : List Byte) (bad : Bool) : M Unit := do
  match p with
  | .vault r o => do
    claimMapped r o
    emit (.store p bs)
    if bad then poisonAt (.vault r o) 4
  | .mem key pa => emit (.bring key pa bs bad)

/-- Copies words of a segment in ascending order (R165), and answers with the address of the first that is poisoned. A
destination word that is a source word as well takes bytes that the specification leaves undefined. -/
def copyWords (segs : List Segment) (g : Segment) : List Nat → M (Option XWord)
  | [] => return none
  | i :: t => do
    let s ← get
    let (bs, at_) ← peekUnder (unsent s s.cur.1 s.cur.2) g.srcVa (placePlus g.src i) 4 (some (roomOf s.cur.1))
    let bad := at_.isSome
    let free := inSource segs g.dst i
    let bytes := if free then (List.range 4).map (fun j => Config.freeByte s.tick (placeKey g.dst (i + j)))
      else bs
    putCopied (placePlus g.dst i) bytes (bad && !free)
    let first ← copyWords segs g t
    return if bad then some (g.srcVa + BitVec.ofNat 64 i) else first

/-- Performs the segments of a copy. -/
def performCopy (segs : List Segment) : List Segment → M (Option XWord)
  | [] => return none
  | g :: t => do
    let a ← copyWords segs g ((List.range (g.len / 4)).map fun i => 4 * i)
    let b ← performCopy segs t
    return a.orElse fun _ => b

/-- The vault intervals of a copy (R142): one by room for its sources and one for its destinations. -/
def copyIntervals (segs : List Segment) : List (Nat × Nat × Nat) :=
  let spans := fun (pick : Segment → Place) => segs.filterMap fun g => match pick g with
    | .vault r o => some (r, o, o + g.len)
    | .mem _ _ => none
  let join := fun (l : List (Nat × Nat × Nat)) => (ascending (l.map Prod.fst)).map fun r =>
    let mine := l.filter fun e => e.1 == r
    (r, mine.foldl (fun m e => min m e.2.1) vaultBytes, mine.foldl (fun m e => max m e.2.2) 0)
  join (spans Segment.src) ++ join (spans Segment.dst)

/-- The requirements on the operands of a copy (R165). -/
def copyOperands (x a : XWord) (n : Nat) (zeros : Bool) : M Unit := do
  aligned x 4
  aligned a 4
  ensure (n % 4 == 0 && decide (n ≤ copyMax) && zeros) (trap 0x03)

/-- Starts a copy (R165): it is accepted, and goes on by itself. -/
def startCopy (segs : List Segment) : M Flow := do
  let spans := copyIntervals segs
  awaitBoards spans
  let id ← nextSerial
  modify fun s =>
    let s := spans.foldl (fun s (r, lo, hi) => onRoom s r fun q => { q with board := q.board ++ [⟨id, lo, hi⟩] }) s
    let c := leadCore s s.cur.1 s.cur.2
    let s := { s with transfers := s.transfers ++ [⟨id, c, s.cur.2, segs, ascending (spans.map Prod.fst)⟩] }
    post s [.copyTransferComplete id]
  return .seq

/-- CPY (R165). -/
def execCpy (d a b : Reg) (s : State) : Host.Outcome State Fault Refusal :=
  insn (.cpy d a b) s (do
    let x ← rx d
    let y ← rx a
    let n ← rx b
    copyOperands x y n.toNat true
    if n = 0 then return .seq
    else do
      compareFor x (bytesOfNat 8 n.toNat)
      let segs ← copySegments y [x] n.toNat
      startCopy segs)

/-- The address of an offset of a room in the vault window (Table 8.1). -/
def windowAddress (r off : Nat) : XWord := BitVec.ofNat 64 (0xFFFE * 2 ^ 48 + r * 2 ^ 23 + off)

/-- The rooms of a hall that a mask selects (R165). -/
def maskedRooms (hall mask : Nat) : List Nat := ((List.range 16).filter fun i => bitAt mask i).map fun i => 16 * hall + i

/-- MCAST (R165). An xd that is no vault address traps 0x05 there: DESIGN CHOICE (log entry 117). -/
def execMcast (d a b : Reg) (s : State) : Host.Outcome State Fault Refusal :=
  insn (.mcast d a b) s (do
    let x ← rx d
    let y ← rx a
    let m ← rx b
    let n := m.toNat % 2 ^ 32
    copyOperands x y n (m.toNat / 2 ^ 48 == 0)
    if n = 0 then return .seq
    else do
      let c ← myCore
      if !isCanonical x || !isVaultAddr x || (vaultRoom (roomOf c) x).isNone then trap 0x05 x
      else do
        compareFor x (bytesOfNat 8 m.toNat)
        let dsts := (maskedRooms (hallOf c) (m.toNat / 2 ^ 32 % 2 ^ 16)).map fun r =>
          windowAddress r (x.toNat % vaultBytes)
        let segs ← copySegments y dsts n
        startCopy segs)

/-- CPYW (R165): every byte is written as it retires; a poisoned source word is told after it. -/
def execCpyw (d a b : Reg) (s : State) : Host.Outcome State Fault Refusal :=
  insn (.cpyw d a b) s (do
    let x ← rx d
    let y ← rx a
    let n ← rx b
    copyOperands x y n.toNat true
    if n = 0 then return .seq
    else do
      compareFor x (bytesOfNat 8 n.toNat)
      let segs ← copySegments y [x] n.toNat
      awaitBoards (copyIntervals segs)
      match ← performCopy segs segs with
      | some bad => return .after 0x0E bad 5
      | none => return .seq)

/-- Removes a copy's entry from the range scoreboard of a room (R142); tasks that warm with it may run (R245). -/
def retireEntry (s : State) (room id : Nat) : State :=
  let s := onRoom s room fun q => { q with board := q.board.filter fun e => e.id != id }
  let s := (coresOf room).foldl (fun s c =>
    if (coreAt s c).shadows.any fun h => h.waitsOn.contains id then
      post (onCore s c fun q => { q with
        shadows := q.shadows.map fun h => { h with waitsOn := h.waitsOn.filter fun i => i != id } })
        (taskSlots.map fun k => .promotion c k)
    else s) s
  post s (((coresOf room).filter fun c => (coreAt s c).shadows.any fun h => !h.warming.isEmpty).map fun c => .prefetcherFill c)

/-- A copy is complete: its slot keeps the first poisoned source word for its report, and its entries may retire. -/
def copyDone (s : State) (t : Transfer) (bad : Option XWord) : State :=
  let s := { s with transfers := s.transfers.filter fun u => u.id != t.id }
  let s := onSlot s t.core t.slot fun v => { v with copyError := v.copyError.orElse fun _ => bad }
  post s (t.rooms.map fun r => .scoreboardRetire r t.id)

/-- COPY_TRANSFER_COMPLETE (R165): the words of an accepted copy move, as its slot's. -/
def execCopyTransferComplete (id : Nat) (s : State) : Host.Outcome State Fault Refusal :=
  event (.copyTransferComplete id) s (do
    match (← get).transfers.find? fun t => t.id == id with
    | none => pure ()
    | some t => do
      let done ← attempt (asSlot t.core t.slot (performCopy t.segments t.segments))
      match done with
      | .ok bad => modify fun s => copyDone s t bad
      | .error (.trap _ _ _ _) => modify fun s => copyDone s t none
      | .error e => throw e)

/-- SCOREBOARD_RETIRE (R142): an entry whose transfer is complete leaves the scoreboard. -/
def execScoreboardRetire (room id : Nat) (s : State) : Host.Outcome State Fault Refusal :=
  event (.scoreboardRetire room id) s (modify fun s =>
    if s.transfers.any fun t => t.id == id then s else retireEntry s room id)

end Sys2Proof.Machine
end

