-- ==== Sys2Proof/Machine/Atomics.lean ====
section
/-! DEFINITION. Atomics and the retry latch (R21, R166, R337, R338, R365), accumulations (R167), ordering and WSIG (R168 to
R170), and what arrives at a home from the host and from other houses (R187, R189, R336, R346). -/

namespace Sys2Proof.Machine

open Sys2Proof

/-! ### Atomics at their home (R166, R337, R365) -/

/-- The new value of an atomic, by its minor (R166). -/
def atomNew (minor : Nat) (ty : Ty) (old b expected : Nat) : Nat :=
  match minor with
  | 1 => if ty.isInt then (old + b) % 2 ^ ty.bits else (fAdd (fmtOf ty) 0 old b).bits
  | 2 => old &&& b
  | 3 => old ||| b
  | 4 => old ^^^ b
  | 5 => if intOf ty old ≤ intOf ty b then old else b
  | 6 => if intOf ty old ≤ intOf ty b then b else old
  | 7 => b
  | 8 => if old = expected then b else old
  | _ => old

/-- The minor of an instruction of format A. -/
def minorOf (i : Instr) : Nat := (encode i).toNat / 16 % 128

/-- Whether the host performs an atomic of a size on a page of a class (R335, R337): with CC = 1 and a class D or S page
it is done in the host cache, else the root port must complete AtomicOps of its width. -/
def hostAtomic (s : State) (cls size : Nat) : Bool :=
  (s.hpCtl.getLsbD 0 && cls != 2) || (size == 8 && s.hpCtl.getLsbD 2) || (size == 4 && s.hpCtl.getLsbD 1)

/-- How an atomic fares at its home: the old value; or a fault, and whether the request may have been performed. -/
inductive AtHome where
  | done (old : Nat)
  | fails (cause : Nat) (sent : Bool)
  deriving DecidableEq, Repr

/-- Entries of an atomic journal (R365). -/
def journalSize : Nat := 4096

/-- Whether a request is the one a journal entry records. -/
def sameRequest (q : Latch) (e : JournalEntry) : Bool :=
  e.place == q.place && (encode e.instr).toNat % 2048 == (encode q.instr).toNat % 2048 &&
    e.operand == q.operand && e.expected == q.expected

/-- Where an atomic is journaled: its launch and hall, if its slot is in a gang and the word is not a vault word (which the
cellar logs). -/
def journalOf (s : State) (v : Slot) (p : Place) : Option (Nat × Nat) :=
  match gangOf s v, p with
  | some (l, _), .mem _ pa => some (l, homeHall s pa)
  | _, _ => none

/-- The superstep number of a launch. -/
def seqOf (s : State) (l : Nat) : Nat := ((launchAt s l).map Launch.seq).getD 0

/-- The journal entry of a slot's atomic of an ordinal. -/
def journaled (s : State) (l hall c : Nat) (k : Fin 4) (ordinal : Nat) : Option JournalEntry :=
  (hallAt s hall).journal.find? fun e => e.launch == l && e.seq == seqOf s l && e.core == c && e.slot == k &&
    e.ordinal == ordinal

/-- Records an atomic of a recoverable superstep; a full journal makes the superstep non-recoverable (R365, R367). -/
def record (hall : Nat) (e : JournalEntry) : M Unit := do
  let s ← get
  if (recoverable s (← me)).isNone then pure ()
  else if (hallAt s hall).journal.length < journalSize then
    set (onHall s hall fun h => { h with journal := h.journal ++ [e] })
  else makeNonRecoverable e.launch

/-- A gang in a recoverable superstep rolls back, twice at most (R358); after that the program `act`. -/
def rollOrElse {α : Type} (l : Nat) (act : M α) : M α := do
  match launchAt (← get) l with
  | some r => if r.rollbacks < 2 then throw (.retry [.superstepRollback (l / 1024) (l % 1024)]) else act
  | none => act

/-- The word of an atomic is read and written in one step of its order. A poisoned old value is consumed (R358) as a fault of the
request, which its home returns unperformed (R166, R324; log entry 39). -/
def atomStep (q : Latch) (ty : Ty) : M AtHome := do
  let (bs, bad) ← peek q.addr q.place ty.size (some (roomOf (← myCore)))
  let s ← get
  if bad then
    match recoverable s (slotAt s s.cur.1 s.cur.2) with
    | some l => rollOrElse l (return .fails 0x0E false)
    | none => return .fails 0x0E false
  else do
    let old := natOfBytes bs
    match q.place with
    | .vault r off => touchVault r off ty.size
    | .mem _ _ => pure ()
    claimPlace q.place ty.size
    poke (wingOf s.cur.1) q.place
      (bytesOfNat ty.size (atomNew (minorOf q.instr) ty old (q.operand.toNat % 2 ^ ty.bits) (q.expected.toNat % 2 ^ ty.bits)))
      (some (roomOf s.cur.1))
    return .done old

/-- Whether an effect that has not left yet writes bytes of an interval of memory. -/
def writesIn (key pa n : Nat) : Effect → Bool
  | .store (.mem k a) bs => k == key && decide (a < pa + n) && decide (pa < a + bs.length)
  | .bring k a bs _ => k == key && decide (a < pa + n) && decide (pa < a + bs.length)
  | _ => false

/-- The stores to the word of an atomic that the room of its slot holds for its launch, in order (R364). -/
def heldStores (s : State) (q : Latch) (ty : Ty) : List Effect :=
  match recoverable s (slotAt s s.cur.1 s.cur.2), q.place with
  | some l, .mem key pa => ((heldOf s l (roomOf s.cur.1)).map Held.effect).filter (writesIn key pa ty.size)
  | _, _ => []

/-- Whether held stores write every byte of the word of an atomic. -/
def coversWord (es : List Effect) (q : Latch) (ty : Ty) : Bool :=
  match q.place with
  | .mem key pa => (List.range ty.size).all fun i => es.any (writesIn key (pa + i) 1)
  | .vault _ _ => false

/-- An atomic on a word that held stores write whole (log entry 40): it reads what they leave (R177), and its own write is held after
them, which makes it one step with them at the commit (R184). -/
def atomHeld (q : Latch) (ty : Ty) (es : List Effect) : M AtHome := do
  let (bs, bad) ← peekUnder es q.addr q.place ty.size none
  match bad, recoverable (← get) (← me) with
  | some _, some l => rollOrElse l (return .fails 0x0E false)
  | some _, none => return .fails 0x0E false
  | none, _ => do
    let old := natOfBytes bs
    emit (.store q.place (bytesOfNat ty.size
      (atomNew (minorOf q.instr) ty old (q.operand.toNat % 2 ^ ty.bits) (q.expected.toNat % 2 ^ ty.bits))))
    return .done old

/-- Held stores that write a part of the word of an atomic go to their home before it, and the superstep becomes non-recoverable (log
entry 40). -/
def holdsFirst (es : List Effect) : M Unit := do
  match recoverable (← get) (← me) with
  | some l => if es.isEmpty then pure () else makeNonRecoverable l
  | none => pure ()

/-- What stops an atomic before it is performed: a retired key, or a host page that no method serves (R166, R338). -/
def turnedAway (s : State) (q : Latch) (ty : Ty) : Option Nat :=
  match q.place with
  | .vault _ _ => none
  | .mem key pa =>
    if s.krBusy && key == s.krKey then some 0x05
    else if spaceOf pa == .host && !hostAtomic s q.cls ty.size then some 0x12
    else none

/-- An atomic of the issuing slot at its home. A replayed one returns what the journal records (R365). -/
def atomHome (q : Latch) (ty : Ty) : M AtHome := do
  let s ← get
  let v ← me
  let c := leadCore s s.cur.1 s.cur.2
  let ordinal := v.atomics + 1
  match turnedAway s q ty with
  | some cause => return .fails cause false
  | none =>
    let es := heldStores s q ty
    if coversWord es q ty then do
      let r ← atomHeld q ty es
      onMe fun v => { v with atomics := ordinal }
      return r
    else do
    holdsFirst es
    match journalOf s v q.place with
    | none => do
      let r ← atomStep q ty
      onMe fun v => { v with atomics := ordinal }
      return r
    | some (l, hall) => match journaled s l hall c s.cur.2 ordinal with
      | some e =>
        if sameRequest q e then do
          onMe fun v => { v with atomics := ordinal }
          return .done e.old.toNat
        else trap 0x0E q.addr 0 2
      | none => do
        let r ← atomStep q ty
        onMe fun v => { v with atomics := ordinal }
        match r with
        | .done old => do
          record hall ⟨l, seqOf s l, c, s.cur.2, ordinal, q.place, q.instr, q.operand, q.expected, BitVec.ofNat 64 old⟩
        | .fails _ _ => pure ()
        return r

/-- A place and the class of its page, for an access of the issuing slot. -/
def locateClass (x : XWord) (acc : Access) (kind : Kind := .plain) : M (Place × Nat) := do
  let s ← get
  if isThreshold s.cur.1 || !isCanonical x || isVaultAddr x then do
    let p ← locate x acc
    return (p, 0)
  else do
    let c := leadCore s s.cur.1 s.cur.2
    let (key, pa, attr) ← translate (hallOf c) (slotAt s s.cur.1 s.cur.2).ctx (.slot c s.cur.2) x acc kind
    return (.mem key pa, attrClass attr)

/-- An atomic that faults away from its core stays in the latch, and its slot parks (R21, R166). -/
def latchFault (q : Latch) (cause : Nat) (sent : Bool) : M Flow := do
  let s ← get
  onMe fun v => { v with latch := some { q with sent := sent }, wait := some .latch }
  modify fun t => post t [.atomicLatchFault (leadCore s s.cur.1 s.cur.2) s.cur.2 (BitVec.ofNat 8 cause) sent]
  return .seq

/-- An ordinary atomic (R166). A mapped word is filled first, and the fill stands where its page turns out to be sealed
(R140). Its single result goes to both cores of a pair (R172). -/
def atomic (i : Instr) (ty : Ty) (d a b : Reg) (cas : Bool) : M Flow := do
  let x ← rx a
  let v ← rx b
  let e ← if cas then rx d else pure 0
  aligned x ty.size
  compareFor x (bytesOfNat ty.size v.toNat ++ if cas then bytesOfNat ty.size e.toNat else [])
  let (p, cls) ← locateClass x .update .atomic
  stallOn p ty.size
  fillAt x p ty.size
  if isReadOnly (← get) p ty.size then return .trapped 0x06 x 0 0
  else do
    countRemote p
    let q : Latch := ⟨false, i, x, p, cls, v, e⟩
    match ← atomHome q ty with
    | .done old => do
      wx d (extTy ty old)
      return .seq
    | .fails cause sent => latchFault q cause sent

/-- AADD (R166). -/
def execAadd (ty : Ty) (d a b : Reg) (s : State) : Host.Outcome State Fault Refusal :=
  insn (.aadd ty d a b) s (atomic (.aadd ty d a b) ty d a b false)

/-- AAND (R166). -/
def execAand (ty : Ty) (d a b : Reg) (s : State) : Host.Outcome State Fault Refusal :=
  insn (.aand ty d a b) s (atomic (.aand ty d a b) ty d a b false)

/-- AOR (R166). -/
def execAor (ty : Ty) (d a b : Reg) (s : State) : Host.Outcome State Fault Refusal :=
  insn (.aor ty d a b) s (atomic (.aor ty d a b) ty d a b false)

/-- AXOR (R166). -/
def execAxor (ty : Ty) (d a b : Reg) (s : State) : Host.Outcome State Fault Refusal :=
  insn (.axor ty d a b) s (atomic (.axor ty d a b) ty d a b false)

/-- AMIN (R166). -/
def execAmin (ty : Ty) (d a b : Reg) (s : State) : Host.Outcome State Fault Refusal :=
  insn (.amin ty d a b) s (atomic (.amin ty d a b) ty d a b false)

/-- AMAX (R166). -/
def execAmax (ty : Ty) (d a b : Reg) (s : State) : Host.Outcome State Fault Refusal :=
  insn (.amax ty d a b) s (atomic (.amax ty d a b) ty d a b false)

/-- ASWP (R166). -/
def execAswp (ty : Ty) (d a b : Reg) (s : State) : Host.Outcome State Fault Refusal :=
  insn (.aswp ty d a b) s (atomic (.aswp ty d a b) ty d a b false)

/-- CAS (R166): xd holds the expected value, and takes the old one. -/
def execCas (ty : Ty) (d a b : Reg) (s : State) : Host.Outcome State Fault Refusal :=
  insn (.cas ty d a b) s (atomic (.cas ty d a b) ty d a b true)

/-! ### The retry latch (R21, R319, R324) -/

/-- The type of a latched atomic. -/
def latchTy (q : Latch) : Ty := (Ty.ofCode ((encode q.instr).toNat % 16)).getD .i64

/-- The destination of a latched atomic. -/
def latchDest (q : Latch) : Reg := Fin.ofNat 32 ((encode q.instr).toNat / 2 ^ 21)

/-- A slot with a valid latch takes trap 0x11 (R21): a task slot's goes to the supervisor slot, and the atomic has left
the core, so trap.pc is the next instruction (R29). -/
def latchTrap (s : State) (c : Nat) (k : Fin 4) (q : Latch) (cause : Nat) (sent : Bool) : State :=
  let one := fun (s : State) (d : Nat) => onSlot s d k fun v => { v with
    latch := v.latch.map fun l => { l with sent := sent }, wait := if modeOf d k = .user then v.wait else none }
  let s := match followerOf s c k with
    | some f => one (one s c) f
    | none => one s c
  let v := slotAt s c k
  enterTrap s c k (if v.wait = some .delivery then v.trap.pc else v.pc) 0x11 q.addr 0 cause

/-- ATOMIC_LATCH_FAULT (R21, R166): the fault of an atomic that has left its core is reported; in a pair once a compare has
agreed (R25). -/
def execAtomicLatchFault (c : Nat) (k : Fin 4) (cause : BitVec 8) (sent : Bool) (s : State) :
    Host.Outcome State Fault Refusal :=
  event (.atomicLatchFault c k cause sent) s (do
    let v := slotAt (← get) c k
    match v.latch with
    | none => pure ()
    | some q =>
      if v.wait = some .latch then do
        asSlot c k agreedFirst
        modify fun s => latchTrap s c k q cause.toNat sent)

/-- The latch empties, and a slot that waits for it goes on, at its trap.pc once its fault has been delivered (R319, R324); a delivery may then come to the supervisor slot (R318). -/
def emptyLatch : M Unit := do
  let s ← get
  let lead := leadCore s s.cur.1 s.cur.2
  let pending := s.agenda.any fun t => match t with
    | .event (.atomicLatchFault c k _ _) => c == lead && k == s.cur.2
    | _ => false
  onMe fun v =>
    if v.wait ≠ some .latch then { v with latch := none }
    else if pending then { v with latch := none, wait := none }
    else { v with latch := none, wait := none, pc := v.trap.pc, loops := loopKeep v.trap.pc v.loops }
  modify fun s => if s.cur.2 = 3 then post s [.supervisorDelivery s.cur.1] else s

/-- A latched request at its home once more: a journal that it diverges from faults it again (R365). -/
def requestAgain (q : Latch) : M AtHome := do
  match ← attempt (atomHome q (latchTy q)) with
  | .ok r => return r
  | .error (.trap cause _ _ _) => return .fails cause false
  | .error e => throw e

/-- The response of a latched atomic (R324): its old value, or none where it is performed now. It writes the destination
and empties the latch; a request that faults again refills it and is delivered once more. -/
def latchResponse (c : Nat) (k : Fin 4) (old : Option XWord) : M Unit := do
  let s ← get
  match (slotAt s c k).latch with
  | none => pure ()
  | some q =>
    if !q.sent then pure ()
    else do
      let r ← asSlot c k (mirrored (do
        let r ← match old with
          | some v => pure (AtHome.done v.toNat)
          | none => requestAgain q
        match r with
        | .done v => do
          wx (latchDest q) (extTy (latchTy q) v)
          emptyLatch
        | .fails _ _ => pure ()
        return r))
      match r with
      | .done _ => pure ()
      | .fails cause sent => do
        asSlot c k agreedFirst
        modify fun s => latchTrap s c k q cause sent

/-- ATOMIC_RESPONSE (R324). -/
def execAtomicResponse (c : Nat) (k : Fin 4) (old : Option (BitVec 64)) (s : State) : Host.Outcome State Fault Refusal :=
  event (.atomicResponse c k old) s (latchResponse c k old)

/-! ### Accumulations (R144, R167) -/

/-- An accumulation (R167): class D translated pages only; its room accepts it. -/
def accumulate (op : AccOp) (ty : Ty) (a b : Reg) : M Flow := do
  let x ← rx a
  let v ← rx b
  aligned x ty.size
  let p ← locate x .write .accumulate
  match p with
  | .vault _ _ => trap 0x05 x
  | .mem key pa =>
    if spaceOf pa = .host ∨ spaceOf pa = .fabric then trap 0x05 x
    else do
      countRemote p
      sendEffect (.accumulate key pa op ty (BitVec.ofNat 64 (v.toNat % 2 ^ ty.bits)))
      return .seq

/-- ACCA (R167). -/
def execAcca (ty : Ty) (a b : Reg) (s : State) : Host.Outcome State Fault Refusal :=
  insn (.acca ty a b) s (accumulate .add ty a b)

/-- ACCN (R167). -/
def execAccn (ty : Ty) (a b : Reg) (s : State) : Host.Outcome State Fault Refusal :=
  insn (.accn ty a b) s (accumulate .min ty a b)

/-- ACCX (R167). -/
def execAccx (ty : Ty) (a b : Reg) (s : State) : Host.Outcome State Fault Refusal :=
  insn (.accx ty a b) s (accumulate .max ty a b)

/-! ### Ordering (R168, R169) -/

/-- FENCE (R168). A pair's earlier stores leave its release buffer before a full one lets later loads read. -/
def execFence (kind : FenceKind) (scope : Tier) (s : State) : Host.Outcome State Fault Refusal :=
  insn (.fence kind scope) s (match kind with
    | .acq => do
      acquire scope
      return .seq
    | .rel => released scope (return .seq)
    | .full => do
      agreedFirst
      released scope (do
        acquire scope
        return .seq))

/-- LDA (R168): a load, then an acquire. -/
def execLda (ty : Ty) (d a : Reg) (scope : Tier) (s : State) : Host.Outcome State Fault Refusal :=
  insn (.lda ty d a scope) s (do
    let x ← rx a
    aligned x ty.size
    let flow ← loadScalar ty d x
    acquire scope
    return flow)

/-- STL (R168): a release, then a store. -/
def execStl (ty : Ty) (d a : Reg) (scope : Tier) (s : State) : Host.Outcome State Fault Refusal :=
  insn (.stl ty d a scope) s (do
    let x ← rx a
    aligned x ty.size
    let _ ← storeParts x ty.size
    released scope (storeScalar ty d x))

/-- Whether a laundry still serves kicks of a slot. -/
def kicksOf (s : State) (c : Nat) (k : Fin 4) : Bool :=
  servesKicks s c k || (hallAt s (hallOf c)).kicks.any fun q => q.from_ == some (c, k)

/-- Whether a place lies in a fabric window. -/
def inWindowSpace : Place → Bool
  | .mem _ pa => spaceOf pa == .fabric
  | .vault _ _ => false

/-- A copy of a slot to or from a fabric window that is not delivered yet. -/
def windowTransfer (s : State) (c : Nat) (k : Fin 4) : Option Nat :=
  (s.transfers.find? fun t => t.core == c && t.slot == k &&
    t.segments.any fun g => inWindowSpace g.src || inWindowSpace g.dst).map Transfer.id

/-- What FENCEP waits for on a path (R169): path C as a full FENCE does. In a pair, pushes, accesses to host memory and WSIGs have
left the release buffer. -/
def awaitPath : Path → M Unit
  | .hearth => do
    let s ← get
    let c := leadCore s s.cur.1 s.cur.2
    ensure (commandsOf s c s.cur.2).isEmpty
      (throw (.later [.commandStart (roomOf c), .commandRetire (roomOf c)]))
  | .laundry => do
    let s ← get
    ensure (!kicksOf s (leadCore s s.cur.1 s.cur.2) s.cur.2) (throw (.later []))
  | .copy => do
    let s ← get
    awaitTransfers (leadCore s s.cur.1 s.cur.2) s.cur.2
  | .stream => do
    agreedFirst
    onMe fun v => { v with s := v.s.map fun q => { q with fetched := [] } }
  | .core => agreedFirst
  | .fabric => do
    agreedFirst
    let s ← get
    match windowTransfer s (leadCore s s.cur.1 s.cur.2) s.cur.2 with
    | some id => throw (.retry [.copyTransferComplete id])
    | none => pure ()
  | .host => agreedFirst

/-- The report that FENCEP makes where it names M (R165, R169). -/
def copyReport (paths : List Path) : M Flow := do
  match (← me).copyError with
  | some x =>
    if paths.contains .copy then do
      onMe fun v => { v with copyError := none }
      return .after 0x0E x 5
    else return .seq
  | none => return .seq

/-- FENCEP (R169). -/
def execFencep (p1 p2 : Path) (scope : Tier) (s : State) : Host.Outcome State Fault Refusal :=
  insn (.fencep p1 p2 scope) s (do
    awaitPath p1
    awaitPath p2
    if p1 = .core ∨ p2 = .core then
      released scope (do
        acquire scope
        copyReport [p1, p2])
    else copyReport [p1, p2])

/-! ### WSIG (R170, R368) -/

/-- The launch that a WSIG's tuple names: its record and its arm. -/
def wsigLaunch (v : Slot) : Nat :=
  match launchOf v with
  | none => 0
  | some l => 2 ^ 32 * (l + 1) + v.arm.toNat

/-- The superstep and the ordinal of a slot's next WSIG. -/
def wsigOrder : M (Nat × Nat) := do
  let s ← get
  match gangOf s (slotAt s s.cur.1 s.cur.2) with
  | some (_, r) => do
    onMe fun v => { v with wsigs := v.wsigs + 1 }
    return (r.seq, (← me).wsigs)
  | none => do
    let n ← nextSerial
    return (0, n)

/-- The class that the page of a counter acts as. -/
def signalClass (s : State) (q : Place) (cls : Nat) : Nat :=
  match q with
  | .mem _ pa => actsAs s pa cls
  | .vault _ _ => cls

/-- WSIG (R170): the payload, then the counter, on a class D page. -/
def execWsig (ty : Ty) (d a b : Reg) (s : State) : Host.Outcome State Fault Refusal :=
  insn (.wsig ty d a b) s (do
    let g ← rx d
    let x ← rx a
    let v ← rx b
    aligned g 8
    aligned x ty.size
    ensure (isThreshold (← myCore) || !isVaultAddr g) (trap 0x05 g)
    let (q, cls) ← locateClass g .update
    let window := match q with
      | .mem _ pa => spaceOf pa == .fabric
      | .vault _ _ => false
    ensure (window || signalClass (← get) q cls == 0) (trap 0x05 g)
    let p ← locate x .write
    checkReadOnly x p ty.size
    stallOn p ty.size
    claimPlace p ty.size
    let (seq, ordinal) ← wsigOrder
    let s ← get
    sendEffect (.wsig ⟨s.house, leadCore s s.cur.1 s.cur.2, s.cur.2.val, wsigLaunch (slotAt s s.cur.1 s.cur.2), seq, ordinal,
      ty.size, v, p, q⟩)
    return .seq)

/-- The wing that homes a place. -/
def homeWing (s : State) : Place → Nat
  | .vault r _ => r / 256
  | .mem _ pa => homeHall s pa / 16

/-- WSIG_DELIVERY (R368): an arriving WSIG is applied, or dropped as a duplicate. -/
def execWsigDelivery (m : WsigMsg) (s : State) : Host.Outcome State Fault Refusal :=
  event (.wsigDelivery m) s (applyWsig (homeWing s m.payload) m)

/-! ### What arrives at a home (R187, R189, R336, R346) -/

/-- Whether another house or the host may reach a physical address: device DRAM, and for the host expander memory. -/
def reachesDevice (pa : Nat) : Bool := populated pa && (spaceOf pa == .dram || spaceOf pa == .expander)

/-- The context whose sealed page has bytes of an interval of physical addresses, as translations have named it (R272; log entry
106). -/
def sealedOwner (s : State) (pa n : Nat) : Option Nat :=
  ((s.sealedPages ++ s.halls.flatMap fun (_, h) => h.tlb).find? fun e => attrSL e.attr && inFrames e pa n).map TlbEntry.ctx

/-- FABRIC_STORE_ARRIVAL (R189): a store of another house, as a local write of its home's wing. A sealed page is not written
(R272). -/
def execFabricStoreArrival (link : Nat) (pa : BitVec 52) (data : List (BitVec 8)) (s : State) :
    Host.Outcome State Fault Refusal :=
  event (.fabricStoreArrival link pa data) s (
    if reachesDevice pa.toNat && (sealedOwner s pa.toNat data.length).isNone then poke (homeHall s pa.toNat / 16) (.mem 0 pa.toNat) data else pure ())

/-- The component of a vector clock. -/
def clockAt (s : State) (u v : Nat) : Nat := tget 0 s.vclocks (16 * u + v)

/-- Whether a wing may apply a remote write now (R187). -/
def mayApply (s : State) (m : RemoteWrite) : Bool :=
  let u := m.target.val
  let w := m.source.val
  (List.range 16).all fun v => v == u ||
    (if v = w then decide (m.stamp.getD w 0 ≤ clockAt s u w + 1) else decide (m.stamp.getD v 0 ≤ clockAt s u v))

/-- A wing's clock takes in a write's stamp. -/
def raiseClock (s : State) (m : RemoteWrite) : State :=
  { s with
    vclocks := (List.range 16).foldl (fun t v =>
      tput t (16 * m.target.val + v) (max (tget 0 t (16 * m.target.val + v)) (m.stamp.getD v 0))) s.vclocks
    remotes := s.remotes.filter (fun x => x != m) }

/-- REMOTE_WRITE_APPLY (R187): the first write that may be applied raises the wing's clock. -/
def execRemoteWriteApply (wing : Fin 16) (s : State) : Host.Outcome State Fault Refusal :=
  event (.remoteWriteApply wing) s (modify fun s =>
    match s.remotes.find? fun m => m.target == wing && mayApply s m with
    | none => s
    | some m =>
      let s := raiseClock s m
      if s.remotes.any fun m => m.target == wing && mayApply s m then post s [.remoteWriteApply wing] else s)

/-- HOST_MEM_ACCESS (R336, R193, R272): a read or a write of the host enters the word's order at its home. A write to a
sealed page has no effect, and the host is told. -/
def execHostMemAccess (key : BitVec 10) (pa : BitVec 52) (len : Nat) (data : Option (List (BitVec 8))) (s : State) :
    Host.Outcome State Fault Refusal :=
  event (.hostMemAccess key pa len data) s (
    if !reachesDevice pa.toNat then pure ()
    else match data with
      | some bs => match sealedOwner s pa.toNat bs.length with
        | some ctx => modify fun s => postEvent s 6 ctx 0 (pa.setWidth 64) 0
        | none => poke (homeHall s pa.toNat / 16) (.mem key.toNat pa.toNat) bs
      | none => do
        let _ ← peek 0 (.mem key.toNat pa.toNat) len
        pure ())

/-- FABRIC_ACCESS_ARRIVAL (R346): a load, an atomic or a copy read of another house is performed at its home. -/
def execFabricAccessArrival (link : Nat) (m : FabricAccess) (s : State) : Host.Outcome State Fault Refusal :=
  event (.fabricAccessArrival link m) s (match m with
    | .load pa n => do
      if reachesDevice pa then do
        let _ ← peek 0 (.mem 0 pa) n
        pure ()
    | .copyRead pa n => do
      if reachesDevice pa then do
        let _ ← peek 0 (.mem 0 pa) n
        pure ()
    | .atomic minor ty pa operand expected => do
      if reachesDevice pa then do
        let (bs, bad) ← peek 0 (.mem 0 pa) ty.size
        if bad || (sealedOwner s pa ty.size).isSome then pure ()
        else poke (homeHall s pa / 16) (.mem 0 pa) (bytesOfNat ty.size
          (atomNew minor ty (natOfBytes bs) (operand.toNat % 2 ^ ty.bits) (expected.toNat % 2 ^ ty.bits))))

end Sys2Proof.Machine
end

