-- ==== Sys2Proof/Machine/Barriers.lean ====
section
/-! DEFINITION. The barrier instructions (R120 to R123, R171). -/

namespace Sys2Proof.Machine

open Sys2Proof

/-- The barrier of the issuing slot's own instance at a tier (R171): its launch and its key. An estate barrier asks for a
launch that spans houses. -/
def barrierOf (tier : Tier) (n : BitVec 5) : M (Nat × Launch × Nat) := do
  let s ← get
  let v ← me
  match launchOf v with
  | none => trap 0x0D
  | some l => match launchAt s l with
    | none => trap 0x0D
    | some r =>
      if tier = .estate ∧ r.estate.length ≤ 1 then trap 0x0D
      else return (l, r, barrierKey tier (unitOf tier s.cur.1) n.toNat)

/-- Arrives at a barrier with a value (R122, R123): a pair arrives once, as its leader. -/
def arriveWith (tier : Tier) (n : BitVec 5) (x : XWord) : M Unit := do
  let (l, _, key) ← barrierOf tier n
  let s ← get
  let c := leadCore s s.cur.1 s.cur.2
  let k := s.cur.2.val
  feed (bytesOfNat 8 key ++ bytesOfNat 8 x.toNat)
  ensure (← arriveAt l key (some (4 * c + k)) (some (partialKey s.house c k, x)) none) (trap 0x0D)

/-- Leaves a barrier whose done count differs from the slot's seen count, or waits for it (R122). -/
def leaveOrWait (tier : Tier) (n : BitVec 5) (result : Option Reg) : M Flow := do
  let (l, r, key) ← barrierOf tier n
  let v ← me
  let index := seenIndex tier n.toNat
  let b := barrierAt r key
  if b.done ≠ tget 0 v.seen index then do
    onMe fun v => { v with seen := tput v.seen index b.done }
    match result with
    | some d => wx d b.result
    | none => pure ()
    acquire tier
    return .seq
  else return .wait (.barrier l key index result)

/-- BINIT (R171): misuse while arrivals are counted, or with a reserved word. Of an estate barrier that another house holds it goes there
(R347; log entry 109). -/
def execBinit (tier : Tier) (n : BitVec 5) (a : Reg) (s : State) : Host.Outcome State Fault Refusal :=
  insn (.binit tier n a) s (do
    let x ← rx a
    compareFirst
    let (l, r, key) ← barrierOf tier n
    let b := barrierAt r key
    let w : Word := x.setWidth 32
    if b.arrived ≠ 0 ∨ barrierReserved w then trap 0x0D
    else do
      modify fun s =>
        let s := onLaunch s l fun r => { r with barriers := tput r.barriers key { b with config := w } }
        if isEstate key && estateAbove s r then { s with estateSent := s.estateSent ++ [.init (l / 1024) (l % 1024) (key % 64) w] } else s
      return .seq)

/-- BARR (R171): a release at the tier. -/
def execBarr (tier : Tier) (n : BitVec 5) (a : Reg) (s : State) : Host.Outcome State Fault Refusal :=
  insn (.barr tier n a) s (do
    let x ← rx a
    compareFirst
    released tier (do
      arriveWith tier n x
      return .seq))

/-- BWAIT (R171). -/
def execBwait (tier : Tier) (n : BitVec 5) (s : State) : Host.Outcome State Fault Refusal :=
  insn (.bwait tier n) s (leaveOrWait tier n none)

/-- BARRW (R171): an arrival, and then as BWAIT. -/
def execBarrw (d : Reg) (tier : Tier) (n : BitVec 5) (a : Reg) (s : State) : Host.Outcome State Fault Refusal :=
  insn (.barrw d tier n a) s (do
    let x ← rx a
    compareFirst
    released tier (do
      arriveWith tier n x
      leaveOrWait tier n (some d)))

/-- BREAD (R171). -/
def execBread (d : Reg) (tier : Tier) (n : BitVec 5) (s : State) : Host.Outcome State Fault Refusal :=
  insn (.bread d tier n) s (do
    let (_, r, key) ← barrierOf tier n
    wx d (barrierAt r key).result
    return .seq)

end Sys2Proof.Machine
end

