-- ==== Sys2Proof/Machine/Leaves.lean ====
section
/-! DEFINITION. The arithmetic of a hearth (R65, R66, R202 to R204, R225): the leaves of quadtrees as exact values, the
products of leaf pairs, sums of quadrants, scaled sums and conversions. Each operation gathers the flags it raises. -/

namespace Sys2Proof.Machine

open Sys2Proof

/-! ### Exact values with flags -/

/-- A computation that gathers flags (Table 4.6). -/
abbrev Flagged := StateM Nat

/-- Raises flags. -/
def raiseFlags (n : Nat) : Flagged Unit := modify fun f => f ||| n

/-- The value of an encoding; a NaN's fraction is brought to the width of f64 (R53). -/
def valueOf (f : Fmt) (b : Nat) : FVal :=
  match unpack f b with
  | .nan s q t => .nan s q ((if f.e4m3 then 7 else t) * 2 ^ (52 - f.fw))
  | v => v

/-- The default NaN. -/
def nanVal : FVal := .nan false true (2 ^ 51)

/-- Zero and one. -/
def zeroVal : FVal := .fin false 0 0
def oneVal : FVal := .fin false 1 0

/-- The first NaN of some operands, made quiet (R52). -/
def firstNan (vs : List FVal) : Option FVal := vs.findSome? fun v => match v with
  | .nan s _ t => some (.nan s true (t ||| 2 ^ 51))
  | _ => none

/-- The first NaN of an operation's operands, with NV for a signalling one (R52); else what the operation gives. -/
def quietOr (vs : List FVal) (op : Flagged FVal) : Flagged FVal := do
  if vs.any FVal.isSignal then raiseFlags flagNV
  match firstNan vs with
  | some v => return v
  | none => op

/-- An invalid operation: the default NaN and NV (R52, Table 4.6). -/
def invalidExact : Flagged FVal := do
  raiseFlags flagNV
  return nanVal

/-- An exact product. -/
def mulExact (a b : FVal) : Flagged FVal := quietOr [a, b] (do
  match mulVals a b with
  | some v => return v
  | none => invalidExact)

/-- An exact sum; the sum of zeros of two signs is +0. -/
def addExact (a b : FVal) : Flagged FVal := quietOr [a, b] (do
  match a, b with
  | .inf s, .inf t => if s = t then return .inf s else invalidExact
  | .inf s, _ => return .inf s
  | _, .inf t => return .inf t
  | .fin s m e, .fin t n d =>
    let x := (exactOf (.fin s m e)).add (exactOf (.fin t n d))
    return if x.m = 0 then .fin (s && t) 0 x.e else .fin (decide (x.m < 0)) x.m.natAbs x.e
  | _, _ => return nanVal)

/-- A value rounded to nearest in a format (R54, R55, R59), with what SAT makes of an overflow. -/
def convertExact (f : Fmt) (sat : Bool) : FVal → Flagged FVal
  | .nan s q t => do
    if !q then raiseFlags flagNV
    return valueOf f (convertNan fmtF64 f s t)
  | .inf s =>
    if f.e4m3 then do
      if sat then raiseFlags flagNX
      return if sat then valueOf f (signBit f s + maxBits f) else valueOf f (signBit f s + 0x7F)
    else return .inf s
  | .fin s m e => do
    let r := roundFin f 0 sat s m e
    raiseFlags r.flags
    return valueOf f r.bits

/-- A value rounded to nearest in a format. -/
def roundExactly (f : Fmt) (v : FVal) : Flagged FVal := convertExact f false v

/-- The encoding of a value that a format holds exactly. -/
def encodeVal (f : Fmt) (v : FVal) : Nat :=
  match v with
  | .nan s _ t => convertNan fmtF64 f s t
  | .inf s => signBit f s + infBits f
  | .fin s m e => (roundFin f 0 false s m e).bits

/-- One multiplication or scaling (R202): exact, then one rounding. -/
def scaleRound (f : Fmt) (a b : FVal) : Flagged FVal := do roundExactly f (← mulExact a b)

/-- One addition of two elements (R203): exact, then one rounding. -/
def sumRound (f : Fmt) (a b : FVal) : Flagged FVal := do roundExactly f (← addExact a b)

/-! ### Inner products (R65) -/

/-- The rows of Table 4.9. -/
inductive PairKind where
  | fused | groups | scales
  deriving DecidableEq, Repr

/-- A list cut into parts of `n`, `fuel` at most. -/
def cutInto {α : Type} (n : Nat) : Nat → List α → List (List α)
  | 0, _ => []
  | _ + 1, [] => []
  | fuel + 1, x :: xs => (x :: xs).take n :: cutInto n fuel ((x :: xs).drop n)

/-- An exact sum. -/
def sumExact : List FVal → Flagged FVal
  | [] => return zeroVal
  | [v] => return v
  | v :: t => do addExact v (← sumExact t)

/-- A term of an exact sum: a value, or a product of two. -/
abbrev Term := Option FVal × FVal

/-- The operands of a term in order. -/
def Term.operands (t : Term) : List FVal := t.1.toList ++ [t.2]

/-- The exact value of a term; none where a product is invalid (0 · ∞) or an operand is a NaN. -/
def Term.val (t : Term) : Option FVal :=
  match t.1 with
  | none => some t.2
  | some a => mulVals a t.2

/-- An exact sum of terms, as one operation on all of their operands (R52, R65, R66; log entry 14): an invalid product raises NV
whatever the other operands are (Table 4.4). -/
def sumTerms (ts : List Term) : Flagged FVal := do
  if ts.any (fun t => t.val.isNone && t.operands.all fun v => !v.isNan) then raiseFlags flagNV
  quietOr (ts.flatMap Term.operands) (do
    let vs := ts.filterMap Term.val
    if vs.length < ts.length || (vs.contains (.inf false) && vs.contains (.inf true)) then invalidExact else sumExact vs)

/-- An exact sum of products. -/
def dotExact (ps : List (FVal × FVal)) : Flagged FVal := sumTerms (ps.map fun (a, b) => (some a, b))

/-- A fused step (Table 4.9): Round(a · b + acc). -/
def fusedStep (f : Fmt) (acc a b : FVal) : Flagged FVal := do
  roundExactly f (← sumTerms [(some a, b), (none, acc)])

/-- The fused steps of Table 4.9. -/
def dotFused (f : Fmt) (acc : FVal) : List (FVal × FVal) → Flagged FVal
  | [] => return acc
  | (a, b) :: t => do dotFused f (← fusedStep f acc a b) t

/-- Parts of a sum, each exact and rounded once to f32, added in order. A scale of 0xFF in the weights makes its part the
default NaN and raises NV. -/
def dotParts (weights : Bool) (acc : FVal) : List (List (FVal × FVal)) → Flagged FVal
  | [] => return acc
  | g :: t => do
    let part ← if weights && g.any (fun p => p.1.isNan) then do
        raiseFlags flagNV
        pure nanVal
      else dotExact g
    let p ← roundExactly fmtF32 part
    let r ← sumRound fmtF32 acc p
    dotParts weights r t

/-- An inner product by the row of a format pair (Table 4.9). `weights` says that the first operand holds weights with
their scales. -/
def dot (k : PairKind) (acc : Fmt) (weights : Bool) (xs ys : List FVal) : Flagged FVal :=
  let ps := xs.zip ys
  match k with
  | .fused => dotFused acc zeroVal ps
  | .groups => dotParts false zeroVal (cutInto 8 ps.length ps)
  | .scales => dotParts weights zeroVal (cutInto 32 ps.length ps)

/-! ### Leaves (R199) -/

/-- A leaf with its elements: a diagonal, the columns of U and V, or rows. -/
inductive Leaf where
  | z
  | i (a : FVal)
  | d (xs : List FVal)
  | l (us vs : List (List FVal))
  | f (rows : List (List FVal))
  deriving DecidableEq, Repr

/-- The columns of a list of rows. -/
def columnsOf (n : Nat) (rows : List (List FVal)) : List (List FVal) :=
  (List.range n).map fun c => rows.map fun r => r.getD c zeroVal

/-- Lists combined element by element. -/
def zipRound (op : FVal → FVal → Flagged FVal) : List FVal → List FVal → Flagged (List FVal)
  | a :: as, b :: bs => do
    let c ← op a b
    let cs ← zipRound op as bs
    return c :: cs
  | _, _ => return []

/-- Rows combined element by element. -/
def zipRows (op : FVal → FVal → Flagged FVal) : List (List FVal) → List (List FVal) → Flagged (List (List FVal))
  | a :: as, b :: bs => do
    let c ← zipRound op a b
    let cs ← zipRows op as bs
    return c :: cs
  | _, _ => return []

/-- Every element of a list of lists changed. -/
def eachElem (op : FVal → Flagged FVal) (rows : List (List FVal)) : Flagged (List (List FVal)) :=
  rows.mapM fun r => r.mapM op

/-- Every row multiplied by the element of a diagonal in its place. -/
def scaleRows (f : Fmt) : List FVal → List (List FVal) → Flagged (List (List FVal))
  | x :: xs, r :: rs => do
    let a ← r.mapM fun y => scaleRound f x y
    let b ← scaleRows f xs rs
    return a :: b
  | _, _ => return []

/-- The product of two leaves (Table 11.4). Results are in the format of accumulation, I leaves in f64. -/
def leafProduct (k : PairKind) (acc : Fmt) (x y : Leaf) : Flagged Leaf :=
  match x, y with
  | .z, _ => return .z
  | _, .z => return .z
  | .i a, .i b => do return .i (← scaleRound fmtF64 a b)
  | .i a, .d xs => do return .d (← xs.mapM fun v => scaleRound acc a v)
  | .d xs, .i b => do return .d (← xs.mapM fun v => scaleRound acc v b)
  | .i a, .l us vs => do return .l (← eachElem (fun v => scaleRound acc a v) us) vs
  | .l us vs, .i b => do return .l us (← eachElem (fun v => scaleRound acc v b) vs)
  | .i a, .f rows => do return .f (← eachElem (fun v => scaleRound acc a v) rows)
  | .f rows, .i b => do return .f (← eachElem (fun v => scaleRound acc v b) rows)
  | .d xs, .d ys => do return .d (← zipRound (scaleRound acc) xs ys)
  | .d xs, .f rows => do return .f (← scaleRows acc xs rows)
  | .f rows, .d ys => do return .f (← rows.mapM fun r => zipRound (scaleRound acc) r ys)
  | .l us vs, .l ws zs => do
    let core ← vs.mapM fun v => ws.mapM fun w => dot k acc false v w
    let d := (vs.headD []).length
    if us.length ≤ ws.length then
      return .l us (← core.mapM fun row => (columnsOf d zs).mapM fun z => dot k acc false z row)
    else
      return .l (← (columnsOf ws.length core).mapM fun col => (columnsOf d us).mapM fun u => dot k acc false u col) zs
  | .l us vs, .d ys => do return .l us (← vs.mapM fun v => zipRound (scaleRound acc) v ys)
  | .l us vs, .f rows => do
    let cols := columnsOf rows.length rows
    return .l us (← vs.mapM fun v => cols.mapM fun c => dot k acc false v c)
  | .d xs, .l us vs => do return .l (← us.mapM fun u => zipRound (scaleRound acc) xs u) vs
  | .f rows, .l us vs => do return .l (← us.mapM fun u => rows.mapM fun r => dot k acc true r u) vs
  | .f rows, .f cols => do
    let cs := columnsOf cols.length cols
    return .f (← rows.mapM fun r => cs.mapM fun c => dot k acc true r c)

/-! ### Sums of leaves (R203) -/

/-- The types of Table 11.3, as the sums of Table 11.5 tell them apart. -/
inductive LeafType where
  | z | i | d | l | f
  deriving DecidableEq, Repr

/-- The type of the sum of two leaves (Table 11.5). -/
def sumType : Leaf → Leaf → LeafType
  | .z, .z => .z
  | .z, .i _ => .i | .i _, .z => .i | .i _, .i _ => .i
  | .z, .d _ => .d | .d _, .z => .d | .d _, .i _ => .d | .i _, .d _ => .d | .d _, .d _ => .d
  | .z, .l _ _ => .l | .l _ _, .z => .l
  | .l us _, .l ws _ => if us.length + ws.length ≤ 16 then .l else .f
  | _, _ => .f

/-- The diagonal of a Z, I or D leaf. -/
def diagonalOf (d : Nat) : Leaf → List FVal
  | .i a => List.replicate d a
  | .d xs => xs
  | _ => List.replicate d zeroVal

/-- The rows of a diagonal. -/
def diagonalRows (xs : List FVal) : List (List FVal) :=
  xs.mapIdx fun r x => xs.mapIdx fun c _ => if c = r then x else zeroVal

/-- The elements of U · Vᵀ, each by an inner product over the rank. -/
def expandWith (inner : List FVal → List FVal → Flagged FVal) (d : Nat) (us vs : List (List FVal)) :
    Flagged (List (List FVal)) :=
  (columnsOf d us).mapM fun u => (columnsOf d vs).mapM fun v => inner u v

/-- A leaf as rows of elements (R203), an L leaf by an inner product over its rank. -/
def fullRows (inner : List FVal → List FVal → Flagged FVal) (d : Nat) : Leaf → Flagged (List (List FVal))
  | .f rows => return rows
  | .l us vs => expandWith inner d us vs
  | x => return diagonalRows (diagonalOf d x)

/-- P0 + P1 of two leaves (R203): a Z leaf leaves the other as it is. -/
def leafSum (k : PairKind) (acc : Fmt) (d : Nat) (x y : Leaf) : Flagged Leaf :=
  match x, y with
  | .z, _ => return y
  | _, .z => return x
  | .i a, .i b => do return .i (← sumRound fmtF64 a b)
  | _, _ => match sumType x y, x, y with
    | .l, .l us vs, .l ws zs => return .l (us ++ ws) (vs ++ zs)
    | .d, _, _ => do return .d (← zipRound (sumRound acc) (diagonalOf d x) (diagonalOf d y))
    | _, _, _ => do
      let a ← fullRows (dot k acc false) d x
      let b ← fullRows (dot k acc false) d y
      return .f (← zipRows (sumRound acc) a b)

/-! ### Scaled sums (R66) -/

/-- How a scaled sum α·t + β·c is formed: the scales (none is a constant 1), the format of the result, whether an I leaf
keeps its α unrounded, and DEMOTE. -/
structure Blend where
  alpha : Option FVal
  beta : Option FVal
  out : Fmt
  keepI : Bool
  demote : Bool
  deriving DecidableEq, Repr

/-- A value times a scale, exactly. -/
def scaledBy (s : Option FVal) (v : FVal) : Flagged FVal :=
  match s with
  | none => return v
  | some a => mulExact a v

/-- One element of a scaled sum: one rounding of the exact value α·t + β·c, one operation on its operands; the term of a Z operand
is no term. -/
def blendElem (b : Blend) (zx zy : Bool) (x y : FVal) : Flagged FVal := do
  if zx && zy then return zeroVal
  else roundExactly b.out (← sumTerms ((if zx then [] else [(b.alpha, x)]) ++ (if zy then [] else [(b.beta, y)])))

/-- Whether a leaf is Z. -/
def Leaf.isZ : Leaf → Bool
  | .z => true
  | _ => false

/-- Whether every element of rows is a zero. -/
def allZero (rows : List (List FVal)) : Bool :=
  rows.all fun r => r.all fun v => match v with | .fin _ m _ => m == 0 | _ => false

/-- An F leaf, which DEMOTE turns into Z where every element is a zero (R203). -/
def demoted (demote : Bool) (rows : List (List FVal)) : Leaf := if demote && allZero rows then .z else .f rows

/-- The factors of a leaf, its U scaled, both rounded once (R66). -/
def blendFactors (b : Blend) (s : Option FVal) : Leaf → Flagged (List (List FVal) × List (List FVal))
  | .l us vs => do
    let u ← eachElem (fun v => do roundExactly b.out (← scaledBy s v)) us
    let w ← eachElem (roundExactly b.out) vs
    return (u, w)
  | _ => return ([], [])

/-- The α of a sum of Z and I leaves. -/
def blendI (b : Blend) (x y : Leaf) : Flagged FVal :=
  match x, y with
  | .i v, .i w => blendElem b false false v w
  | .i v, _ => if b.keepI then return v else blendElem b false true v zeroVal
  | _, .i w => blendElem b true false zeroVal w
  | _, _ => return zeroVal

/-- α·t + β·c of two leaves (R66). -/
def leafBlend (b : Blend) (d : Nat) (x y : Leaf) : Flagged Leaf :=
  match sumType x y with
  | .z => return .z
  | .i => do return .i (← blendI b x y)
  | .d => do return .d (← zipRound (blendElem b x.isZ y.isZ) (diagonalOf d x) (diagonalOf d y))
  | .l => do
    let (us, vs) ← blendFactors b b.alpha x
    let (ws, zs) ← blendFactors b b.beta y
    return .l (us ++ ws) (vs ++ zs)
  | .f => do
    let p ← fullRows (fun u v => dotExact (u.zip v)) d x
    let q ← fullRows (fun u v => dotExact (u.zip v)) d y
    return demoted b.demote (← zipRows (blendElem b x.isZ y.isZ) p q)

/-! ### Conversions (R225) -/

/-- A leaf converted to a float format. -/
def leafConvert (f : Fmt) (sat demote : Bool) : Leaf → Flagged Leaf
  | .z => return .z
  | .i a => do return .i (← convertExact f sat a)
  | .d xs => do return .d (← xs.mapM (convertExact f sat))
  | .l us vs => do return .l (← eachElem (convertExact f sat) us) (← eachElem (convertExact f sat) vs)
  | .f rows => do return demoted demote (← eachElem (convertExact f sat) rows)

/-- The row of Table 4.9 for the factors of an L leaf of a format; none where the table has no such pair. -/
def expandKind (ty : Ty) : Option PairKind :=
  match ty with
  | .f64 | .f32 => some .fused
  | .b16 => some .groups
  | _ => none

/-- The inner product that expands an L leaf before it is quantised. For f16, e4m3 and e5m2 Table 4.9 gives no order: a
rank of 1 needs none, and an element of a higher rank is a free value. -/
def expandInner (ty : Ty) (free : List FVal → List FVal → FVal) (u v : List FVal) : Flagged FVal :=
  match expandKind ty with
  | some k => dot k (fmtOf ty) false u v
  | none => if u.length ≤ 1 then dot .groups fmtF32 false u v else return free u v

/-- A leaf's blocks of 32 elements as q4 or q3 (R62, R225): its elements in f32, in row-major order. -/
def leafBlocks (q : Ty) (d : Nat) (inner : List FVal → List FVal → Flagged FVal) (x : Leaf) : Flagged (List Block) := do
  let rows ← fullRows inner d x
  let xs ← rows.flatten.mapM (roundExactly fmtF32)
  let bits := xs.map (encodeVal fmtF32)
  let blocks := (cutInto 32 bits.length bits).map fun b => quantise q 0 fmtF32 (b ++ List.replicate (32 - b.length) 0)
  blocks.forM fun b => raiseFlags b.flags
  return blocks

/-! ### Objects (Table 11.3) -/

/-- The element format of a tree's leaves as values; weights are exact in f64. -/
def treeFmt (ty : Ty) : Fmt :=
  match ty with
  | .q4 | .q3 => fmtF64
  | _ => fmtOf ty

/-- Bytes filled with zeros to whole lines. -/
def wholeLines (bs : List Byte) : List Byte := bs ++ List.replicate ((128 - bs.length % 128) % 128) 0

/-- Elements of a list of bytes. -/
def readElems (ty : Ty) (n : Nat) (bs : List Byte) : List FVal :=
  (List.range n).map fun i => valueOf (fmtOf ty) (natOfBytes ((bs.drop (ty.size * i)).take ty.size))

/-- The bytes of elements. -/
def writeElems (ty : Ty) (xs : List FVal) : List Byte := xs.flatMap fun v => bytesOfNat ty.size (encodeVal (fmtOf ty) v)

/-- Lines of a column of an L leaf. -/
def columnLines (ty : Ty) (d : Nat) : Nat := (d * ty.size + 127) / 128

/-- The elements of a packed q leaf (R60, R61). -/
def readWeights (ty : Ty) (n : Nat) (bs : List Byte) : List FVal :=
  let g := (n + 31) / 32
  (List.range n).map fun i =>
    let scale := (bs.getD (groupBytes ty * g + i / 32) 0).toNat
    if scale = 0xFF then nanVal else weightVal (unpackWeight ty (bs.drop (groupBytes ty * (i / 32))) (i % 32)) scale

/-- Bytes of a packed q leaf. -/
def weightBytes (ty : Ty) (n : Nat) : Nat := ((n + 31) / 32 * (groupBytes ty + 1) + 15) / 16 * 16

/-- Whether a type is a narrow weight. -/
def isWeight (ty : Ty) : Bool := ty == .q4 || ty == .q3

/-- The lines of a D or F leaf object. -/
def leafLines (ty : Ty) (d code : Nat) : Nat :=
  let bytes := if code = 2 then d * ty.size else if isWeight ty then weightBytes ty (d * d) else d * d * ty.size
  (bytes + 127) / 128

/-- The leaf that an object of a type code holds; none where its length disagrees with Table 11.3. Bytes past its elements are not read,
nonzero ones as well: DESIGN CHOICE (log entry 123). -/
def leafOfBytes (ty : Ty) (d code : Nat) (bs : List Byte) : Option Leaf :=
  let lines := bs.length / 128
  match code with
  | 2 => if lines = leafLines ty d 2 then some (.d (readElems ty d bs)) else none
  | 3 =>
    let c := columnLines ty d
    let k := lines / (2 * c)
    let col := fun i => readElems ty d (bs.drop (128 * c * i))
    if lines % (2 * c) = 0 ∧ 1 ≤ k ∧ k ≤ 16 then
      some (.l ((List.range k).map col) ((List.range k).map fun i => col (k + i)))
    else none
  | 4 =>
    if lines = leafLines ty d 4 then
      let xs := if isWeight ty then readWeights ty (d * d) bs else readElems ty (d * d) bs
      some (.f (cutInto d (d * d) xs))
    else none
  | _ => none

/-- The type code and the object of a D, L or F leaf. -/
def bytesOfLeaf (ty : Ty) : Leaf → Nat × List Byte
  | .d xs => (2, wholeLines (writeElems ty xs))
  | .l us vs => (3, (us ++ vs).flatMap fun c => wholeLines (writeElems ty c))
  | .f rows => (4, wholeLines (rows.flatMap (writeElems ty)))
  | _ => (0, [])

end Sys2Proof.Machine
end

