-- ==== Sys2Proof/Machine/Tasks.lean ====
section
/-! DEFINITION. The launch, task and graph instructions (R256 to R270), and the steps of the lobbies, the landing and the
chimney (R16, R125, R137, R237 to R250, R252, R267). -/

namespace Sys2Proof.Machine

open Sys2Proof

/-! ### Launch records (R257 to R260) -/

/-- Runs a program for its answer only. -/
def dryRun {α : Type} (act : M α) : M α := fun s =>
  match act s with
  | .ok a _ => .ok a s
  | .error e t => .error e t

/-- The answer of an operation on a record or a graph: in a recoverable superstep the operation is held, and its answer is
computed against the state that the commit will meet (R270), where the rooms below its own and its own have performed what they hold
(R368). -/
def answerOf {α : Type} (act : M α) : M α := do
  let s ← get
  match recoverable s (slotAt s s.cur.1 s.cur.2) with
  | none => dryRun act
  | some l => dryRun (do
      performHeld (fun e => !e.isEntry) l ((((launchAt s l).map launchRooms).getD []).filter fun q => decide (q ≤ roomOf s.cur.1))
      act)

/-- The dwords of a record that LPATCH does not write (R258). -/
def unpatchable (k : Nat) : Bool := [0, 1, 7, 9].contains k || decide (24 ≤ k)

/-- LPATCH (R258). -/
def execLpatch (d a b : Reg) (s : State) : Host.Outcome State Fault Refusal :=
  insn (.lpatch d a b) s (do
    let x ← rx a
    let v ← rx b
    let i := x.toNat % 1024
    let k := x.toNat / 2 ^ 16 % 32
    if unpatchable k then trap 0x14 0 0 k
    else do
      compareFirst
      let ctx := (← me).ctx
      let (done, w) ← answerOf (do
        let done ← patchRecord ctx i k v
        return (done, recordWord (← get) ctx i 0 done))
      if done then emit (.patch ctx i k v)
      wx d w
      return .seq)

/-- LARM (R259): an accepted one is a release at house scope. -/
def execLarm (d a : Reg) (s : State) : Host.Outcome State Fault Refusal :=
  insn (.larm d a) s (do
    let x ← rx a
    let i := x.toNat % 1024
    compareFirst
    let ctx := (← me).ctx
    let (code, w) ← answerOf (do
      let code ← armRecord ctx i
      return (code, recordWord (← get) ctx i code false))
    if code = 0 then released .house (do
      emit (.arm ctx i)
      wx d w
      return .seq)
    else do
      wx d w
      return .seq)

/-- LQRY (R260). -/
def execLqry (d a : Reg) (s : State) : Host.Outcome State Fault Refusal :=
  insn (.lqry d a) s (do
    let x ← rx a
    compareFirst
    let s ← get
    wx d (recordWord s (← me).ctx (x.toNat % 1024) 0 false)
    return .seq)

/-! ### Queues (R261, R262) -/

/-- Held entries of a slot (R261). -/
def heldMax : Nat := 16

/-- The words of an entry at an address: the mask and the present fields, read through the C path (R261). -/
def readEntry (x : XWord) (m : Nat) : M (List Word) := do
  let n := ((List.range 16).filter fun i => bitAt m i).length
  let bs ← if n = 0 then pure [] else loadBytes (x + 4) (4 * n)
  return (List.range n).map fun i => BitVec.ofNat 32 (fieldAt bs (4 * i) 4)

/-- The mask word of an entry. -/
def readMask (x : XWord) : M Nat := do
  let bs ← loadBytes x 4
  let m := natOfBytes bs
  if m / 2 ^ 16 ≠ 0 then trap 0x13 x 0 3 else return m

/-- Reserves an entry of a queue (R261). -/
def reserve (hall l st : Nat) : M Unit := modify fun s => onQueue s hall l st fun q => { q with reserved := q.reserved + 1 }

/-- Enqueues an entry for a stage of a launch: for the successor of the task's own stage it is held, for another stored
(R261), or in a recoverable superstep stored at the commit (R270). -/
def enqueue (l : Nat) (r : Launch) (st : Nat) (words : List Word) : M Flow := do
  let s ← get
  let v ← me
  let hall := hallOf s.cur.1
  if stageSucc r v.stage = some st then
    if heldMax ≤ v.held.length then trap 0x13 0 0 4
    else if queueFull s hall l r st then trap 0x13 0 0 1
    else do
      reserve hall l st
      onMe fun v => { v with held := v.held ++ [⟨st, words⟩] }
      return .seq
  else if queueFull s hall l r st then trap 0x13 0 0 1
  else released .hall (do
    reserve hall l st
    emit (.enqueue l hall st words)
    return .seq)

/-- QENQ (R261). -/
def execQenq (a b : Reg) (s : State) : Host.Outcome State Fault Refusal :=
  insn (.qenq a b) s (do
    let x ← rx a
    let y ← rx b
    aligned x 4
    let m ← readMask x
    let v ← me
    let st := y.toNat % 8
    match (launchOf v).bind fun l => (launchAt s l).map fun r => (l, r) with
    | none => trap 0x13 0 0 2
    | some (l, r) =>
      if !stageDeclared r st then trap 0x13 0 0 2
      else do
        let fields ← readEntry x m
        compareFirst
        enqueue l r st (BitVec.ofNat 32 m :: fields))

/-! ### Ending, yielding and moving a task (R263 to R266, R270) -/

/-- A member that ends, yields or moves its task leaves its chain first (R270). -/
def leaveChain : M Unit := modify fun s => partChain s s.cur.1 s.cur.2

/-- A gang slot arrives at the commit of the open superstep (R362); a pair arrives once. One that arrived in a superstep
that has committed since, while it was saved, goes on at once (R397). -/
def arriveCommit (l : Nat) (r : Launch) (op : CommitOp) (ending : M Flow) : M Flow := do
  let v ← me
  if v.arrivedIn.any fun q => decide (q < r.seq) then do
    onMe fun v => { v with arrivedIn := none }
    ending
  else do
    onMe fun v => { v with arrivedIn := some r.seq }
    modify fun s => post s [.superstepCommit (l / 1024) (l % 1024)]
    return .wait (.commit l r.seq op)

/-- The end of a task at a scope: its transfers are written and a release is made; an open superstep commits first, and the rest of
the end follows (R263). -/
def finishTask (scope : Tier) (op : CommitOp) (ending : M Flow) : M Flow := do
  let s ← get
  let v ← me
  if v.launch.isNone then return .seq
  else do
    compareFirst
    leaveChain
    awaitTransfers (leadCore s s.cur.1 s.cur.2) s.cur.2
    released scope (do
      match gangOf (← get) v with
      | some (l, r) => arriveCommit l r op ending
      | none => ending)

/-- TEND (R263). -/
def execTend (s : State) : Host.Outcome State Fault Refusal := insn .tend s (finishTask .hall .tend endTask)

/-- The boot code of a core starts in its supervisor slot (R399), with the firmware's vector. -/
def startBoot (s : State) (c : Nat) : State :=
  onSlot s c 3 fun v => { Slot.reset with
    live := true, ctx := v.ctx, pc := s.firmware.boot, trap := { TrapRegs.reset with vec := s.firmware.vec } }

/-- Whether a slot runs boot code (R399, Table 26.4 step 5): the supervisor slot of a core that owes its summary. -/
def booting (s : State) (c : Nat) (k : Fin 4) : Bool :=
  k == 3 && !isThreshold c && s.bootStep == 4 && !((tget [] s.summaries (roomOf c)).any fun e => e.1 == c)

/-- Whether every core that boots has sent its summary (R382, R399). -/
def allSummaries (s : State) : Bool :=
  (List.range 4096).all fun r => (physicalRoom s r).isNone || (tget [] s.summaries r).length == 16

/-- The node of the boot's chimney tree above a room, a hall, a wing or the house: rooms are numbered from 0, halls from 4,096,
wings from 4,352, and the house is 4,368. -/
def parentNode (n : Nat) : Nat :=
  if n < 4096 then 4096 + n / 16 else if n < 4352 then 4352 + (n - 4096) / 16 else 4368

/-- Whether a node below another has a core that boots. -/
def hasCores (s : State) (n : Nat) : Bool :=
  let size := if n < 4096 then 1 else if n < 4352 then 16 else 256
  let first := if n < 4096 then n else if n < 4352 then 16 * (n - 4096) else 256 * (n - 4352)
  (List.range size).any fun i => (physicalRoom s (first + i)).isSome

/-- Whether a node of the boot's chimney tree has the summaries of all its children. -/
def nodeFull (s : State) (n : Nat) : Bool :=
  if n < 4096 then (tget [] s.summaries n).length == 16
  else (tget [] s.summaries n).length == ((List.range 4368).filter fun m => parentNode m == n && hasCores s m).length

/-- The combined summary of a full node goes to its parent (R125, R399), and on where that is full with it. -/
def sendUp : Nat → Nat → State → State
  | 0, _, s => s
  | fuel + 1, n, s =>
    if n = 4368 ∨ !nodeFull s n then s
    else
      let p := parentNode n
      sendUp fuel p { s with summaries := tput s.summaries p (tget [] s.summaries p ++ [(n, combinedReport (tget [] s.summaries n))]) }

/-- A room node of the boot's chimney tree has a further summary (R382): its combined word goes to its parent and to the keeper,
which withdraws the room for a code of 2 or 3. -/
def summaryIn (s : State) (room : Nat) : State :=
  let all := tget [] s.summaries room
  if all.length < 16 then s
  else match physicalRoom s room with
    | none => s
    | some pr =>
      let s := sendUp 3 room s
      let s := if (combinedReport all).code = 2 ∨ (combinedReport all).code = 3 then
          { s with changes := s.changes ++ [.withdraw (.room pr)] } else s
      if allSummaries s then post { s with bootStep := 5 } [.mapPublication] else s

/-- DONE of boot code (R266, R382, R399): the slot's task ends as any does; the summary goes to the keeper, core 0's lets the room's
other cores start, and the slot waits for version 1 at the start of the firmware's loop. -/
def bootDone (status : XWord) : M Flow := released .house (do
  beginEnd .house
  modify fun s =>
    let c := s.cur.1
    let room := roomOf c
    let s := { s with summaries := tput s.summaries room (tget [] s.summaries room ++ [(c, reportOf status)]) }
    let s := onSlot s c 3 fun v => { vacated v with pc := s.firmware.loop }
    let s := if c % 16 = 0 then ((coresOf room).drop 1).foldl startBoot s else s
    summaryIn s room
  return .gone)

/-- DONE (R266). -/
def execDone (d : Reg) (s : State) : Host.Outcome State Fault Refusal :=
  insn (.done d) s (do
    let x ← rx d
    let s ← get
    if booting s s.cur.1 s.cur.2 then bootDone x else finishTask .house (.done x) (endLaunch x))

/-- Whether a slot is in a pair or in a recoverable superstep. -/
def bound (s : State) (c : Nat) (k : Fin 4) : Bool :=
  (pairOf s (leadCore s c k) k).isSome || (recoverable s (slotAt s c k)).isSome

/-- Whether a shadow slot of a core holds a runnable task of a launch for a slot of it. -/
def shadowReady (s : State) (c : Nat) (k : Fin 4) (l : Nat) : Bool :=
  (coreAt s c).shadows.any fun h => runnable s c k h && launchOf h.task == some l

/-- TYLD (R264): the task is saved at the next instruction, where another is ready and a frame is free. -/
def execTyld (s : State) : Host.Outcome State Fault Refusal :=
  insn .tyld s (do
    leaveChain
    let s ← get
    let v ← me
    match launchOf v with
    | none => return .seq
    | some l =>
      if bound s s.cur.1 s.cur.2 || !shadowReady s s.cur.1 s.cur.2 l || (freeFrame s v.ctx).isNone then return .seq
      else do
        retire .seq
        let _ ← saveSlot s.cur.1 s.cur.2 none false
        return .gone)

/-- MIGR (R265): under the conditions of R249 the task goes on in another hall; its count restarts in any case. -/
def execMigr (a : Reg) (s : State) : Host.Outcome State Fault Refusal :=
  insn (.migr a) s (do
    let x ← rx a
    leaveChain
    onMe fun v => { v with remoteCount := 0, remoteHall := 0, remoteOff := false }
    let s ← get
    let h := x.toNat % 256
    if migratable s (slotAt s s.cur.1 s.cur.2) && mayMigrate s s.cur.1 s.cur.2 h then do
      retire .seq
      migrateTask s.cur.1 s.cur.2 h
      return .gone
    else return .seq)

/-! ### Graphs (R268, R269) -/

/-- The words of a graph's header that GARM compares and returns are read into them: poison is consumed (R358). -/
def cleanHeader (hall l : Nat) (r : Launch) : M Unit := do
  if recWord r 5 = 0 then pure ()
  else [4, 12].forM fun i => do
    let a := recWord r 5 + BitVec.ofNat 64 i
    let (_, bad) ← engineRead hall (l / 1024) a 4
    if bad then poisoned a

/-- A release at house scope that never traps (R269): a word whose page refuses it stays dirty. -/
def releasedQuietly (rest : M Flow) : M Flow := do
  let s ← get
  let c := leadCore s s.cur.1 s.cur.2
  let one := fun o => do
    match ← attempt (releaseWord c o) with
    | .ok _ | .error (.trap _ _ _ _) => pure ()
    | .error e => throw e
  match ← backWords one ((coreAt s c).mappings.flatMap (dirtyWords s (roomOf c))) with
  | some flow => return flow
  | none => rest

/-- GARM (R268): an accepted one is a release at house scope. -/
def execGarm (d a : Reg) (s : State) : Host.Outcome State Fault Refusal :=
  insn (.garm d a) s (do
    let x ← rx a
    compareFirst
    let v ← me
    match (launchOf v).bind fun l => (launchAt s l).map fun r => (l, r) with
    | none => do
      wx d 3
      return .seq
    | some (l, r) => do
      let hall := hallOf (← myCore)
      let expected := x.setWidth 32
      let (g, code) ← answerOf (do
        cleanHeader hall l r
        armGraph hall l r expected.toNat)
      let w := BitVec.ofNat 64 (g * 2 ^ 32 + code)
      if code = 0 then released .house (do
        emit (.graphArm l hall expected)
        wx d w
        return .seq)
      else do
        wx d w
        return .seq)

/-- GDONE (R269): a release at house scope. -/
def execGdone (a : Reg) (s : State) : Host.Outcome State Fault Refusal :=
  insn (.gdone a) s (do
    let x ← rx a
    compareFirst
    let v ← me
    match (launchOf v).bind fun l => (launchAt s l).map fun r => (l, r) with
    | none => return .seq
    | some (l, r) =>
      if recWord r 5 = 0 then return .seq
      else releasedQuietly (do
        emit (.graphDone l (hallOf (← myCore)) (x.setWidth 32))
        return .seq))

/-! ### Steps of the lobbies, the landing and the chimney -/

/-- PROMOTION (R16). -/
def execPromotion (c : Nat) (k : Fin 4) (s : State) : Host.Outcome State Fault Refusal :=
  event (.promotion c k) s (promotionAct c k)

/-- PROMOTION_END (R16). -/
def execPromotionEnd (c : Nat) (k : Fin 4) (s : State) : Host.Outcome State Fault Refusal :=
  event (.promotionEnd c k) s (promotionEndAct c k)

/-- PREFETCHER_FILL (R244). -/
def execPrefetcherFill (c : Nat) (s : State) : Host.Outcome State Fault Refusal :=
  event (.prefetcherFill c) s (prefetcherFillAct c)

/-- LAUNCH_START (R237, R238). -/
def execLaunchStart (ctx record room : Nat) (s : State) : Host.Outcome State Fault Refusal :=
  event (.launchStart ctx record room) s (launchStartAct ctx record room)

/-- PARTITION_MOVE (R137). -/
def execPartitionMove (c kib : Nat) (s : State) : Host.Outcome State Fault Refusal :=
  event (.partitionMove c kib) s (partitionMoveAct c kib)

/-- LOBBY_REBALANCE (R243). -/
def execLobbyRebalance (hall : Nat) (s : State) : Host.Outcome State Fault Refusal :=
  event (.lobbyRebalance hall) s (lobbyRebalanceAct hall)

/-- MIGRATION_WINDOW (R249). -/
def execMigrationWindow (c : Nat) (k : Fin 4) (s : State) : Host.Outcome State Fault Refusal :=
  event (.migrationWindow c k) s (migrationWindowAct c k)

/-- TASK_MIGRATION (R250). -/
def execTaskMigration (c : Nat) (k : Fin 4) (hall : Nat) (s : State) : Host.Outcome State Fault Refusal :=
  event (.taskMigration c k hall) s (taskMigrationAct c k hall)

/-- FAULT_SAVE_DEFERRED (R252). -/
def execFaultSaveDeferred (c : Nat) (k : Fin 4) (s : State) : Host.Outcome State Fault Refusal :=
  event (.faultSaveDeferred c k) s (faultSaveDeferredAct c k)

/-- CHIMNEY_MESSAGE (R125). -/
def execChimneyMessage (ctx record : Nat) (tier : Tier) (unit : Nat) (s : State) : Host.Outcome State Fault Refusal :=
  event (.chimneyMessage ctx record tier unit) s (chimneyMessageAct ctx record tier unit)

/-- LAUNCH_QUIESCENT (R267). -/
def execLaunchQuiescent (ctx record : Nat) (s : State) : Host.Outcome State Fault Refusal :=
  event (.launchQuiescent ctx record) s (launchQuiescentAct ctx record)

/-- The first entry of a landing whose queue has room, and the entries without it. -/
def landable (s : State) (hall : Nat) : List LandingEntry → Option (LandingEntry × Launch × List LandingEntry)
  | [] => none
  | e :: t => match launchAt s e.launch with
    | none => (landable s hall t).map fun (f, r, u) => (f, r, e :: u)
    | some r =>
      if queueFull s hall e.launch r e.stage then (landable s hall t).map fun (f, q, u) => (f, q, e :: u)
      else some (e, r, t)

/-- The landing takes up the first completion of a node that it has accepted and not done (R269). -/
def doneNode (hall : Nat) : M Unit := do
  let s ← get
  match (hallAt s hall).doneNodes with
  | [] => pure ()
  | (l, v) :: _ => do
    match launchAt s l with
    | none => pure ()
    | some r => graphDone hall l r v
    modify fun s => post (onHall s hall fun h => { h with doneNodes := h.doneNodes.tail }) [.landingRetry hall]

/-- LANDING_RETRY (R247, R269): an entry that the landing holds goes to its queue once that has room; then the completions that it has
accepted. -/
def execLandingRetry (hall : Nat) (s : State) : Host.Outcome State Fault Refusal :=
  event (.landingRetry hall) s (do
    match landable s hall (hallAt s hall).landing with
    | none => doneNode hall
    | some (e, r, rest) => do
      storeEntry hall e.launch r e.stage e.words
      modify fun s => post (onHall s hall fun h => { h with landing := rest }) [.landingRetry hall])

end Sys2Proof.Machine
end

