-- ==== Sys2Proof/Machine/SealedOps.lean ====
section
/-! DEFINITION. The sealed memory instructions (R286 to R296) and DEFERRED_RELEASE (R280). -/

namespace Sys2Proof.Machine

open Sys2Proof

/-! ### Operands (R286, R287) -/

/-- A name in an even pair of x registers (R35). -/
def rxName (a : Reg) : M (BitVec 128) := do
  let lo ← rx a
  let hi ← rx (regPlus a 1)
  return hi ++ lo

/-- Writes a name to an even pair. -/
def wxName (d : Reg) (name : BitVec 128) : M Unit := do
  wx d (name.setWidth 64)
  wx (regPlus d 1) (BitVec.ofNat 64 (name.toNat / 2 ^ 64))

/-- Whether an interval lies within the scratchpad of one core (R287, R129). -/
def inOneScratchpad (s : State) (x : XWord) (n : Nat) : Bool :=
  let v := slotAt s s.cur.1 s.cur.2
  !isThreshold s.cur.1 && isCanonical x && isVaultAddr x && match vaultRoom (roomOf s.cur.1) x with
    | none => false
    | some r =>
      let off := x.toNat % vaultBytes
      roomRuns s v.ctx r && decide (off % 2 ^ 19 + n ≤ 1024 * (coreAt s (16 * r + off / 2 ^ 19)).partition)

/-- The staging contents and the region of SLOOK and SHASH (R287, Table 17.3). -/
def staging (a b : Reg) : M (XWord × List Byte × Nat) := do
  let x ← rx a
  let y ← rx b
  let l := y.toNat % 512
  let g := y.toNat / 2 ^ 16 % 256
  aligned x 128
  let s ← get
  ensure (inOneScratchpad s x (128 * l)) (trap 0x05 x)
  let v ← me
  if l = 0 ∨ 256 < l ∨ !(regionDeclared s g && regionCtx s g == v.ctx) then trap 0x05 x
  else do
    let bs ← loadBytes x (128 * l)
    return (x, bs, g)

/-- A reference taken in a recoverable superstep is released by its rollback (R285, R366). -/
def noteTaken (g : Nat) (name : BitVec 128) : M Unit := modify fun s =>
  match recoverable s (slotAt s s.cur.1 s.cur.2) with
  | some l => onLaunch s l fun r => { r with taken := r.taken ++ [(g, name)] }
  | none => s

/-! ### Naming contents (R288, R289) -/

/-- SLOOK (R288). -/
def execSlook (d a b : Reg) (s : State) : Host.Outcome State Fault Refusal :=
  insn (.slook d a b) s (do
    let (x, bs, g) ← staging a b
    compareFor x bs
    match ← lookupOrAllocate (← me).ctx g bs false with
    | .ok (name, _) => do
      noteTaken g name
      wxName d name
      return .seq
    | .error (.missingChild j) => trap 0x05 (x + BitVec.ofNat 64 (16 + 16 * j))
    | .error .indices => trap 0x07 0 0 1
    | .error .full => trap 0x07 0 0 2
    | .error .shard => trap 0x07 0 0 3)

/-- SHASH (R289). -/
def execShash (d a b : Reg) (s : State) : Host.Outcome State Fault Refusal :=
  insn (.shash d a b) s (do
    let (x, bs, g) ← staging a b
    compareFor x bs
    wxName d (nameOf (hashOf (← get) g bs) 0)
    return .seq)

/-! ### Counts (R290) -/

/-- A name operand and its region; an absent name traps 0x05, and name 0 has none. -/
def nameOperand (a : Reg) : M (BitVec 128 × Option Nat) := do
  let n ← rxName a
  if n = 0 then return (n, none)
  else match regionOfName (← get) (← me).ctx n with
    | some g => return (n, some g)
    | none => trap 0x05

/-- SREF (R290). -/
def execSref (a : Reg) (s : State) : Host.Outcome State Fault Refusal :=
  insn (.sref a) s (do
    compareFirst
    match ← nameOperand a with
    | (_, none) => return .seq
    | (n, some g) => do
      feed (bytesOfNat 8 0 ++ bytesOfNat 16 n.toNat)
      modify fun s => (addRef s g n).1
      noteTaken g n
      return .seq)

/-- SUNREF (R290): held in a recoverable superstep (R296). -/
def execSunref (a : Reg) (s : State) : Host.Outcome State Fault Refusal :=
  insn (.sunref a) s (do
    compareFirst
    match ← nameOperand a with
    | (_, none) => return .seq
    | (n, some g) => do
      emit (.unref g n)
      return .seq)

/-! ### Reading (R291 to R293) -/

/-- The region and entry of a name, if it is present. -/
def presentName (s : State) (ctx : Nat) (n : BitVec 128) : Option (Nat × SealedEntry) :=
  (regionOfName s ctx n).bind fun g => (entryOf s g n).map fun e => (g, e)

/-- SRES (R291). -/
def execSres (d a : Reg) (s : State) : Host.Outcome State Fault Refusal :=
  insn (.sres d a) s (do
    let n ← rxName a
    compareFor 0 (bytesOfNat 16 n.toNat)
    let s ← get
    wx d (match presentName s (slotAt s s.cur.1 s.cur.2).ctx n with
      | some (g, e) => lineAddress s g e.line
      | none => 0)
    return .seq)

/-- SCOPY (R292). -/
def execScopy (d a : Reg) (s : State) : Host.Outcome State Fault Refusal :=
  insn (.scopy d a) s (do
    let x ← rx d
    aligned x 4
    match ← nameOperand a with
    | (_, none) => return .seq
    | (n, some g) => do
      let s ← get
      match entryOf s g n with
      | none => trap 0x05
      | some e => do
        compareFor x (bytesOfNat 16 n.toNat)
        let segs ← copySegments (lineAddress s g e.line) [x] (128 * (e.len + 1))
        awaitBoards (copyIntervals segs)
        match ← performCopy segs segs with
        | some bad => return .after 0x0E bad 5
        | none => return .seq)

/-- SSTAT of a name (R293, Table 17.4). -/
def sealStatus (g : Nat) (e : SealedEntry) : XWord :=
  BitVec.ofNat 64 (2 ^ 63 + e.perm.toNat * 2 ^ 62 + e.node.toNat * 2 ^ 61 + g * 2 ^ 48 + (e.len + 1) * 2 ^ 32 + e.count)

/-- SSTAT of a name (R293). -/
def execSealSstat (d a : Reg) (s : State) : Host.Outcome State Fault Refusal :=
  insn (.sealSstat d a) s (do
    let n ← rxName a
    compareFor 0 (bytesOfNat 16 n.toNat)
    let s ← get
    wx d (match presentName s (slotAt s s.cur.1 s.cur.2).ctx n with
      | some (g, e) => sealStatus g e
      | none => 0)
    return .seq)

/-! ### Swapping a root (R294, R296) -/

/-- The place of a root cell: aligned to 16, on an ordinary class D page of device memory that may be read and written. -/
def cellPlace (x : XWord) : M Place := do
  aligned x 16
  let s ← get
  if isThreshold s.cur.1 then do
    let p ← physicalPlace x
    match p with
    | .mem _ pa => do
      ensure (spaceOf pa != .host && spaceOf pa != .fabric) (trap 0x05 x)
      return p
    | .vault _ _ => trap 0x05 x
  else if !isCanonical x || isVaultAddr x then trap 0x05 x
  else do
    let c := leadCore s s.cur.1 s.cur.2
    let (key, pa, attr) ← translate (hallOf c) (slotAt s s.cur.1 s.cur.2).ctx (.slot c s.cur.2) x .read .plain
    if attrClass attr != 0 || attrSL attr || !attrW attr || spaceOf pa == .host || spaceOf pa == .fabric then trap 0x05 x
    else return .mem key pa

/-- The contents of a root cell at its home (R184, R294); in a recoverable superstep under the stores that the room holds. -/
def cellAt (x : XWord) (p : Place) : M (List Byte) := do
  let s ← get
  let es := if (recoverable s (← me)).isSome then unsent s s.cur.1 s.cur.2 else []
  match ← peekUnder es x p 16 none with
  | (_, some i) => poisoned (wordAt x i)
  | (bs, none) => return bs

/-- SCAS (R294): an acquire at house scope, and where it succeeds a release before its write. -/
def execScas (d a b : Reg) (s : State) : Host.Outcome State Fault Refusal :=
  insn (.scas d a b) s (do
    let x ← rx d
    let e ← rxName a
    let n ← rxName b
    let p ← cellPlace x
    compareFirst
    let bs ← cellAt x p
    let old := BitVec.ofNat 128 (natOfBytes bs)
    let request := Effect.rootSwap (← me).ctx none p e n none
    let swap : M Flow := do
      emit request
      wxName a old
      acquire .house
      return .seq
    if old = e then released .house swap
    else if (recoverable (← get) (← me)).isSome then swap
    else do
      feed (effectBytes request)
      wxName a old
      acquire .house
      return .seq)

/-- DEFERRED_RELEASE (R280): the first deferred release of a freed node's child is performed. -/
def execDeferredRelease (s : State) : Host.Outcome State Fault Refusal :=
  event .deferredRelease s (modify fun s =>
    match s.deferred with
    | [] => s
    | (g, n) :: t => (dropRef { s with deferred := t } g n).1)

end Sys2Proof.Machine
end

