-- ==== Sys2Proof/Machine/Trees.lean ====
section
/-! DEFINITION. The walks of a hearth over quadtrees (R198 to R209): reading nodes and leaves, naming what a walk builds,
products, sums, scaled sums and conversions, level by level. A walk ends early with a fault code of Table 11.9. -/

namespace Sys2Proof.Machine

open Sys2Proof

/-! ### The walk's own state -/

/-- What a walk holds: the names it has references to, the flags raised, and the next posted product it needs. -/
structure Walk where
  held : List (BitVec 128)
  flags : Nat
  index : Nat
  deriving DecidableEq, Repr

/-- A tree operand: its region, element format, leaf edge exponent and level of the root. -/
structure TreeOf where
  region : Nat
  ty : Ty
  e : Nat
  level : Nat
  deriving DecidableEq, Repr

/-- Where a walk runs: its room, context and launch, the region its results go to, and where its products are posted:
the level of their operands (none where nothing is posted) and the results that came back. -/
structure WalkEnv where
  room : Nat
  ctx : Nat
  launch : Nat
  out : Nat
  spread : Option Nat
  returned : Table PostedResult
  deriving DecidableEq, Repr

/-- A walk: a program over the state that may end with a fault code. -/
abbrev W := ExceptT Nat (StateT Walk M)

/-- A walk ends with a fault code. -/
def walkFault {α : Type} (code : Nat) : W α := throw code

/-- Runs arithmetic in a walk, whose flags it gathers. -/
def flagged {α : Type} (act : Flagged α) : W α := do
  let (a, n) := act.run 0
  modifyThe Walk fun w => { w with flags := w.flags ||| n }
  return a

/-- A program of the machine in a walk. -/
def machine {α : Type} (act : M α) : W α := ExceptT.lift (StateT.lift act)

/-! ### Objects -/

/-- The kids Z and I. -/
def kidZ : Kid := ⟨0, 0⟩
def kidI (a : FVal) : Kid := ⟨1, BitVec.ofNat 128 (encodeVal fmtF64 a)⟩

/-- Whether a kid names an object. -/
def Kid.named (k : Kid) : Bool := decide (2 ≤ k.code) && decide (k.code ≤ 5)

/-- The α of an I kid. -/
def kidAlpha (k : Kid) : FVal := valueOf fmtF64 (k.field.toNat % 2 ^ 64)

/-- Where a line of an object lies for a hearth: through the translations of its context at its hall. -/
def objectPlace (env : WalkEnv) (x : XWord) : M Place :=
  asEngine (env.room / 16) env.ctx (locateFor (env.room / 16) env.room env.ctx .foundation x .read)

/-- Poison that a command consumes (R358): a recoverable gang rolls back, twice at most; else fault code 0x0E. -/
def walkPoison {α : Type} (env : WalkEnv) : W α := do
  let s ← machine get
  match launchAt s env.launch with
  | some r =>
    if r.mode = 1 ∧ r.rollbacks < 2 then
      machine (throw (.retry [.superstepRollback (env.launch / 1024) (env.launch % 1024)]))
    else walkFault 0x0E
  | none => walkFault 0x0E

/-- The contents of the object of a name in a region; an absent one is malformed (R200). -/
def readObject (env : WalkEnv) (g : Nat) (name : BitVec 128) : W (List Byte) := do
  let s ← machine get
  match entryOf s g name with
  | none => walkFault 0x20
  | some e => do
    let (bs, bad) ← machine (objectBytes (objectPlace env) g e)
    if bad then walkPoison env else return bs

/-- Whether a child field of a node breaks R200: a reserved code, a code that has no place at the level or in the format,
a byte that must be zero, an α that is a NaN, a name of no object. -/
def childBad (s : State) (t : TreeOf) (level code : Nat) (field : BitVec 128) : Bool :=
  match code with
  | 0 => field != 0
  | 1 => decide (2 ^ 64 ≤ field.toNat) || (valueOf fmtF64 (field.toNat % 2 ^ 64)).isNan
  | 2 | 3 => decide (level ≠ 1) || isWeight t.ty || (entryOf s t.region field).isNone
  | 4 => decide (level ≠ 1) || (entryOf s t.region field).isNone
  | 5 => decide (level = 1) || (entryOf s t.region field).isNone
  | _ => true

/-- The children of a node object of a level (Table 11.2); none where it is malformed (R200). -/
def nodeKids (s : State) (t : TreeOf) (level : Nat) (bs : List Byte) : Option (List Kid) :=
  let head := fieldAt bs 0 4
  let kids := (List.range 4).map fun c => (⟨childCode bs c, childField bs c⟩ : Kid)
  if bs.length = 128 ∧ head / 2 ^ 28 = 1 ∧ head / 2 ^ 24 % 16 = t.ty.code ∧ head / 2 ^ 20 % 16 = t.e ∧
    head / 2 ^ 16 % 16 = level ∧ fieldAt bs 4 12 = 0 ∧ fieldAt bs 80 48 = 0 ∧
    ¬(kids.any fun k => childBad s t level k.code k.field)
  then some kids else none

/-- The four children of a kid at a level of at least 1 (R205): those of its node, or those an I or a Z stands for. -/
def kidsOf (env : WalkEnv) (t : TreeOf) (level : Nat) (k : Kid) : W (List Kid) := do
  match k.code with
  | 0 => return [kidZ, kidZ, kidZ, kidZ]
  | 1 => return [k, kidZ, kidZ, k]
  | _ => do
    let bs ← readObject env t.region k.field
    match nodeKids (← machine get) t level bs with
    | some ks => return ks
    | none => walkFault 0x20

/-- The leaf of a kid at level 0. -/
def leafOf (env : WalkEnv) (t : TreeOf) (k : Kid) : W Leaf := do
  match k.code with
  | 0 => return .z
  | 1 => return .i (kidAlpha k)
  | c => do
    let bs ← readObject env t.region k.field
    match leafOfBytes t.ty (2 ^ t.e) c bs with
    | some l => return l
    | none => walkFault 0x20

/-! ### References (R208) -/

/-- The walk no longer holds a reference to a name. -/
def forget (name : BitVec 128) : W Unit := modifyThe Walk fun w => { w with held := w.held.erase name }

/-- Releases the walk's reference to what a kid names. -/
def releaseKid (env : WalkEnv) (k : Kid) : W Unit := do
  if k.named then do
    forget k.field
    machine (modify fun s => (dropRef s env.out k.field).1)

/-- Another reference to what a kid names. -/
def shareKid (env : WalkEnv) (k : Kid) : W Kid := do
  if k.named then do
    machine (modify fun s => (addRef s env.out k.field).1)
    modifyThe Walk fun w => { w with held := k.field :: w.held }
  return k

/-- Names contents by the larder, with one reference that the walk holds (R208): a new node takes over the references to
its children, and one that was there already releases them. A failure is fault code 0x23. -/
def nameContents (env : WalkEnv) (code : Nat) (bs : List Byte) (kids : List Kid) : W Kid := do
  let named := (kids.filter Kid.named).map Kid.field
  match ← machine (lookupOrAllocate env.ctx env.out bs (code == 5)) with
  | .error _ => walkFault 0x23
  | .ok (name, new) => do
    named.forM forget
    modifyThe Walk fun w => { w with held := name :: w.held }
    if !new then machine (modify fun s => dropRefs s env.out named)
    return ⟨code, name⟩

/-- The bytes of a node (Table 11.2). -/
def nodeBytes (ty : Ty) (e level : Nat) (kids : List Kid) : List Byte :=
  let types := (kids.mapIdx fun c k => k.code * 2 ^ (4 * c)).sum
  bytesOfNat 4 (2 ^ 28 + ty.code * 2 ^ 24 + e * 2 ^ 20 + level * 2 ^ 16 + types) ++ List.replicate 12 0 ++
    kids.flatMap (fun k => bytesOfNat 16 k.field.toNat) ++ List.replicate 48 0

/-- Whether four children are those of an I of one level up (R201). -/
def reducesToI : List Kid → Bool
  | [a, b, c, d] => a.code == 1 && b.code == 0 && c.code == 0 && d == a
  | _ => false

/-- A node of four children in canonical form (R201): Z for four Z, and below the root I for an I on its diagonal. -/
def makeNode (env : WalkEnv) (ty : Ty) (e level : Nat) (root : Bool) (kids : List Kid) : W Kid := do
  if kids.all fun k => k.code == 0 then return kidZ
  else if !root && reducesToI kids then return kids.headD kidZ
  else nameContents env 5 (nodeBytes ty e level kids) kids

/-- A leaf becomes a kid; an I whose α is a NaN is a D leaf with that NaN (R203). -/
def putLeaf (env : WalkEnv) (ty : Ty) (e : Nat) (l : Leaf) : W Kid := do
  match l with
  | .z => return kidZ
  | .i a =>
    if a.isNan then do
      let (code, bs) := bytesOfLeaf ty (.d (List.replicate (2 ^ e) a))
      nameContents env code bs []
    else return kidI a
  | _ => do
    let (code, bs) := bytesOfLeaf ty l
    nameContents env code bs []

/-- An I of a level; where its α is a NaN, the subtree of D leaves it stands for (R203). -/
def putI (env : WalkEnv) (ty : Ty) (e : Nat) (a : FVal) : Nat → W Kid
  | 0 => putLeaf env ty e (.i a)
  | level + 1 =>
    if a.isNan then do
      let k ← putI env ty e a level
      let m ← shareKid env k
      makeNode env ty e (level + 1) false [k, kidZ, kidZ, m]
    else return kidI a

/-! ### Sums and products (R202, R203, R205) -/

/-- The child of a list of four. -/
def kidAt (ks : List Kid) (i : Nat) : Kid := ks.getD i kidZ

/-- What the products and sums of a command are formed by: the row of its format pair and its accumulation format. -/
structure Arith where
  kind : PairKind
  acc : Ty
  e : Nat
  deriving DecidableEq, Repr

/-- P0 + P1 at a level (R203, R205): both are trees of the output region in the accumulation format. -/
def sumKids (env : WalkEnv) (r : Arith) : Nat → Kid → Kid → W Kid
  | 0, p, q => do
    if p.code = 0 then shareKid env q
    else if q.code = 0 then shareKid env p
    else do
      let t : TreeOf := ⟨env.out, r.acc, r.e, 0⟩
      let x ← leafOf env t p
      let y ← leafOf env t q
      putLeaf env r.acc r.e (← flagged (leafSum r.kind (fmtOf r.acc) (2 ^ r.e) x y))
  | level + 1, p, q => do
    if p.code = 0 then shareKid env q
    else if q.code = 0 then shareKid env p
    else if p.code = 1 ∧ q.code = 1 then do
      putI env r.acc r.e (← flagged (sumRound fmtF64 (kidAlpha p) (kidAlpha q))) (level + 1)
    else do
      let t : TreeOf := ⟨env.out, r.acc, r.e, level + 1⟩
      let ps ← kidsOf env t (level + 1) p
      let qs ← kidsOf env t (level + 1) q
      let a ← sumKids env r level (kidAt ps 0) (kidAt qs 0)
      let b ← sumKids env r level (kidAt ps 1) (kidAt qs 1)
      let c ← sumKids env r level (kidAt ps 2) (kidAt qs 2)
      let d ← sumKids env r level (kidAt ps 3) (kidAt qs 3)
      makeNode env r.acc r.e (level + 1) false [a, b, c, d]

/-- P0 + P1, after which both are released (R208). -/
def sumAndRelease (env : WalkEnv) (r : Arith) (level : Nat) (p q : Kid) : W Kid := do
  let s ← sumKids env r level p q
  releaseKid env p
  releaseKid env q
  return s

/-- Whether a product of two kids is posted work: neither is pruned, and they are not two I. -/
def isPosted (a b : Kid) : Bool := a.code != 0 && b.code != 0 && !(a.code == 1 && b.code == 1)

/-- A posted product that has come back (R207): its fault ends the walk. -/
def takeReturned (env : WalkEnv) : W Kid := do
  let w ← getThe Walk
  modifyThe Walk fun w => { w with index := w.index + 1 }
  match tfind env.returned w.index with
  | none => walkFault 0x20
  | some r => do
    modifyThe Walk fun w => { w with flags := w.flags ||| r.flags }
    if r.code ≠ 0 then walkFault r.code else shareKid env r.kid

/-- The product of two subtrees at a level (R205). -/
def mulKids (env : WalkEnv) (r : Arith) (ta tb : TreeOf) : Nat → Kid → Kid → W Kid
  | 0, a, b => do
    if a.code = 0 ∨ b.code = 0 then return kidZ
    else do
      let x ← leafOf env ta a
      let y ← leafOf env tb b
      putLeaf env r.acc r.e (← flagged (leafProduct r.kind (fmtOf r.acc) x y))
  | level + 1, a, b => do
    if a.code = 0 ∨ b.code = 0 then return kidZ
    else if a.code = 1 ∧ b.code = 1 then do
      putI env r.acc r.e (← flagged (scaleRound fmtF64 (kidAlpha a) (kidAlpha b))) (level + 1)
    else if env.spread = some (level + 1) then takeReturned env
    else do
      let as ← kidsOf env ta (level + 1) a
      let bs ← kidsOf env tb (level + 1) b
      let quad := fun (i j : Nat) => do
        let p ← mulKids env r ta tb level (kidAt as (2 * i)) (kidAt bs j)
        let q ← mulKids env r ta tb level (kidAt as (2 * i + 1)) (kidAt bs (2 + j))
        sumAndRelease env r level p q
      let k0 ← quad 0 0
      let k1 ← quad 0 1
      let k2 ← quad 1 0
      let k3 ← quad 1 1
      makeNode env r.acc r.e (level + 1) false [k0, k1, k2, k3]

/-- The products of a walk that are posted, in walk order (R207): those of operands at level `s`. -/
def postedPairs (env : WalkEnv) (ta tb : TreeOf) (s : Nat) : Nat → Kid → Kid → W (List (Kid × Kid))
  | 0, _, _ => return []
  | level + 1, a, b => do
    if !isPosted a b then return []
    else if level + 1 = s then return [(a, b)]
    else do
      let as ← kidsOf env ta (level + 1) a
      let bs ← kidsOf env tb (level + 1) b
      let steps := (List.range 8).map fun m => (kidAt as (m / 4 * 2 + m % 2), kidAt bs (m % 2 * 2 + m / 2 % 2))
      let rest ← steps.mapM fun (x, y) => postedPairs env ta tb s level x y
      return rest.flatten

/-! ### Scaled sums (R66) -/

/-- α·t + β·c at a level, for trees of two regions and formats; the result is of format `ty`. -/
def blendKids (env : WalkEnv) (b : Blend) (ty : Ty) (tx ty' : TreeOf) : Nat → Kid → Kid → W Kid
  | 0, x, y => do
    let p ← leafOf env tx x
    let q ← leafOf env ty' y
    putLeaf env ty tx.e (← flagged (leafBlend b (2 ^ tx.e) p q))
  | level + 1, x, y => do
    if x.code = 0 ∧ y.code = 0 then return kidZ
    else if x.code ≤ 1 ∧ y.code ≤ 1 then do
      let l := fun (k : Kid) => if k.code = 1 then Leaf.i (kidAlpha k) else Leaf.z
      putI env ty tx.e (← flagged (blendI b (l x) (l y))) (level + 1)
    else do
      let xs ← kidsOf env tx (level + 1) x
      let ys ← kidsOf env ty' (level + 1) y
      let k0 ← blendKids env b ty tx ty' level (kidAt xs 0) (kidAt ys 0)
      let k1 ← blendKids env b ty tx ty' level (kidAt xs 1) (kidAt ys 1)
      let k2 ← blendKids env b ty tx ty' level (kidAt xs 2) (kidAt ys 2)
      let k3 ← blendKids env b ty tx ty' level (kidAt xs 3) (kidAt ys 3)
      makeNode env ty tx.e (level + 1) false [k0, k1, k2, k3]

/-! ### Conversions (R225) -/

/-- How a conversion goes: the destination format, SAT, and DEMOTE. -/
structure Convert where
  ty : Ty
  sat : Bool
  demote : Bool
  deriving DecidableEq, Repr

/-- An element of an expanded L leaf that no rule gives (log entry 21). -/
def freeElem (s : State) (u v : List FVal) : FVal :=
  valueOf fmtF32 (Config.freeElement s.tick (u.map (encodeVal fmtF32)) (v.map (encodeVal fmtF32))).toNat

/-- A leaf converted (R225): to a q format, D, L and F leaves are quantised as F leaves; to its own format it is copied. A leaf of e = 7
may grow past what Table 11.1 allows its format: DESIGN CHOICE (log entry 124). -/
def convertLeaf (env : WalkEnv) (c : Convert) (t : TreeOf) (k : Kid) : W Kid := do
  let l ← leafOf env t k
  let d := 2 ^ t.e
  match l with
  | .z => return kidZ
  | .i a =>
    if isWeight c.ty || c.ty = t.ty then return k
    else putLeaf env c.ty t.e (.i (← flagged (convertExact (fmtOf c.ty) c.sat a)))
  | _ =>
    let zero := match l with | .f rows => c.demote && allZero rows | _ => false
    if zero && c.ty = t.ty then return kidZ
    else if c.ty = t.ty then do nameContents env k.code (← readObject env t.region k.field) []
    else if isWeight c.ty then do
      let s ← machine get
      let blocks ← flagged (leafBlocks c.ty d (expandInner t.ty (freeElem s)) l)
      if c.demote && blocks.all (fun b => b.q.all fun q => q == 0 && b.scale != 0xFF) then return kidZ
      else nameContents env 4 (wholeLines (packObject c.ty blocks)) []
    else do putLeaf env c.ty t.e (← flagged (leafConvert (fmtOf c.ty) c.sat c.demote l))

/-- A subtree converted (R225), in quadrant order. -/
def convertKids (env : WalkEnv) (c : Convert) (t : TreeOf) : Nat → Kid → W Kid
  | 0, k => convertLeaf env c t k
  | level + 1, k => do
    match k.code with
    | 0 => return kidZ
    | 1 =>
      if isWeight c.ty || c.ty = t.ty then return k
      else do putI env c.ty t.e (← flagged (convertExact (fmtOf c.ty) c.sat (kidAlpha k))) (level + 1)
    | _ => do
      let ks ← kidsOf env t (level + 1) k
      let k0 ← convertKids env c t level (kidAt ks 0)
      let k1 ← convertKids env c t level (kidAt ks 1)
      let k2 ← convertKids env c t level (kidAt ks 2)
      let k3 ← convertKids env c t level (kidAt ks 3)
      makeNode env c.ty t.e (level + 1) false [k0, k1, k2, k3]

/-! ### A tree times a vector (Table 11.6) -/

/-- y_i = Round(P0 + P1), where none stands for a Z product. -/
def sumVectors (acc : Fmt) : Option (List FVal) → Option (List FVal) → Flagged (Option (List FVal))
  | none, q => return q
  | p, none => return p
  | some p, some q => do return some (← zipRound (sumRound acc) p q)

/-- A leaf times a vector. -/
def leafVector (k : PairKind) (acc : Fmt) (l : Leaf) (xs : List FVal) : Flagged (Option (List FVal)) :=
  match l with
  | .z => return none
  | .i a => do return some (← xs.mapM fun x => scaleRound acc a x)
  | .d ds => do return some (← zipRound (scaleRound acc) ds xs)
  | .l us vs => do
    let w ← vs.mapM fun v => dot k acc false v xs
    return some (← (columnsOf xs.length us).mapM fun u => dot k acc false u w)
  | .f rows => do return some (← rows.mapM fun r => dot k acc true r xs)

/-- A subtree times a vector: i, then k innermost. -/
def mulVector (env : WalkEnv) (r : Arith) (t : TreeOf) : Nat → Kid → List FVal → W (Option (List FVal))
  | 0, k, xs => do
    if k.code = 0 then return none
    else do flagged (leafVector r.kind (fmtOf r.acc) (← leafOf env t k) xs)
  | level + 1, k, xs => do
    if k.code = 0 then return none
    else if k.code = 1 then flagged (leafVector r.kind (fmtOf r.acc) (.i (kidAlpha k)) xs)
    else do
      let ks ← kidsOf env t (level + 1) k
      let half := 2 ^ (t.e + level)
      let lo := xs.take half
      let hi := xs.drop half
      let row := fun (i : Nat) => do
        let p ← mulVector env r t level (kidAt ks (2 * i)) lo
        let q ← mulVector env r t level (kidAt ks (2 * i + 1)) hi
        flagged (sumVectors (fmtOf r.acc) p q)
      let top ← row 0
      let bottom ← row 1
      match top, bottom with
      | none, none => return none
      | _, _ => return some (top.getD (List.replicate half zeroVal) ++ bottom.getD (List.replicate half zeroVal))

end Sys2Proof.Machine
end

