-- ==== Sys2Proof/Machine/Hearth.lean ====
section
/-! DEFINITION. The hearth of a room (R195 to R217, R222 to R230): tensor slots and who owns them, the command window, and
how a command starts, walks, stops, retires or is dropped. -/

namespace Sys2Proof.Machine

open Sys2Proof

/-! ### Tensor slots (R195 to R197, R219) -/

/-- The key of a tensor slot in a room's file. -/
def tensorKey (ctx t : Nat) : Nat := 64 * ctx + t

/-- The descriptor of a slot of kind none. -/
def noTensor : List XWord := List.replicate 8 0

/-- The descriptor a slot holds, as eight dwords (Table 12.3). -/
def tensorAt (s : State) (room ctx t : Nat) : List XWord := (tget ⟨noTensor⟩ (roomAt s room).tensors (tensorKey ctx t)).desc

/-- The state with a slot's descriptor written; a slot of kind none is not listed. -/
def putTensor (s : State) (room ctx t : Nat) (d : List XWord) : State :=
  onRoom s room fun q => { q with tensors := tset ⟨noTensor⟩ q.tensors (tensorKey ctx t) ⟨d⟩ }

/-- Fields of a descriptor (Table 12.3). -/
def tDword (d : List XWord) (k : Nat) : XWord := d.getD k 0
def tBits (d : List XWord) (k hi lo : Nat) : Nat := bitsOf (tDword d k).toNat hi lo
def tKind (d : List XWord) : Nat := tBits d 0 1 0
def tTy (d : List XWord) : Ty := (Ty.ofCode (tBits d 0 15 12)).getD .f64
def tDims (d : List XWord) : Nat := tBits d 0 19 16
def tE (d : List XWord) : Nat := tBits d 0 22 20
def tN (d : List XWord) : Nat := tBits d 0 28 24
def tDemote (d : List XWord) : Bool := (tDword d 0).getLsbD 31
def tSpread (d : List XWord) : Nat := tBits d 0 35 32
def tRows (d : List XWord) : Nat := tBits d 1 31 0
def tCols (d : List XWord) : Nat := tBits d 1 63 32
def tRoot (d : List XWord) : BitVec 128 := tDword d 3 ++ tDword d 2
def tRegion (d : List XWord) : XWord := tDword d 4
def tBase (d : List XWord) : XWord := tDword d 1

/-- The extent of dimension `i`, and its stride. -/
def tExtent (d : List XWord) (i : Nat) : Nat := (tDword d (2 + i / 2)).toNat / 2 ^ (32 * (i % 2)) % 2 ^ 32
def tStride (d : List XWord) (i : Nat) : XWord := tDword d (4 + i)

/-! ### Commands and their operands -/

/-- The tensor slots a command names: c, a and b. -/
def slotC (q : Command) : Nat :=
  match q.instr with
  | .hmm _ c _ _ _ | .hadd _ c _ _ _ | .hmv _ c _ _ _ | .hcvt _ c _ _ _ => c.val
  | _ => 64
def slotA (q : Command) : Nat :=
  match q.instr with
  | .hmm _ _ a _ _ | .hadd _ _ a _ _ | .hmv _ _ a _ _ | .hcvt _ _ a _ _ => a.val
  | _ => 64
def slotB (q : Command) : Option Nat :=
  match q.instr with
  | .hmm _ _ _ b _ | .hadd _ _ _ b _ | .hmv _ _ _ b _ => some b.val
  | _ => none

/-- The flags of a command's instruction; HCVT has only the root swap (R224). -/
def commandFlags (q : Command) : BitVec 3 :=
  match q.instr with
  | .hmm _ _ _ _ f => f
  | .hadd _ _ _ _ f => f
  | .hmv _ _ _ _ f => f.setWidth 3
  | .hcvt _ _ _ _ w => if w then 4 else 0
  | _ => 0

/-- The command that owns a slot as its c (R197). -/
def ownerOf (s : State) (room ctx t : Nat) : Option Command :=
  (roomAt s room).window.find? fun q => q.ctx == ctx && slotC q == t

/-- Whether a slot is owned for reading by a command that has not started (R197). -/
def readOwned (s : State) (room ctx t : Nat) : Bool :=
  (roomAt s room).window.any fun q => q.ctx == ctx && !q.started && (slotA q == t || slotB q == some t)

/-- Whether a slot may not be written (R197). -/
def slotBusy (s : State) (room ctx t : Nat) : Bool := (ownerOf s room ctx t).isSome || readOwned s room ctx t

/-- A command of a launch in a room's window. -/
def commandAt (s : State) (room l id : Nat) : Option Command :=
  (roomAt s room).window.find? fun q => q.launch == l && q.id == id

/-- The state with a command of the window changed. -/
def onCommand (s : State) (room l id : Nat) (f : Command → Command) : State :=
  onRoom s room fun q => { q with window := q.window.map fun c => if c.launch = l ∧ c.id = id then f c else c }

/-- The command that the walker runs. -/
def runningOf (s : State) (room : Nat) : Option Command := (roomAt s room).window.find? fun q => q.state == .running

/-- The predecessors of predecessors in a window, `fuel` levels deep. -/
def ancestors (s : State) (room l : Nat) : Nat → List Nat → List Nat
  | 0, ids => ids
  | fuel + 1, ids => ids ++ (ids.flatMap fun i =>
    match commandAt s room l i with
    | some q => ancestors s room l fuel q.preds
    | none => [])

/-! ### Arrival, successors and leaving (R210, R212, R213) -/

/-- A command arrives at its barrier (R213), with its fault code where it has one. -/
def arriveFor (room : Nat) (q : Command) (code : BitVec 8) : M Unit := do
  let _ ← arriveAt q.launch (barrierKey .room room q.barrier) none none (if code = 0 then none else some code)

/-- Commands whose status a hearth keeps after they left (R213), and entries of a window (R210). -/
def windowSize : Nat := 32

/-- A command leaves the window (R210, R213): its status is kept, and who waits for an entry or for the walker goes on. -/
def removeCommand (s : State) (room : Nat) (q : Command) (how : CommandEnd) (code : BitVec 8) : State :=
  let st : CommandStatus := ⟨q.id, q.launch, how, code, q.flags, q.swapFailed, q.steps⟩
  let s := onRoom s room fun r => { r with
    window := r.window.filter fun c => !(c.launch == q.launch && c.id == q.id)
    left := (st :: r.left).take windowSize }
  post s [.windowStallRelease room, .commandStart room, .postedProduct room]

/-- The waiting commands that name a command as a predecessor. -/
def successorsOf (s : State) (room : Nat) (q : Command) : List Command :=
  (roomAt s room).window.filter fun c => c.launch == q.launch && c.preds.contains q.id

/-- What a command's stop or its leaving means for its successors (R212): where it is an error, one with s = 1 retires in
error with code 0x24, and so on down the chain. A command that has left is a predecessor no more. -/
def tellSuccessors (room : Nat) (gone error : Bool) : Nat → Command → M Unit
  | 0, _ => pure ()
  | fuel + 1, q => do
    let s ← get
    (successorsOf s room q).forM fun c => do
      if error && c.skip then do
        modify fun s => removeCommand s room c .inError 0x24
        arriveFor room c 0x24
        tellSuccessors room true true fuel c
      else if gone then
        modify fun s => onCommand s room c.launch c.id fun c => { c with preds := c.preds.filter fun i => i != q.id }

/-- A command leaves the window, and its successors learn of it. -/
def leaveWindow (room : Nat) (q : Command) (how : CommandEnd) (code : BitVec 8) : M Unit := do
  modify fun s => removeCommand s room q how code
  if how ≠ .dropped then arriveFor room q code
  tellSuccessors room true (how ≠ .retired) windowSize q

/-! ### The stair record (R206) -/

/-- The room images of a context begin after its frames (R232); each takes 8,720 KiB, and its second 4 KiB are the stair
record (R255). -/
def stairAddress (s : State) (ctx room : Nat) : XWord :=
  ctxSave s ctx + BitVec.ofNat 64 (4096 * ctxFrames s ctx + 8720 * 1024 * (room - ctxFirst s ctx) + 4096)

/-- Whether a place lies in a fabric window, which no operand of a hearth may (R346). -/
def inWindow (p : Place) : Bool :=
  match p with
  | .mem _ pa => spaceOf pa == .fabric
  | .vault _ _ => false

/-- A vault word that a fill for a command changes is logged in its launch's recoverable superstep (R364). -/
def logFill (room r off : Nat) : M Unit := do
  match runningOf (← get) room with
  | some q => logWord q.launch r off
  | none => pure ()

/-- The places of an interval for a command of a hearth: through the H path (R191, R297). -/
def commandPlaces (room ctx : Nat) (acc : Access) : List (XWord × Nat) → M (List (Place × Nat))
  | [] => return []
  | (a, n) :: t => do
    let p ← locateFor (room / 16) room ctx (.command room) a acc
    ensure (!inWindow p) (trap 0x05 a)
    readyPlace (room / 16) (.command room) (logFill room) acc a p n
    let rest ← commandPlaces room ctx acc t
    return (p, n) :: rest

/-- Where an interval lies for a command, or the fault code of what fails (Table 11.9). A page that misses makes the
command wait for the translation unit. -/
def reachFor (room ctx : Nat) (acc : Access) (a : XWord) (n : Nat) : M (Except Nat (List (Place × Nat))) := do
  match ← attempt (commandPlaces room ctx acc (granules (n / 16384 + 2) a n)) with
  | .ok ps => return .ok ps
  | .error (.trap cause _ _ _) => return .error (if cause = 0x04 then 0x04 else 0x05)
  | .error (.park _ due) => throw (.engine (room / 16) none due)
  | .error e => throw e

/-- The bytes of a stair record: R206 gives it 64 frames of 64 bytes, and not what they hold (log entry 22). -/
def stairBytes (s : State) : List Byte := (List.range 4096).map fun i => Config.freeByte s.tick (2 ^ 70 + i)

/-- The hearth writes its stair to the record of a context: a fault code where the record cannot be reached. -/
def writeStair (room ctx : Nat) : M (Option Nat) := do
  let s ← get
  match ← reachFor room ctx .write (stairAddress s ctx room) 4096 with
  | .error code => return some code
  | .ok ps => do
    pokeAll (room / 256) ps (stairBytes s)
    return none

/-! ### Stopping and dropping (R213, R214) -/

/-- A running command has stopped with a fault code (R213): it arrives in error phase, and its successors learn of it. -/
def endStop (room : Nat) (q : Command) (code : BitVec 8) : M Unit := do
  modify fun s => onCommand s room q.launch q.id fun _ => { q with state := .stopped, code := code }
  arriveFor room q code
  tellSuccessors room false true windowSize q
  modify fun s => post s [.commandStart room, .postedProduct room]

/-- A running command stops with a fault code (R206, R213), once its stair has gone to its record where that can be reached. A
translation that is not at hand makes it wait with its code. -/
def stopCommand (room : Nat) (q : Command) (code : Nat) : M Unit := do
  match ← attempt (writeStair room q.ctx) with
  | .error (.engine hall _ due) =>
    modify fun s => blockOn (onCommand s room q.launch q.id fun _ => { q with code := BitVec.ofNat 8 code }) hall due (.commandStop room code)
  | .error e => throw e
  | .ok _ => endStop room q (BitVec.ofNat 8 code)

/-- The names that returned products hold references to. -/
def returnedNames (t : Table PostedResult) : List (BitVec 128) :=
  t.filterMap fun (_, r) => if r.code = 0 ∧ r.kid.named then some r.kid.field else none

/-- A command's posted products are withdrawn from other hearths; those that are done release what they hold. -/
def withdrawPosted (s : State) (room : Nat) (q : Command) : State :=
  let mine := fun (p : Posted) => p.owner == room && p.launch == q.launch && p.id == q.id
  let done := s.rooms.flatMap fun (_, r) => (r.posted.filter mine).filterMap fun p =>
    p.result.bind fun r => if r.code = 0 ∧ r.kid.named then some r.kid.field else none
  let s := { s with rooms := s.rooms.map (fun (n, r) => (n, { r with posted := r.posted.filter fun p => !mine p })) }
  done.foldl (dropName q.ctx) s

/-- The state after a command releases every reference it holds: to what its walk built, to a completed root, and to its
operands (R197, R214). -/
def releaseAll (s : State) (room : Nat) (q : Command) : State :=
  let s := withdrawPosted s room q
  (q.held ++ returnedNames q.returned ++ (q.result.toList.filter fun n => n != 0) ++ q.refs).foldl (dropName q.ctx) s

/-- A command is dropped (R214). -/
def dropCommand (room : Nat) (q : Command) : M Unit := do
  modify fun s => releaseAll s room q
  leaveWindow room q .dropped 0

/-! ### What a command computes (R204, R224) -/

/-- The row of Table 4.9 and the format of accumulation of a format pair (R204); none for a pair it does not have. -/
def pairOfFormats (a b : Ty) : Option (PairKind × Ty) :=
  match a, b with
  | .f64, .f64 => some (.fused, .f64)
  | .f32, .f32 => some (.fused, .f32)
  | .b16, .b16 => some (.groups, .f32)
  | .q4, .e4m3 | .q4, .e5m2 | .q4, .b16 | .q3, .e4m3 | .q3, .e5m2 | .q3, .b16 => some (.scales, .f32)
  | _, _ => none

/-- Whether a pair may write a format (R204). -/
def pairWrites (acc c : Ty) (kind : PairKind) : Bool :=
  match kind with
  | .fused => c == acc
  | _ => c == .f32 || c == .b16

/-- Whether two slots are trees of one n and one e. -/
def sameShape (a b : List XWord) : Bool := tN a == tN b && tE a == tE b

/-- The level of a tree's root: n − e (R200). -/
def rootLevel (d : List XWord) : Nat := tN d - tE d

/-- The tree of a slot, with its region. -/
def treeOf (s : State) (ctx : Nat) (d : List XWord) : TreeOf := ⟨(regionAt s ctx (tRegion d)).getD 256, tTy d, tE d, rootLevel d⟩

/-- The root of a tree slot as a kid: Z for the name 0. -/
def rootKid (d : List XWord) : Kid := if tRoot d = 0 then kidZ else ⟨5, tRoot d⟩

/-- The checks a command makes when it starts (R204, R206, R222, R224, R225): its fault code, or 0. Where both fail it is 0x21:
DESIGN CHOICE (log entry 122). -/
def startCode (q : Command) : Nat :=
  let deep := if tKind q.a = 1 ∧ 15 < rootLevel q.a then 0x22 else 0
  let trees := fun (ds : List (List XWord)) => ds.all fun d => tKind d == 1
  match q.instr with
  | .hmm _ _ _ _ _ => match pairOfFormats (tTy q.a) (tTy q.b) with
    | some (k, acc) =>
      if trees [q.a, q.b, q.c] && sameShape q.a q.b && sameShape q.a q.c && pairWrites acc (tTy q.c) k then deep else 0x21
    | none => 0x21
  | .hadd _ _ _ _ _ =>
    if trees [q.a, q.b, q.c] && sameShape q.a q.b && sameShape q.a q.c && tTy q.a == tTy q.b && tTy q.a == tTy q.c &&
      (tTy q.a == .f64 || tTy q.a == .f32 || tTy q.a == .b16) then deep else 0x21
  | .hmv _ _ _ _ _ => match pairOfFormats (tTy q.a) (tTy q.b) with
    | some (k, acc) =>
      if tKind q.a == 1 && tKind q.b == 3 && tKind q.c == 3 && pairWrites acc (tTy q.c) k &&
        tExtent q.b 0 == tCols q.a && tExtent q.c 0 == tRows q.a then deep else 0x21
    | none => 0x21
  | .hcvt _ _ _ fmt _ => if trees [q.a, q.c] && decide (8 ≤ fmt.code) then deep else 0x21
  | _ => 0x21

/-- A command's scales as values; none is a constant 1 (R223). -/
def alphaOf (q : Command) : Option FVal := if (commandFlags q).getLsbD 0 then none else some (valueOf fmtF64 q.alpha.toNat)
def betaOf (q : Command) : Option FVal := some (valueOf fmtF64 q.beta.toNat)

/-- Whether the old C is not read: β is a constant 0 (R224). -/
def noOldC (q : Command) : Bool :=
  match q.instr with
  | .hadd _ _ _ _ _ => false
  | _ => (commandFlags q).getLsbD 1

/-- The accumulation of a command's products. -/
def arithOf (q : Command) : Arith :=
  let p := (pairOfFormats (tTy q.a) (tTy q.b)).getD (.fused, .f64)
  ⟨p.1, p.2, tE q.a⟩

/-- Top-level steps of a command (R215, R226). R226 does not number those of HMV: DESIGN CHOICE (log entry 119). -/
def totalSteps (q : Command) : Nat :=
  match q.instr with
  | .hmm _ _ _ _ _ => 8
  | _ => 4

/-- The environment of a command's walk. -/
def walkEnv (s : State) (room : Nat) (q : Command) : WalkEnv :=
  ⟨room, q.ctx, q.launch, (regionAt s q.ctx (tRegion q.c)).getD 256,
    if q.spreads then some (tSpread q.c) else none, q.returned⟩

/-- The final scaled sum of HMM (R66): T is delivered unchanged where α = 1, β = 0 and c is as wide as the accumulation. -/
def finalBlend (q : Command) : Blend :=
  let same := tTy q.c == (arithOf q).acc
  ⟨alphaOf q, betaOf q, fmtOf (tTy q.c), (commandFlags q).getLsbD 0 && noOldC q && same, tDemote q.c⟩

/-- The scaled sum of HADD (R224). -/
def addBlend (q : Command) : Blend :=
  ⟨alphaOf q, if (commandFlags q).getLsbD 1 then none else betaOf q, fmtOf (tTy q.c), false, tDemote q.c⟩

/-! ### The walk, one top-level step at a time (R205, R215) -/

/-- The children of a tree's root. -/
def rootKids (env : WalkEnv) (t : TreeOf) (root : Kid) : W (List Kid) := kidsOf env t t.level root

/-- Bytes as a hearth reads them, under the stores that its room holds for a commit (R191): they precede the command. -/
def peekHeld (room : Nat) (a : XWord) (p : Place) (n : Nat) : M (List Byte × Bool) := do
  let (bs, bad) ← peekUnder ((roomAt (← get) room).hold.map Held.effect) a p n (some room)
  return (bs, bad.isSome)

/-- The values of a vector slot's first elements, as a command reads them through the H path. -/
def readVector (env : WalkEnv) (d : List XWord) (n : Nat) : W (List FVal) := do
  let bytes := (tTy d).size * n
  match ← machine (reachFor env.room env.ctx .read (tBase d) bytes) with
  | .error code => walkFault code
  | .ok ps => do
    let rs ← ps.mapM fun (p, m) => machine (peekHeld env.room (tBase d) p m)
    if rs.any fun r => r.2 then walkPoison env
    else return readElems (tTy d) n (rs.flatMap Prod.fst)

/-- Half of the vector that HMV multiplies with, for the product (i, k) of its top-level step (R224). -/
def halfVector (env : WalkEnv) (q : Command) (k : Nat) : W (List FVal) := do
  let n := 2 ^ tN q.a
  let xs ← readVector env q.b (min n (tExtent q.b 0))
  let xs := xs ++ List.replicate (n - xs.length) zeroVal
  return if k = 0 then xs.take (n / 2) else xs.drop (n / 2)

/-- A top-level step of a command: the command with one more step complete. One of HMV finds its fault, and the values are formed at
the end (R215). -/
def topStep (env : WalkEnv) (s : State) (q : Command) : W Command := do
  let ta := treeOf s q.ctx q.a
  let level := ta.level - 1
  let as ← rootKids env ta (rootKid q.a)
  match q.instr with
  | .hmm _ _ _ _ _ => do
    let tb := treeOf s q.ctx q.b
    let bs ← rootKids env tb (rootKid q.b)
    let m := q.steps
    let p ← mulKids env (arithOf q) ta tb level (kidAt as (m / 4 * 2 + m % 2)) (kidAt bs (m % 2 * 2 + m / 2 % 2))
    match q.part with
    | none => return { q with steps := m + 1, part := some p }
    | some p0 => do
      let k ← sumAndRelease env (arithOf q) level p0 p
      return { q with steps := m + 1, part := none, sums := q.sums ++ [k] }
  | .hadd _ _ _ _ _ => do
    let tb := treeOf s q.ctx q.b
    let bs ← rootKids env tb (rootKid q.b)
    let k ← blendKids env (addBlend q) (tTy q.c) ta tb level (kidAt as q.steps) (kidAt bs q.steps)
    return { q with steps := q.steps + 1, sums := q.sums ++ [k] }
  | .hcvt _ _ _ fmt _ => do
    let k ← convertKids env ⟨fmt, q.saturate, tDemote q.c⟩ ta level (kidAt as q.steps)
    return { q with steps := q.steps + 1, sums := q.sums ++ [k] }
  | .hmv _ _ _ _ _ => do
    let _ ← mulVector env (arithOf q) ta level (kidAt as q.steps) (← halfVector env q (q.steps % 2))
    return { q with steps := q.steps + 1 }
  | _ => return { q with steps := q.steps + 1 }

/-- Runs a part of a command's walk: the command and the result, or the command as the fault left it, and the code. -/
def runWalk {α : Type} (room : Nat) (q : Command) (act : WalkEnv → State → W (Command × α)) :
    M (Command × Except Nat α) := do
  let s ← get
  let (r, w) ← ((act (walkEnv s room q) s).run).run ⟨q.held, q.flags.toNat, q.index⟩
  let q := { q with held := w.held, flags := BitVec.ofNat 5 w.flags }
  match r with
  | .ok (p, a) => return ({ p with held := w.held, flags := BitVec.ofNat 5 w.flags, index := w.index }, .ok a)
  | .error code => return (q, .error code)

/-- Takes a command to a number of top-level steps, `fuel` at most: none, or the fault code it ended with. -/
def advanceTo (room stop : Nat) : Nat → Command → M (Command × Option Nat)
  | 0, q => return (q, none)
  | fuel + 1, q =>
    if stop ≤ q.steps then return (q, none)
    else do
      match ← runWalk room q (fun env s => do return (← topStep env s q, ())) with
      | (p, .ok _) => advanceTo room stop fuel p
      | (p, .error code) => return (p, some code)

/-- The result tree of completed quadrants (R66, R205): the root's name, 0 for the all-zero tree. -/
def finishTree (env : WalkEnv) (s : State) (q : Command) : W (BitVec 128) := do
  let level := rootLevel q.a - 1
  let ty := match q.instr with | .hcvt _ _ _ fmt _ => fmt | _ => tTy q.c
  let ks ← match q.instr with
    | .hmm _ _ _ _ _ =>
      if (finalBlend q).keepI && !tDemote q.c then pure q.sums
      else do
        let tc := treeOf s q.ctx q.c
        let cs ← if noOldC q then pure [kidZ, kidZ, kidZ, kidZ] else rootKids env tc (rootKid q.c)
        let tt : TreeOf := ⟨env.out, (arithOf q).acc, tE q.a, level⟩
        let b := finalBlend q
        let k0 ← blendKids env b ty tt tc level (kidAt q.sums 0) (kidAt cs 0)
        let k1 ← blendKids env b ty tt tc level (kidAt q.sums 1) (kidAt cs 1)
        let k2 ← blendKids env b ty tt tc level (kidAt q.sums 2) (kidAt cs 2)
        let k3 ← blendKids env b ty tt tc level (kidAt q.sums 3) (kidAt cs 3)
        pure [k0, k1, k2, k3]
    | _ => pure q.sums
  let root ← makeNode env ty (tE q.a) (level + 1) true ks
  return root.field

/-- A snapshot of a command (R215): each quadrant holds the scaled sum of its completed steps. A quadrant of HADD or HCVT
that is complete stands as it is; one of HCVT, which has no β, that is not is Z: DESIGN CHOICE (log entry 120). The tree has the
shape of C, which a command that has not passed its checks need not share with A, and that of A for HCVT. -/
def snapshotTree (env : WalkEnv) (s : State) (q : Command) : W (BitVec 128) := do
  let cvt := match q.instr with | .hcvt _ _ _ _ _ => true | _ => false
  let shape := if cvt then q.a else q.c
  let level := rootLevel shape - 1
  let tc := treeOf s q.ctx q.c
  if !cvt && isWeight (tTy q.c) then walkFault 0x21
  let ty := match q.instr with | .hcvt _ _ _ fmt _ => fmt | _ => tTy q.c
  let cs ← if noOldC q || cvt then pure [kidZ, kidZ, kidZ, kidZ] else rootKids env tc (rootKid q.c)
  let done := q.sums ++ q.part.toList
  let tt : TreeOf := ⟨env.out, (arithOf q).acc, tE shape, level⟩
  let quad := fun (i : Nat) => do
    match q.instr with
    | .hmm _ _ _ _ _ => blendKids env (finalBlend q) ty tt tc level (kidAt done i) (kidAt cs i)
    | _ =>
      if i < q.sums.length then shareKid env (kidAt q.sums i)
      else blendKids env (addBlend q) ty tc tc level kidZ (kidAt cs i)
  let k0 ← quad 0
  let k1 ← quad 1
  let k2 ← quad 2
  let k3 ← quad 3
  let root ← makeNode env ty (tE shape) (level + 1) true [k0, k1, k2, k3]
  return root.field

/-! ### A tree times a vector (R224) -/

/-- A command's writes of bytes leave for their places: in a recoverable superstep as effects of its slot (R364). -/
def sendFor (q : Command) (ps : List (Place × Nat)) (bs : List Byte) : M Unit :=
  asSlot q.core q.slot (go ps bs)
where
  go : List (Place × Nat) → List Byte → M Unit
    | [], _ => pure ()
    | (p, n) :: t, bs => do
      emit (.store p (bs.take n))
      go t (bs.drop n)

/-- HMV (R224): y := Round(α·A·x + β·y). -/
def vectorProduct (env : WalkEnv) (s : State) (q : Command) : W Unit := do
  let t := treeOf s q.ctx q.a
  let n := 2 ^ tN q.a
  let xs ← readVector env q.b (min n (tExtent q.b 0))
  let xs := xs ++ List.replicate (n - xs.length) zeroVal
  let r ← mulVector env (arithOf q) t t.level (rootKid q.a) xs
  let rows := tExtent q.c 0
  let out := fmtOf (tTy q.c)
  let ys ← if noOldC q then pure [] else readVector env q.c rows
  let b : Blend := ⟨alphaOf q, betaOf q, out, false, false⟩
  let zs := r.getD (List.replicate n zeroVal)
  let res ← flagged ((List.range rows).mapM fun i =>
    blendElem b r.isNone (noOldC q) (zs.getD i zeroVal) (ys.getD i zeroVal))
  match ← machine (reachFor env.room env.ctx .write (tBase q.c) ((tTy q.c).size * rows)) with
  | .error code => walkFault code
  | .ok ps => machine (sendFor q ps (writeElems (tTy q.c) res))

/-! ### Retiring (R196, R208, R209, R213) -/

/-- The launch of a command, where it runs in recoverable supersteps. -/
def commandGang (s : State) (q : Command) : Bool :=
  match launchAt s q.launch with
  | some r => r.mode == 1
  | none => false

/-- Where a root cell lies for a command (R223): on an ordinary class D page of device memory; else a fault code. -/
def cellFor (room ctx : Nat) (x : XWord) : M (Except Nat Place) := do
  if !isCanonical x || isVaultAddr x then return .error 0x05
  else match ← attempt (translate (room / 16) ctx (.command room) x .update .plain) with
    | .ok (key, pa, attr) =>
      if attrClass attr != 0 || attrSL attr || spaceOf pa == .host || spaceOf pa == .fabric then return .error 0x05
      else return .ok (.mem key pa)
    | .error (.trap cause _ _ _) => return .error (if cause = 0x04 then 0x04 else 0x05)
    | .error (.park _ due) => throw (.engine (room / 16) none due)
    | .error e => throw e

/-- The root swap of a command (R209): a fault code, or none. In a recoverable superstep the swap is held (R217). -/
def swapFor (room : Nat) (q : Command) (new : BitVec 128) : M (Option Nat × Command) := do
  if !(commandFlags q).getLsbD 2 then return (none, q)
  else match ← cellFor room q.ctx q.cell with
    | .error code => return (some code, q)
    | .ok cell => do
      let g := regionAt (← get) q.ctx (tRegion q.c)
      let expected := tRoot q.c
      if commandGang (← get) q then do
        asSlot q.core q.slot (emit (.rootSwap q.ctx g cell expected new (some (q.launch, q.id))))
        let failed := ((commandAt (← get) room q.launch q.id).map Command.swapFailed).getD false
        return (none, { q with swapFailed := failed })
      else match ← swapRoot (room / 256) q.ctx g q.cell cell expected new with
        | none => return (some 0x0E, q)
        | some ok => return (none, { q with swapFailed := !ok })

/-- The descriptor of a c slot after its command (R195, R224). -/
def resultSlot (q : Command) (old : List XWord) (root : BitVec 128) : List XWord :=
  let cols := match q.instr with | .hmm _ _ _ _ _ => tCols q.b | _ => tCols q.a
  let head := match q.instr with
    | .hcvt _ _ _ fmt _ =>
      let keep := (tDword old 0).toNat - tBits old 0 15 12 * 2 ^ 12 - tE old * 2 ^ 20 - tN old * 2 ^ 24
      BitVec.ofNat 64 (keep + fmt.code * 2 ^ 12 + tE q.a * 2 ^ 20 + tN q.a * 2 ^ 24)
    | _ => tDword old 0
  [head, BitVec.ofNat 64 (cols * 2 ^ 32 + tRows q.a), root.setWidth 64, BitVec.ofNat 64 (root.toNat / 2 ^ 64)] ++ old.drop 4

/-- A slot's old root is released: in a recoverable superstep at its commit (R230, R366). -/
def releaseOld (q : Command) (old : BitVec 128) : M Unit := do
  let s ← get
  if old = 0 then pure ()
  else if commandGang s q then
    match regionOfName s q.ctx old with
    | some g => asSlot q.core q.slot (emit (.unref g old))
    | none => pure ()
  else set (dropName q.ctx s old)

/-- A command whose tree is complete swaps its root, if it is to, gives its c slot the new root, and retires; also where a launch start
has emptied the slot since: DESIGN CHOICE (log entry 118). Where the page of its root cell is not at hand it waits for that with its walk complete (R214, R412). -/
def landTree (room : Nat) (q : Command) (root : BitVec 128) : M Unit := do
  let walked := { q with result := some root, steps := totalSteps q }
  match ← attempt (swapFor room q root) with
  | .error (.engine hall _ due) =>
    modify fun s => blockOn (onCommand s room q.launch q.id fun _ => walked) hall due (.commandRetire room)
  | .error e => throw e
  | .ok (some code, _) => stopCommand room walked code
  | .ok (none, q) => do
    let s ← get
    let old := tensorAt s room q.ctx (slotC q)
    set (putTensor s room q.ctx (slotC q) (resultSlot q old root))
    if commandGang s q ∧ root ≠ 0 then
      match regionAt s q.ctx (tRegion q.c) with
      | some g => modify fun s => onLaunch s q.launch fun r => { r with taken := r.taken ++ [(g, root)] }
      | none => pure ()
    releaseOld q (treeRoot old)
    let q := { q with result := none, steps := totalSteps q }
    modify fun s => releaseAll s room q
    leaveWindow room q .retired 0

/-- The walk of a running command goes to its end (R205, R224): the command retires, or stops with its fault code. -/
def retireCommand (room : Nat) (q : Command) : M Unit := do
  match q.instr, q.result with
  | .hmv _ _ _ _ _, _ => do
    match ← advanceTo room (totalSteps q) (totalSteps q) q with
    | (p, some code) => stopCommand room p code
    | (p, none) => do
      match ← runWalk room p (fun env s => do
          vectorProduct env s p
          return (p, ())) with
      | (p, .error code) => stopCommand room p code
      | (p, .ok _) => do
        modify fun s => releaseAll s room p
        leaveWindow room p .retired 0
  | _, some root => landTree room q root
  | _, none => do
    match ← advanceTo room (totalSteps q) (totalSteps q) q with
    | (p, some code) => stopCommand room p code
    | (p, none) => do
      match ← runWalk room p (fun env s => do return (p, ← finishTree env s p)) with
      | (p, .error code) => stopCommand room p code
      | (p, .ok root) => landTree room { p with held := p.held.erase root, sums := [], part := none } root

/-! ### Starting (R197, R207, R212) -/

/-- The priority of a command's launch. -/
def commandPri (s : State) (q : Command) : Nat := ((launchAt s q.launch).map recPri).getD 0

/-- Whether the walker may start a command: it is ready, and no command of its context is stopped; or it was resumed. -/
def mayStart (s : State) (room : Nat) (q : Command) : Bool :=
  match q.state with
  | .resumed => true
  | .waiting | .split =>
    q.preds.isEmpty && !((roomAt s room).window.any fun c => c.ctx == q.ctx && c.state == .stopped)
  | _ => false

/-- The command of the highest priority, and of those the one accepted earliest. -/
def bestOf (s : State) : List Command → Option Command
  | [] => none
  | q :: t => match bestOf s t with
    | none => some q
    | some r => if commandPri s q < commandPri s r then some r else some q

/-- The command that a free walker starts (R212): a resumed one goes ahead of every ready command of its own context. -/
def nextCommand (s : State) (room : Nat) : Option Command :=
  let ready := (roomAt s room).window.filter (mayStart s room)
  match bestOf s ready with
  | none => none
  | some q => match ready.find? fun c => c.ctx == q.ctx && c.state == .resumed with
    | some r => some r
    | none => some q

/-- The rooms a hearth posts to (R207): the others of its hall in the same launch, ascending from the one after the last it
posted to. -/
def postTargets (s : State) (room l : Nat) : List Nat :=
  let rooms := ((launchAt s l).map fun r => r.rooms.filter fun q => q / 16 == room / 16 && q != room).getD []
  match (roomAt s room).lastPost with
  | none => rooms
  | some last => (rooms.filter fun q => decide (last < q)) ++ rooms.filter fun q => decide (q ≤ last)

/-- Products posted in walk order, one to each target in turn (R207), each with its place in the walk. -/
def postAll (room : Nat) (q : Command) (level : Nat) (targets : List Nat) : Nat → List (Nat × Kid × Kid) → State → State
  | _, [], s => s
  | k, (i, a, b) :: t, s =>
    let target := targets.getD (k % targets.length) room
    let p : Posted := ⟨room, q.launch, q.id, i, level, a, b, none⟩
    let s := onRoom (onRoom s target fun r => { r with posted := r.posted ++ [p] }) room fun r => { r with
      lastPost := some target }
    postAll room q level targets (k + 1) t (post s [.postedProduct target])

/-- The products that a command's walk posts, each with its place in it; none where the walk meets a fault on the way. -/
def productsOf (room : Nat) (q : Command) : M (Option (List (Nat × Kid × Kid))) := do
  let s ← get
  let ta := treeOf s q.ctx q.a
  let tb := treeOf s q.ctx q.b
  match ← runWalk room q (fun env _ => do
      return (q, ← postedPairs env ta tb (tSpread q.c) ta.level (rootKid q.a) (rootKid q.b))) with
  | (_, .error _) => return none
  | (_, .ok pairs) => return some (pairs.mapIdx fun i p => (i, p))

/-- HMM posts its products of the c slot's spread level to the other hearths of its hall (R207); none where its walk meets
a fault on the way, which it meets again. -/
def postProducts (room : Nat) (q : Command) : M Command := do
  let s ← get
  let level := tSpread q.c
  let targets := postTargets s room q.launch
  let hmm := match q.instr with | .hmm _ _ _ _ _ => true | _ => false
  if !hmm || level = 0 || rootLevel q.c ≤ level || targets.isEmpty then return q
  else match ← productsOf room q with
    | none => return q
    | some ps => do
      modify fun s => postAll room q level targets 0 ps s
      return { q with spreads := true, posted := ps.length }

/-- A resumed command posts again the products that came back with a fault (R207, R214). -/
def repostFailed (room : Nat) (q : Command) : M Command := do
  let failed := q.returned.filter fun e => e.2.code ≠ 0
  if failed.isEmpty then return q
  else match ← productsOf room q with
    | none => return q
    | some ps => do
      let again := ps.filter fun p => failed.any fun e => e.1 == p.1
      let targets := postTargets (← get) room q.launch
      if targets.isEmpty then return q
      else do
        modify fun s => postAll room q (tSpread q.c) targets 0 again s
        return { q with returned := q.returned.filter fun e => e.2.code = 0, posted := q.posted + again.length }

/-- A command waits on posted work only: its stair goes to its record (R206). -/
def awaitProducts (room : Nat) (q : Command) : M Unit := do
  match ← attempt (writeStair room q.ctx) with
  | .ok none => modify fun s => onCommand s room q.launch q.id fun _ => { q with stairOwed := false }
  | .ok (some code) => stopCommand room q code
  | .error (.engine hall _ due) =>
    modify fun s => blockOn (onCommand s room q.launch q.id fun _ => { q with stairOwed := true }) hall due (.commandStart room)
  | .error e => throw e

/-- A command reads its slots as it starts, with a reference to each root (R197). -/
def readSlots (room : Nat) (q : Command) : M Command := do
  let s ← get
  let a := tensorAt s room q.ctx (slotA q)
  let b := ((slotB q).map (tensorAt s room q.ctx)).getD noTensor
  let c := tensorAt s room q.ctx (slotC q)
  let roots := ([a, b, c].map treeRoot).filter fun n => n != 0
  set (roots.foldl (addName q.ctx) s)
  return { q with started := true, a := a, b := b, c := c, refs := roots }

/-- Whether a resumed command reads its slots again: it was stopped by the checks of its operands before its first step. -/
def rereads (q : Command) : Bool := q.started && q.steps == 0 && q.result.isNone && (q.code == 0x20 || q.code == 0x21 || q.code == 0x22)

/-- COMMAND_START (R212): the free walker starts a command, whose slots are read and checked. One that waits for its products
writes a stair that it owes (R206). -/
def commandStartAct (room : Nat) : M Unit := do
  let s ← get
  match runningOf s room with
  | some q => if q.stairOwed && q.code == 0 then awaitProducts room q else pure ()
  | none => match nextCommand s room with
    | none => pure ()
    | some q => do
      let fresh := !q.started || rereads q
      let q ← if rereads q then do
          modify fun s => releaseAll s room q
          pure { q with held := [], returned := [], refs := [] }
        else pure q
      let q ← if fresh then readSlots room q else pure q
      let q := { q with state := .running, code := 0 }
      modify fun s => onCommand s room q.launch q.id fun _ => q
      let code := if fresh then startCode q else 0
      if code ≠ 0 then stopCommand room q code
      else do
        let q ← if fresh then postProducts room q else repostFailed room q
        modify fun s => onCommand s room q.launch q.id fun _ => q
        if q.posted = 0 then modify fun s => post s [.commandRetire room] else awaitProducts room q

/-- COMMAND_RETIRE (R213): the walk of the running command and its writes are complete, once no product is out. -/
def commandRetireAct (room : Nat) : M Unit := do
  match runningOf (← get) room with
  | none => pure ()
  | some q => if q.posted = 0 ∧ q.code = 0 then retireCommand room q else pure ()

/-- The fault codes of a command (Table 11.9). -/
def stopCodes : List Nat := [0x04, 0x05, 0x0E, 0x20, 0x21, 0x22, 0x23]

/-- COMMAND_STOP (R213): the running command meets a fault. -/
def commandStopAct (room code : Nat) : M Unit := do
  match runningOf (← get) room with
  | none => pure ()
  | some q => if stopCodes.contains code then stopCommand room q code else pure ()

/-- Stops a running command at its split granule after some of its steps (R216): it is ready again, its stair in its
record. -/
def splitAt (room steps : Nat) (q : Command) : M Unit := do
  match ← advanceTo room (min steps (totalSteps q)) (totalSteps q) q with
  | (p, some code) => stopCommand room p code
  | (p, none) => do
    match ← writeStair room p.ctx with
    | some code => stopCommand room p code
    | none => do
      let s ← get
      set (post (onCommand s room p.launch p.id fun _ => { p with state := .split }) [.commandStart room, .postedProduct room])

/-- Whether a command may be stopped at a granule: its top-level products lie at its granule's level or above, and none of
its products is out (R216). -/
def splittable (q : Command) : Bool :=
  q.code == 0 && q.granule != 0 && decide (q.granule < rootLevel q.a) && q.posted == 0 && tKind q.a == 1 && q.result.isNone

/-- GRANULE_STOP (R216): to start a ready command of a higher launch priority. -/
def granuleStopAct (room steps : Nat) : M Unit := do
  let s ← get
  match runningOf s room with
  | none => pure ()
  | some q =>
    let higher := (roomAt s room).window.any fun c => mayStart s room c && decide (commandPri s q < commandPri s c)
    if splittable q && higher then splitAt room (max q.steps steps) q else pure ()

/-! ### Posted products (R207) -/

/-- POSTED_PRODUCT (R207): a hearth whose walker is idle, or waits for products itself, walks the first posted product. -/
def postedProductAct (room : Nat) : M Unit := do
  let s ← get
  let idle := match runningOf s room with
    | none => true
    | some q => q.posted != 0
  let next := if idle then (roomAt s room).posted.find? fun p => p.result.isNone else none
  match next with
  | none => pure ()
  | some p => match commandAt s p.owner p.launch p.id with
      | none => modify fun s => onRoom s room fun r => { r with posted := r.posted.filter fun x => x != p }
      | some q => do
        let own := { q with held := [], flags := 0, spreads := false }
        let (w, r) ← runWalk room own (fun env s => do
          return (own, ← mulKids env (arithOf q) (treeOf s q.ctx q.a) (treeOf s q.ctx q.b) p.level p.left p.right))
        let res : PostedResult := match r with
          | .ok k => ⟨k, w.flags.toNat, 0⟩
          | .error code => ⟨kidZ, w.flags.toNat, code⟩
        match r with
        | .ok _ => pure ()
        | .error _ => modify fun s => w.held.foldl (dropName q.ctx) s
        modify fun s =>
          let s := onRoom s room fun r => { r with
            posted := r.posted.map fun x => if x = p then { p with result := some res } else x }
          post s [.postedProductReturn room, .postedProduct room]

/-- POSTED_PRODUCT_RETURN (R207): a product's name and flags return to the owning hearth. -/
def postedProductReturnAct (room : Nat) : M Unit := modify fun s =>
  match (roomAt s room).posted.find? fun p => p.result.isSome with
  | none => s
  | some p =>
    let s := onRoom s room fun r => { r with posted := r.posted.filter fun x => x != p }
    let res := p.result.getD ⟨kidZ, 0, 0⟩
    let s := onCommand s p.owner p.launch p.id fun q => { q with
      posted := q.posted - 1, returned := tput q.returned p.index res }
    match commandAt s p.owner p.launch p.id with
    | some q => if q.posted = 0 then post s [.commandRetire p.owner] else s
    | none => s

end Sys2Proof.Machine
end

