-- ==== Sys2Proof/Machine/HearthOps.lean ====
section
/-! DEFINITION. The tensor slot and hearth instructions (R219 to R230), and the steps of a hearth. -/

namespace Sys2Proof.Machine

open Sys2Proof

/-! ### The issuing slot's room and file -/

/-- The room whose hearth the issuing slot uses, and its context. -/
def myFile : M (Nat × Nat) := do
  let s ← get
  return (roomOf (leadCore s s.cur.1 s.cur.2), (slotAt s s.cur.1 s.cur.2).ctx)

/-- Runs a writing form once for a chain (R230): in a follower it takes no effect. In a pair it follows an agreed
compare. -/
def onceInChain (act : M Flow) : M Flow := do
  match ← followed with
  | some _ => return .seq
  | none => do
    compareFirst
    act

/-- Trap 0x0C with the slot's number (R197, Table 2.8). -/
def busyTrap {α : Type} (t : Nat) : M α := trap 0x0C 0 t

/-- A slot's new root takes its reference and the old one's is released (R196, R230): in a recoverable superstep the taken
reference is noted and the release held. -/
def swapRoots (ctx : Nat) (old new : BitVec 128) : M Unit := do
  let s ← get
  if new ≠ 0 then
    match regionOfName s ctx new with
    | some g => do
      modify fun s => (addRef s g new).1
      noteTaken g new
    | none => pure ()
  if old ≠ 0 then
    match regionOfName s ctx old with
    | some g => emit (.unref g old)
    | none => pure ()

/-! ### Descriptors (R219, R220, Table 12.3) -/

/-- The dwords of a descriptor from its bytes. -/
def descriptorOf (bs : List Byte) : List XWord :=
  (List.range 8).map fun k => BitVec.ofNat 64 (natOfBytes ((bs.drop (8 * k)).take 8))

/-- Whether dword 0 of a descriptor breaks Table 12.3. -/
def headBad (d : List XWord) : Bool :=
  let f := fun hi lo => tBits d 0 hi lo
  let code := f 15 12
  match tKind d with
  | 0 => tDword d 0 != 0
  | 1 =>
    f 63 36 != 0 || f 30 29 != 0 || f 23 23 != 0 || f 19 16 != 0 || f 11 2 != 0 || decide (code < 8) ||
      decide (tE d = 0) || (decide (tE d = 7) && (code == 8 || code == 9)) || decide (tN d ≤ tE d) || decide (22 < tN d)
  | k =>
    f 63 20 != 0 || f 11 2 != 0 || decide (13 < code) || decide (tDims d = 0) || decide (4 < tDims d) ||
      (k == 3 && tDims d != 1)

/-- Whether an extent of a plain or vector slot breaks Table 12.3: a used one is at least 1, an unused one 0. -/
def extentBad (d : List XWord) (i : Nat) : Bool := if i < tDims d then tExtent d i == 0 else tExtent d i != 0

/-- Whether a dword of a descriptor other than the first breaks Table 12.3. -/
def dwordBad (d : List XWord) (k : Nat) : Bool :=
  match tKind d with
  | 0 => tDword d k != 0
  | 1 =>
    let bad := fun n => decide (n = 0) || decide (2 ^ tN d < n)
    if k = 1 then bad (tRows d) || bad (tCols d) else decide (5 ≤ k) && tDword d k != 0
  | _ =>
    if k = 2 ∨ k = 3 then extentBad d (2 * (k - 2)) || extentBad d (2 * (k - 2) + 1)
    else decide (4 ≤ k) && decide (tDims d ≤ k - 4) && tDword d k != 0

/-- The first dword of a descriptor that breaks Table 12.3. -/
def firstBad (d : List XWord) : Option Nat :=
  if headBad d then some 0 else [1, 2, 3, 4, 5, 6, 7].find? (dwordBad d)

/-- The first of base, d0, d1, d2 and d3 that breaks the width rule of R219. -/
def widthBad (d : List XWord) : Option XWord :=
  let size := (tTy d).size
  let w := max 4 size
  let values := (tBase d, false) :: (List.range (tDims d)).map fun i => (tStride d i, i + 1 == tDims d)
  (values.find? fun (v, inner) => if inner then v.toNat != size else v.toNat % w != 0).map Prod.fst

/-- Traps where a region address of a tree fails (R220, check 5), and its region. -/
def checkRegion (x : XWord) : M Nat := do
  let s ← get
  let c := leadCore s s.cur.1 s.cur.2
  let ctx := (slotAt s s.cur.1 s.cur.2).ctx
  if isThreshold s.cur.1 || !isCanonical x || isVaultAddr x then trap 0x05 x
  else do
    let (_, _, attr) ← translate (hallOf c) ctx (.slot c s.cur.2) x .read .plain
    match regionAt s ctx x with
    | some g => if attrSL attr then return g else trap 0x05 x
    | none => trap 0x05 x

/-- TSET (R220). -/
def execTset (t : Fin 64) (a : Reg) (s : State) : Host.Outcome State Fault Refusal :=
  insn (.tset t a) s (onceInChain (do
    let x ← rx a
    aligned x 8
    let (room, ctx) ← myFile
    if slotBusy (← get) room ctx t.val then busyTrap t.val
    let d := descriptorOf (← loadBytes x 64)
    match firstBad d with
    | some k => trap 0x01 (x + BitVec.ofNat 64 (8 * k)) 0 (encode (.tset t a)).toNat
    | none => pure ()
    if tKind d ≥ 2 then
      match widthBad d with
      | some v => trap 0x03 v
      | none => pure ()
    if tKind d = 1 then
      let g ← checkRegion (tRegion d)
      if tRoot d ≠ 0 ∧ (entryOf (← get) g (tRoot d)).isNone then trap 0x05 (x + 16)
    let old := tensorAt (← get) room ctx t.val
    modify fun s => putTensor s room ctx t.val d
    swapRoots ctx (treeRoot old) (treeRoot d)
    return .seq))

/-- TGET (R221). -/
def execTget (t : Fin 64) (a : Reg) (s : State) : Host.Outcome State Fault Refusal :=
  insn (.tget t a) s (do
    let x ← rx a
    aligned x 8
    compareFirst
    let (room, ctx) ← myFile
    storeBytes x (dwords (tensorAt (← get) room ctx t.val))
    return .seq)

/-- TCLR (R221). -/
def execTclr (t : Fin 64) (s : State) : Host.Outcome State Fault Refusal :=
  insn (.tclr t) s (onceInChain (do
    let (room, ctx) ← myFile
    if slotBusy (← get) room ctx t.val then busyTrap t.val
    let old := tensorAt (← get) room ctx t.val
    modify fun s => putTensor s room ctx t.val noTensor
    swapRoots ctx (treeRoot old) 0
    return .seq))

/-- The word of TINFO (Table 12.5). -/
def tinfoWord (s : State) (room ctx t : Nat) : XWord :=
  let own := ownerOf s room ctx t
  BitVec.ofNat 64 (((own.map Command.id).getD 0) * 2 ^ 48 + own.isSome.toNat * 2 ^ 47 +
    (readOwned s room ctx t).toNat * 2 ^ 46 + tBits (tensorAt s room ctx t) 0 35 0)

/-- TINFO (R221). -/
def execTinfo (a : Reg) (t : Fin 64) (s : State) : Host.Outcome State Fault Refusal :=
  insn (.tinfo a t) s (do
    compareFirst
    let (room, ctx) ← myFile
    wx a (tinfoWord (← get) room ctx t.val)
    return .seq)

/-! ### Commands (R210, R211, R222, R223) -/

/-- The fields of a bound DEP hint, or those of R41: predecessors, barrier, granule, skip. -/
def depOf (v : Slot) : List Nat × Nat × Nat × Bool :=
  (v.hints.findSome? fun h => match h with
    | .hintDep p q n g k => some ([p.toNat, q.toNat], n.toNat, g.toNat, k)
    | _ => none).getD ([], 0, 0, false)

/-- The next command id of a launch in a room (R12). -/
def nextIdOf (s : State) (room l : Nat) : Nat := tget 1 (roomAt s room).nextId l

/-- The id of the latest command before id `n` that a predecessor field names (R211). -/
def namedId (n p : Nat) : Nat := (n + 65535 - (n + 127 - p) % 128) % 65536

/-- The predecessors that are still in the window (R211). One that has left before, in error or dropped, imposes nothing: DESIGN CHOICE
(log entry 121). -/
def predecessorsOf (s : State) (room l : Nat) (ps : List Nat) : List Nat :=
  let n := nextIdOf s room l
  ((ps.filter fun p => p != 0).map (namedId n)).filter fun i => (commandAt s room l i).isSome

/-- The slot that the checks of R197 stop a command at: its c slot if it is owned, then its a and its b slot if a command
that is no predecessor owns it. -/
def busyOperand (s : State) (room ctx l : Nat) (preds : List Nat) (tc : Nat) (reads : List Nat) : Option Nat :=
  let before := ancestors s room l windowSize preds
  if slotBusy s room ctx tc then some tc
  else reads.find? fun t => match ownerOf s room ctx t with
    | some q => !(q.launch == l && before.contains q.id)
    | none => false

/-- The participant count of a room barrier of a launch in a room. -/
def roomBarrierN (s : State) (l room n : Nat) : Nat :=
  match launchAt s l with
  | some r => barrierN (barrierAt r (barrierKey .room room n)).config
  | none => 0

/-- A hearth accepts a command (R210, R211, R222, R223): the id it gets. -/
def acceptCommand (i : Instr) (fl : BitVec 3) (usesA usesB : Bool) (tc : Nat) (reads : List Nat) : M Nat := do
  let (room, ctx) ← myFile
  let s ← get
  let v ← me
  if windowSize ≤ (roomAt s room).window.length then park .window
  let l := (launchOf v).getD 0
  let (ps, n, g, skip) := depOf v
  let preds := predecessorsOf s room l ps
  match busyOperand s room ctx l preds tc reads with
  | some t => busyTrap t
  | none => pure ()
  if (launchOf v).isNone ∨ roomBarrierN s l room n = 0 then trap 0x0D
  let cell ← if fl.getLsbD 2 then rx 3 else pure 0
  if fl.getLsbD 2 then aligned cell 16
  let alpha ← if usesA then rx 1 else pure 0x3FF0000000000000
  let beta ← if usesB then rx 2 else pure 0
  let id := nextIdOf s room l
  let q : Command := ⟨id, ((gangOf s v).map fun g => g.2.seq).getD 0, ctx, l, i, leadCore s s.cur.1 s.cur.2, s.cur.2, alpha, beta, cell, satOf v, preds, n, g, skip,
    .waiting, 0, 0, false, 0, false, [], [], [], [], [], none, [], none, false, 0, [], 0, false⟩
  modify fun s =>
    let s := onRoom s room fun r => { r with
      window := r.window ++ [q], nextId := tput r.nextId l (if id = 65535 then 1 else id + 1) }
    post s [.commandStart room]
  (preds.filterMap (commandAt s room l)).forM fun p =>
    if p.state = .stopped then tellSuccessors room false true windowSize p else pure ()
  return id

/-- A command instruction: in a chain's follower the leader's id (R230). -/
def issueCommand (i : Instr) (d : Reg) (fl : BitVec 3) (usesA usesB : Bool) (tc : Nat) (reads : List Nat) : M Flow := do
  match ← followed with
  | some f => do
    wx d f.id
    return .seq
  | none => do
    compareFirst
    let id ← acceptCommand i fl usesA usesB tc reads
    let q := commandAt (← get) (← myFile).1 ((launchOf (← me)).getD 0) id
    feed (bytesOfNat 8 tc ++ (q.map fun q => dwords [q.alpha, q.beta, q.cell]).getD [])
    wx d (BitVec.ofNat 64 id)
    return .seq

/-- HMM (R222, R224). -/
def execHmm (d : Reg) (tc ta tb : Fin 64) (fl : BitVec 3) (s : State) : Host.Outcome State Fault Refusal :=
  let i := Instr.hmm d tc ta tb fl
  insn i s (issueCommand i d fl (!fl.getLsbD 0) (!fl.getLsbD 1) tc.val [ta.val, tb.val])

/-- HADD (R222, R224). -/
def execHadd (d : Reg) (tc ta tb : Fin 64) (fl : BitVec 3) (s : State) : Host.Outcome State Fault Refusal :=
  let i := Instr.hadd d tc ta tb fl
  insn i s (issueCommand i d fl (!fl.getLsbD 0) (!fl.getLsbD 1) tc.val [ta.val, tb.val])

/-- HMV (R222, R224). -/
def execHmv (d : Reg) (tc ta tb : Fin 64) (fl : BitVec 2) (s : State) : Host.Outcome State Fault Refusal :=
  let i := Instr.hmv d tc ta tb fl
  insn i s (issueCommand i d (fl.setWidth 3) (!fl.getLsbD 0) (!fl.getLsbD 1) tc.val [ta.val, tb.val])

/-- HCVT (R222, R225). -/
def execHcvt (d : Reg) (tc ta : Fin 64) (fmt : Ty) (swap : Bool) (s : State) : Host.Outcome State Fault Refusal :=
  let i := Instr.hcvt d tc ta fmt swap
  insn i s (issueCommand i d (if swap then 4 else 0) false false tc.val [ta.val])

/-! ### Command control (R226 to R229) -/

/-- A snapshot of the command that owns a slot (R226): the pair and the status word. That of a completed walk is its root
(R214, R215). A failed allocation changes nothing, and is answered as R226 has it; so is another fault of the snapshot's walk: DESIGN
CHOICE (log entry 120). -/
def takeSnapshot (room : Nat) (q : Command) : M (BitVec 128 × XWord) := do
  let r ← attempt (do
    match q.result with
    | some root => do
      modify fun s => if root = 0 then s else addName q.ctx s root
      return root
    | none => match ← runWalk room { q with held := [] } (fun env s => do return (q, ← snapshotTree env s q)) with
      | (_, .ok n) => return n
      | (_, .error _) => throw (.later []))
  match r with
  | .ok n => return (n, BitVec.ofNat 64 q.steps)
  | .error (.later _) => return (0, 0x4000000000000000)
  | .error e => throw e

/-- HSNAP (R226). -/
def execHsnap (d b : Reg) (t : Fin 64) (s : State) : Host.Outcome State Fault Refusal :=
  insn (.hsnap d b t) s (do
    compareFirst
    let (room, ctx) ← myFile
    let s ← get
    let desc := tensorAt s room ctx t.val
    let none := 0x8000000000000000#64
    let active := (ownerOf s room ctx t.val).bind fun q =>
      if q.state = .running ∨ q.state = .stopped ∨ q.state = .resumed then some q else Option.none
    if tKind desc ≠ 1 then do
      wxName d 0
      wx b none
      return .seq
    else match active with
      | some q => do
        let (n, w) ← takeSnapshot room q
        if n ≠ 0 then
          match regionOfName (← get) ctx n with
          | some g => noteTaken g n
          | .none => pure ()
        wxName d n
        wx b w
        return .seq
      | .none => do
        swapRoots ctx 0 (tRoot desc)
        wxName d (tRoot desc)
        wx b none
        return .seq)

/-- The state code of Table 11.9. -/
def stateCode : CommandState → Nat
  | .waiting | .split => 1
  | .running | .resumed => 2
  | .stopped => 3

/-- How a command left, as a state code of Table 11.9. -/
def endCode : CommandEnd → Nat
  | .retired => 4 | .inError => 5 | .dropped => 6

/-- The status word of Table 11.9. -/
def statusOf (id state code flags : Nat) (swf : Bool) (steps : Nat) : XWord :=
  BitVec.ofNat 64 (id * 2 ^ 48 + state * 2 ^ 45 + code * 2 ^ 37 + flags * 2 ^ 32 + swf.toNat * 2 ^ 31 + steps % 16)

/-- The status of a command of a launch in a room (R227). -/
def commandStatus (s : State) (room l id : Nat) : XWord :=
  match commandAt s room l id with
  | some q => statusOf id (stateCode q.state) (if q.state = .stopped then q.code.toNat else 0) q.flags.toNat q.swapFailed q.steps
  | none => match (roomAt s room).left.find? fun q => q.launch == l && q.id == id with
    | some q => statusOf id (endCode q.how) q.code.toNat q.flags.toNat q.swapFailed q.steps
    | none => statusOf id 0 0 0 false 0

/-- HQRY (R227). -/
def execHqry (d a : Reg) (s : State) : Host.Outcome State Fault Refusal :=
  insn (.hqry d a) s (do
    let id := (← rx a).toNat % 2 ^ 16
    compareFirst
    let (room, _) ← myFile
    let s ← get
    wx d (match launchOf (slotAt s s.cur.1 s.cur.2) with
      | some l => commandStatus s room l id
      | none => statusOf id 0 0 0 false 0)
    return .seq)

/-- The stopped command of the issuing slot's launch that an id names (R228). -/
def stoppedCommand (id : Nat) : M (Nat × Option Command) := do
  let (room, _) ← myFile
  let s ← get
  let v ← me
  return (room, match launchOf v with
    | some l => (commandAt s room l id).filter fun q => q.state == .stopped
    | none => none)

/-- HRES (R228). -/
def execHres (a : Reg) (s : State) : Host.Outcome State Fault Refusal :=
  insn (.hres a) s (do
    let id := (← rx a).toNat % 2 ^ 16
    onceInChain (do
      match ← stoppedCommand id with
      | (room, some q) => do
        modify fun s => post (onCommand s room q.launch q.id fun q => { q with state := .resumed }) [.commandStart room]
        return .seq
      | (_, none) => return .seq))

/-- HDROP (R228). -/
def execHdrop (a : Reg) (s : State) : Host.Outcome State Fault Refusal :=
  insn (.hdrop a) s (do
    let id := (← rx a).toNat % 2 ^ 16
    onceInChain (do
      match ← stoppedCommand id with
      | (room, some q) => do
        dropCommand room q
        return .seq
      | (_, none) => return .seq))

/-- The word of HWIN (Table 12.7). -/
def windowWord (s : State) (room ctx : Nat) (l : Option Nat) : XWord :=
  let w := (roomAt s room).window
  let stopped := (w.filter fun q => q.ctx == ctx && q.state == .stopped).length
  let mine := (w.filter fun q => l == some q.launch).length
  let next := (l.map (nextIdOf s room)).getD 1
  BitVec.ofNat 64 (next * 2 ^ 32 + stopped * 2 ^ 16 + mine * 2 ^ 8 + w.length)

/-- HWIN (R229). -/
def execHwin (d : Reg) (s : State) : Host.Outcome State Fault Refusal :=
  insn (.hwin d) s (do
    compareFirst
    let (room, ctx) ← myFile
    wx d (windowWord (← get) room ctx (launchOf (← me)))
    return .seq)

/-! ### The steps of a hearth -/

/-- WINDOW_STALL_RELEASE (R210): the slots of a room that wait for a window entry issue again once there is one. -/
def execWindowStallRelease (room : Nat) (s : State) : Host.Outcome State Fault Refusal :=
  event (.windowStallRelease room) s (modify fun s =>
    if windowSize ≤ (roomAt s room).window.length then s
    else (coresOf room).foldl (fun s c => (List.finRange 4).foldl (fun s k =>
      if (slotAt s c k).wait = some .window ∧ !isSecond s c k then wake s c k else s) s) s)

/-- COMMAND_START (R212). -/
def execCommandStart (room : Nat) (s : State) : Host.Outcome State Fault Refusal :=
  event (.commandStart room) s (commandStartAct room)

/-- COMMAND_RETIRE (R213). -/
def execCommandRetire (room : Nat) (s : State) : Host.Outcome State Fault Refusal :=
  event (.commandRetire room) s (commandRetireAct room)

/-- COMMAND_STOP (R213). -/
def execCommandStop (room : Nat) (code : BitVec 8) (s : State) : Host.Outcome State Fault Refusal :=
  event (.commandStop room code) s (commandStopAct room code.toNat)

/-- GRANULE_STOP (R216). -/
def execGranuleStop (room steps : Nat) (s : State) : Host.Outcome State Fault Refusal :=
  event (.granuleStop room steps) s (granuleStopAct room steps)

/-- POSTED_PRODUCT (R207). -/
def execPostedProduct (room : Nat) (s : State) : Host.Outcome State Fault Refusal :=
  event (.postedProduct room) s (postedProductAct room)

/-- POSTED_PRODUCT_RETURN (R207). -/
def execPostedProductReturn (room : Nat) (s : State) : Host.Outcome State Fault Refusal :=
  event (.postedProductReturn room) s (postedProductReturnAct room)

end Sys2Proof.Machine
end

