-- ==== Sys2Proof/Machine/System.lean ====
section
/-! DEFINITION. The system instructions (R315 to R325, R331): traps raised on purpose, the return from a trap and the
delivery to the supervisor slot, system registers, waiting for events, chains, the retry latch, kicks. -/

namespace Sys2Proof.Machine

open Sys2Proof

/-! ### Traps on purpose (R316) -/

/-- TRAP (R316): taken after the instruction. -/
def execTrap (n : BitVec 15) (s : State) : Host.Outcome State Fault Refusal :=
  insn (.trap n) s (return .after 0x10 0 n.toNat)

/-- BRK (R316): bit 47 of trap.info marks a breakpoint. -/
def execBrk (n : BitVec 15) (s : State) : Host.Outcome State Fault Refusal :=
  insn (.brk n) s (trap 0x10 0 0 (2 ^ 47 + n.toNat))

/-! ### Waiting for events (R321) -/

/-- Whether an event is pending for a slot (R321). -/
def eventPending (s : State) (c : Nat) (k : Fin 4) : Bool :=
  let changed := mapVersion s != (contextAt s (slotAt s c k).ctx).mapAck
  match modeOf c k with
  | .user => changed
  | .supervisor => !(coreAt s c).deliveries.isEmpty || changed
  | .firmware => !(hallAt s (hallOf c)).messages.isEmpty

/-- What WAIT answers: the reason and the cycles left. -/
def waitWord (reason left : Nat) : XWord := BitVec.ofNat 64 (reason * 2 ^ 62 + left % 2 ^ 32)

/-- WAIT (R321): the limit is xd[31:0], 0 for none. -/
def execWait (d : Reg) (s : State) : Host.Outcome State Fault Refusal :=
  insn (.wait d) s (do
    let x ← rx d
    let s ← get
    let limit := x.toNat % 2 ^ 32
    if eventPending s s.cur.1 s.cur.2 then do
      wx d (waitWord 1 limit)
      return .seq
    else return .wait (.event d (if limit = 0 then none else some limit)))

/-- What a slot waits for at a WAIT: its register and what is left of its limit. -/
def waitOf (v : Slot) : Option (Reg × Option Nat) :=
  match v.wait with
  | some (.event d t) => some (d, t)
  | _ => none

/-- A parked WAIT completes with a reason. -/
def completeWait (c : Nat) (k : Fin 4) (reason : Nat) : M Unit := do
  let s ← get
  match waitOf (slotAt s c k) with
  | none => pure ()
  | some (d, t) => complete c k (do
      wx d (waitWord reason (if reason = 0 then 0 else t.getD 0))
      return .seq)

/-- WAIT_TIMEOUT (R321). -/
def execWaitTimeout (c : Nat) (k : Fin 4) (s : State) : Host.Outcome State Fault Refusal :=
  event (.waitTimeout c k) s (
    match waitOf (slotAt s c k) with
    | some (_, some 0) => completeWait c k 0
    | _ => pure ())

/-- The WAITs of a list of slots complete where an event is pending. -/
def serveWaits : List (Nat × Nat × Fin 4 × Unit) → M Unit
  | [] => pure ()
  | (_, c, k, _) :: t => do
    if eventPending (← get) c k then completeWait c k 1
    serveWaits t

/-- A change of the map, or a message for a threshold core, completes the WAITs whose event it is (R321). -/
def testEvents : M Unit := do
  serveWaits (waiters (← get) fun w => match w with
    | .event _ _ => some ()
    | _ => none)

/-! ### The supervisor slot (R28, R317 to R319) -/

/-- A wait of the supervisor slot is interrupted (R318): its registration is released, as R115 gives it. -/
def interruptWait (s : State) (c : Nat) : State :=
  wake (dropRequests (dropMisses (withdrawArrival s c 3) c 3) c 3) c 3

/-- A delivery enters the supervisor slot (R28): it takes the origin slot's trap registers, and keeps its own vector and
scratch. -/
def enterDelivery (s : State) (c : Nat) (d : Delivery) (rest : List Delivery) : State :=
  let v := slotAt s c 3
  let t : TrapRegs := { v.trap with
    cause := d.trap.cause ||| (1#64 <<< 63), pc := d.trap.pc, addr := d.trap.addr, info := d.trap.info }
  onCore s c fun q => { q with
    slots := q.slots.set 3 (enterHandler v t), deliveries := rest, activation := some d.slot, resume := restartPc v }

/-- SUPERVISOR_DELIVERY (R28, R318): the first queued delivery, where the supervisor slot is outside its handler and does
not wait for its own latch. Inside its handler a pending delivery completes a WAIT (R321). -/
def supervisorDeliveryAct (c : Nat) : M Unit := do
  let s ← get
  let v := slotAt s c 3
  match (coreAt s c).deliveries with
  | [] => pure ()
  | d :: rest =>
    if !v.live || (coreAt s c).halted || v.wait == some .latch then pure ()
    else if inHandler v then (if (waitOf v).isSome then completeWait c 3 1 else pure ())
    else do
      if (waitOf v).isSome then completeWait c 3 1
      else if v.wait.isSome then set (interruptWait s c)
      modify fun s => enterDelivery s c d rest

/-- SUPERVISOR_DELIVERY (R318). -/
def execSupervisorDelivery (c : Nat) (s : State) : Host.Outcome State Fault Refusal :=
  event (.supervisorDelivery c) s (supervisorDeliveryAct c)

/-- H of trap.cause cleared. -/
def clearH (v : Slot) : Slot := { v with trap := { v.trap with cause := withH 0 v.trap.cause } }

/-- The origin slot of a delivery goes on at its own trap.pc (R317), its H cleared and its loop stack checked (R84); while
its latch is valid it stays parked for it (R319). -/
def readyOrigin (v : Slot) : Slot :=
  if v.wait = some .delivery then { clearH v with
    wait := if v.latch.isSome then some .latch else none, hints := [], pc := v.trap.pc, delay := 3
    loops := loopKeep v.trap.pc v.loops }
  else v

/-- The origin of a delivery goes on, where no other delivery of it waits (R28: while one does it stays parked). -/
def readySlot (s : State) (c : Nat) (o : Fin 4) : State :=
  if (coreAt s c).deliveries.any (fun d => d.slot == o) then s else onSlot s c o readyOrigin

/-- ERET (R317). -/
def execEret (s : State) : Host.Outcome State Fault Refusal :=
  insn .eret s (do
    let v ← me
    let (c, k) := (← get).cur
    if !inHandler v then illegal .eret
    else do
      onMe clearH
      match k == 3, (coreAt (← get) c).activation with
      | true, some o => do
        let resume := (coreAt (← get) c).resume
        modify fun s => postFirst (readySlot (onCore s c fun q => { q with activation := none }) c o)
          [.supervisorDelivery c]
        return .taken resume
      | true, none => do
        modify fun s => postFirst s [.supervisorDelivery c]
        return .taken v.trap.pc
      | false, _ => return .taken v.trap.pc)

/-! ### System registers (R30, R320, Tables 2.5 to 2.8) -/

/-- The launch that launch.id names: a task's, or in the supervisor slot the first that has its core; free where there is
none. -/
def launchIdOf (s : State) (c : Nat) (v : Slot) : XWord :=
  match v.launch, (coreAt s c).stages with
  | some r, _ => BitVec.ofNat 64 (r % 1024)
  | none, (l, _) :: _ => BitVec.ofNat 64 (l % 1024)
  | none, [] => BitVec.ofNat 64 ((Config.freeValue s.tick).toNat % 1024)

/-- core.coord (Table 2.6). -/
def coordOf (s : State) (c : Nat) : XWord := BitVec.ofNat 64 (s.house % 64 * 2 ^ 16 + c % 2 ^ 16)

/-- A trap register of a slot, by its number. -/
def trapReg (t : TrapRegs) (n : Nat) : XWord :=
  match n with
  | 0x20 => t.cause | 0x21 => t.pc | 0x22 => t.addr | 0x23 => t.info | 0x24 => t.vec | _ => t.save

/-- Whether a number is that of a trap register. -/
def isTrapReg (n : Nat) : Bool := decide (0x20 ≤ n) && decide (n ≤ 0x25)

/-- The numbers of Table 2.5. -/
def sysNumbers : List Nat :=
  [0x00, 0x01, 0x02, 0x03, 0x04, 0x10, 0x11, 0x20, 0x21, 0x22, 0x23, 0x24, 0x25, 0x30, 0x31, 0x40, 0x41, 0x50, 0x60, 0x61]

/-- The registers of Table 2.5 that tell a core's place or its task's. -/
def placeNumbers : List Nat := [0x00, 0x01, 0x02, 0x03, 0x04, 0x41, 0x50]

/-- A system register of a slot (Table 2.5). Both cores of a pair read the leader's coordinates and counts (R25, R320). -/
def sysRead (s : State) (c : Nat) (k : Fin 4) (n : Nat) : XWord :=
  let v := slotAt s c k
  let lead := leadCore s c k
  if isThreshold c && placeNumbers.contains n then Config.thresholdReg s.tick (hallOf c) n
  else match n with
  | 0x00 => BitVec.ofNat 64 lead
  | 0x01 => coordOf s lead
  | 0x02 => BitVec.ofNat 64 k.val
  | 0x03 => BitVec.ofNat 64 v.ctx
  | 0x04 => launchIdOf s c v
  | 0x10 => v.fpCtl
  | 0x11 => v.fpFlags
  | 0x30 => (slotAt s lead k).cyc
  | 0x31 => (slotAt s lead k).retired
  | 0x40 => (mapVersion s).setWidth 64
  | 0x41 => (contextAt s v.ctx).mapAck.setWidth 64
  | 0x50 => BitVec.ofNat 64 (ctxKey s v.ctx)
  | 0x60 => if (pairOf s c k).isSome then pairWord s c else 0
  | 0x61 => superstepWord s v
  | _ => trapReg v.trap n

/-- The slot and the trap register that a banked number names in supervisor mode (R30). -/
def bankedReg (mode : Mode) (n : Nat) : Option (Fin 4 × Nat) :=
  let j := n / 0x100
  if mode = .supervisor ∧ 1 ≤ j ∧ j ≤ 3 ∧ isTrapReg (n % 0x100) then some (Fin.ofNat 4 (j - 1), n % 0x100) else none

/-- MFS (R320). -/
def execMfs (d : Reg) (sr : BitVec 12) (s : State) : Host.Outcome State Fault Refusal :=
  insn (.mfs d sr) s (do
    let s ← get
    let (c, k) := s.cur
    match bankedReg (modeOf c k) sr.toNat with
    | some (o, n) => do
      wx d (trapReg (slotAt s c o).trap n)
      return .seq
    | none =>
      if sysNumbers.contains sr.toNat then do
        wx d (sysRead s c k sr.toNat)
        return .seq
      else illegal (.mfs d sr))

/-- Whether a mode may write a register (Table 2.5). -/
def mayWrite (mode : Mode) (n : Nat) : Bool :=
  [0x10, 0x11, 0x21, 0x24, 0x25].contains n || (mode != .user && [0x20, 0x22, 0x23].contains n)

/-- Bits of a register that a write sets (Tables 2.7, 2.8, 4.5 and 4.6). -/
def writeMask (n : Nat) : XWord :=
  match n with
  | 0x10 => 0x1F07
  | 0x11 => 0x1F
  | 0x20 => 0x80000000000000FF
  | 0x23 => 0xF0FFFFFFFFFFFFFF
  | _ => BitVec.allOnes 64

/-- The trap registers with one of them written. -/
def setTrapReg (t : TrapRegs) (n : Nat) (x : XWord) : TrapRegs :=
  match n with
  | 0x20 => { t with cause := x }
  | 0x21 => { t with pc := x }
  | 0x22 => { t with addr := x }
  | 0x23 => { t with info := x }
  | 0x24 => { t with vec := x }
  | _ => { t with save := x }

/-- A slot with a system register written; zero fields stay zero. -/
def sysWrite (v : Slot) (n : Nat) (x : XWord) : Slot :=
  let y := x &&& writeMask n
  match n with
  | 0x10 => { v with fpCtl := y }
  | 0x11 => { v with fpFlags := y }
  | _ => { v with trap := setTrapReg v.trap n y }

/-- Whether a value may not be written to a register: a reserved rounding mode, or an address that is not a word's. -/
def writeCheck (i : Instr) (n : Nat) (x : XWord) : M Unit := do
  if n = 0x10 ∧ 5 ≤ x.toNat % 8 then illegal i
  else if (n = 0x21 ∨ n = 0x24) ∧ x.toNat % 4 ≠ 0 then trap 0x03 x
  else pure ()

/-- MTS (R320). The write counts from the next instruction: the loop end check is that of the H bit before it. -/
def execMts (sr : BitVec 12) (d : Reg) (s : State) : Host.Outcome State Fault Refusal :=
  insn (.mts sr d) s (do
    let x ← rx d
    let s ← get
    let (c, k) := s.cur
    match bankedReg (modeOf c k) sr.toNat with
    | some (o, n) => do
      writeCheck (.mts sr d) n x
      modify fun s => onSlot s c o fun v => sysWrite v n x
      return .seq
    | none =>
      let n := sr.toNat
      if !sysNumbers.contains n then illegal (.mts sr d)
      else if !mayWrite (modeOf c k) n then trap 0x02
      else do
        writeCheck (.mts sr d) n x
        let v ← me
        onMe fun v => sysWrite v n x
        if k = 3 ∧ n = 0x20 then modify fun s => post s [.supervisorDelivery c]
        return .checked (nextPc v .seq).1 (nextPc v .seq).2)

/-! ### Chains (R22 to R24, R322, R323) -/

/-- The cores of a room at snake positions `first` to `first + len - 1`. -/
def chainCores (c first len : Nat) : List Nat := (List.range len).map fun i => 16 * (c / 16) + snake.getD (first + i) 0

/-- The pending join of a core's slot 0: its register, leader position and length, and its launch. -/
def joinOf (s : State) (c : Nat) : Option (Reg × Nat × Nat × Nat × Option Nat) :=
  let v := slotAt s c 0
  match v.wait with
  | some (.join d first len) => some (d, first, len, v.ctx, v.launch)
  | _ => none

/-- A chain forms (R322): each member has its place. -/
def formChain (s : State) (cs : List Nat) : State :=
  let leader := cs.headD 0
  let id := s.serial
  (cs.zipIdx).foldl (fun s (c, n) => onCore s c fun q => { q with chain := some ⟨id, leader, n, cs.length, [], false⟩ })
    { s with serial := s.serial + 1 }

/-- Joins that wait complete: each member takes its position. -/
def completeJoins (first : Nat) : List Nat → M Unit
  | [] => pure ()
  | c :: t => do
    match joinOf (← get) c with
    | some (d, _, _, _, _) => complete c 0 (do
        wx d (BitVec.ofNat 64 (snakePos c - first))
        return .seq)
    | none => pure ()
    completeJoins first t

/-- CHAIN (R322). -/
def execChain (d : Reg) (s : State) : Host.Outcome State Fault Refusal :=
  insn (.chain d) s (do
    let x ← rx d
    let s ← get
    let (c, k) := s.cur
    let v ← me
    let first := x.toNat % 16
    let len := x.toNat / 16 % 32
    let pos := snakePos c
    if k ≠ 0 ∨ len = 0 ∨ 16 < len ∨ 16 < first + len ∨ pos < first ∨ first + len ≤ pos then trap 0x0D 0 0 1
    else if (coreAt s c).chain.isSome || (coreAt s c).pair.isSome then trap 0x0D 0 0 2
    else
      let others := (chainCores c first len).filter fun e => e != c
      let joins := others.filterMap (joinOf s)
      if joins.any fun (_, f, l, x, r) => !(f == first && l == len && x == v.ctx && r == v.launch) then trap 0x0D 0 0 3
      else if joins.length < others.length then return .wait (.join d first len)
      else do
        completeJoins first others
        wx d (BitVec.ofNat 64 (pos - first))
        modify fun s => formChain s (chainCores c first len)
        return .seq)

/-- UNCHAIN (R323): a follower leaves its chain as it executes it; the leader once it has sent it on. -/
def execUnchain (s : State) : Host.Outcome State Fault Refusal :=
  insn .unchain s (do
    modify fun s =>
      match (coreAt s s.cur.1).chain with
      | some r => if s.cur.2 = 0 ∧ r.pos ≠ 0 then onCore s s.cur.1 fun q => { q with chain := none } else s
      | none => s
    return .seq)

/-! ### The retry latch (R324) -/

/-- A latch's request has been issued again. -/
def resent (v : Slot) : Slot := { v with latch := v.latch.map fun q => { q with sent := true } }

/-- The request of a slot's latch is issued again; a pair's leaves once, after an agreed compare (R331). -/
def resend (c : Nat) (k : Fin 4) : M Unit := do
  asSlot c k agreedFirst
  modify fun s =>
    let lead := leadCore s c k
    let s := onSlot s lead k resent
    let s := match followerOf s lead k with
      | some f => onSlot s f k resent
      | none => s
    post s [.atomicResponse lead k none]

/-- AREARM (R324). -/
def execArearm (d : Reg) (s : State) : Host.Outcome State Fault Refusal :=
  insn (.arearm d) s (do
    let x ← rx d
    let s ← get
    let c := s.cur.1
    let k : Fin 4 := Fin.ofNat 4 (x.toNat % 4)
    match if k = 3 then none else (slotAt s c k).latch with
    | none => do
      wx d 0
      return .seq
    | some q =>
      if q.sent then do
        wx d 2
        return .seq
      else if x.getLsbD 8 then do
        asSlot c k emptyLatch
        wx d 3
        return .seq
      else do
        resend c k
        wx d 1
        return .seq)

/-! ### Kicking a laundry (R325, R331) -/

/-- Where a kick's header lies: on an ordinary class D page that may be read and written. -/
def kickPlace (x : XWord) : M Unit := do
  let s ← get
  if isThreshold s.cur.1 then do
    let _ ← physicalPlace x
    pure ()
  else if !isCanonical x || isVaultAddr x then trap 0x05 x
  else do
    let c := leadCore s s.cur.1 s.cur.2
    let (_, pa, attr) ← translate (hallOf c) (slotAt s s.cur.1 s.cur.2).ctx (.slot c s.cur.2) x .read .plain
    if actsAs (← get) pa (attrClass attr) != 0 || attrSL attr || !attrW attr then trap 0x05 x else pure ()

/-- LKICK (R325): a release at hall scope; it retires when the laundry accepts the kick, or in a recoverable superstep when
the kick is held (R314). -/
def execLkick (d a : Reg) (s : State) : Host.Outcome State Fault Refusal :=
  insn (.lkick d a) s (do
    let x ← rx d
    let y ← rx a
    aligned x 64
    kickPlace x
    compareFirst
    released .hall (do
      let s ← get
      let (c, k) := s.cur
      let v ← me
      let hall := hallOf c
      if (recoverable s v).isSome then do
        emit (.kick hall v.ctx x (y.setWidth 32))
        return .seq
      else do
        feed (effectBytes (.kick hall v.ctx x (y.setWidth 32)))
        sendKick hall ⟨x, v.ctx, y.setWidth 32, some (leadCore s c k, k)⟩
        return .wait .kick))

end Sys2Proof.Machine
end

