-- ==== Sys2Proof/Machine/Translation.lean ====
section
/-! DEFINITION. The translation unit of a hall and the instructions that serve it (R297 to R303, R326 to R330). -/

namespace Sys2Proof.Machine

open Sys2Proof

/-! ### Misses (R298) -/

/-- The code of an access in a miss message (Table 18.1): an access that reads and writes counts as a write. -/
def accCode : Access → Nat
  | .read => 0 | .write => 1 | .fetch => 2 | .update => 1

/-- A miss message (Table 18.1). -/
def missMessage (m : MissReq) (pend : Nat) : XWord :=
  BitVec.ofNat 64 (1 * 2 ^ 60 + m.ctx % 4096 * 2 ^ 48 + accCode m.acc * 2 ^ 46 + pend % 32 * 2 ^ 40 + pageOf m.addr)

/-- The pending entry of a key. -/
def pendOf (s : State) (hall ctx va : Nat) : Option (Nat × PendEntry) :=
  (hallAt s hall).pending.find? fun (_, e) => e.ctx == ctx && e.va == va

/-- The free pending entry of lowest index. -/
def freePend (s : State) (hall : Nat) : Option Nat :=
  (List.range 32).find? fun i => (tfind (hallAt s hall).pending i).isNone

/-- Whether an access still waits: a slot that has gone on, or has been emptied, does not. -/
def stillWaits (s : State) (m : MissReq) : Bool :=
  match m.agent with
  | .slot c k => (slotAt s c k).wait == some .translation
  | _ => true

/-- An access waits in a translation unit no longer. -/
def leaveUnit (hall : Nat) (m : MissReq) (s : State) : State :=
  onHall s hall fun h => { h with parked := h.parked.filter fun e => e != m }

/-- An access is released (R299): its slot issues again, a prefetch goes on, an engine tries again what waits for the page. -/
def releaseMiss (hall : Nat) (s : State) (m : MissReq) : State :=
  let s := leaveUnit hall m s
  match m.agent with
  | .slot c k => if stillWaits s m then wake s c k else s
  | .prefetch c =>
    if writes m.acc then claimArrived s c m.ctx m.addr
    else match prefetchLine c m.ctx m.addr s with
      | .ok _ t => t
      | .error _ t => t
  | _ => unblock s (PageWait.forMisses hall [m])

/-- A miss reaches the translation unit (R298, R299): it goes on where a translation has arrived meanwhile; it attaches to
the entry of its page, makes one, or waits for one to free. -/
def missArrives (hall : Nat) (s : State) (m : MissReq) : State :=
  if !stillWaits s m then s
  else if (hallAt s hall).tlb.any fun e => covers e m.ctx (pageOf m.addr) then releaseMiss hall s m
  else
    let s := onHall s hall fun h => { h with parked := if h.parked.contains m then h.parked else h.parked ++ [m] }
    match pendOf s hall m.ctx (pageOf m.addr) with
    | some (i, e) =>
      if e.waiters.contains m then s
      else onHall s hall fun h => { h with pending := tput h.pending i { e with waiters := e.waiters ++ [m] } }
    | none => match freePend s hall with
      | some i => onHall s hall fun h => { h with
          pending := tput h.pending i ⟨m.ctx, pageOf m.addr, [m]⟩, messages := h.messages ++ [missMessage m i] }
      | none => onHall s hall fun h => { h with overflow := if h.overflow.contains m then h.overflow else h.overflow ++ [m] }

/-- TRANSLATION_MISS (R298). -/
def execTranslationMiss (hall : Nat) (m : MissReq) (s : State) : Host.Outcome State Fault Refusal :=
  event (.translationMiss hall m) s (do
    modify fun s => missArrives hall s m
    testEvents)

/-- The misses that wait for an entry are tried again (R298). -/
def retryMisses (hall : Nat) (s : State) : State :=
  let ms := (hallAt s hall).overflow
  ms.foldl (missArrives hall) (onHall s hall fun h => { h with overflow := [] })

/-- MISS_RETRY (R298). -/
def execMissRetry (hall : Nat) (s : State) : Host.Outcome State Fault Refusal :=
  event (.missRetry hall) s (do
    modify (retryMisses hall)
    testEvents)

/-- A pending entry frees, and a waiting miss may take it. -/
def freeEntry (s : State) (hall i : Nat) : State :=
  let s := onHall s hall fun h => { h with pending := tdel h.pending i }
  if (hallAt s hall).overflow.isEmpty then s else post s [.missRetry hall]

/-! ### The fault buffer (R301, R302) -/

/-- The fault buffer word of an entry (Table 18.3). -/
def bufferWord (drop : Bool) (i : Nat) (e : FaultEntry) : XWord :=
  BitVec.ofNat 64 (2 ^ 63 + drop.toNat * 2 ^ 62 + i % 8 * 2 ^ 59 + e.w.toNat * 2 ^ 58 + e.x.toNat * 2 ^ 57 +
    e.ctx % 4096 * 2 ^ 40 + e.va % 2 ^ 40)

/-- The scheduler absorbs a page fault of a slot (R252): the trap registers are filled where H is 0, H stays, and the slot
parks at its instruction. -/
def absorb (s : State) (c : Nat) (k : Fin 4) (addr : XWord) (i : Nat) : State :=
  onSlot s c k fun v =>
    let t := if inHandler v then v.trap else filled v.trap false k.val (restartPc v) addr 0x04 0 i
    { v with trap := t, pc := restartPc v, hints := [], wait := some (.page (some i)) }

/-- A slot whose page is not present (Table 18.4): its fault is absorbed and its task saved; one whose page was dropped
stays parked. -/
def faultSlot (s : State) (c : Nat) (k : Fin 4) (addr : XWord) (i : Option Nat) : State :=
  let both := [c] ++ (followerOf s c k).toList
  match i with
  | some i => post (both.foldl (fun s d => absorb s d k addr i) s) (if k = 3 then [] else [.faultSaveDeferred c k])
  | none => both.foldl (fun s d => onSlot s d k fun v => { v with wait := some (.page none) }) s

/-- The product a hearth was walking for another ends with a fault code (R207). -/
def failProduct (s : State) (room code : Nat) : State :=
  match (roomAt s room).posted.find? fun p => p.result.isNone with
  | none => s
  | some p =>
    let res : PostedResult := ⟨kidZ, 0, code⟩
    let s := onRoom s room fun r => { r with
      posted := r.posted.map fun x => if x = p then { p with result := some res } else x }
    post s [.postedProductReturn room, .postedProduct room]

/-- A stop that waits for a hearth's stair record waits no more. -/
def withoutStop (s : State) (room : Nat) : State :=
  { s with blocked := s.blocked.filter fun e => match e.due with
    | .commandStop r _ => r != room
    | _ => true }

/-- Whether a miss is that of a command's stair record. -/
def stairMiss (s : State) (room : Nat) (q : Command) (m : MissReq) : Bool :=
  m.ctx == q.ctx && pageOf m.addr == pageOf (stairAddress s q.ctx room)

/-- The fate of an access to a page that is not present (Table 18.4): a command that was to stop already stops, and a laundry, and what R412 has wait as one, wait on. -/
def missFate (hall : Nat) (i : Option Nat) (s : State) (m : MissReq) : State :=
  let gone := leaveUnit hall m s
  match m.agent with
  | .slot c k => if stillWaits s m then faultSlot (if i.isSome then gone else s) c k m.addr i else gone
  | .command room => match runningOf s room with
    | some q =>
      if q.code ≠ 0 then match endStop room q q.code (withoutStop gone room) with
        | .ok _ t => t
        | .error _ t => t
      else if q.posted = 0 || stairMiss s room q m then post gone [.commandStop room 0x04]
      else failProduct gone room 0x04
    | none => failProduct gone room 0x04
  | .prefetch _ => gone
  | _ => if i.isSome then gone else s

/-- The free fault buffer entry of lowest index. -/
def freeBuffer (s : State) (hall : Nat) : Option Nat :=
  (List.range 8).find? fun i => (tfind (hallAt s hall).buffer i).isNone

/-- Whether some access of a list writes, or fetches. -/
def anyWrites (ms : List MissReq) : Bool := ms.any fun m => writes m.acc
def anyFetches (ms : List MissReq) : Bool := ms.any fun m => m.acc == .fetch

/-- Whether a miss is that of a prefetch, which makes no entry (Table 18.4). -/
def isPrefetch (m : MissReq) : Bool := match m.agent with | .prefetch _ => true | _ => false

/-- A page that is not present (R301): its accesses join its entry, take a free one, or are dropped. -/
def notPresent (s : State) (hall : Nat) (p : PendEntry) : State :=
  let ws := p.waiters.filter fun m => !isPrefetch m
  let s := (p.waiters.filter isPrefetch).foldl (missFate hall none) s
  let same := (hallAt s hall).buffer.find? fun (_, e) => e.ctx == p.ctx && e.va == p.va
  if ws.isEmpty then s
  else match same with
  | some (i, e) =>
    let s := onHall s hall fun h => { h with buffer := tput h.buffer i { e with
      w := e.w || anyWrites ws, x := e.x || anyFetches ws, waiters := e.waiters ++ ws } }
    ws.foldl (missFate hall (some i)) s
  | none => match freeBuffer s hall with
    | some i =>
      let e : FaultEntry := ⟨false, anyWrites ws, anyFetches ws, p.ctx, p.va, ws⟩
      let s := onHall s hall fun h => { h with buffer := tput h.buffer i e }
      let s := postEvent s 1 p.ctx hall (bufferWord (hallAt s hall).drop i e) 0
      ws.foldl (missFate hall (some i)) s
    | none =>
      let s := onHall s hall fun h => { h with drop := true, dropped := h.dropped ++ ws }
      let s := postEvent s 2 p.ctx hall (BitVec.ofNat 64 p.va) 0
      ws.foldl (missFate hall none) s

/-! ### Answers (R299, R327) -/

/-- Whether an attribute word is reserved (Table 8.2). -/
def attrReserved (a : BitVec 32) : Bool :=
  attrClass a == 3 || attrSize a == 3 || (attrCP a && (attrClass a == 2 || attrSL a)) ||
    a.toNat / 2 ^ 26 != 0 || a.toNat / 2 ^ 10 % 2 ^ 6 != 0

/-- The fields of an answer (Table 18.2). -/
structure Answer where
  pa : Bool
  ctx : Nat
  pend : Nat
  va : Nat
  pfn : Nat
  np : Bool
  attr : BitVec 32
  zeros : Bool
  deriving DecidableEq, Repr

/-- An answer of three words (Table 18.2). -/
def answerOfWords (tag frame attr : XWord) : Answer :=
  let t := tag.toNat
  let f := frame.toNat
  ⟨bitAt t 60, bitsOf t 59 48, bitsOf t 44 40, bitsOf t 39 0, bitsOf f 51 16, bitAt f 0, attr.setWidth 32,
    bitsOf t 63 61 == 0 && bitsOf t 47 45 == 0 && bitsOf f 63 52 == 0 && bitsOf f 15 1 == 0⟩

/-- The status of an answer (R327); what NP leaves ignored is not checked. -/
def answerStatus (s : State) (hall : Nat) (w : Answer) : Nat :=
  let units := pageUnits (attrSize w.attr)
  if !w.zeros || (!w.np && attrReserved w.attr) then 1
  else if !w.np && (w.va % units != 0 || w.pfn % units != 0) then 2
  else if w.pa && (tfind (hallAt s hall).pending w.pend).isNone then 3
  else if !w.pa && w.np then 4
  else 0

/-- The TLB entry of an answer. -/
def answerEntry (w : Answer) : TlbEntry := ⟨w.ctx, w.va, attrSize w.attr, w.pfn, w.attr⟩

/-- The pending entries an answer answers: the one it names, and every other that a page larger than 64 KiB covers. -/
def answered (s : State) (hall : Nat) (w : Answer) : List (Nat × PendEntry) :=
  (hallAt s hall).pending.filter fun (i, e) => i == w.pend || (attrSize w.attr != 0 && covers (answerEntry w) e.ctx e.va)

/-- A page is known as the answer has it: sealed, or no longer (R272). -/
def noteSealed (s : State) (e : TlbEntry) : State :=
  let apart := fun (x : TlbEntry) => !(x.ctx == e.ctx && (covers x e.ctx e.va || covers e x.ctx x.va)) &&
    !inFrames x (65536 * e.pfn) (65536 * pageUnits e.size)
  { s with sealedPages := (if attrSL e.attr then [e] else []) ++ s.sealedPages.filter apart }

/-- An accepted answer takes effect (R299). -/
def applyAnswer (s : State) (hall : Nat) (w : Answer) : State :=
  if w.np then
    match tfind (hallAt s hall).pending w.pend with
    | none => s
    | some e => notPresent (freeEntry s hall w.pend) hall e
  else
    let s := noteSealed (onHall s hall fun h => { h with tlb := l2Insert (answerEntry w) h.tlb }) (answerEntry w)
    let s := if s.indexOwed.isEmpty then s else writeOwed s hall
    if !w.pa then s
    else
      let es := answered s hall w
      let s := es.foldl (fun s (i, _) => freeEntry s hall i) s
      (es.flatMap fun (_, e) => e.waiters).foldl (releaseMiss hall) s

/-- TLBW (R327). -/
def execTlbw (d a b : Reg) (s : State) : Host.Outcome State Fault Refusal :=
  insn (.tlbw d a b) s (do
    let x ← rx d
    let y ← rx a
    let z ← rx b
    let hall := hallOf (← myCore)
    let w := answerOfWords x y z
    let status := answerStatus (← get) hall w
    if status = 0 then modify fun s => applyAnswer s hall w
    wx d (BitVec.ofNat 64 status)
    return .seq)

/-! ### Invalidation and lookup (R300, R328, R329) -/

/-- Whether a TLBINV selector takes an entry (R328). -/
def selects (x : XWord) (e : TlbEntry) : Bool :=
  match bitsOf x.toNat 63 62 with
  | 0 => covers e (bitsOf x.toNat 59 48) (bitsOf x.toNat 39 0)
  | 1 => e.ctx == bitsOf x.toNat 59 48
  | 2 => true
  | _ => false

/-- The entries a selector takes leave the hall's L2 TLB and its cores' L1 TLBs (R300). -/
def invalidate (s : State) (hall : Nat) (x : XWord) : State :=
  let s := onHall s hall fun h => { h with tlb := h.tlb.filter fun e => !selects x e }
  { s with cores := s.cores.map (fun (c, q) =>
      if hallOf c = hall then (c, { q with tlb := q.tlb.filter fun e => !selects x e }) else (c, q)) }

/-- The first physical byte of a page, and its bytes. -/
def pageBytes (e : TlbEntry) : Nat := 65536 * pageUnits e.size
def pageStart (e : TlbEntry) : Nat := e.pfn / pageUnits e.size * pageBytes e

/-- The places that an effect which has not left yet acts on. -/
def effectPlaces : Effect → List Place
  | .store p _ => [p]
  | .bring key pa _ _ => [.mem key pa]
  | .accumulate key pa _ _ _ => [.mem key pa]
  | .wsig m => [m.payload, m.signal]
  | .rootSwap _ _ cell _ _ _ => [cell]
  | _ => []

/-- Whether a place lies in a frame of translations. -/
def usesPlace (es : List TlbEntry) : Place → Bool
  | .mem key pa => es.any fun e => key == attrKey e.attr && decide (pageStart e ≤ pa) && decide (pa < pageStart e + pageBytes e)
  | .vault _ _ => false

/-- Waits for the accesses of a hall that have used translations and are not yet performed (R300): accepted copies, what a pair
holds for an agreed compare, latched atomics, and what a superstep holds for its commit. -/
def awaitUses (hall : Nat) (es : List TlbEntry) : M Unit := do
  let s ← get
  let uses := fun (e : Effect) => (effectPlaces e).any (usesPlace es)
  match s.transfers.find? fun t => hallOf t.core == hall && t.segments.any fun g => usesPlace es g.src || usesPlace es g.dst with
  | some t => throw (.retry [.copyTransferComplete t.id])
  | none => match s.cores.find? fun (c, q) => hallOf c == hall && q.pair.any fun p => p.leader && p.buffer.any uses with
    | some (c, _) => throw (.retry [.pairCompare c])
    | none => do
      ensure (!s.cores.any fun (c, q) => hallOf c == hall && q.slots.toList.any fun v => v.latch.any fun l => usesPlace es l.place)
        (throw (.later []))
      ensure (!s.rooms.any fun (r, q) => r / 16 == hall && q.hold.any fun h => uses h.effect) (throw (.later []))

/-- The translations of a hall that a selector takes: those of its L2 TLB and of its cores' L1 TLBs. -/
def selectedEntries (s : State) (hall : Nat) (x : XWord) : List TlbEntry :=
  (hallAt s hall).tlb.filter (selects x) ++
    s.cores.flatMap fun (c, q) => if hallOf c = hall then q.tlb.filter (selects x) else []

/-- TLBINV (R300, R328, R343): mode 3 takes no entry; the host learns of its completion in every mode. -/
def execTlbinv (d a : Reg) (s : State) : Host.Outcome State Fault Refusal :=
  insn (.tlbinv d a) s (do
    let x ← rx a
    let s ← get
    let hall := hallOf s.cur.1
    awaitUses hall (selectedEntries s hall x)
    let n := ((hallAt s hall).tlb.filter (selects x)).length
    let ctx := if 2 ≤ bitsOf x.toNat 63 62 then noContext else bitsOf x.toNat 59 48
    set (postEvent (invalidate s hall x) 3 ctx hall x (BitVec.ofNat 64 n))
    wx d (if bitsOf x.toNat 63 62 = 3 then BitVec.allOnes 64 else BitVec.ofNat 64 n)
    return .seq)

/-- What TLBQ answers (Table 19.4). -/
def queryWord (s : State) (hall ctx va : Nat) : XWord :=
  let hit := match (hallAt s hall).tlb.find? fun e => covers e ctx va with
    | some e => 2 ^ 63 + e.pfn % 2 ^ 36 * 2 ^ 16 + e.attr.toNat % 2 ^ 10
    | none => 0
  let pend := match pendOf s hall ctx va with
    | some (i, _) => 2 ^ 62 + i % 32 * 2 ^ 57
    | none => 0
  BitVec.ofNat 64 (hit + pend)

/-- TLBQ (R329). -/
def execTlbq (d a : Reg) (s : State) : Host.Outcome State Fault Refusal :=
  insn (.tlbq d a) s (do
    let x ← rx a
    let s ← get
    wx d (queryWord s (hallOf s.cur.1) (bitsOf x.toNat 59 48) (bitsOf x.toNat 39 0))
    return .seq)

/-! ### The threshold core's queues (R301, R303, R330) -/

/-- FBPOP (R301, R330): the posted entry of lowest index, which is then taken. -/
def execFbpop (d : Reg) (s : State) : Host.Outcome State Fault Refusal :=
  insn (.fbpop d) s (do
    let s ← get
    let hall := hallOf s.cur.1
    let h := hallAt s hall
    match h.buffer.find? fun (_, e) => !e.taken with
    | none => do
      wx d (BitVec.ofNat 64 (h.drop.toNat * 2 ^ 62))
      return .seq
    | some (i, e) => do
      set (onHall s hall fun h => { h with buffer := tput h.buffer i { e with taken := true } })
      wx d (bufferWord h.drop i e)
      return .seq)

/-- MSGRX (R330): the oldest message, or 0. -/
def execMsgrx (d : Reg) (s : State) : Host.Outcome State Fault Refusal :=
  insn (.msgrx d) s (do
    let s ← get
    let hall := hallOf s.cur.1
    match (hallAt s hall).messages with
    | [] => do
      wx d 0
      return .seq
    | m :: t => do
      set (onHall s hall fun h => { h with messages := t })
      wx d m
      return .seq)

/-- The slots parked in place on an entry of a hall's fault buffer become ready (R252, R303). -/
def readyParked (hall i : Nat) (s : State) : State :=
  s.cores.foldl (fun s (c, q) =>
    if hallOf c ≠ hall then s
    else (List.finRange 4).foldl (fun s k =>
      if (q.slots.get k).wait = some (.page (some i)) then wake s c k else s) s) s

/-- The tasks saved on an entry of a hall's fault buffer wait no more (R303). -/
def clearSaved (hall i : Nat) (s : State) : State :=
  let mine := fun (t : SavedTask) => hallOf t.core == hall && t.waits == some (.page (some i))
  let cores := s.contexts.flatMap fun (_, x) => (x.saved.filter mine).map SavedTask.core
  post { s with contexts := s.contexts.map (fun (n, x) =>
      (n, { x with saved := x.saved.map fun t => if mine t then { t with waits := none } else t })) }
    (cores.map fun c => .prefetcherFill c)

/-- An access is translated again (R303): a slot that was parked for a dropped page waits for the translation unit. -/
def reissue (hall : Nat) (s : State) (m : MissReq) : State :=
  match m.agent with
  | .slot c k =>
    let both := [c] ++ (followerOf s c k).toList
    let s := if (slotAt s c k).wait = some (.page none) then
        both.foldl (fun s d => onSlot s d k fun v => { v with wait := some .translation }) s else s
    missArrives hall s m
  | _ => missArrives hall s m

/-- One entry of the fault buffer at a REPLAY (R303): what waits on it goes on. -/
def replayEntry (hall : Nat) (s : State) (e : Nat × FaultEntry) : State :=
  unblock (clearSaved hall e.1 (readyParked hall e.1 s)) (PageWait.forMisses hall e.2.waiters)

/-- REPLAY (R303): the entries in order, then the accesses that were dropped or wait, in the order in which they parked. -/
def replayHall (hall : Nat) (s : State) : State :=
  let h := hallAt s hall
  let s := h.buffer.foldl (replayEntry hall) s
  let again := h.parked.filter fun m => h.dropped.contains m || h.overflow.contains m
  let s := onHall s hall fun h => { h with buffer := [], drop := false, dropped := [], overflow := [] }
  again.foldl (reissue hall) s

/-- REPLAY (R303). -/
def execReplay (s : State) : Host.Outcome State Fault Refusal :=
  insn .replay s (do
    let hall := hallOf (← myCore)
    modify (replayHall hall)
    testEvents
    return .seq)

end Sys2Proof.Machine
end

