-- ==== Sys2Proof/Machine/Laundry.lean ====
section
/-! DEFINITION. The laundry of a hall (R304 to R314): kicks and rings, requests and their elements, completion, and the
requests on whole pages. -/

namespace Sys2Proof.Machine

open Sys2Proof

/-! ### Rings (R304, R305) -/

/-- The number by which a step names a ring: its context and its header's address. -/
def ringKey (ctx : Nat) (header : XWord) : Nat := 2 ^ 64 * ctx + header.toNat

/-- The number of an active ring. -/
def LaundryRing.key (r : LaundryRing) : Nat := ringKey r.ctx r.header

/-- The active ring of a number. -/
def laundryRing (s : State) (hall key : Nat) : Option LaundryRing := (hallAt s hall).rings.find? fun r => r.key == key

/-- The state with an active ring changed. -/
def onRing (s : State) (hall key : Nat) (f : LaundryRing → LaundryRing) : State :=
  onHall s hall fun h => { h with rings := h.rings.map fun r => if r.key = key then f r else r }

/-- Runs an access of the laundry to a ring's own structures: where it cannot be made, the laundry waits for the page. -/
def laundryTry {α : Type} (act : M α) : M α := fun s =>
  match act s with
  | .error (.engine hall report due) t => .error (.engine hall none (if report.isSome then [] else due)) t
  | r => r

/-- A ring leaves the active set (R305). Where it was the last one taken, those after it come next as before (R310). -/
def leaveRings (s : State) (hall key : Nat) : State :=
  onHall s hall fun h =>
    let i := (h.rings.findIdx? fun r => r.key == key).getD 0
    let before := ((h.rings.drop (i + 1) ++ h.rings.take i).getLast?.map LaundryRing.key).getD 0
    { h with rings := h.rings.filter fun r => r.key != key, lastRing := if h.lastRing = key then before else h.lastRing }

/-- Active rings of a laundry. -/
def ringSlots : Nat := 64

/-- A ring as its header gives it (Table 18.5). -/
def readRingHeader (hall ctx : Nat) (header : XWord) (p : BitVec 32) : M LaundryRing := do
  let (bs, _) ← laundryTry (engineRead hall ctx header 64)
  let d := fun i => BitVec.ofNat 64 (fieldAt bs (8 * i) 8)
  return ⟨header, ctx, d 0, (d 2).toNat % 16, (d 2).toNat / 2 ^ 5 % 8, d 3, d 4, (d 1).setWidth 32, p, false, [], 0, 0, 0, false, false, []⟩

/-- The completion word of a ring, with OV as it is now (Table 18.9). -/
def writeOverrun (hall : Nat) (r : LaundryRing) (ov : Bool) : M Unit := do
  let (bs, _) ← laundryTry (engineRead hall r.ctx r.cword 8)
  let w := natOfBytes bs % 2 ^ 32 + ov.toNat * 2 ^ 63
  if natOfBytes bs ≠ w then laundryTry (engineWrite hall r.ctx r.cword (bytesOfNat 8 w))

/-- The kicking slot's LKICK retires (R305). -/
def kickAccepted (q : Kick) : M Unit := do
  match q.from_ with
  | none => pure ()
  | some (c, k) => do
    if (slotAt (← get) c k).wait = some .kick then complete c k (return .seq)

/-- Whether a kick may be accepted now: its ring is active, or one of the 64 is free, and its context is not switched out
(Table 14.12). -/
def acceptable (s : State) (hall : Nat) (q : Kick) : Bool :=
  !(contextAt s q.ctx).switchedOut &&
    ((laundryRing s hall (ringKey q.ctx q.header)).isSome || decide ((hallAt s hall).rings.length < ringSlots))

/-- A kick is judged by δ = P − cons (R305): stale, in overrun or valid. -/
def acceptKick (hall : Nat) (q : Kick) : M Unit := do
  let s ← get
  let r ← match laundryRing s hall (ringKey q.ctx q.header) with
    | some r => pure r
    | none => readRingHeader hall q.ctx q.header q.p
  let active := (laundryRing s hall r.key).isSome
  let delta := (q.p - r.cons).toNat
  if 2 ^ 31 ≤ delta then pure ()
  else if 2 ^ r.lc < delta then do
    writeOverrun hall r true
    modify fun s => postEvent (onRing s hall r.key fun r => { r with overrun := true }) 7 q.ctx hall q.header (q.p.setWidth 64)
  else do
    writeOverrun hall r false
    let kickers := r.kickers ++ (q.from_.map fun (c, k) => (c, k, q.p)).toList
    let r := { r with p := q.p, overrun := false, kickers := if delta = 0 then r.kickers else kickers }
    modify fun s =>
      if active then (if r.cons = r.p && r.req.isEmpty then leaveRings s hall r.key else onRing s hall r.key fun _ => r)
      else if delta = 0 then s
      else onHall s hall fun h => { h with rings := h.rings ++ [r] }
  modify fun s => onHall s hall fun h => { h with kicks := h.kicks.erase q }
  kickAccepted q

/-! ### Requests (R306, R307) -/

/-- Bits of a request's first dword (Table 18.6). -/
def reqBits (r : LaundryRing) (hi lo : Nat) : Nat := bitsOf (r.req.getD 0 0).toNat hi lo

def reqOp (r : LaundryRing) : Nat := reqBits r 63 58
def reqSf (r : LaundryRing) : Nat := reqBits r 57 54
def reqDf (r : LaundryRing) : Nat := reqBits r 53 50
def reqMf (r : LaundryRing) : Nat := reqBits r 49 46
def reqRm (r : LaundryRing) : Nat := reqBits r 45 43
def reqSat (r : LaundryRing) : Bool := reqBits r 42 42 == 1
def reqImm (r : LaundryRing) : Nat := reqBits r 31 0
def reqSrc (r : LaundryRing) : XWord := r.req.getD 1 0
def reqDst (r : LaundryRing) : XWord := r.req.getD 2 0

/-- The type of a code in a request. -/
def typeOf (code : Nat) : Ty := (Ty.ofCode code).getD .i8

/-- Extent `k`; n0 stands in the high bits. -/
def reqExtent (r : LaundryRing) (k : Nat) : Nat := bitsOf (r.req.getD 3 0).toNat (63 - 16 * k) (48 - 16 * k) + 1

/-- Offset `k` of PAD and SLICE; o0 stands in the high bits of imm. -/
def reqOffset (r : LaundryRing) (k : Nat) : Nat := reqImm r / 2 ^ (24 - 8 * k) % 256

/-- Stride `k` of the source, and of the destination. -/
def reqStride (r : LaundryRing) (first k : Nat) : Int :=
  signedOf 32 ((r.req.getD (first + k / 2) 0).toNat / 2 ^ (32 * (k % 2)))
def srcStride (r : LaundryRing) (k : Nat) : Int := reqStride r 4 k
def dstStride (r : LaundryRing) (k : Nat) : Int := reqStride r 6 k

/-- Elements a request visits. -/
def reqTotal (r : LaundryRing) : Nat := reqExtent r 0 * reqExtent r 1 * reqExtent r 2 * reqExtent r 3

/-- The indices of element `i` in row-major order. -/
def reqIndex (r : LaundryRing) (i : Nat) : List Nat :=
  let n1 := reqExtent r 1
  let n2 := reqExtent r 2
  let n3 := reqExtent r 3
  [i / (n1 * n2 * n3), i / (n2 * n3) % n1, i / n3 % n2, i % n3]

/-- The address of an element (R155). -/
def elementAddr (base : XWord) (stride : Nat → Int) (ix : List Int) : XWord :=
  base + BitVec.ofInt 64 ((ix.mapIdx fun k i => i * stride k).sum)

/-- Whether a dword of a request is zero. -/
def zeroDwords (r : LaundryRing) (ks : List Nat) : Bool := ks.all fun k => r.req.getD k 0 == 0

/-- Whether a code is that of a format elements may have: QUANT alone writes 14 and 15. -/
def plainFormat (code : Nat) : Bool := decide (code < 14)

/-- Whether a request has no operation, format, mode or extent that is invalid, and no field that its operation does not use
(R307, R309). -/
def requestValid (r : LaundryRing) : Bool :=
  let common := decide (reqRm r < 5) && decide (reqBits r 41 39 < 5) && reqBits r 38 32 == 0
  let formats := plainFormat (reqSf r) && plainFormat (reqDf r)
  let page := (r.req.getD 0 0).toNat % 2 ^ 58 == 0 && zeroDwords r [3, 4, 5, 6, 7]
  match reqOp r with
  | 1 => common && formats && reqMf r == 15 && reqImm r == 0
  | 2 => common && formats && plainFormat (reqMf r) && reqSf r != reqMf r && reqMf r != reqDf r && reqImm r == 0
  | 3 => common && (reqSf r == 9 || reqSf r == 11) && decide (14 ≤ reqDf r) && reqMf r == 0 && !reqSat r && reqImm r == 0 &&
      zeroDwords r [6, 7]
  | 4 => common && formats && reqMf r == 0 && (List.range 4).all fun k => decide (2 * reqOffset r k < reqExtent r k)
  | 5 => common && formats && reqMf r == 0
  | 6 => common && plainFormat (reqDf r) && reqSf r == 0 && reqMf r == 0 && zeroDwords r [1, 4, 5]
  | 7 => page && zeroDwords r [2]
  | 8 => page && zeroDwords r [2]
  | 9 => page
  | _ => false

/-- Whether the base and strides of a side keep the alignment rule of R307 for a format. -/
def sideAligned (code : Nat) (base : XWord) (stride : Nat → Int) : Bool :=
  let w : Nat := max 4 (typeOf code).size
  base.toNat % w == 0 && ([0, 1, 2].all fun k => stride k % (w : Int) == 0) && stride 3 == ((typeOf code).size : Int)

/-- Whether a request keeps the alignment rules of R307. -/
def requestAligned (r : LaundryRing) : Bool :=
  match reqOp r with
  | 3 => sideAligned (reqSf r) (reqSrc r) (srcStride r) && (reqDst r).toNat % 4 == 0
  | 6 => sideAligned (reqDf r) (reqDst r) (dstStride r)
  | 7 => true
  | 8 => true
  | 9 => true
  | _ => sideAligned (reqSf r) (reqSrc r) (srcStride r) && sideAligned (reqDf r) (reqDst r) (dstStride r)

/-- The status of a request at its configuration (Table 18.10): 0 where it may begin. -/
def requestStatus (r : LaundryRing) : Nat :=
  if !requestValid r then 0x01 else if !requestAligned r then 0x03 else 0

/-! ### Elements -/

/-- The places of an interval for a laundry request. -/
def laundryPlaces (hall key ctx : Nat) (acc : Access) : List (XWord × Nat) → M (List (XWord × Place × Nat))
  | [] => return []
  | (a, n) :: t => do
    let p ← locateFor hall 0 ctx (.laundry hall key) a acc
    let rest ← laundryPlaces hall key ctx acc t
    return (a, p, n) :: rest

/-- Where bytes lie for a request, or the status that ends it (Table 18.10). A page that misses makes it wait. -/
def reachElement (hall : Nat) (r : LaundryRing) (acc : Access) (a : XWord) (n : Nat) :
    M (Except Nat (List (XWord × Place × Nat))) := do
  let reach : M (List (XWord × Place × Nat)) := do
    let ps ← laundryPlaces hall r.key r.ctx acc (granules 2 a n)
    ps.forM fun (b, p, m) => readyPlace hall (.laundry hall r.key) (fun _ _ => pure ()) acc b p m
    return ps
  match ← attempt reach with
  | .ok ps => return .ok ps
  | .error (.trap cause _ _ _) => return .error (if cause = 0x06 then 0x06 else 0x05)
  | .error (.park _ due) => throw (.engine hall none due)
  | .error e => throw e

/-- The bytes at places as the laundry reads them, and whether a word is poisoned. -/
def peekParts : List (XWord × Place × Nat) → M (List Byte × Bool)
  | [] => return ([], false)
  | (a, p, n) :: t => do
    let (bs, bad) ← peek a p n
    let (cs, bad') ← peekParts t
    return (bs ++ cs, bad || bad')

/-- The interval of a vault that a delivery at a place takes a scoreboard entry for (R142). -/
def deliveryInterval (p : Place) (n : Nat) : List (Nat × Nat × Nat) :=
  match p with
  | .vault r off => [(r, off, off + n)]
  | .mem _ _ => []

/-- Bytes delivered at places, each with an entry of its room's scoreboard while it is in flight (R142); those of an
uncorrectable source are marked (R165, R309). -/
def deliverParts (hall : Nat) (bad : Bool) : List (XWord × Place × Nat) → List Byte → M Unit
  | [], _ => pure ()
  | (_, p, n) :: t, bs => do
    awaitBoards (deliveryInterval p n)
    poke (hall / 16) p (bs.take n)
    if bad then poisonAt p n
    deliverParts hall bad t (bs.drop n)

/-- How a step of a request ends: elements written, flags raised, and whether a source was uncorrectable; or the status that
ends the request. -/
inductive Progress where
  | wrote (n flags : Nat) (bad : Bool)
  | ends (status : Nat)
  deriving DecidableEq, Repr

/-- Writes one destination element. -/
def writeElement (hall : Nat) (r : LaundryRing) (i : Nat) (v : FRes) (bad : Bool) : M Progress := do
  let ty := typeOf (reqDf r)
  let a := elementAddr (reqDst r) (dstStride r) ((reqIndex r i).map Int.ofNat)
  match ← reachElement hall r .write a ty.size with
  | .error code => return .ends code
  | .ok ps => do
    deliverParts hall bad ps (bytesOfNat ty.size v.bits)
    return .wrote 1 v.flags bad

/-- The conversion of a request (R307): one step, or two for CONVERT, whose first raises only NV (R56). -/
def requestConvert (r : LaundryRing) (x : Nat) : FRes :=
  let sf := typeOf (reqSf r)
  let df := typeOf (reqDf r)
  if reqOp r = 2 then
    let m := typeOf (reqMf r)
    let a := convert sf m 4 (reqSat r) x
    let b := convert m df (reqRm r) (reqSat r) a.bits
    ⟨b.bits, (a.flags &&& flagNV) ||| b.flags⟩
  else convert sf df (reqRm r) (reqSat r) x

/-- An element that is a source element converted. -/
def movedElement (hall : Nat) (r : LaundryRing) (i : Nat) (src : List Int) : M Progress := do
  let ty := typeOf (reqSf r)
  match ← reachElement hall r .read (elementAddr (reqSrc r) (srcStride r) src) ty.size with
  | .error code => return .ends code
  | .ok ps => do
    let (bs, bad) ← peekParts ps
    writeElement hall r i (requestConvert r (natOfBytes bs)) bad

/-- The source indices of an element of PAD, or none where it is padding; and of SLICE. -/
def padSource (r : LaundryRing) (i : Nat) : Option (List Int) :=
  let ix := (reqIndex r i).mapIdx fun k (j : Nat) => ((j : Int) - reqOffset r k, ((reqExtent r k : Int) - 2 * reqOffset r k))
  if ix.all fun (j, n) => decide (0 ≤ j) && decide (j < n) then some (ix.map Prod.fst) else none
def sliceSource (r : LaundryRing) (i : Nat) : List Int := (reqIndex r i).mapIdx fun k j => ((j + reqOffset r k : Nat) : Int)

/-- The value FILL writes (R307). -/
def fillValue (r : LaundryRing) : FRes :=
  let src : Ty := if 8 ≤ reqDf r then .f32 else .i32
  convert src (typeOf (reqDf r)) (reqRm r) (reqSat r) (reqImm r)

/-- The source elements of a block of QUANT from element `i`, and whether one is uncorrectable; or a status. -/
def quantSource (hall : Nat) (r : LaundryRing) : List Nat → M (Except Nat (List Nat × Bool))
  | [] => return .ok ([], false)
  | i :: t => do
    let ty := typeOf (reqSf r)
    let a := elementAddr (reqSrc r) (srcStride r) ((reqIndex r i).map Int.ofNat)
    match ← reachElement hall r .read a ty.size with
    | .error code => return .error code
    | .ok ps => do
      let (bs, bad) ← peekParts ps
      match ← quantSource hall r t with
      | .error code => return .error code
      | .ok (xs, bad') => return .ok (natOfBytes bs :: xs, bad || bad')

/-- A block of 32 elements quantised (R62): its group, its scale byte, and with the last block the padding (R61). -/
def quantBlock (hall : Nat) (r : LaundryRing) (i : Nat) : M Progress := do
  let ty := typeOf (reqDf r)
  let n := min 32 (reqTotal r - i)
  let groups := (reqTotal r + 31) / 32
  let size := groupBytes ty
  match ← quantSource hall r ((List.range n).map fun j => i + j) with
  | .error code => return .ends code
  | .ok (xs, bad) => do
    let b := quantise ty (reqRm r) (fmtOf (typeOf (reqSf r))) (xs ++ List.replicate (32 - n) 0)
    let pad := if i / 32 + 1 = groups then (16 - groups * (size + 1) % 16) % 16 else 0
    let tail := BitVec.ofNat 8 b.scale :: List.replicate pad 0
    let a := reqDst r + BitVec.ofNat 64 (size * (i / 32))
    let z := reqDst r + BitVec.ofNat 64 (size * groups + i / 32)
    match ← reachElement hall r .write a size, ← reachElement hall r .write z tail.length with
    | .ok ps, .ok qs => do
      deliverParts hall bad ps (packGroup ty b.q)
      deliverParts hall bad qs tail
      return .wrote n b.flags bad
    | .error code, _ => return .ends code
    | _, .error code => return .ends code

/-! ### Whole pages (R152, R194, R307, R312) -/

/-- The translation of a page for a request, or none where the page is refused. -/
def pageFor (hall : Nat) (r : LaundryRing) (a : XWord) : M (Option TlbEntry) := do
  let s ← get
  if !isCanonical a || isVaultAddr a then return none
  else match hallLookup s hall r.ctx (pageOf a) with
    | some (e, t) => do
      set t
      return if s.krBusy && attrKey e.attr == s.krKey then none else some e
    | none => throw (.engine hall none [.translationMiss hall ⟨r.ctx, a, .update, .laundry hall r.key⟩])

/-- A translation changed in every hall's L2 TLB; the L1 TLBs drop it. -/
def rewriteEntries (s : State) (old new : TlbEntry) : State :=
  let same := fun (e : TlbEntry) => e.ctx == old.ctx && e.va / pageUnits old.size == old.va / pageUnits old.size
  { s with
    halls := s.halls.map (fun (h, q) => (h, { q with
      tlb := q.tlb.map fun e => if same e then { e with pfn := new.pfn, attr := new.attr } else e }))
    cores := s.cores.map (fun (c, q) => (c, { q with tlb := q.tlb.filter fun e => !same e })) }

/-- COMPRESS and EXPAND (R152): CP of a 64 KiB page in DRAM is set or cleared; no value changes. CP is reserved with class N
and with a sealed page (Table 8.2). -/
def setCompressed (hall : Nat) (r : LaundryRing) (cp : Bool) : M Progress := do
  match ← pageFor hall r (reqSrc r) with
  | none => return .ends 0x05
  | some e =>
    if e.size ≠ 0 ∨ spaceOf (pageStart e) ≠ .dram ∨ attrSL e.attr ∨ attrClass e.attr = 2 then return .ends 0x05
    else do
      let attr := (e.attr &&& ~~~0x40#32) ||| (if cp then 0x40#32 else 0#32)
      modify fun s => rewriteEntries s e { e with attr := attr }
      return .ends 0

/-- Whether a line of memory lies in a page's frame. -/
def inFrame (e : TlbEntry) (key line : Nat) : Bool :=
  key == attrKey e.attr && decide (pageStart e / 128 ≤ line) && decide (line < (pageStart e + pageBytes e) / 128)

/-- The line of memory that a line of a mapped range is copied from, if it lies in a page: as its home has been found, or as the
page translates its address. -/
def pageLine (e : TlbEntry) (m : Mapping) (i : Nat) : Option Nat :=
  let a := mappedVa m (m.off + 128 * i)
  match tfind m.homes i with
  | some h => if inFrame e h.key (h.pa / 128) then some (h.pa / 128) else none
  | none => if covers e m.ctx (pageOf a) then some (frameOf e a / 128) else none

/-- The lines of mapped ranges copied from a page: core, vault offset and line of memory. -/
def pageCopies (s : State) (e : TlbEntry) : List (Nat × Nat × Nat) :=
  s.cores.flatMap fun (c, q) => q.mappings.flatMap fun m => (List.range (m.len / 128)).filterMap fun i =>
    (pageLine e m i).map fun l => (c, m.off + 128 * i, l)

/-- A page's accumulations are recalled and its dirty mapped words written back to the old frame (R194). -/
def settlePage (s : State) (e : TlbEntry) : State :=
  let accs := s.rooms.flatMap (fun (_, q) => q.acc.map fun a => (a.key, a.line)) ++
    s.homeParts.map fun (k, l, _, _, _) => (k, l)
  let s := accs.foldl (fun s (k, l) => if inFrame e k l then recallLine s k l else s) s
  (pageCopies s e).foldl (fun s (c, off, l) =>
    (List.range 32).foldl (recallMapped false (attrKey e.attr) l c off) s) s

/-- Where a memory address goes as two pages of one size exchange frames: under its own key, to the other frame. -/
def exchanged (a b : TlbEntry) (x : Nat) : Nat :=
  let key := x / 2 ^ 52
  let pa := x % 2 ^ 52
  if key = attrKey a.attr ∧ pageStart a ≤ pa ∧ pa < pageStart a + pageBytes a then
    memKey key (pageStart b + (pa - pageStart a))
  else if key = attrKey b.attr ∧ pageStart b ≤ pa ∧ pa < pageStart b + pageBytes b then
    memKey key (pageStart a + (pa - pageStart b))
  else x

/-- Whether an address held what an exchange overwrites: a line of another key in one of the frames. -/
def overwritten (a b : TlbEntry) (x : Nat) : Bool :=
  let key := x / 2 ^ 52
  let pa := x % 2 ^ 52
  let inA := decide (pageStart a ≤ pa) && decide (pa < pageStart a + pageBytes a)
  let inB := decide (pageStart b ≤ pa) && decide (pa < pageStart b + pageBytes b)
  exchanged a b x == x && ((inA && key == attrKey b.attr) || (inB && key == attrKey a.attr))

/-- An effect with the places it acts on changed. -/
def movedEffect (f : Place → Place) : Effect → Effect
  | .store p bs => .store (f p) bs
  | .bring key pa bs bad => match f (.mem key pa) with
    | .mem key pa => .bring key pa bs bad
    | .vault _ _ => .bring key pa bs bad
  | .accumulate key pa op ty v => match f (.mem key pa) with
    | .mem key pa => .accumulate key pa op ty v
    | .vault _ _ => .accumulate key pa op ty v
  | .wsig m => .wsig { m with payload := f m.payload, signal := f m.signal }
  | .rootSwap ctx g cell expected new command => .rootSwap ctx g (f cell) expected new command
  | e => e

/-- An accumulation entry with its line changed. -/
def movedLine (f : Place → Place) (a : AccLine) : AccLine :=
  match f (.mem a.key (128 * a.line)) with
  | .mem key pa => { a with key := key, line := pa / 128 }
  | .vault _ _ => a

/-- A slot with the place of its latched atomic changed. -/
def movedSlot (f : Place → Place) (v : Slot) : Slot :=
  { v with latch := v.latch.map fun l => { l with place := f l.place } }

/-- The homes of mapped lines follow their page. -/
def moveHome (a b : TlbEntry) (h : LineHome) : LineHome := { h with pa := exchanged a b (memKey h.key h.pa) % 2 ^ 52 }

/-- The state with every place changed that an access which has not been performed has come to already: of accepted copies, of
what a superstep or a pair holds back, of contributions not yet committed, of latched atomics and of the journal. -/
def redirected (s : State) (f : Place → Place) : State :=
  let move := movedSlot f
  let kept := fun (t : SavedTask) => { t with task := move t.task, check := t.check.map move }
  { s with
    transfers := s.transfers.map fun t => { t with segments := t.segments.map fun g => { g with src := f g.src, dst := f g.dst } }
    rooms := s.rooms.map fun (r, q) => (r, { q with
      hold := q.hold.map fun h => { h with effect := movedEffect f h.effect }
      acc := q.acc.map (movedLine f) })
    halls := s.halls.map fun (h, q) => (h, { q with
      migrants := q.migrants.map kept, journal := q.journal.map fun j => { j with place := f j.place } })
    contexts := s.contexts.map fun (x, q) => (x, { q with saved := q.saved.map kept })
    cores := s.cores.map fun (c, q) => (c, { q with
      slots := q.slots.map move, banks := q.banks.map fun (k, v) => (k, move v)
      shadows := q.shadows.map fun v => { v with task := move v.task, check := v.check.map move }
      pair := q.pair.map fun p => { p with buffer := p.buffer.map (movedEffect f), checkpoint := move p.checkpoint } }) }

/-- A place follows its page. -/
def movePlace (a b : TlbEntry) : Place → Place
  | .mem key pa => .mem key (exchanged a b (memKey key pa) % 2 ^ 52)
  | p => p

/-- The contents of two pages exchange frames, and so does what is on its way to them (R194). -/
def exchangeFrames (s : State) (a b : TlbEntry) : State :=
  let cells := s.mem.filter fun (x, _) => !overwritten a b x
  let s := redirected s (movePlace a b)
  { s with
    mem := cells.foldl (fun m (x, v) => memPut m (exchanged a b x) v) []
    poison := (s.poison.filter fun x => !overwritten a b x).map (exchanged a b)
    cores := s.cores.map (fun (c, q) => (c, { q with mappings := q.mappings.map fun m => { m with
      homes := m.homes.map (fun (i, h) => (i, moveHome a b h)) } })) }

/-- Whether two pages may exchange frames (R312). -/
def exchangeable (a b : TlbEntry) : Bool :=
  let kinds := [spaceOf (pageStart a), spaceOf (pageStart b)]
  a.size == b.size && attrMG a.attr && attrMG b.attr && !attrSL a.attr && !attrSL b.attr &&
    (kinds == [.dram, .expander] || kinds == [.expander, .dram])

/-- FRAME EXCHANGE (R194, R312): CP is cleared, as a compressed page is expanded on its way to CXL memory. -/
def exchangePages (hall : Nat) (r : LaundryRing) : M Progress := do
  match ← pageFor hall r (reqSrc r), ← pageFor hall r (reqDst r) with
  | some a, some b =>
    if !exchangeable a b then return .ends 0x05
    else do
      modify fun s =>
        let s := exchangeFrames (settlePage (settlePage s a) b) a b
        let clear := fun (w : BitVec 32) => w &&& ~~~0x40#32
        let s := rewriteEntries s a { a with pfn := b.pfn, attr := clear a.attr }
        rewriteEntries s b { b with pfn := a.pfn, attr := clear b.attr }
      return .ends 0
  | _, _ => return .ends 0x05

/-! ### Serving a request (R308 to R310) -/

/-- What a request does from its element `i` on, by its operation. -/
def requestStep (hall : Nat) (r : LaundryRing) (i : Nat) : M Progress :=
  match reqOp r with
  | 3 => quantBlock hall r i
  | 4 => match padSource r i with
    | some ix => movedElement hall r i ix
    | none => writeElement hall r i ⟨0, 0⟩ false
  | 5 => movedElement hall r i (sliceSource r i)
  | 6 => writeElement hall r i (fillValue r) false
  | 7 => setCompressed hall r true
  | 8 => setCompressed hall r false
  | 9 => exchangePages hall r
  | _ => movedElement hall r i ((reqIndex r i).map Int.ofNat)

/-- A request ends with a status; an uncorrectable source shows where nothing else ended it. -/
def endRequest (s : State) (hall key status : Nat) : State :=
  post (onRing s hall key fun r => { r with ended := true, status := if status = 0 then r.status else status })
    [.laundryKickAccept hall]

/-- The rings whose requests run: at most four (R310). -/
def runningRings (h : Hall) : List LaundryRing := h.rings.filter fun r => !r.req.isEmpty && !r.stopped

/-- Requests that a laundry runs at once (R310). -/
def laundryWays : Nat := 4

/-- Whether a ring has a request to be taken: a new one, or one stopped at a granule. -/
def mayTake (s : State) (r : LaundryRing) : Bool :=
  r.stopped || (r.req.isEmpty && !r.overrun && r.cons != r.p && !(contextAt s r.ctx).switchedOut)

/-- Elements of a request that share the indices i0 to i(g − 1). -/
def granuleSize (r : LaundryRing) : Nat := (((List.range 4).drop (reqBits r 41 39)).map (reqExtent r)).prod

/-- Whether a request may be stopped where it has come to (R310): at a granule's end, to take a request of a ring of higher
priority. -/
def stopsHere (s : State) (hall : Nat) (r : LaundryRing) : Bool :=
  reqBits r 41 39 != 0 && r.index % granuleSize r == 0 && decide (r.index < reqTotal r) &&
    decide (laundryWays ≤ (runningRings (hallAt s hall)).length) &&
    (hallAt s hall).rings.any fun q => mayTake s q && decide (r.pri < q.pri)

/-- Stops a request at a granule: the header gets the element at which it is to go on (R304, R310). Where that cannot be written
the request goes on. -/
def stopRequest (hall : Nat) (r : LaundryRing) : M Bool := do
  match ← attempt (engineWrite hall r.ctx (r.header + 40) (bytesOfNat 8 r.index)) with
  | .error _ => return false
  | .ok _ => do
    modify fun s => post (onRing s hall r.key fun r => { r with stopped := true }) [.laundryKickAccept hall]
    return true

/-- Serves a request from the element it has come to, `fuel` steps at most. A page that is not there makes it wait at its
element (R302). -/
def runRequest (hall key : Nat) (d : Due) : Nat → M Unit
  | 0 => pure ()
  | fuel + 1 => do
    match laundryRing (← get) hall key with
    | none => pure ()
    | some r =>
      if reqOp r < 7 && decide (reqTotal r ≤ r.index) then modify fun s => endRequest s hall key 0
      else match ← attempt (requestStep hall r r.index) with
        | .ok (.ends status) => modify fun s => endRequest s hall key status
        | .ok (.wrote n flags bad) => do
          let r := { r with index := r.index + n, flags := r.flags ||| flags, status := if bad then 0x0E else r.status }
          modify fun s => onRing s hall key fun _ => r
          let stopped ← if stopsHere (← get) hall r then stopRequest hall r else pure false
          if !stopped then runRequest hall key d fuel
        | .error (.engine h _ due) => modify fun s => blockOn s h due d
        | .error e => throw e

/-- The step of a request of one operation: of the ring named, if it is serving such a request. -/
def serve (op hall key : Nat) (d : Due) (s : State) : Host.Outcome State Fault Refusal :=
  event d s (
    match laundryRing s hall key with
    | none => pure ()
    | some r =>
      if r.req.isEmpty || r.ended || r.stopped || reqOp r != op then pure ()
      else runRequest hall key d (reqTotal r + 2))

/-- The step of an operation's requests. -/
def requestDue (hall key op : Nat) : Option Due :=
  match op with
  | 1 => some (.copy hall key) | 2 => some (.convert hall key) | 3 => some (.quant hall key) | 4 => some (.pad hall key)
  | 5 => some (.slice hall key) | 6 => some (.fill hall key) | 7 => some (.compress hall key)
  | 8 => some (.expand hall key) | 9 => some (.frameExchange hall key) | _ => none

/-- The completion record of a ring's request (Table 18.8). -/
def completionBytes (r : LaundryRing) : List Byte :=
  bytesOfNat 4 r.cons.toNat ++ bytesOfNat 1 r.status ++ bytesOfNat 1 (reqOp r) ++ bytesOfNat 1 (r.flags % 32) ++ [0] ++
    bytesOfNat 8 r.index

/-- A ring after its request: it leaves the active set once it has taken all it was kicked for. -/
def requestDone (s : State) (hall : Nat) (r : LaundryRing) : State :=
  let next := { r with req := [], index := 0, flags := 0, status := 0, ended := false, stopped := false
                       kickers := r.kickers.filter fun e => e.2.2 != r.cons }
  if next.cons = next.p then leaveRings (onRing s hall r.key fun _ => next) hall r.key
  else onRing s hall r.key fun _ => next

/-- Completes a request (R308, R192): the record, then the completion word. -/
def finishRequest (hall : Nat) (r : LaundryRing) : M Unit := do
  let s := (r.cons.toNat + 2 ^ 32 - 1) % 2 ^ 32
  laundryTry (engineWrite hall r.ctx (r.crec + BitVec.ofNat 64 (16 * (s % 2 ^ r.lc))) (completionBytes r))
  laundryTry (engineWrite hall r.ctx r.cword (bytesOfNat 8 (r.cons.toNat + r.overrun.toNat * 2 ^ 63)))
  modify fun t => requestDone t hall r

/-- A stopped request goes on at the element that its ring's header gives (R304, R310). -/
def resumeRequest (hall : Nat) (r : LaundryRing) : M Unit := do
  let (bs, _) ← laundryTry (engineRead hall r.ctx (r.header + 40) 8)
  modify fun s =>
    let s := onRing s hall r.key fun r => { r with index := natOfBytes bs, stopped := false }
    post (onHall s hall fun h => { h with lastRing := r.key }) (requestDue hall r.key (reqOp r)).toList

/-- Takes the next request of a ring (R305): cons counts it at once. -/
def takeRequest (hall : Nat) (r : LaundryRing) : M Unit := do
  let a := r.base + BitVec.ofNat 64 (64 * (r.cons.toNat % 2 ^ r.lc))
  let (bs, _) ← laundryTry (engineRead hall r.ctx a 64)
  let n := r.cons + 1
  laundryTry (engineWrite hall r.ctx (r.header + 8) (bytesOfNat 4 n.toNat))
  let q := { r with cons := n, req := (List.range 8).map fun i => BitVec.ofNat 64 (fieldAt bs (8 * i) 8) }
  modify fun s =>
    let s := onHall (onRing s hall r.key fun _ => q) hall fun h => { h with lastRing := r.key }
    match requestStatus q, requestDue hall r.key (reqOp q) with
    | 0, some d => post s [d]
    | code, _ => endRequest s hall r.key code

/-- The rings that may give the next request (R310): by priority, and among equals after the last one taken. At most four
requests run at once. -/
def ringOrder (s : State) (hall : Nat) : List LaundryRing :=
  let h := hallAt s hall
  let i := ((h.rings.findIdx? fun r => r.key == h.lastRing).map (· + 1)).getD 0
  let turn := (h.rings.drop i ++ h.rings.take i).filter (mayTake s)
  if laundryWays ≤ (runningRings h).length then []
  else (List.range 8).reverse.flatMap fun p => turn.filter fun r => r.pri == p

/-- Tries work in order until one succeeds: whether one did. Work that waits for a page leaves the laundry waiting. -/
def firstDone (d : Due) : List (M Unit) → M Bool
  | [] => return false
  | act :: t => do
    match ← attempt act with
    | .ok _ => return true
    | .error (.engine h _ due) => do
      modify fun s => blockOn s h due d
      firstDone d t
    | .error e => throw e

/-- LAUNDRY_KICK_ACCEPT (R305, R308, R310): the laundry completes a request that has ended, accepts a kick, or takes the
next request, and goes on while there is any of these to do. -/
def laundryKickAcceptAct (hall : Nat) : M Unit := do
  let s ← get
  let h := hallAt s hall
  let work := ((h.rings.filter LaundryRing.ended).map (finishRequest hall)) ++
    ((h.kicks.filter (acceptable s hall)).map (acceptKick hall)) ++ (ringOrder s hall).map fun r => if r.stopped then resumeRequest hall r else takeRequest hall r
  if ← firstDone (.laundryKickAccept hall) work then modify fun s => post s [.laundryKickAccept hall]

/-- LAUNDRY_KICK_ACCEPT (R305). -/
def execLaundryKickAccept (hall : Nat) (s : State) : Host.Outcome State Fault Refusal :=
  event (.laundryKickAccept hall) s (laundryKickAcceptAct hall)

/-- COPY (R307). -/
def execCopy (hall ring : Nat) (s : State) : Host.Outcome State Fault Refusal := serve 1 hall ring (.copy hall ring) s

/-- CONVERT (R307). -/
def execConvert (hall ring : Nat) (s : State) : Host.Outcome State Fault Refusal := serve 2 hall ring (.convert hall ring) s

/-- QUANT (R307). -/
def execQuant (hall ring : Nat) (s : State) : Host.Outcome State Fault Refusal := serve 3 hall ring (.quant hall ring) s

/-- PAD (R307). -/
def execPad (hall ring : Nat) (s : State) : Host.Outcome State Fault Refusal := serve 4 hall ring (.pad hall ring) s

/-- SLICE (R307). -/
def execSlice (hall ring : Nat) (s : State) : Host.Outcome State Fault Refusal := serve 5 hall ring (.slice hall ring) s

/-- FILL (R307). -/
def execFill (hall ring : Nat) (s : State) : Host.Outcome State Fault Refusal := serve 6 hall ring (.fill hall ring) s

/-- COMPRESS (R307). -/
def execCompress (hall ring : Nat) (s : State) : Host.Outcome State Fault Refusal := serve 7 hall ring (.compress hall ring) s

/-- EXPAND (R307). -/
def execExpand (hall ring : Nat) (s : State) : Host.Outcome State Fault Refusal := serve 8 hall ring (.expand hall ring) s

/-- FRAME EXCHANGE (R312). -/
def execFrameExchange (hall ring : Nat) (s : State) : Host.Outcome State Fault Refusal :=
  serve 9 hall ring (.frameExchange hall ring) s

end Sys2Proof.Machine
end

