-- ==== Sys2Proof/Machine/Maintenance.lean ====
section
/-! DEFINITION. The map, repair, raw array and shutter instructions (R372, R377, R380, R387 to R393, R410). -/

namespace Sys2Proof.Machine

open Sys2Proof

/-! ### The map (R388, R389) -/

/-- An acknowledgement of version `a` by a context (R377): it counts where map.ack < a ≤ map.ver, and where no
deadline has suspended the context before it (R379). -/
def acknowledge (s : State) (ctx : Nat) (a : BitVec 32) : State :=
  onContext s ctx fun x => if x.mapAck < a ∧ a ≤ mapVersion s ∧ x.suspended.isNone then { x with mapAck := a } else x

/-- The word that MAPACK writes: map.ver and map.ack. -/
def ackWord (s : State) (ctx : Nat) : XWord := mapVersion s ++ (contextAt s ctx).mapAck

/-- MAPACK (R388). A pair sends its acknowledgement once, after an agreed compare. -/
def execMapack (d : Reg) (s : State) : Host.Outcome State Fault Refusal :=
  insn (.mapack d) s (do
    compareFirst
    let x ← rx d
    let ctx := (← me).ctx
    modify fun s => acknowledge (sequenced s) ctx (x.setWidth 32)
    let s ← get
    wx d (ackWord s ctx)
    return .seq)

/-- MAPRD (R389): the word first, then the version. -/
def execMaprd (d a b : Reg) (s : State) : Host.Outcome State Fault Refusal :=
  insn (.maprd d a b) s (do
    let x ← rx a
    let s ← get
    wx d (mapWord s (x.toNat / 2 ^ 24 % 256) (x.toNat % 2 ^ 24))
    wx b ((mapVersion s).setWidth 64)
    return .seq)

/-! ### Repair (R380, R390) -/

/-- The result of REPW (Table 27.3): OK, DUP, OVF and ERR in bits 63 to 60, and the entry. -/
def repairResult (ok dup ovf err : Bool) (idx : Nat) : XWord :=
  BitVec.ofNat 64 (ok.toNat * 2 ^ 63 + dup.toNat * 2 ^ 62 + ovf.toNat * 2 ^ 61 + err.toNat * 2 ^ 60 + idx % 32)

/-- The valid entry that holds a row of a slice, if one does. -/
def repairedAt (s : State) (pr slice row : Nat) : Option Nat :=
  (List.range 32).find? fun i => repairHits (repairWord s pr i) slice row

/-- The free entry of lowest index: V = 0 and BAD = 0. -/
def freeRepair (s : State) (pr : Nat) : Option Nat :=
  (List.range 32).find? fun i => (repairWord s pr i).toNat / 2 ^ 30 == 0

/-- The words of a row copied to a spare row, with their check bits and poison marks (R380). -/
def copyRow (s : State) (pr slice row i : Nat) : State :=
  { s with spares := (List.range 32).foldl (fun t w => tset VaultWord.reset t (1024 * pr + 32 * i + w)
      (tget VaultWord.reset s.vault (2 ^ 21 * pr + (slice * 2 ^ 19 + row * 128) / 4 + w))) s.spares }

/-- An entry of a repair table written (R390): from version 1 on, a publication follows. -/
def writeRepair (s : State) (pr i : Nat) (w : Word) : State :=
  let s := { s with repairs := tput s.repairs (32 * pr + i) w }
  if mapVersion s = 0 then s else post { s with changes := s.changes ++ [.repair pr i] } [.mapPublication]

/-- Entry `i` takes a row (R380, R390): from version 1 on, its words are copied first. -/
def takeRepair (s : State) (pr slice row i : Nat) : State :=
  let s := if mapVersion s = 0 then s else copyRow s pr slice row i
  writeRepair s pr i (BitVec.ofNat 32 (2 ^ 31 + slice * 2 ^ 12 + row))

/-- A repair request for a physical room (R390), one at a time in the order of arrival (R400): the result, and the state after. -/
def repairRequest (s : State) (pr : Nat) (x : XWord) : XWord × State :=
  let slice := x.toNat / 2 ^ 12 % 16
  let row := x.toNat % 4096
  let idx := x.toNat / 2 ^ 32 % 32
  match x.toNat / 2 ^ 30 % 4 with
  | 2 => match repairedAt s pr slice row, freeRepair s pr with
    | some i, _ => (repairResult false true false false i, s)
    | none, some i => (repairResult true false false false i, takeRepair s pr slice row i)
    | none, none => (repairResult false false true false 0, post s [.unitWithdrawal (.room pr)])
  | 1 =>
    if (repairWord s pr idx).msb then (repairResult false false false true 0, s)
    else (repairResult true false false false idx,
      writeRepair s pr idx (repairWord s pr idx ||| BitVec.ofNat 32 (2 ^ 30)))
  | _ => (repairResult false false false true 0, s)

/-- REPW (R390). A threshold core lies in no room, and its request is refused. -/
def execRepw (d a : Reg) (s : State) : Host.Outcome State Fault Refusal :=
  insn (.repw d a) s (do
    let x ← rx a
    let s ← get
    match (if isThreshold s.cur.1 then none else physicalRoom s (roomOf s.cur.1)) with
    | none => wx d (repairResult false false false true 0)
    | some pr => do
      set (repairRequest s pr x).2
      wx d (repairRequest s pr x).1
    return .seq)

/-! ### Raw arrays (R391) -/

/-- A word that ARRT reaches (Table 27.4). -/
inductive RawPlace where
  | vault (key off : Nat)
  | spare (key : Nat)
  | xreg (k : Fin 4) (r : Reg)
  | wreg (k : Fin 4) (r : Reg) (q : Nat)
  deriving DecidableEq, Repr

/-- The word a selector names for a core in a physical room; none where it traps (R391). -/
def rawPlace (x : XWord) (room : Option Nat) : Option RawPlace :=
  let loc := x.toNat % 2 ^ 23
  if x.toNat / 2 ^ 62 = 3 then none
  else match x.toNat / 2 ^ 59 % 8, room with
    | 0, some pr => if loc % 4 = 0 then some (.vault (2 ^ 21 * pr + loc / 4) loc) else none
    | 1, _ => if loc / 32 % 4 = 3 ∨ loc % 32 = 0 then none else some (.xreg (Fin.ofNat 4 (loc / 32)) (Fin.ofNat 32 loc))
    | 2, _ => if loc / 128 % 4 = 3 then none
      else some (.wreg (Fin.ofNat 4 (loc / 128)) (Fin.ofNat 32 (loc / 4)) (loc % 4))
    | 3, some pr => if loc < 1024 then some (.spare (1024 * pr + loc)) else none
    | _, _ => none

/-- A vault word as a raw read gives it: payload and stored check bits. -/
def rawVault (w : VaultWord) : XWord × XWord :=
  (BitVec.ofNat 64 (payloadOf w), (w.check.getD (vaultCheck (payloadOf w))).setWidth 64)

/-- A register word as a raw read gives it. -/
def rawRegister (v : Slot) (d : XWord) (key : Nat) : XWord × XWord :=
  (d, ((tfind v.bad key).getD (registerCheck d.toNat)).setWidth 64)

/-- A raw read: the payload, and the stored check bits. -/
def rawRead (s : State) : RawPlace → XWord × XWord
  | .vault key _ => rawVault (tget VaultWord.reset s.vault key)
  | .spare key => rawVault (tget VaultWord.reset s.spares key)
  | .xreg k r => rawRegister (slotAt s s.cur.1 k) ((slotAt s s.cur.1 k).x.get r) r.val
  | .wreg k r q => rawRegister (slotAt s s.cur.1 k) (quarterOf ((slotAt s s.cur.1 k).w.get r) q) (quarterKey r q)

/-- The stored check bits of a register after a write: listed where they are not those of the payload. -/
def rawBad (bad : Table (BitVec 8)) (key : Nat) (d : XWord) (check : Option XWord) : Table (BitVec 8) :=
  match check with
  | some c => if c.setWidth 8 = registerCheck d.toNat then tdel bad key else tput bad key (c.setWidth 8)
  | none => tdel bad key

/-- A write of one array word: `check` holds the check bits of a raw write. -/
def rawWrite (s : State) (d : XWord) (check : Option XWord) : RawPlace → State
  | .vault key _ => { s with
      vault := tset VaultWord.reset s.vault key (wordOfPayload (d.toNat % 2 ^ 35) (check.map (BitVec.setWidth 7))) }
  | .spare key => { s with
      spares := tset VaultWord.reset s.spares key (wordOfPayload (d.toNat % 2 ^ 35) (check.map (BitVec.setWidth 7))) }
  | .xreg k r => onSlot s s.cur.1 k fun v => { v with x := v.x.set r d, bad := rawBad v.bad r.val d check }
  | .wreg k r q => onSlot s s.cur.1 k fun v => { v with
      w := v.w.set r (withQuarter (v.w.get r) q d), bad := rawBad v.bad (quarterKey r q) d check
      wWritten := v.wWritten ||| BitVec.ofNat 32 (2 ^ r.val) }

/-- The vault offset at which a word of the array is ordinarily seen: its own, or that of the row its spare row replaces. -/
def seenOffset (s : State) : RawPlace → Option Nat
  | .vault _ off => some off
  | .spare key =>
    let e := (tget 0 s.repairs (key / 32)).toNat
    if e / 2 ^ 30 = 2 then some (e / 2 ^ 12 % 16 * 2 ^ 19 + e % 4096 * 128 + key % 32 * 4) else none
  | _ => none

/-- ARRT (R391): a read writes xd and then xb. -/
def execArrt (d a b : Reg) (s : State) : Host.Outcome State Fault Refusal :=
  insn (.arrt d a b) s (do
    let x ← rx a
    let s ← get
    let room := if isThreshold s.cur.1 then none else physicalRoom s (roomOf s.cur.1)
    match rawPlace x room with
    | none => trap 0x05 x
    | some p => do
      if x.toNat / 2 ^ 62 = 0 then do
        wx d (rawRead s p).1
        wx b (rawRead s p).2
      else do
        let v ← rx b
        modify fun s => rawWrite s v (if x.toNat / 2 ^ 62 = 2 then some (x >>> 48) else none) p
        match seenOffset s p with
        | some off => testWord (roomOf s.cur.1) off
        | none => pure ()
      return .seq)

/-! ### The shutter (R392, R393) -/

/-- SHUT (R392). -/
def execShut (s : State) : Host.Outcome State Fault Refusal :=
  insn .shut s (do
    modify fun s => fireShutter s 1
    return .seq)

/-- SNAPRD (R393). -/
def execSnaprd (d a : Reg) (s : State) : Host.Outcome State Fault Refusal :=
  insn (.snaprd d a) s (do
    let x ← rx a
    let s ← get
    wx d (snapRead s (x.toNat % 2 ^ 32))
    return .seq)

end Sys2Proof.Machine
end

