-- ==== Sys2Proof/Machine/Pairs.lean ====
section
/-! DEFINITION. Pairs and recoverable supersteps (R25, R360 to R369, R394 to R398): the compare, the commit, the rollback,
and the instructions that meet them. -/

namespace Sys2Proof.Machine

open Sys2Proof

/-! ### The compare (R360, R361) -/

/-- The effects of a release buffer leave in order. One whose room has become absent goes nowhere (R376). -/
def drain (c : Nat) (k : Fin 4) : List Effect → M Unit
  | [] => pure ()
  | e :: t => do
    match ← attempt (asSlot c k (emit e)) with
    | .ok _ => pure ()
    | .error (.trap _ _ _ _) => pure ()
    | .error r => throw r
    drain c k t

/-- A half after an agreed compare: the checkpoint is the slot as it is. -/
def agreedHalf (p : Pair) (v : Slot) : Pair :=
  { p with
    agreed := p.agreed + 1, since := 0, retry := 0, print := 0, buffer := [], checkpoint := v, clear := true, wrote := []
    leaves := false, kept := 0, due := none, fed := [] }

/-- A half after a compare that disagreed: the effects since its checkpoint are discarded. -/
def retriedHalf (p : Pair) : Pair :=
  { p with
    since := 0, retry := p.retry + 1, print := 0, buffer := p.buffer.take p.kept, clear := false, wrote := []
    leaves := false, due := none, fed := [] }

/-- A slot as a checkpoint restores it: it waits for nothing but its own latch, its hints are those of the checkpoint, and its
streams fetch again (R111). -/
def restoredSlot (b : Slot) : Slot :=
  { b with wait := if b.latch.isSome then some .latch else none, carries := false, s := b.s.map fun q => { q with fetched := [] } }

/-- A slot goes back to a checkpoint; its watches and misses are gone. -/
def restoreSlot (s : State) (c : Nat) (k : Fin 4) (b : Slot) : State :=
  onCore (putSlot (dropMisses s c k) c k (restoredSlot b)) c fun q => { dropWatches q k with
    deliveries := q.deliveries.filter fun d => d.slot != k }

/-- A pair becomes suspect (R360): both cores stop issue with their slots at the checkpoint, and are reported. -/
def suspectPair (c : Nat) (p : Pair) : M Unit := modify fun s =>
  let k := p.slot
  let s := restoreSlot (restoreSlot s c k p.checkpoint) (c + 1) k p.checkpoint
  let s := onHalves s c fun _ q => { q with suspect := true, buffer := q.buffer.take q.kept, due := none }
  let s := onCore (onCore s c fun q => { q with halted := true }) (c + 1) fun q => { q with halted := true }
  post s [.pairCompare c, .unitWithdrawal (coreUnit s c), .unitWithdrawal (coreUnit s (c + 1))]

/-- The task of a suspect pair is saved once a frame of its context is free (R251, R360). What left the pair before its checkpoint is
performed first. -/
def saveSuspect (c : Nat) (p : Pair) : M Unit := do
  match freeFrame (← get) (slotAt (← get) c p.slot).ctx with
  | none => pure ()
  | some _ => do
    drain c p.slot p.buffer
    modify fun s => onHalves s c fun _ q => { q with buffer := [], kept := 0 }
    saveOne c p.slot none false

/-- A compare of a pair that agrees (R360): the release buffer drains in order, and a checkpoint is taken. -/
def agreePair (c : Nat) (p : Pair) : M Unit := do
  drain c p.slot p.buffer
  modify fun s => onHalves s c fun d h => agreedHalf h (slotAt s d p.slot)

/-- PAIR_COMPARE (R360). -/
def pairCompareAct (c : Nat) : M Unit := do
  let s ← get
  match (coreAt s c).pair, (coreAt s (c + 1)).pair with
  | some p, some q =>
    if !p.leader then pure ()
    else if p.suspect then saveSuspect c p
    else if p.print = q.print then do
      agreePair c p
      match p.due with
      | some (pc, cause, addr, info) => modify fun s => enterTrap s c p.slot pc cause addr 0 info
      | none => pure ()
    else if p.retry < 2 then
      modify fun s =>
        let s := restoreSlot (restoreSlot s c p.slot p.checkpoint) (c + 1) p.slot p.checkpoint
        onHalves s c fun _ h => retriedHalf h
    else suspectPair c p
  | _, _ => pure ()

/-- PAIR_COMPARE (R360). -/
def execPairCompare (c : Nat) (s : State) : Host.Outcome State Fault Refusal := event (.pairCompare c) s (pairCompareAct c)

/-! ### Forming and leaving a pair (R394 to R396) -/

/-- The other core of a core's pair. -/
def partnerOf (c : Nat) : Nat := if c % 2 = 0 then c + 1 else c - 1

/-- The slots of a core that wait at PAIRON. -/
def pendingJoins (s : State) (c : Nat) : List (Fin 4) :=
  (List.finRange 4).filter fun k => (slotAt s c k).wait == some .pairJoin

/-- Whether a slot may not join a pair for its streams or its latch. -/
def joinBlocked (v : Slot) : Bool := v.s.toList.any (fun q => q.configured) || v.latch.isSome

/-- The reservations of a task's held entries change (R262). -/
def onReserved (f : Nat → Nat) (s : State) (hall : Nat) (v : Slot) : State :=
  match launchOf v with
  | none => s
  | some l => v.held.foldl (fun s e => onQueue s hall l e.stage fun q => { q with reserved := f q.reserved }) s

/-- The reservations of a task's held entries are free again (R262). -/
def freeHeld (s : State) (hall : Nat) (v : Slot) : State := onReserved (fun n => n - 1) s hall v

/-- The reservations of the entries that a checkpoint holds are made again (R270). -/
def holdAgain (s : State) (hall : Nat) (v : Slot) : State := onReserved (fun n => n + 1) s hall v

/-- Both slots have arrived: the partner's PAIRON retires, and the pair forms. The follower's task is abandoned. -/
def formPair (c : Nat) (k : Fin 4) : M Flow := do
  let other := partnerOf c
  complete other k (return .seq)
  retire .seq
  modify fun s =>
    let lead := min c other
    couple (freeHeld s (hallOf c) (slotAt s (lead + 1) k)) lead k
  return .gone

/-- PAIRON (R394). -/
def execPairon (s : State) : Host.Outcome State Fault Refusal :=
  insn .pairon s (do
    let s ← get
    let (c, k) := s.cur
    let v ← me
    let other := partnerOf c
    let joins := pendingJoins s other
    if k = 3 then trap 0x0D 0 0 1
    else if (k = 0 ∧ (coreAt s c).chain.isSome) ∨ (coreAt s c).pair.isSome then trap 0x0D 0 0 2
    else if joins.any fun j => j != k || !((slotAt s other j).ctx == v.ctx && (slotAt s other j).launch == v.launch) then
      trap 0x0D 0 0 3
    else if joinBlocked v || (joins.contains k && joinBlocked (slotAt s other k)) then trap 0x0D 0 0 4
    else if (recoverable s v).isSome then trap 0x0D 0 0 5
    else if joins.contains k then formPair c k
    else return .wait .pairJoin)

/-- A compare that PAIROFF or FPCHK forces (R360, R395, R396), before the rest of its instruction: where the halves differ, what
PAIR_COMPARE does is its own step, and the instruction is reached again from the checkpoint. -/
def compareNow : M Unit := do
  let s ← get
  let lead := leadCore s s.cur.1 s.cur.2
  match pairOf s lead s.cur.2, pairOf s (lead + 1) s.cur.2 with
  | some p, some q =>
    if p.print = q.print then agreePair lead p else throw (.retry [.pairCompare lead])
  | _, _ => pure ()

/-- PAIROFF (R395): after an agreed compare both slots leave the pair. The leader's slot keeps the held entries of the task. -/
def execPairoff (s : State) : Host.Outcome State Fault Refusal :=
  insn .pairoff s (do
    let s ← get
    let (c, k) := s.cur
    if (pairOf s c k).isNone then return .seq
    else if (recoverable s (slotAt s c k)).isSome then trap 0x0D 0 0 5
    else do
      compareNow
      modify fun s => uncouple s (leadCore s c k)
      onMe fun v => { v with pairMode := false, held := if isSecond s c k then [] else v.held }
      return .seq)

/-- FPCHK (R396): pair.state[63:32] after an agreed compare. -/
def execFpchk (d : Reg) (s : State) : Host.Outcome State Fault Refusal :=
  insn (.fpchk d) s (do
    compareNow
    let s ← get
    let (c, k) := s.cur
    wx d (match pairOf s c k with
      | some p => p.agreed.setWidth 64
      | none => 0)
    return .seq)

/-! ### The commit (R362, R364, R368) -/

/-- The task slots of a launch's rooms. -/
def gangSlots (r : Launch) : List (Nat × Fin 4) :=
  ((launchRooms r).flatMap coresOf).flatMap fun c => taskSlots.map fun k => (c, k)

/-- The slots of a gang that hold a task; a pair as its leader. -/
def gangTasks (s : State) (l : Nat) (r : Launch) : List (Nat × Fin 4) :=
  (gangSlots r).filter fun (c, k) => launchOf (slotAt s c k) == some l && (slotAt s c k).live && !isSecond s c k

/-- A rollback that fails (R366): the superstep becomes non-recoverable, every gang slot takes 0x0E with reason 3, and the
shutter fires (R371). -/
def failRollback (l : Nat) (r : Launch) : M Unit := do
  makeNonRecoverable l
  modify fun s =>
    let s := fireShutter s 3
    (gangTasks s l r).foldl (fun s (c, k) =>
      let s := wake s c k
      enterTrap s c k (restartPc (slotAt s c k)) 0x0E 0 0 3) s

/-- What a slot does at the commit it waits for. -/
def commitOf (s : State) (l seq c : Nat) (k : Fin 4) : Option CommitOp :=
  match (slotAt s c k).wait with
  | some (.commit m q op) => if m = l ∧ q = seq then some op else none
  | _ => none

/-- The saved tasks of a launch. -/
def savedOf (s : State) (l : Nat) : List SavedTask :=
  (contextAt s (l / 1024)).saved.filter fun t => launchOf t.task == some l

/-- The slots of a core that have arrived at a gang's commit: those that wait for it, and those whose saved tasks had arrived. -/
def arrivedOn (s : State) (l : Nat) (r : Launch) (c : Nat) : Nat :=
  (taskSlots.filter fun k => (slotAt s c k).live && (commitOf s l r.seq c k).isSome).length +
    ((savedOf s l).filter fun t => t.task.arrivedIn == some r.seq && (t.core == c || (t.task.pairMode && t.core + 1 == c))).length

/-- Whether every slot of a gang has arrived (R362): every slot that the launch takes, whether it holds a task or not, but for those
that have left. -/
def gangArrived (s : State) (l : Nat) (r : Launch) : Bool :=
  let tasks := gangTasks s l r
  let saved := savedOf s l
  (launchRooms r).all (fun q => r.rooms.contains q) && !(tasks.isEmpty && saved.isEmpty) &&
    tasks.all (fun (c, k) => (commitOf s l r.seq c k).isSome) && saved.all (fun t => t.task.arrivedIn == some r.seq) &&
    ((launchRooms r).flatMap coresOf).all fun c =>
      decide (recSlots r (c % 16) ≤ arrivedOn s l r c + (r.leftSlots.filter fun e => e.1 == c).length)

/-- The contributions of a room's open superstep are made (R364). -/
def commitContributions (l room : Nat) : List AccLine → M Unit
  | [] => return ()
  | a :: t => do
    (a.open_.filter fun e => e.1 == l).forM fun (_, off, p) => contribute room a.key (128 * a.line + off) p.op p.ty p.value
    commitContributions l room t

/-- The accumulations of a launch's rooms are committed. -/
def commitRooms (l : Nat) : List Nat → M Unit
  | [] => return ()
  | room :: t => do
    commitContributions l room (roomAt (← get) room).acc.reverse
    modify fun s => onRoom s room fun q => { withoutOpen l q with log := q.log.filter fun e => e.launch != l }
    commitRooms l t

/-- A waiting slot completes its instruction, as both halves of a pair do; where it cannot, the commit as a whole waits. -/
def completeNow (c : Nat) (k : Fin 4) (act : M Flow) : M Unit := do
  asSlot c k (mirrored (do
    release
    onMe fun v => { v with arrivedIn := none }
    let flow ← act
    finish flow))

/-- What the commit does for the slots that have arrived (R263, R266, R397). -/
def commitSlots (l seq : Nat) : List (Nat × Fin 4) → M Unit
  | [] => return ()
  | (c, k) :: t => do
    match commitOf (← get) l seq c k with
    | some .bar => completeNow c k (do
        acquire .house
        return .seq)
    | some .tend => completeNow c k endTask
    | some (.done x) => completeNow c k (endLaunch x)
    | none => pure ()
    commitSlots l seq t

/-- A core's checkpoints for a launch (R366): its slots with their counts of atomics and WSIGs begun anew, its shadow tasks,
and slot 0's place in a chain. -/
def checkpointCore (l : Nat) (q : Core) : Core :=
  let fresh := fun (v : Slot) => if launchOf v = some l ∧ v.live then { v with atomics := 0, wsigs := 0 } else v
  let slots := q.slots.map fresh
  { q with
    slots := slots
    banks := taskSlots.foldl (fun b k =>
      let v := slots.get k
      if launchOf v = some l then (if v.live then tput b k.val v else tdel b k.val) else b) q.banks
    chainBank := if launchOf (slots.get 0) = some l then q.chain else q.chainBank
    shadows := q.shadows.map fun h => if launchOf h.task = some l then { h with check := some h.task, chainCheck := h.chain } else h }

/-- The checkpoints of a gang. -/
def takeCheckpoints (s : State) (l : Nat) (r : Launch) : State :=
  let ctx := l / 1024
  let s := ((launchRooms r).flatMap coresOf).foldl (fun s c => onCore s c (checkpointCore l)) s
  let s := onContext s ctx fun x => { x with
    saved := x.saved.map fun t => if launchOf t.task = some l then { t with check := some t.task, chainCheck := t.chain } else t }
  let files := (launchRooms r).foldl (fun t room =>
    tput t room ((roomAt s room).tensors.filter fun e => e.1 / 64 == ctx)) []
  onLaunch s l fun r => { r with ckTensors := files, ckBarriers := r.barriers, keptTasks := [], taken := [] }

/-- SUPERSTEP_COMMIT (R362, R368). An uncorrectable entry of the hold rolls the superstep back before anything is performed. -/
def superstepCommitAct (ctx record : Nat) : M Unit := do
  let s ← get
  let l := launchKey ctx record
  match launchAt s l with
  | none => pure ()
  | some r =>
    if r.mode = 0 ∨ !gangArrived s l r then pure ()
    else if (launchRooms r).any fun q => (heldOf s l q).any Held.lost then
      if r.rollbacks < 2 then throw (.retry [.superstepRollback ctx record]) else failRollback l r
    else do
      performHeld (fun e => !e.isEntry) l (launchRooms r)
      commitRooms l (launchRooms r)
      performHolds l (launchRooms r)
      modify fun s =>
        let s := { s with halls := s.halls.map (fun (h, q) => (h, { q with journal := q.journal.filter fun e => e.launch != l })) }
        onLaunch s l fun r => { r with seq := r.seq + 1, rollbacks := 0, mode := 1 }
      commitSlots l r.seq (gangTasks s l r)
      modify fun s => takeCheckpoints s l r

/-- SUPERSTEP_COMMIT (R368). -/
def execSuperstepCommit (ctx record : Nat) (s : State) : Host.Outcome State Fault Refusal :=
  event (.superstepCommit ctx record) s (superstepCommitAct ctx record)

/-! ### The rollback (R366, R367) -/

/-- Whether a checkpoint holds a register that cannot be corrected (R366, R410). -/
def bankFails (b : Slot) : Bool :=
  b.bad.any fun (k, c) =>
    let d := if k < 32 then b.x.get (Fin.ofNat 32 k) else quarterOf (b.w.get (Fin.ofNat 32 ((k - 32) / 4))) ((k - 32) % 4)
    (decodeChecked 64 7 d.toNat c.toNat).isNone

/-- The checkpoints of a gang's slots. -/
def gangBanks (s : State) (l : Nat) (r : Launch) : List Slot :=
  (gangTasks s l r).filterMap fun (c, k) => tfind (coreAt s c).banks k.val

/-- The gang's hearth commands of the superstep are dropped, the last first. -/
def dropCommands (l seq : Nat) : List Nat → M Unit
  | [] => return ()
  | room :: t => do
    let qs := (roomAt (← get) room).window.filter fun q => q.launch == l && q.seq == seq
    qs.reverse.forM (dropCommand room)
    dropCommands l seq t

/-- The logged words of a room are restored, newest first. -/
def restoreWords (s : State) (l room : Nat) : State :=
  match physicalRoom s room with
  | none => s
  | some pr =>
    let mine := (roomAt s room).log.filter fun e => e.launch == l
    let s := mine.foldl (fun s e => putVault s pr e.off e.old) s
    onRoom s room fun q => { q with log := q.log.filter fun e => e.launch != l }

/-- A room's hold of a launch is discarded, with the reservations in it. -/
def discardHold (s : State) (l room : Nat) : State :=
  let s := (heldOf s l room).foldl (fun s h => match h.effect with
    | .enqueue m hall st _ => onQueue s hall m st fun q => { q with reserved := q.reserved - 1 }
    | _ => s) s
  onRoom s room fun q => withoutOpen l { q with hold := q.hold.filter fun h => h.launch != l }

/-- A dequeued entry returns to the front of its queue, with the decode state before it. -/
def returnEntry (l : Nat) (r : Launch) (e : Nat × Nat × List Word) : M Unit := do
  let (hall, st, ws) := e
  let q := queueAt (← get) hall l st
  let head := (q.head + stageCap r st - 1) % stageCap r st
  engineWrite hall (l / 1024) (entryAddress r hall st head) ((ws.drop 16).flatMap fun w => bytesOfNat 4 w.toNat)
  modify fun s => onQueue s hall l st fun q => { q with head := head, count := q.count + 1, decode := ws.take 16 }

/-- A gang slot goes back to its checkpoint, or to holding no task; a pair's entries are reserved once. -/
def rollSlot (l : Nat) (s : State) (e : Nat × Fin 4) : State :=
  let (c, k) := e
  let v := slotAt s c k
  if launchOf v ≠ some l then s
  else match tfind (coreAt s c).banks k.val with
    | some b => restoreSlot (if isSecond s c k then s else holdAgain (freeHeld s (hallOf c) v) (hallOf c) b) c k b
    | none => if v.live then vacate (if isSecond s c k then s else freeHeld s (hallOf c) v) c k else s

/-- The rest of a core goes back: its chain, its pair, and its shadow tasks. -/
def rollCore (l : Nat) (q : Core) : Core :=
  let mine := launchOf (q.slots.get 0) == some l
  let pairUp := fun (p : Pair) =>
    let v := q.slots.get p.slot
    if launchOf v = some l then
      (if v.live then some { p with since := 0, print := 0, buffer := [], checkpoint := v, clear := false, fed := [] } else none)
    else some p
  { q with
    chain := if mine then q.chainBank else q.chain
    pair := q.pair.bind pairUp
    shadows := q.shadows.filterMap fun h =>
      if launchOf h.task = some l then h.check.map fun b => { h with task := b, chain := h.chainCheck } else some h }

/-- A launch's saved tasks go back to their checkpoints. -/
def rollSaved (l : Nat) (x : Context) : Context :=
  { x with saved := x.saved.filterMap fun t =>
      if launchOf t.task = some l then t.check.map fun b => { t with task := b, chain := t.chainCheck, waits := none } else some t }

/-- The entries that the checkpoints of a launch's saved and shadow tasks hold are reserved again (R270): their saves gave them to
the hold, which is gone. -/
def holdSaved (s : State) (l : Nat) (cores : List Nat) : State :=
  let saved := (contextAt s (l / 1024)).saved.filterMap fun t =>
    if launchOf t.task = some l then t.check.map fun b => (t.core, b) else none
  let shadows := cores.flatMap fun c => (coreAt s c).shadows.filterMap fun h =>
    if launchOf h.task = some l then h.check.map fun b => (c, b) else none
  (saved ++ shadows).foldl (fun s (c, b) => holdAgain s (hallOf c) b) s

/-- The slot files of a launch's rooms go back to their checkpoints. -/
def rollFiles (s : State) (l : Nat) (r : Launch) : State :=
  r.ckTensors.foldl (fun s (room, file) => onRoom s room fun q =>
    let others := q.tensors.filter fun e => e.1 / 64 != l / 1024
    { q with tensors := file.foldl (fun t (k, d) => tput t k d) others }) s

/-- A gang goes back to its checkpoints (R366). -/
def rollGang (s : State) (l : Nat) (r : Launch) : State :=
  let s := r.taken.foldl (fun s (g, n) => (dropRef s g n).1) s
  let cores := (launchRooms r).flatMap coresOf
  let s := holdSaved ((gangSlots r).foldl (rollSlot l) s) l cores
  let s := cores.foldl (fun s c => onCore s c (rollCore l)) s
  let s := onContext (rollFiles s l r) (l / 1024) (rollSaved l)
  let s := onLaunch s l fun r => { r with
    barriers := r.ckBarriers, keptTasks := [], taken := [], rollbacks := r.rollbacks + 1 }
  post s (cores.map fun c => .prefetcherFill c)

/-- SUPERSTEP_ROLLBACK (R366): as one operation of the gang, twice at most in a superstep. -/
def superstepRollbackAct (ctx record : Nat) : M Unit := do
  let s ← get
  let l := launchKey ctx record
  match launchAt s l with
  | none => pure ()
  | some r =>
    if r.mode ≠ 1 ∨ 2 ≤ r.rollbacks then pure ()
    else if (gangBanks s l r).any bankFails || (launchRooms r).any fun q => (roomAt s q).log.any fun e => e.launch == l && e.lost then
      failRollback l r
    else do
      dropCommands l r.seq (launchRooms r)
      modify fun s => (launchRooms r).foldl (fun s room => discardHold (restoreWords s l room) l room) s
      match launchAt (← get) l with
      | none => pure ()
      | some r => do
        r.keptTasks.reverse.forM (returnEntry l r)
        modify fun s => rollGang s l r

/-- SUPERSTEP_ROLLBACK (R366). -/
def execSuperstepRollback (ctx record : Nat) (s : State) : Host.Outcome State Fault Refusal :=
  event (.superstepRollback ctx record) s (superstepRollbackAct ctx record)

/-! ### SSBAR and SSQRY (R397, R398) -/

/-- SSBAR (R397): an arrival at the commit, which is a release at house scope. -/
def execSsbar (s : State) : Host.Outcome State Fault Refusal :=
  insn .ssbar s (do
    let s ← get
    match gangOf s (slotAt s s.cur.1 s.cur.2) with
    | none => trap 0x0D 0 0 1
    | some (l, r) => do
      compareFirst
      released .house (arriveCommit l r .bar (do
        acquire .house
        return .seq)))

/-- The word of SSQRY (Table 27.5). -/
def ssWord (s : State) (c : Nat) (v : Slot) : XWord :=
  let cellar := cellarUsed (roomAt s (roomOf c)) % 2 ^ 17
  match gangOf s v with
  | none => BitVec.ofNat 64 cellar
  | some (_, r) => BitVec.ofNat 64 (r.seq % 2 ^ 32 * 2 ^ 32 + r.rollbacks % 4 * 2 ^ 24 + r.mode % 4 * 2 ^ 22 + cellar)

/-- SSQRY (R398). -/
def execSsqry (d : Reg) (s : State) : Host.Outcome State Fault Refusal :=
  insn (.ssqry d) s (do
    let s ← get
    wx d (ssWord s s.cur.1 (slotAt s s.cur.1 s.cur.2))
    return .seq)

end Sys2Proof.Machine
end

