-- ==== Sys2Proof/Machine/Host.lean ====
section
/-! DEFINITION. The host port (R232, R233, R255, R271 to R273, R332 to R343, R347, R369, R370): the foundation's registers,
contexts and regions, submission rings, the context switch, messages and keys. -/

namespace Sys2Proof.Machine

open Sys2Proof

/-! ### Contexts (R232, R233, R377) -/

/-- The state with a dword of the context table written. -/
def putContextDword (s : State) (ctx k : Nat) (v : XWord) : State :=
  { s with contextTable := tset 0 s.contextTable (8 * ctx + k) v }

/-- Whether a descriptor keeps every limit of Table 14.2. -/
def descriptorValid (s : State) (ctx : Nat) : Bool :=
  let d := fun k => (contextDword s ctx k).toNat
  d 0 % 256 == 0 && d 1 % 4096 == 0 && d 2 / 2 ^ 42 == 0 && d 2 % 2 ^ 32 != 0 && d 3 / 2 ^ 29 == 0 && bitsOf (d 3) 15 12 == 0 &&
    decide (0 < ctxCount s ctx) && decide (ctxFirst s ctx + ctxCount s ctx ≤ 4096) && d 4 / 2 ^ 32 == 0 && d 6 == 0

/-- The state after a host write of dword 5 of a free entry (R233, R377): the context is live, or the write is refused. -/
def createContext (s : State) (ctx : Nat) (v : XWord) : State :=
  if contextLive s ctx then s
  else if v = 1 ∧ descriptorValid s ctx then
    onContext (putContextDword s ctx 5 1) ctx fun _ => { Context.reset with mapAck := mapVersion s }
  else postEvent s 9 ctx ctx 0 1

/-- CONTEXT_CREATE (R233). -/
def execContextCreate (ctx : Nat) (s : State) : Host.Outcome State Fault Refusal :=
  event (.contextCreate ctx) s (modify fun s => if ctx < 4096 then createContext s ctx 1 else s)

/-- Whether a launch of a context runs, or is saved. -/
def contextRuns (s : State) (ctx : Nat) : Bool := s.launches.any fun (l, r) => l / 1024 == ctx && !r.rooms.isEmpty

/-- Whether an entry's page lies in a region's ranges. -/
def ofRegion (s : State) (g : Nat) (e : TlbEntry) : Bool :=
  let inRange := fun (lo len : Nat) => decide (lo % 2 ^ 56 ≤ 65536 * e.va) && decide (65536 * e.va < lo % 2 ^ 56 + len)
  e.ctx == regionCtx s g && (inRange (regionBase s g).toNat (regionLen s g) ||
    inRange (regionDword s g 2).toNat (32 * 2 ^ regionIc s g))

/-- The entries of a region's index that are at hand become free ones, and no entry is owed (R273). -/
def clearIndex (s : State) (g : Nat) : State :=
  let known := ((indexOf s g).map SealedEntry.place).filter fun i => (indexPage s g i).isSome
  known.foldl (fun s i => writeEntry s g i) { s with
    indexes := tdel s.indexes g, indexOwed := s.indexOwed.filter fun e => e.1 != g }

/-- A region is gone (R273): its index, and with it every object and deferred release. -/
def dropRegion (s : State) (g : Nat) : State :=
  let s := clearIndex s g
  { s with
  regionTable := tdel s.regionTable (8 * g + 5)
  sealedPages := s.sealedPages.filter fun e => !ofRegion s g e
  deferred := s.deferred.filter fun e => e.1 != g }

/-- What the rooms, the cores and the foundation held of a context that is destroyed. -/
def dropContext (s : State) (ctx : Nat) : State :=
  let s := (regionsOf s ctx).foldl dropRegion s
  { s with
    contextTable := tdel (tdel s.contextTable (8 * ctx + 5)) (8 * ctx + 7)
    contexts := tdel s.contexts ctx
    runtime := s.runtime.filter fun e => e.launch / 1024 != ctx
    launches := s.launches.filter fun e => e.1 / 1024 != ctx
    cores := s.cores.map (fun (c, q) => (c, { q with owner := if q.owner = some ctx then none else q.owner }))
    rooms := s.rooms.map (fun (r, q) => (r, { q with
      tensors := q.tensors.filter fun e => e.1 / 64 != ctx, window := q.window.filter fun c => c.ctx != ctx })) }

/-- The state after a host write that clears VAL (R233): accepted while no launch of the context runs and no save frame of it
is in use. -/
def destroyContext (s : State) (ctx : Nat) : State :=
  if !contextLive s ctx then s
  else if contextRuns s ctx || !(contextAt s ctx).saved.isEmpty then postEvent s 9 ctx ctx 0 1
  else repostStarts (dropContext s ctx)

/-- CONTEXT_DESTROY (R233). -/
def execContextDestroy (ctx : Nat) (s : State) : Host.Outcome State Fault Refusal :=
  event (.contextDestroy ctx) s (modify fun s => destroyContext s ctx)

/-! ### Sealed regions (R271 to R273) -/

/-- Whether a region descriptor keeps every limit of Table 16.1, and its key is that of its live context. -/
def regionValid (s : State) (g : Nat) : Bool :=
  let d := fun k => (regionDword s g k).toNat
  let out := decide (d 2 < d 0) || decide (d 0 + d 1 ≤ d 2)
  d 0 % 2 ^ 21 == 0 && d 1 % 2 ^ 21 == 0 && decide (d 1 ≤ 2 ^ 39) && d 2 % 2 ^ 21 == 0 && out && d 3 / 2 ^ 42 == 0 &&
    bitsOf (d 3) 31 6 == 0 && decide (8 ≤ regionIc s g) && decide (regionIc s g ≤ 32) && d 6 / 2 ^ 12 == 0 && d 7 == 0 &&
    contextLive s (regionCtx s g) && regionKey s g == ctxKey s (regionCtx s g)

/-- The state after a host write of dword 5 of a region's descriptor that sets VAL (R271): the region is declared with an empty
index, or the write is refused. -/
def declareRegion (s : State) (g : Nat) (v : XWord) : State :=
  if regionDeclared s g ∧ v = 1 then s
  else if regionDeclared s g then postEvent s 9 (regionCtx s g) g 0 2
  else if v = 1 ∧ regionValid s g then { s with
    regionTable := tset 0 s.regionTable (8 * g + 5) 1, indexes := tdel s.indexes g }
  else postEvent s 9 (regionCtx s g) g 0 2

/-- REGION_DECLARE (R271). -/
def execRegionDeclare (region : Nat) (s : State) : Host.Outcome State Fault Refusal :=
  event (.regionDeclare region) s (modify fun s => if region < 256 then declareRegion s region 1 else s)

/-- The state after a host write that clears a region's VAL (R273): accepted while no launch of its context runs. -/
def destroyRegion (s : State) (g : Nat) : State :=
  if !regionDeclared s g then s
  else if contextRuns s (regionCtx s g) then postEvent s 9 (regionCtx s g) g 0 2
  else dropRegion s g

/-- REGION_DESTROY (R273). -/
def execRegionDestroy (region : Nat) (s : State) : Host.Outcome State Fault Refusal :=
  event (.regionDestroy region) s (modify fun s => destroyRegion s region)

/-! ### Room images (R255) -/

/-- The address of a room's image. -/
def imageAddress (s : State) (ctx room : Nat) : XWord :=
  ctxSave s ctx + BitVec.ofNat 64 (4096 * ctxFrames s ctx + 8720 * 1024 * (room - ctxFirst s ctx))

/-- Bits as bytes, the first in bit 0 of the first byte. -/
def bitBytes (bit : Nat → Bool) (n : Nat) : List Byte :=
  (List.range n).map fun i => BitVec.ofNat 8 (((List.range 8).map fun j => (bit (8 * i + j)).toNat * 2 ^ j).sum)

/-- A core's area of an image: data, V and F of its slice. -/
def areaBytes (s : State) (pr i : Nat) : List Byte :=
  let word := fun w => vaultAt s pr (i * 2 ^ 19 + 4 * w)
  ((List.range (2 ^ 17)).flatMap fun w => bytesOfNat 4 (word w).data.toNat) ++
    bitBytes (fun w => (word w).v) (2 ^ 14) ++ bitBytes (fun w => (word w).f) (2 ^ 14)

/-- The image of a room (R255): the spec gives no layout of the command-window block and of the barrier states, whose bytes
are free (log entry 22). `stair` is the stair record as it stands. The digest is in the last 64 bytes of the third block
(R369). -/
def imageBytes (s : State) (ctx room pr : Nat) (stair : List Byte) : List Byte :=
  let file := (List.range 64).flatMap fun t => dwords (tensorAt s room ctx t)
  let free := fun (at_ n : Nat) => (List.range n).map fun i => Config.freeByte s.tick (2 ^ 70 + 2 ^ 32 * room + at_ + i)
  let head := file ++ stair ++ free 8192 4032
  let tail := free 12288 4096 ++ (List.range 16).flatMap (areaBytes s pr)
  head ++ sha512 (head ++ tail) ++ tail

/-- The vault offsets of a physical room whose words are listed. -/
def listedOffsets (s : State) (pr : Nat) : List Nat :=
  let own := (s.vault.map Prod.fst).filterMap fun k =>
    if k / 2 ^ 21 = pr ∧ (spareOf s pr (4 * (k % 2 ^ 21))).isNone then some (4 * (k % 2 ^ 21)) else none
  let spare := (List.range 32).flatMap fun i =>
    let e := (repairWord s pr i).toNat
    let off := e / 2 ^ 12 % 16 * 2 ^ 19 + e % 4096 * 128
    if spareOf s pr off = some i then (List.range 32).map fun w => off + 4 * w else []
  own ++ spare

/-- What a room's image records. -/
def imageOf (s : State) (ctx room pr : Nat) (idle : Table Slot) : RoomImage :=
  let q := roomAt s room
  let mine := fun (l : Nat) => l / 1024 == ctx
  { idle := idle
    words := (listedOffsets s pr).foldl (fun t o => tput t o (vaultAt s pr o)) []
    tensors := q.tensors.filter fun e => e.1 / 64 == ctx
    window := q.window.filter fun c => c.ctx == ctx
    left := q.left.filter fun c => mine c.launch
    nextId := q.nextId.filter fun e => mine e.1
    mappings := (coresOf room).map fun c => (c, (coreAt s c).mappings)
    partitions := (coresOf room).map fun c => (c, (coreAt s c).partition) }

/-- A room without what its image has recorded. -/
def roomSaved (ctx : Nat) (q : Room) : Room := { q with
  tensors := q.tensors.filter fun e => e.1 / 64 != ctx
  window := q.window.filter fun c => c.ctx != ctx
  left := q.left.filter fun c => c.launch / 1024 != ctx
  nextId := q.nextId.filter fun e => e.1 / 1024 != ctx }

/-! ### The context switch (R254, R255, R369) -/

/-- Waits for a room or a save frame. -/
def waitForRoom {α : Type} : M α := throw (.engine noHall none [])

/-- Waits for what hearths or laundries are at, which they come to the end of by themselves. -/
def waitForEngines {α : Type} : M α := throw (.later [])

/-- The task slots and shadow slots of a context on a core are saved (Table 14.12). -/
def saveSlots (ctx c : Nat) : List (Fin 4) → M Unit
  | [] => return ()
  | k :: t => do
    let s ← get
    if (slotAt s c k).live && (slotAt s c k).ctx == ctx && !isSecond s c k then do
      if !(← saveSlot c k none true) then waitForRoom
    saveSlots ctx c t

/-- Shadow slots are saved to frames marked not started (Table 14.12). -/
def saveShadows (c : Nat) : List Shadow → M Unit
  | [] => return ()
  | h :: t => do
    match freeFrame (← get) h.task.ctx with
    | none => waitForRoom
    | some f => do
      saveTask c h.task h.check h.chain h.chainCheck f none false true
      modify fun s => onCore s c fun q => { q with shadows := q.shadows.filter fun x => x != h }
      saveShadows c t

/-- The slots of a core that hold no task and stay in a launch of a context. -/
def idleSlots (s : State) (ctx c : Nat) : Table Slot :=
  taskSlots.filterMap fun k =>
    let v := slotAt s c k
    if !v.live && v.ctx == ctx && v.launch.isSome then some (4 * c + k.val, v) else none

/-- The tasks of a context on cores are saved: slots that stay in a launch without one are given back. -/
def saveCores (ctx : Nat) : List Nat → M (Table Slot)
  | [] => return []
  | c :: t => do
    let idle := idleSlots (← get) ctx c
    saveSlots ctx c taskSlots
    saveShadows c ((coreAt (← get) c).shadows.filter fun h => h.task.ctx == ctx)
    modify fun s => onCore s c fun q => { q with slots := (List.finRange 4).foldl (fun v k =>
      if k ≠ 3 ∧ !(q.slots.get k).live ∧ (q.slots.get k).ctx = ctx then v.set k (freed (q.slots.get k)) else v) q.slots }
    return idle ++ (← saveCores ctx t)

/-- A context's commands of a hearth come to a granule or between commands (R216): a running one is stopped at its granule,
or it ends first, once its products have returned. -/
def settleHearth (ctx room : Nat) : M Unit := do
  let s ← get
  let out := (roomAt s room).posted.any fun p => p.launch / 1024 == ctx
  match runningOf s room with
  | some q =>
    if q.ctx ≠ ctx then (if out then waitForEngines else pure ())
    else if splittable q && !out then splitAt room q.steps q
    else if q.posted = 0 ∧ q.code = 0 ∧ !out then do
      retireCommand room q
      match runningOf (← get) room with
      | some _ => waitForEngines
      | none => pure ()
    else waitForEngines
  | none => if out then waitForEngines else pure ()

/-- The dirty words of a room's mapped ranges are written back (R141). -/
def settleMappings (room : Nat) : List Nat → M Unit
  | [] => return ()
  | c :: t => do
    let s ← get
    backOrDiscard c 3 ((coreAt s c).mappings.flatMap (dirtyWords s room))
    settleMappings room t

/-- Saves what a context has in a room (R255): its image goes to memory and is recorded, and the room is free of it. -/
def saveRoom (ctx room : Nat) (idle : Table Slot) : M Unit := do
  settleHearth ctx room
  settleMappings room (coresOf room)
  let s ← get
  match physicalRoom s room with
  | none => pure ()
  | some pr => do
    let hall := foundationHall s ctx
    let a := imageAddress s ctx room
    let (stair, _) ← engineRead hall ctx (a + 4096) 4096
    modify fun s => (listedOffsets s pr).foldl (fun s o => (checkedAt s room pr o).2) s
    let s ← get
    engineWrite hall ctx a (imageBytes s ctx room pr stair)
    modify fun s =>
      let s := onContext s ctx fun x => { x with images := tput x.images room (imageOf s ctx room pr idle) }
      let s := (coresOf room).foldl (fun s c => onCore s c fun q => { q with mappings := [] }) s
      onRoom s room (roomSaved ctx)

/-- The rooms that a context has state in: those of its running launches, and those whose windows hold its commands. -/
def contextRooms (s : State) (ctx : Nat) : List Nat :=
  let runs := s.launches.flatMap fun (l, r) => if l / 1024 = ctx then r.rooms else []
  let windows := s.rooms.filterMap fun (n, q) => if q.window.any (fun c => c.ctx == ctx) then some n else none
  ascending (runs ++ windows)

/-- Laundry requests of a context complete before its save (Table 14.12). -/
def settleLaundries (s : State) (ctx : Nat) : Option Nat :=
  (s.halls.find? fun (_, h) => h.rings.any fun r => r.ctx == ctx && !r.req.isEmpty).map Prod.fst

/-- Saves rooms of a context, with the tasks on their cores. -/
def saveRooms (ctx : Nat) : List Nat → M Unit
  | [] => return ()
  | room :: t => do
    let idle ← saveCores ctx (coresOf room)
    saveRoom ctx room idle
    saveRooms ctx t

/-- A context is switched out (R255), its deferred releases performed (R280). -/
def saveContext (ctx : Nat) : M Unit := do
  let s ← get
  if !contextLive s ctx || (contextAt s ctx).switchedOut then pure ()
  else match settleLaundries s ctx with
    | some _ => waitForEngines
    | none => do
      saveRooms ctx (contextRooms s ctx)
      modify fun s => releaseDeferred ctx (releasesLeft s) s
      modify fun s => repostStarts (onContext s ctx fun x => { x with switchedOut := true })

/-- A room image checked against its digest (R369): 0, or the reason why it cannot be restored, and the image's bytes. -/
def readImage (ctx room : Nat) : M (Nat × List Byte) := do
  let s ← get
  let (bs, bad) ← engineRead (foundationHall s ctx) ctx (imageAddress s ctx room) (8720 * 1024)
  let rest := bs.take 12224 ++ bs.drop 12288
  return (if bad then 4 else if sha512 rest = (bs.drop 12224).take 64 then 0 else 3, bs)

/-- A context's images, or the first reason why one cannot be restored. -/
def readImages (ctx : Nat) : List Nat → M (Nat × Table (List Byte))
  | [] => return (0, [])
  | room :: t => do
    let (code, bs) ← readImage ctx room
    if code ≠ 0 then return (code, [])
    else do
      let (code, rest) ← readImages ctx t
      return (code, (room, bs) :: rest)

/-- The words of a core's area from its data, V and F bytes, eight to a byte of each map, that are not as at reset: V and F as saved,
D = 0 (Table 14.12). -/
def areaWords : Nat → List Byte → List Byte → List Byte → Table VaultWord
  | base, v :: vs, f :: fs, ds =>
    ((List.range 8).filterMap fun i =>
      let w : VaultWord := ⟨BitVec.ofNat 32 (fieldAt ds (4 * i) 4), v.getLsbD i, false, f.getLsbD i, none, false⟩
      if w = VaultWord.reset then none else some (base + 4 * i, w)) ++ areaWords (base + 32) vs fs (ds.drop 32)
  | _, _, _, _ => []

/-- The vault words that a room image has (R255). -/
def imageWords (bs : List Byte) : Table VaultWord :=
  (List.range 16).flatMap fun i =>
    let area := bs.drop (2 ^ 14 + 557056 * i)
    areaWords (2 ^ 19 * i) ((area.drop (2 ^ 19)).take (2 ^ 14)) ((area.drop (2 ^ 19 + 2 ^ 14)).take (2 ^ 14)) area

/-- The slot file that a room image has. -/
def imageFile (ctx : Nat) (bs : List Byte) : Table TensorSlot :=
  (List.range 64).filterMap fun t =>
    let d := (List.range 8).map fun k => BitVec.ofNat 64 (fieldAt bs (64 * t + 8 * k) 8)
    if d = noTensor then none else some (64 * ctx + t, ⟨d⟩)

/-- A vault's words as an image has them (Table 14.12); a word that was saved poisoned still is. -/
def reloadVault (s : State) (pr : Nat) (words marks : Table VaultWord) : State :=
  let s := (listedOffsets s pr).foldl (fun s o => putVault s pr o VaultWord.reset) s
  let s := words.foldl (fun s (o, w) => putVault s pr o w) s
  marks.foldl (fun s (o, w) => if w.poison then putVault s pr o { vaultAt s pr o with poison := true } else s) s

/-- A core of a restored room. -/
def reloadCore (ctx : Nat) (m : RoomImage) (s : State) (c : Nat) : State :=
  onCore s c fun q => { q with
    owner := some ctx, partition := tget 0 m.partitions c, mappings := tget [] m.mappings c
    slots := taskSlots.foldl (fun (v : Vector Slot 4) (k : Fin 4) => match tfind m.idle (4 * c + k.val) with
      | some w => v.set k { w with wait := none }
      | none => v) (q.slots.set 3 { q.slots.get 3 with ctx := ctx }) }

/-- A room is reloaded from its image (R255): vault and slot file as the bytes in memory have them, the rest as it was recorded
(log entry 22). -/
def reloadRoom (ctx : Nat) (images : Table RoomImage) (s : State) (e : Nat × List Byte) : State :=
  let (room, bs) := e
  match physicalRoom s room, tfind images room with
  | some pr, some m =>
    let s := reloadVault s pr (imageWords bs) m.words
    let s := (coresOf room).foldl (reloadCore ctx m) s
    let s := onRoom s room fun q => { q with
      tensors := (imageFile ctx bs).foldl (fun t (k, d) => tput t k d) q.tensors
      window := q.window ++ m.window, left := q.left ++ m.left
      nextId := m.nextId.foldl (fun t (l, n) => tput t l n) q.nextId }
    let s := onContext s ctx fun x => { x with images := tdel x.images room, absent := x.absent.filter fun r => r != room }
    post s ([.commandStart room] ++ (coresOf room).map fun c => .prefetcherFill c)
  | _, _ => s

/-- Whether a context may have its rooms back: no launch of another context runs on their cores. -/
def roomsFree (s : State) (ctx : Nat) (rooms : List Nat) : Bool :=
  rooms.all fun room => (coresOf room).all fun c =>
    (launchesIn s room).all (fun e => e.1 / 1024 == ctx) && ownerAllows s ctx c

/-- The reports that a launch's tasks have made, combined. -/
def reportsOf (r : Launch) : Report :=
  combinedReport ((r.chimney.filter fun e => e.1 / 2 ^ 20 == Tier.core.code).flatMap Prod.snd)

/-- The launches of a lost context complete with LOST = 1 (R369). -/
def loseLaunches (ctx : Nat) : List (Nat × Launch) → M Unit
  | [] => return ()
  | (l, r) :: t => do
    if l / 1024 = ctx then completeLaunch l { r with lost := true } (reportsOf r)
    loseLaunches ctx t

/-- The whole context is lost (R369): its record in the context table, the event and the shutter; it is never restarted. -/
def loseContext (ctx code : Nat) : M Unit := do
  loseLaunches ctx (← get).launches
  modify fun s =>
    let s := putContextDword s ctx 7 (BitVec.ofNat 64 (2 ^ 63 + code))
    let s := postEvent s 4 ctx 0 0 (BitVec.ofNat 64 code)
    let s := fireShutter s 4
    { onContext s ctx (fun x => { x with saved := [], images := [] }) with
      halls := s.halls.map (fun (h, q) => (h, { q with
        rings := q.rings.filter (fun r => r.ctx != ctx), kicks := q.kicks.filter (fun k => k.ctx != ctx) })) }

/-- A context is switched back in (R255, R369): its images are checked, and every room that is placed is reloaded. -/
def restoreContext (ctx : Nat) : M Unit := do
  let s ← get
  let x := contextAt s ctx
  if !contextLive s ctx || !x.switchedOut || (contextDword s ctx 7).msb then pure ()
  else do
    let rooms := (x.images.map Prod.fst).filter fun r => (physicalRoom s r).isSome
    let (code, images) ← readImages ctx rooms
    if code ≠ 0 then loseContext ctx code
    else if !roomsFree s ctx rooms then waitForRoom
    else modify fun s =>
      let s := sequenced s
      let s := images.foldl (reloadRoom ctx x.images) s
      let s := onContext s ctx fun x => { x with
        switchedOut := false, suspended := none
        saved := x.saved.map fun t => { t with switched := t.switched && (physicalRoom s (roomOf t.core)).isNone }
        absent := (x.images.map Prod.fst).filter fun r => !rooms.contains r }
      post (repostStarts s) ((s.halls.filter fun (_, h) =>
        h.rings.any (fun r => r.ctx == ctx) || h.kicks.any (fun k => k.ctx == ctx)).map fun (h, _) => .laundryKickAccept h)

/-! ### Submission rings (R339 to R341) -/

/-- The step that a ring's next entry asks for. -/
def nextEntry (s : State) (i : Nat) : List Due :=
  let r := ringAt s i
  if !served s r then []
  else match (readEntryAt s r).op with
    | 2 => [.submitSave i]
    | 3 => [.submitRestore i]
    | 4 => [.submitMapack i]
    | _ => [.submitArm i]

/-- The completion of a ring's entry (R340): the record, C, the interrupt. -/
def completeEntry (s : State) (i : Nat) (result : XWord) (status op : Nat) : State :=
  let r := ringAt s i
  let bs := bytesOfNat 8 result.toNat ++ bytesOfNat 4 r.c.toNat ++ bytesOfNat 1 status ++ bytesOfNat 1 op ++ [0, 0]
  let s := pokeMem s 0 0 ((r.cbase.toNat + 16 * (r.c.toNat % 2 ^ r.lc)) % 2 ^ 52) bs
  let s := onSubRing s i fun r => { r with c := r.c + 1, r := r.c + 1, entry := none }
  let s := if r.ie then interrupt s r.vec else s
  post s (nextEntry s i)

/-- The next entry of a ring is taken (R341), and kept. -/
def taken (i : Nat) (e : SubEntry) (s : State) : State := onSubRing s i fun r => { r with r := r.c + 1, entry := some e }

/-- An entry that is taken and must wait (R341, R412). -/
def takenEntry (i : Nat) (e : SubEntry) (hall : Nat) (report : Option (Nat × XWord × Nat)) (due : List Due) (d : Due) (s : State) : State :=
  let s := match report with
    | some (ctx, addr, cause) => postEvent s 15 ctx hall addr (BitVec.ofNat 64 cause)
    | none => s
  blockOn (taken i e s) hall due d

/-- Serves a ring's next entry, if it asks for the op (R339): it is taken, which is a foundation event (R385), and completed once the op
is done. An op that must wait leaves its entry taken. -/
def serveEntry (op i : Nat) (d : Due) (act : SubRing → SubEntry → M XWord) : M Unit := do
  let s ← get
  let r := ringAt s i
  let e := readEntryAt s r
  if !served s r then pure ()
  else if !e.valid then modify fun s => completeEntry (sequenced s) i 0 1 e.op
  else if e.op ≠ op then pure ()
  else do
  if r.entry.isNone then set (sequenced s)
  match ← attempt (act r e) with
    | .ok w => modify fun s => completeEntry s i w 0 op
    | .error (.engine hall report due) => modify (takenEntry i e hall report due d)
    | .error (.later due) => modify fun s => post (taken i e s) (due ++ [d])
    | .error (.retry first) => modify fun s => afterFirst (taken i e s) first d
    | .error x => throw x

/-- SUBMIT_ARM (R339): also the completion of an invalid entry. -/
def execSubmitArm (ring : Nat) (s : State) : Host.Outcome State Fault Refusal :=
  event (.submitArm ring) s (serveEntry 1 ring (.submitArm ring) fun r e => do
    if !contextLive (← get) r.ctx then return recordWord (← get) r.ctx e.record 9 false
    else do
      let code ← armRecord r.ctx e.record
      return recordWord (← get) r.ctx e.record code false)

/-- SUBMIT_SAVE (R255, R339). -/
def execSubmitSave (ring : Nat) (s : State) : Host.Outcome State Fault Refusal :=
  event (.submitSave ring) s (serveEntry 2 ring (.submitSave ring) fun r _ => do
    saveContext r.ctx
    return 0)

/-- SUBMIT_RESTORE (R255, R339): a suspended context stays suspended (R378). -/
def execSubmitRestore (ring : Nat) (s : State) : Host.Outcome State Fault Refusal :=
  event (.submitRestore ring) s (serveEntry 3 ring (.submitRestore ring) fun r _ => do
    if (contextAt (← get) r.ctx).suspended.isNone then restoreContext r.ctx
    return 0)

/-- The tasks of a context that stays in its rooms are dispatched again. -/
def resumeDispatch (s : State) (ctx : Nat) : State :=
  post (repostStarts s) ((s.cores.filter fun (_, q) => q.owner == some ctx).flatMap fun (c, _) =>
    .prefetcherFill c :: taskSlots.map fun k => .promotion c k)

/-- SUBMIT_MAPACK (R378): a suspended context is acknowledged and restored by a version that is late enough; one that is not
suspended is acknowledged as by itself. -/
def execSubmitMapack (ring : Nat) (s : State) : Host.Outcome State Fault Refusal :=
  event (.submitMapack ring) s (serveEntry 4 ring (.submitMapack ring) fun r e => do
    let s ← get
    match (contextAt s r.ctx).suspended with
    | none => do
      set (acknowledge s r.ctx e.ver)
      return 0
    | some v =>
      if mapVersion s ≤ e.ver ∧ v ≤ e.ver then do
        modify fun s => resumeDispatch (onContext s r.ctx fun x => { x with mapAck := e.ver, suspended := none }) r.ctx
        restoreContext r.ctx
        return 0
      else return 0)

/-- A doorbell (R341). -/
def doorbell (s : State) (i : Nat) (w : XWord) : State :=
  let r := ringAt s i
  if w < r.w then postEvent s 8 r.ctx i 0 w
  else if 2 ^ r.lc < (w - r.r).toNat then
    let t := onSubRing s i fun r => { r with w := w, ov := true }
    if r.ov then t else interrupt t r.vec
  else
    let idle := r.c == r.w
    let t := onSubRing s i fun r => { r with w := w }
    if idle then post t (nextEntry t i) else t

/-- SUBMISSION_DOORBELL (R341). -/
def execSubmissionDoorbell (ring : Nat) (w : BitVec 64) (s : State) : Host.Outcome State Fault Refusal :=
  event (.submissionDoorbell ring w) s (modify fun s => if ring < 64 then doorbell s ring w else s)

/-- RST of a ring (R341): the rest of it is discarded. -/
def resetRing (s : State) (i : Nat) : State :=
  resumeDispatch (onSubRing s i fun r => { r with r := r.w, c := r.w, ov := false, entry := none }) (ringAt s i).ctx

/-- SUBMISSION_RESET (R341). -/
def execSubmissionReset (ring : Nat) (s : State) : Host.Outcome State Fault Refusal :=
  event (.submissionReset ring) s (modify fun s => if ring < 64 then resetRing s ring else s)

/-- Dword 2 of a ring's registers as the host writes it (Table 20.5). -/
def writeRingControl (s : State) (i : Nat) (v : XWord) : State :=
  let f := fun hi lo => bitsOf v.toNat hi lo
  let s := onSubRing s i fun r => { r with
    ctx := f 31 20, vec := f 19 9, ie := v.getLsbD 8, en := v.getLsbD 5, lc := f 4 0 }
  if v.getLsbD 7 then resetRing s i else post s (nextEntry s i)

/-! ### Events (R342) -/

/-- Dword 1 of the event ring's registers as the host writes it (Table 20.8): a 1 in EEN begins a count anew, a 1 in EOV
clears it. -/
def writeEventControl (s : State) (v : XWord) : State :=
  let r := s.eventRing
  { s with eventRing := { r with
      evec := bitsOf v.toNat 19 9, eov := r.eov && !v.getLsbD 8, eie := v.getLsbD 7, een := v.getLsbD 6
      elc := bitsOf v.toNat 3 0, eh := if v.getLsbD 6 then 0 else r.eh, et := if v.getLsbD 6 then 0 else r.et } }

/-- EVENT_RING_ENABLE (R342). -/
def execEventRingEnable (word : BitVec 64) (s : State) : Host.Outcome State Fault Refusal :=
  event (.eventRingEnable word) s (if word.getLsbD 6 then modify fun s => writeEventControl s word else pure ())

/-! ### Messages (R343) -/

/-- The halls that a target word names: a logical hall, or every live one. -/
def targetHalls (s : State) (target : XWord) : List Nat :=
  if target.getLsbD 8 then (List.range 256).filter fun h => !(mapWord s 9 h).msb else [target.toNat % 256]

/-- Whether the foundation refuses a message (R343): its kind is not 2 or 3, or a zero bit of one of the words is set (Table 18.1). -/
def messageBad (word target : XWord) : Bool :=
  let kind := word.toNat / 2 ^ 60
  !(kind == 2 || kind == 3) || bitsOf word.toNat 45 40 != 0 || target.toNat / 2 ^ 9 != 0

/-- A host message is queued for the threshold cores of its halls, or refused (R343). A message of kind 2 has the operations
of its halls that a page refuses tried again (R412). -/
def sendMessage (word target : XWord) : M Unit := do
  let s ← get
  if messageBad word target then set (postEvent s 9 noContext (target.toNat % 256) 0 3)
  else do
    modify fun s => (targetHalls s target).foldl (fun s h =>
      let s := onHall s h fun q => { q with messages := q.messages ++ [word] }
      if word.toNat / 2 ^ 60 = 2 then unblock s (PageWait.forHost h) else s) s
    testEvents

/-- HOST_MESSAGE_MAPPING_DONE (R343). -/
def execHostMessageMappingDone (word target : BitVec 64) (s : State) : Host.Outcome State Fault Refusal :=
  event (.hostMessageMappingDone word target) s (if word.toNat / 2 ^ 60 = 2 then sendMessage word target else pure ())

/-- HOST_MESSAGE_INVALIDATE (R343). -/
def execHostMessageInvalidate (word target : BitVec 64) (s : State) : Host.Outcome State Fault Refusal :=
  event (.hostMessageInvalidate word target) s (if word.toNat / 2 ^ 60 = 3 then sendMessage word target else pure ())

/-! ### Keys (R370) -/

/-- Whether a key may not be retired: it is that of a live context or of a declared region. -/
def keyInUse (s : State) (key : Nat) : Bool :=
  ((List.range 4096).any fun x => contextLive s x && ctxKey s x == key) ||
    (List.range 256).any fun g => regionDeclared s g && regionKey s g == key

/-- The lines that carry a key in accumulation areas, at homes and in mapped ranges. -/
def keyLines (s : State) (key : Nat) : List Nat :=
  let own := s.rooms.flatMap fun (_, q) => q.acc.filterMap fun a => if a.key = key then some a.line else none
  let kept := s.homeParts.filterMap fun (k, l, _, _, _) => if k = key then some l else none
  let maps := s.cores.flatMap fun (_, q) => q.mappings.flatMap fun m => m.homes.filterMap fun (_, h) =>
    if h.key = key then some (h.pa / 128) else none
  ascending (own ++ kept ++ maps)

/-- The flush of a key (R370): partials are combined, dirty words written back, and the lines dropped. -/
def flushKey (s : State) (key : Nat) : State :=
  (keyLines s key).foldl (fun s l => claimLine none (128 * l) 128 (recallLine s key l) key l) s

/-- Whether a place lies under a key. -/
def underKey (key : Nat) : Place → Bool
  | .mem k _ => k == key
  | .vault _ _ => false

/-- Whether an effect that has not reached its home is an access under a key. -/
def accessUnder (key : Nat) : Effect → Bool
  | .store p _ => underKey key p
  | .bring k _ _ _ | .accumulate k _ _ _ _ => k == key
  | .wsig m => underKey key m.payload || underKey key m.signal
  | .rootSwap _ _ cell _ _ _ => underKey key cell
  | _ => false

/-- The release buffer of a pair without the accesses under a key. -/
def bufferWithout (key : Nat) (p : Pair) : Pair :=
  let stay := fun (l : List Effect) => l.filter fun e => !accessUnder key e
  { p with buffer := stay p.buffer, kept := (stay (p.buffer.take p.kept)).length }

/-- The accesses under a key that have not reached their home as its flush begins are refused (R370; log entry 114): those of release
buffers, of what a superstep holds or keeps, and of accepted copies. -/
def refuseKey (s : State) (key : Nat) : State :=
  { s with
    cores := s.cores.map fun (c, q) => (c, { q with pair := q.pair.map (bufferWithout key) })
    rooms := s.rooms.map fun (r, q) => (r, { q with
      hold := q.hold.filter fun h => !accessUnder key h.effect
      acc := q.acc.map fun a => if a.key = key then { a with open_ := [] } else a })
    transfers := s.transfers.map fun t => { t with
      segments := t.segments.filter fun g => !(underKey key g.src || underKey key g.dst) } }

/-- A write of kr.ctl (R370). -/
def retireKey (s : State) (key : Nat) : State :=
  if s.krBusy then s
  else if keyInUse s key then postEvent s 11 noContext 0 0 (BitVec.ofNat 64 key)
  else post (flushKey { refuseKey s key with krBusy := true, krKey := key } key) [.keyFlushComplete]

/-- KEY_RETIRE (R370). -/
def execKeyRetire (key : BitVec 10) (s : State) : Host.Outcome State Fault Refusal :=
  event (.keyRetire key) s (modify fun s => retireKey s key.toNat)

/-- KEY_FLUSH_COMPLETE (R370). -/
def execKeyFlushComplete (s : State) : Host.Outcome State Fault Refusal :=
  event .keyFlushComplete s (modify fun s => { s with krBusy := false })

/-! ### Registers (R334, R339, R342, R343, R370, Tables 26.2 and 26.5) -/

/-- A host write to a ring's registers. -/
def writeRing (s : State) (i k : Nat) (v : XWord) : State :=
  match k with
  | 0 => onSubRing s i fun r => { r with base := v }
  | 1 => onSubRing s i fun r => { r with cbase := v }
  | 2 => writeRingControl s i v
  | 3 => doorbell s i v
  | _ => s

/-- A host write to the context table: dword 5 creates or destroys, and dword 7 is the foundation's. -/
def writeContextTable (s : State) (ctx k : Nat) (v : XWord) : State :=
  match k with
  | 5 => if v.getLsbD 0 then createContext s ctx v else destroyContext s ctx
  | 7 => s
  | _ => putContextDword s ctx k v

/-- A host write to the region table: dword 5 declares or destroys. A declared region keeps to the limits of Table 16.1 (R271). -/
def writeRegionTable (s : State) (g k : Nat) (v : XWord) : State :=
  if k = 5 then (if v.getLsbD 0 then declareRegion s g v else destroyRegion s g)
  else
    let t := { s with regionTable := tset 0 s.regionTable (8 * g + k) v }
    if regionDeclared s g && !regionValid t g then postEvent s 9 (regionCtx s g) g 0 2 else t

/-- A host write to a register of the foundation, by its offset. -/
def writeRegister (s : State) (offset : Nat) (v : XWord) : State :=
  if offset % 8 ≠ 0 then s
  else if 0x1000 ≤ offset ∧ offset < 0x2000 then writeRing s ((offset - 0x1000) / 64) (offset / 8 % 8) v
  else if 0x1_0000 ≤ offset ∧ offset < 0x5_0000 then writeContextTable s ((offset - 0x1_0000) / 64) (offset / 8 % 8) v
  else if 0x5_0000 ≤ offset ∧ offset < 0x5_4000 then writeRegionTable s ((offset - 0x5_0000) / 64) (offset / 8 % 8) v
  else match offset with
    | 0x0000 => { s with hpCtl := v &&& 7 }
    | 0x0040 => retireKey s (v.toNat % 1024)
    | 0x0080 => { s with grace := max 1 (v.toNat % 2 ^ 32) }
    | 0x0100 => { s with budget := max 2000 (min 9000 (v.toNat % 2 ^ 16)) }
    | 0x0200 => { s with eventRing := { s.eventRing with ebase := v } }
    | 0x0208 => writeEventControl s v
    | 0x0218 => { s with eventRing := { s.eventRing with et := v } }
    | 0x0300 => { s with hmMsg := v }
    | _ => s

/-- HOST_REGISTER_WRITE (R334): dword 1 of hm.msg sends the message. -/
def execHostRegisterWrite (offset : Nat) (value : BitVec 64) (s : State) : Host.Outcome State Fault Refusal :=
  event (.hostRegisterWrite offset value) s (
    if offset = 0x0308 then sendMessage s.hmMsg value else modify fun s => writeRegister s offset value)

/-! ### Estate barriers (R347) -/

/-- The slot of another house that an arrival names, beside those of this house. -/
def estateSlot (m : EstateArrival) : Option Nat := m.value.map fun _ => 2 ^ 18 * (m.house + 1) + 4 * m.core + m.slot

/-- A barrier that another house holds, once that house has told of the end of a phase: its result, or its fault code (R122, R347; log
entry 109). -/
def barrierTold (m : EstateArrival) (b : Barrier) : Barrier :=
  { b with
    e := m.code != 0, code := BitVec.ofNat 8 m.code
    result := if m.code ≠ 0 then BitVec.ofNat 64 (2 ^ 63 + m.code % 256) else m.value.getD 0
    phase := !b.phase, done := b.done + 1, slots := [] }

/-- The house that holds a launch's estate barriers (R347). -/
def estateHolder (r : Launch) : Nat := r.estate.foldl min (r.estate.headD 0)

/-- ESTATE_BARRIER_ARRIVAL (R347): counted at the lowest-numbered house of the launch. At another house one of the holder itself tells
that a phase has completed (log entry 109). -/
def execEstateBarrierArrival (m : EstateArrival) (s : State) : Host.Outcome State Fault Refusal :=
  event (.estateBarrierArrival m) s (do
    let l := launchKey m.ctx m.record
    match launchAt (← get) l with
    | none => pure ()
    | some r =>
      let key := barrierKey .estate 0 m.n
      if r.estate.length < 2 ∨ !r.estate.contains m.house then pure ()
      else if estateAbove s r then
        if m.house = estateHolder r then completePhase l key (barrierTold m (barrierAt r key)) else pure ()
      else do
        let _ ← arriveAt l key (estateSlot m) (m.value.map fun v => (partialKey m.house m.core m.slot, v))
          (if m.code = 0 then none else some (BitVec.ofNat 8 m.code)))

end Sys2Proof.Machine
end

