-- ==== Sys2Proof/Machine/Map.lean ====
section
/-! DEFINITION. The map keeper, power and start-up (R345, R372 to R386): withdrawal and placement of units, publications and
their deadlines, the thermostat, the boot sequence. -/

namespace Sys2Proof.Machine

open Sys2Proof

/-! ### Units (R374) -/

/-- A word with one bit written. -/
def withBit (w : XWord) (i : Nat) (b : Bool) : XWord :=
  if b then w ||| BitVec.ofNat 64 (2 ^ i) else w &&& ~~~BitVec.ofNat 64 (2 ^ i)

/-- The state with one bit of a map word written. -/
def putMapBit (s : State) (table index i : Nat) (b : Bool) : State :=
  putMapWord s table index (withBit (mapWord s table index) i b)

/-- The logical room on a physical room, if one is placed there. -/
def logicalRoom (s : State) (pr : Nat) : Option Nat := (List.range 4096).find? fun r => physicalRoom s r == some pr

/-- Whether a physical core is suspect: a suspect pair or a double fault has stopped its issue (R29, R360). -/
def suspectCore (s : State) (pr i : Nat) : Bool := ((logicalRoom s pr).map fun r => (coreAt s (16 * r + i)).halted).getD false

/-- The state with a link's table 6 word written (R372); one that is not live takes the routes over it with it. -/
def putLink (s : State) (l : Nat) (w : XWord) : State :=
  let s := putMapWord s 6 l w
  if w.getLsbD 0 then s
  else (List.range 64).foldl (fun s d =>
    if (mapWord s 8 d).getLsbD 4 ∧ (mapWord s 8 d).toNat % 16 = l then putMapBit s 8 d 4 false else s) s

/-- The words of the map after a unit goes or comes back (Table 26.1). A link that goes reads as one that has not trained; one that
comes back reads as it trained. -/
def mapUnit (s : State) (live : Bool) : DeviceUnit → State
  | .core pr i => putMapBit (putMapBit s 1 pr i live) 1 pr (16 + i) (!live && (suspectCore s pr i || (mapWord s 1 pr).getLsbD (16 + i)))
  | .channel h c => putMapBit s 5 (2 * h + c) 0 live
  | .way h bank way => putMapBit s 4 (2 * h + bank / 4) (16 * (bank % 4) + way) live
  | .link l => putLink s l (if live then tget 0 s.links l else 0)
  | _ => s

/-- Whether a physical hall is live (R372): its threshold core, a way in each of its eight banks, and a channel. -/
def hallLive (s : State) (h : Nat) : Bool :=
  let ways := (List.range 8).all fun b => bitsOf (mapWord s 4 (2 * h + b / 4)).toNat (16 * (b % 4) + 15) (16 * (b % 4)) != 0
  !s.withdrawn.contains (.hall h) && ways && ((mapWord s 5 (2 * h)).getLsbD 0 || (mapWord s 5 (2 * h + 1)).getLsbD 0)

/-- Whether a physical room is live (R372): all its cores, a repair table that has not overflowed, and its hall. -/
def roomLive (s : State) (pr : Nat) : Bool :=
  (mapWord s 1 pr).toNat % 2 ^ 16 == 2 ^ 16 - 1 && !s.withdrawn.contains (.room pr) && hallLive s (pr / 16)

/-! ### Changes (R373, R374) -/

/-- A change is applied to the tables. -/
def applyChange (s : State) : Change → State
  | .withdraw u => mapUnit { s with withdrawn := s.withdrawn.filter (fun v => v != u) ++ [u] } false u
  | .giveBack u => mapUnit { s with withdrawn := s.withdrawn.filter fun v => v != u } true u
  | .repair pr i => putMapWord s 3 (32 * pr + i) ((repairWord s pr i).setWidth 64)

/-- A change that the keeper receives (R373): it waits for the next publication. -/
def receiveChange (s : State) (c : Change) : State := post { s with changes := s.changes ++ [c] } [.mapPublication]

/-- Whether a unit will be withdrawn once the waiting changes are published: the last that names it decides. -/
def leaving (s : State) (u : DeviceUnit) : Bool :=
  s.changes.foldl (fun gone c => if c = .withdraw u then true else if c = .giveBack u then false else gone) (s.withdrawn.contains u)

/-- UNIT_WITHDRAWAL (R374). -/
def execUnitWithdrawal (u : DeviceUnit) (s : State) : Host.Outcome State Fault Refusal :=
  event (.unitWithdrawal u) s (modify fun s => if leaving s u then s else receiveChange s (.withdraw u))

/-- UNIT_RETURN (R373). -/
def execUnitReturn (u : DeviceUnit) (s : State) : Host.Outcome State Fault Refusal :=
  event (.unitReturn u) s (modify fun s => if leaving s u then receiveChange s (.giveBack u) else s)

/-! ### Placement (R375) -/

/-- The contexts that are live. -/
def liveContexts (s : State) : List Nat :=
  s.contextTable.filterMap fun (k, w) => if k % 8 = 5 ∧ w.getLsbD 0 then some (k / 8) else none

/-- Whether a logical room is granted to no context. -/
def ungranted (s : State) (r : Nat) : Bool :=
  (liveContexts s).all fun x => decide (r < ctxFirst s x) || decide (ctxFirst s x + ctxCount s x ≤ r)

/-- Whether a logical room is a reserve room that another may take the place of: it is placed, live and granted to none. -/
def reserveRoom (s : State) (r : Nat) : Bool :=
  ungranted s r && ((physicalRoom s r).map (roomLive s)).getD false

/-- The first of a tier's units that will do: one of the same wing, or of any wing. -/
def nearest (perWing count unit : Nat) (ok : Nat → Bool) : Option Nat :=
  let own := (List.range perWing).map fun i => unit / perWing * perWing + i
  match own.find? fun u => u != unit && ok u with
  | some u => some u
  | none => (List.range count).find? fun u => u != unit && ok u

/-- The reserve room whose physical room a withdrawn logical room takes. -/
def newHome (s : State) (r : Nat) : Option Nat := nearest 256 4096 r (reserveRoom s)

/-- Whether a logical hall's place may be given away: its physical hall is live, and the 16 logical rooms placed there are all
reserve rooms. -/
def reserveHall (s : State) (h : Nat) : Bool :=
  match physicalHall s h with
  | none => false
  | some p => hallLive s p && (List.range 16).all fun i => ((logicalRoom s (16 * p + i)).map (reserveRoom s)).getD false

/-- An absent logical hall is placed on a live physical hall that has no logical hall, if there is one. -/
def returnHall (s : State) (h : Nat) : State :=
  if (physicalHall s h).isSome then s
  else
    let used := (List.range 256).filterMap (physicalHall s)
    match (List.range 256).find? fun p => hallLive s p && !used.contains p with
    | none => s
    | some p => putMapWord s 9 h (BitVec.ofNat 64 p)

/-- A logical hall whose physical hall is not live is placed again, or becomes absent. -/
def settleHall (s : State) (h : Nat) : State :=
  match physicalHall s h with
  | none => s
  | some p =>
    if hallLive s p then s
    else match nearest 16 256 h (reserveHall s) with
      | some g => putMapWord (putMapWord s 9 h (mapWord s 9 g)) 9 g (withBit (mapWord s 9 g) 63 true)
      | none => putMapWord s 9 h (withBit (BitVec.ofNat 64 p) 63 true)

/-- The contexts that have state in a logical room. -/
def contextsIn (s : State) (r : Nat) : List Nat :=
  let runs := s.launches.filterMap fun (l, q) => if q.rooms.contains r then some (l / 1024) else none
  ascending (runs ++ (roomAt s r).window.map Command.ctx)

/-- The tasks on cores are saved, to come back to the same logical cores (R376); one that no frame is free for, or that waits for
what is on its way, goes on in its slot (log entry 78). -/
def saveTasks : List Nat → M Unit
  | [] => return ()
  | c :: t => do
    taskSlots.forM fun k => do
      let s ← get
      if (slotAt s c k).live && !isSecond s c k then
        let _ ← attempt (saveSlot c k none false)
    saveTasks t

/-- A core of a logical room that moves onto the core of a reserve room: the supervisor slot is that of the physical core. -/
def movedCore (old new : Core) : Core := { old with
  slots := old.slots.set 3 { new.slots.get 3 with ctx := (old.slots.get 3).ctx }
  deliveries := new.deliveries, activation := new.activation, resume := new.resume, halted := new.halted
  pair := if old.halted then none else old.pair }

/-- What a logical room's physical room holds moves to that of a reserve room (R376): the vault's words and the cores. -/
def moveRoom (s : State) (r p g q : Nat) : State :=
  let words := (listedOffsets s p).map fun o => (o, vaultAt s p o)
  let s := words.foldl (fun s (o, _) => putVault s p o VaultWord.reset) s
  let s := (listedOffsets s q).foldl (fun s o => putVault s q o VaultWord.reset) s
  let s := words.foldl (fun s (o, w) => putVault s q o w) s
  (List.range 16).foldl (fun s i =>
    putCore (putCore s (16 * r + i) (movedCore (coreAt s (16 * r + i)) (coreAt s (16 * g + i)))) (16 * g + i) Core.reset) s

/-- The contexts of a room that becomes absent are saved there (R376). -/
def saveAbsent (r : Nat) : List Nat → M Unit
  | [] => return ()
  | x :: t => do
    if !(contextAt (← get) x).switchedOut then do
      let idle ← saveCores x (coresOf r)
      saveRoom x r idle
    modify fun s => onContext s x fun v => { v with absent := ascending (r :: v.absent) }
    saveAbsent r t

/-- A logical room whose physical room is not live is placed again, or becomes absent (R375): the table 2 words. -/
def placeRoom (s : State) (r : Nat) : State :=
  match physicalRoom s r with
  | none => s
  | some p =>
    if roomLive s p then s
    else
      let away (w : Nat) := BitVec.ofNat 64 (2 ^ 63 + w)
      match newHome s r with
      | some g =>
        let q := (physicalRoom s g).getD g
        { putMapWord (putMapWord s 2 r (BitVec.ofNat 64 q)) 2 g (away q) with unsettled := s.unsettled ++ [.moved r p g] }
      | none => { putMapWord s 2 r (away p) with unsettled := s.unsettled ++ [.gone r p] }

/-- Runs a step on a logical room that has become absent, whose state is still in its physical room. -/
def atOldPlace (r p : Nat) (act : M Unit) : M Unit := do
  let w := mapWord (← get) 2 r
  modify fun s => putMapWord s 2 r (BitVec.ofNat 64 p)
  act
  modify fun s => putMapWord s 2 r w

/-- A supervisor slot whose boot code has ended enters the firmware's loop, with the registers it has (R399). -/
def enterLoop (s : State) (c : Nat) : State :=
  onSlot s c 3 fun v => { v with live := true, wait := none, delay := 0, hints := [], pc := s.firmware.loop }

/-- The supervisor slot of a core that comes back starts in the firmware's loop. -/
def restartLoop (s : State) (c : Nat) : State :=
  onSlot s c 3 fun v => { Slot.reset with
    live := true, ctx := v.ctx, pc := s.firmware.loop, trap := { TrapRegs.reset with vec := s.firmware.vec } }

/-- What contexts had in a room comes back with it. -/
def reloadAbsent (r : Nat) : List Nat → M Unit
  | [] => return ()
  | x :: t => do
    match tfind (contextAt (← get) x).images r with
    | none => pure ()
    | some m =>
      if (contextAt (← get) x).switchedOut then pure ()
      else do
        let (code, bs) ← readImage x r
        if code ≠ 0 then loseContext x code
        else modify fun s => onContext (reloadRoom x [(r, m)] s (r, bs)) x fun v => { v with
          saved := v.saved.map fun u => if roomOf u.core = r then { u with switched := false } else u }
    reloadAbsent r t

/-- An absent logical room is placed on a live physical room that has no logical room, if there is one; one whose state is
still to be saved waits, and so does a physical room that holds it. -/
def returnRoom (s : State) (r : Nat) : State :=
  let going := s.unsettled.filterMap fun e => match e with
    | .gone q p => some (q, p)
    | _ => none
  if (physicalRoom s r).isSome || going.any fun e => e.1 == r then s
  else
    let used := (List.range 4096).filterMap (physicalRoom s) ++ going.map Prod.snd
    match (List.range 4096).find? fun p => roomLive s p && !used.contains p with
    | none => s
    | some p => { putMapWord s 2 r (BitVec.ofNat 64 p) with unsettled := s.unsettled ++ [.back r] }

/-- What a publication has left to do at a logical room is done (R376). -/
def resettle : Resettlement → M Unit
  | .moved r p g => do
    modify fun s => moveRoom s r p g ((physicalRoom s r).getD p)
    saveTasks (coresOf r)
    modify fun s => post s ((coresOf r).map fun c => .prefetcherFill c)
  | .gone r p => do
    atOldPlace r p (do saveAbsent r (contextsIn (← get) r))
    modify fun s => (coresOf r).foldl (fun s c => putCore s c Core.reset) s
  | .back r => do
    modify fun s => (coresOf r).foldl restartLoop s
    let s ← get
    reloadAbsent r ((liveContexts s).filter fun x => (contextAt s x).absent.contains r)
    modify repostStarts

/-- The rooms of a publication are settled, one after another; what cannot be done yet comes again, and holds nothing else up. -/
def settleRooms : List Resettlement → M Unit
  | [] => return ()
  | e :: t => do
    match ← attempt (resettle e) with
    | .ok _ => pure ()
    | .error x => modify fun s => comeAgain { s with unsettled := s.unsettled ++ [e] } .mapPublication x
    settleRooms t

/-! ### Publication (R373, R376, R377) -/

/-- Whether a publication may begin: a change is due, or version 1 may be formed. -/
def mayPublish (s : State) : Bool :=
  if mapVersion s = 0 then s.bootStep == 5 && allSummaries s else !s.changes.isEmpty

/-- The reserve bits of the placement table, and the counts of the header, as they are published. -/
def publishCounts (s : State) : State :=
  let s := (List.range 4096).foldl (fun s r => putMapBit s 2 r 62 (reserveRoom s r)) s
  let live := (List.range 4096).filter (roomLive s)
  let reserve := (List.range 4096).filter (reserveRoom s)
  putMapWord (putMapWord s 0 2 (BitVec.ofNat 64 live.length)) 0 3 (BitVec.ofNat 64 reserve.length)

/-- Cycles of the time base in a microsecond (R126). -/
def cyclesPerMicro : Nat := 4000

/-- Version v + 1 is in force (R376, R378): in the tables, in every context, and at the host. -/
def publishVersion (s : State) (withdrawn : Bool) : State :=
  let v := (mapVersion s).toNat + 1
  let s := putMapWord (putMapWord s 0 0 (BitVec.ofNat 64 v)) 0 1 (BitVec.ofNat 64 s.time)
  let s := { sequenced s with changes := [], deadlines := s.deadlines ++ [(v, s.time + cyclesPerMicro * s.grace)] }
  if withdrawn then postEvent s 12 noContext 0 0 (BitVec.ofNat 64 v) else s

/-- Table 3 of version 1 is a copy of every room's repair table (R382). -/
def publishRepairs (s : State) : State :=
  s.repairs.foldl (fun s (k, w) => putMapWord s 3 k (w.setWidth 64)) { s with map := s.map.filter fun e => e.1 / 2 ^ 24 != 3 }

/-- A channel's table 5 word with its trained rate step. -/
def withRate (w : XWord) (step : Nat) : XWord := (w &&& ~~~0xF0#64) ||| BitVec.ofNat 64 (16 * (step % 16))

/-- The training results are in tables 5 and 6 of version 1 (Table 26.1, R381): each link that the keeper has not withdrawn is as
it trained. -/
def publishTraining (s : State) : State :=
  let s := (List.range 512).foldl (fun s i => putMapWord s 5 i (withRate (mapWord s 5 i) (tget 0 s.rates i))) s
  (List.range 12).foldl (fun s l => putLink s l (if s.withdrawn.contains (.link l) then 0 else tget 0 s.links l)) s

/-- Version 1 ends the boot: the supervisor slots of the rooms that it places enter the firmware's loop, and the host's rings are
served. -/
def endBoot (s : State) : State :=
  let cores := ((s.summaries.filter fun e => e.1 < 4096).flatMap Prod.snd).map Prod.fst
  let s := (cores.filter fun c => (physicalRoom s (roomOf c)).isSome).foldl enterLoop { s with bootStep := 7 }
  post s ((s.subRings.map Prod.fst).flatMap (nextEntry s))

/-- The tables of the next version (R375, R376): the changes, and where rooms and halls are placed with them. -/
def nextTables (s : State) : State :=
  let s := if mapVersion s = 0 then publishTraining (publishRepairs s) else s
  let s := s.changes.foldl applyChange s
  let s := (List.range 256).foldl returnHall ((List.range 256).foldl settleHall s)
  publishCounts ((List.range 4096).foldl returnRoom ((List.range 4096).foldl placeRoom s))

/-- A publication (R373, R376): the tables and the version, and then what it leaves to do at the rooms it places anew. -/
def publish : M Unit := do
  let s ← get
  let gone := s.changes.any fun c => match c with
    | .withdraw _ => true
    | _ => false
  set (publishVersion (nextTables s) gone)

/-- MAP_PUBLICATION (R373, R376). -/
def mapPublicationAct : M Unit := do
  let s ← get
  if mayPublish s && mapVersion s == BitVec.allOnes 32 then
    set (s.changes.foldl (fun s _ => postEvent s 10 noContext 0 0 0) { s with changes := [] })
  else if mayPublish s then publish
  let t ← get
  set { t with unsettled := [] }
  settleRooms t.unsettled
  if mapVersion s = 0 ∧ mapVersion t ≠ 0 then modify endBoot
  testEvents

/-- MAP_PUBLICATION (R376). -/
def execMapPublication (s : State) : Host.Outcome State Fault Refusal := event .mapPublication s mapPublicationAct

/-- The contexts that a passed deadline suspends (R378): at once, ahead of their switch. -/
def suspendLate (s : State) (v : BitVec 32) : State :=
  (liveContexts s).foldl (fun s x =>
    if (contextAt s x).mapAck < v ∧ (contextAt s x).suspended.isNone then
      onContext (sequenced s) x fun c => { c with suspended := some v }
    else s) s

/-- Suspended contexts are switched out. -/
def saveSuspended : List Nat → M Unit
  | [] => return ()
  | x :: t => do
    saveContext x
    saveSuspended t

/-- MAP_DEADLINE (R378, R379). -/
def mapDeadlineAct (v : BitVec 32) : M Unit := do
  let s ← get
  if s.deadlines.any fun e => e.1 == v.toNat && decide (e.2 ≤ s.time) then
    set (post (suspendLate { sequenced s with deadlines := s.deadlines.filter fun e => e.1 != v.toNat } v) [.mapDeadline v])
  else saveSuspended ((liveContexts s).filter fun x => (contextAt s x).suspended.isSome && !(contextAt s x).switchedOut)

/-- MAP_DEADLINE (R378). -/
def execMapDeadline (version : BitVec 32) (s : State) : Host.Outcome State Fault Refusal :=
  event (.mapDeadline version) s (mapDeadlineAct version)

/-! ### Power (R383, R384) -/

/-- Sixteen times the power a wing gets at least (R383): the lesser of its demand and a sixteenth of the budget. -/
def baseShare (b d : Nat) : Nat := min (16 * d) b

/-- A wing's share of the budget, as a numerator over 16 · the second number. -/
def wingShare (b : Nat) (demand : List Nat) (w : Nat) : Nat × Nat :=
  let d := demand.getD w 0
  let base := ((List.range 16).map fun v => baseShare b (demand.getD v 0)).sum
  let excess := ((List.range 16).map fun v => 16 * demand.getD v 0 - baseShare b (demand.getD v 0)).sum
  if excess = 0 then (baseShare b d, 1)
  else (baseShare b d * excess + (16 * b - base) * (16 * d - baseShare b d), excess)

/-- A wing's level at the end of a period (R384). -/
def nextLevel (level drawn : Nat) (share : Nat × Nat) : Nat :=
  let p := 16 * share.2 * drawn
  if share.1 < p then min 10 (level + 1)
  else if 100 * p < 95 * share.1 then level - 1 else level

/-- THERMOSTAT_PERIOD (R383, R384). -/
def execThermostatPeriod (p : PowerReport) (s : State) : Host.Outcome State Fault Refusal :=
  event (.thermostatPeriod p) s (modify fun s =>
    let b := s.budget - p.foundation
    { s with levels := Vector.ofFn fun (w : Fin 16) =>
        nextLevel (s.levels.get w) (p.drawn.getD w.val 0) (wingShare b p.demand w.val) })

/-! ### Links and start-up (R345, R381, R399) -/

/-- FLIT_RETRANSMISSION (R345): the flit is delivered as it was sent, in its order. -/
def execFlitRetransmission (link : Nat) (s : State) : Host.Outcome State Fault Refusal :=
  event (.flitRetransmission link) s (pure ())

/-- The map image that start-up begins with (R381 step 3): the one in flash, or an undegraded one with speed bins 3. -/
def bootImage (s : State) (good : Bool) : Table XWord :=
  if good then tdel s.map 0 else (List.range 16).foldl (fun t w => tput t (7 * 2 ^ 24 + w) 3) []

/-- The threshold cores start their firmware. -/
def startThreshold (entry : XWord) (s : State) (h : Nat) : State :=
  onSlot s (firstThreshold + h) 3 fun _ => { Slot.reset with live := true, pc := entry }

/-- Where a word of the firmware lies: a multiple of 4 (R32). -/
def wordAddress (a : XWord) : XWord := a &&& ~~~3#64

/-- The table 6 words with that of a link that has trained: its live lanes, at most 8, and its peer house (Table 26.1, R345). -/
def trainedLink (t : Table XWord) (e : Nat × Nat × Nat) : Table XWord :=
  if e.2.1 = 0 then t else tput t e.1 (BitVec.ofNat 64 (1 + 2 ^ 8 * min 8 e.2.1 + 2 ^ 16 * (e.2.2 % 64)))

/-- The house after steps 1 to 4 of the boot sequence (Table 26.4): what flash and the free values' counter held stays. -/
def bootState (s : State) (b : BootInput) : State :=
  let r := { State.reset with
    tick := s.tick, house := s.house, map := bootImage s b.mapImage, withdrawn := if b.mapImage then s.withdrawn else []
    bootCode := if b.mapImage then 0 else 2, bootStep := 4, changes := b.failed.map .withdraw
    rates := b.rates.foldl (fun t (i, step) => tput t i step) [], links := b.links.foldl trainedLink []
    firmware := ⟨wordAddress b.bootEntry, wordAddress b.loopEntry, wordAddress b.bootVec⟩ }
  let r := ((List.range 256).filter fun h => (physicalHall r h).isSome).foldl (startThreshold (wordAddress b.thresholdEntry)) r
  ((List.range 4096).filter fun q => (physicalRoom r q).isSome).foldl (fun r q => startBoot r (16 * q)) r

/-- BOOT_RESET (R381): with both bundles rejected the device stops at step 1 with code 1. -/
def execBootReset (b : BootInput) (s : State) : Host.Outcome State Fault Refusal :=
  event (.bootReset b) s (modify fun s =>
    if b.slotA || b.slotB then bootState s b
    else { State.reset with
      tick := s.tick, house := s.house, map := tdel s.map 0, withdrawn := s.withdrawn, bootCode := 1, bootStep := 1 })

end Sys2Proof.Machine
end

