-- ==== Sys2Proof/Machine/Agenda.lean ====
section
/-! DEFINITION. The steps of the agenda (log entry 11): each is the meaning of its row of the opcode table. -/

namespace Sys2Proof.Machine

open Sys2Proof

/-- A step that is due. -/
def runDue (d : Due) (s : State) : Host.Outcome State Fault Refusal :=
  match d with
  | .copyTransferComplete id => Sys2Proof.Machine.execCopyTransferComplete id s
  | .atomicLatchFault core slot cause sent => Sys2Proof.Machine.execAtomicLatchFault core slot cause sent s
  | .atomicResponse core slot old => Sys2Proof.Machine.execAtomicResponse core slot old s
  | .wsigDelivery m => Sys2Proof.Machine.execWsigDelivery m s
  | .fabricStoreArrival link pa data => Sys2Proof.Machine.execFabricStoreArrival link pa data s
  | .remoteWriteApply wing => Sys2Proof.Machine.execRemoteWriteApply wing s
  | .streamFetch core slot stream => Sys2Proof.Machine.execStreamFetch core slot stream s
  | .windowStallRelease room => Sys2Proof.Machine.execWindowStallRelease room s
  | .commandStart room => Sys2Proof.Machine.execCommandStart room s
  | .commandRetire room => Sys2Proof.Machine.execCommandRetire room s
  | .commandStop room code => Sys2Proof.Machine.execCommandStop room code s
  | .granuleStop room steps => Sys2Proof.Machine.execGranuleStop room steps s
  | .postedProduct room => Sys2Proof.Machine.execPostedProduct room s
  | .postedProductReturn room => Sys2Proof.Machine.execPostedProductReturn room s
  | .landingRetry hall => Sys2Proof.Machine.execLandingRetry hall s
  | .deferredRelease => Sys2Proof.Machine.execDeferredRelease s
  | .waitTimeout core slot => Sys2Proof.Machine.execWaitTimeout core slot s
  | .supervisorDelivery core => Sys2Proof.Machine.execSupervisorDelivery core s
  | .translationMiss hall m => Sys2Proof.Machine.execTranslationMiss hall m s
  | .missRetry hall => Sys2Proof.Machine.execMissRetry hall s
  | .promotion core slot => Sys2Proof.Machine.execPromotion core slot s
  | .promotionEnd core slot => Sys2Proof.Machine.execPromotionEnd core slot s
  | .prefetcherFill core => Sys2Proof.Machine.execPrefetcherFill core s
  | .scoreboardRetire room id => Sys2Proof.Machine.execScoreboardRetire room id s
  | .hostMemAccess key pa len data => Sys2Proof.Machine.execHostMemAccess key pa len data s
  | .partitionMove core kib => Sys2Proof.Machine.execPartitionMove core kib s
  | .launchStart ctx record room => Sys2Proof.Machine.execLaunchStart ctx record room s
  | .lobbyRebalance hall => Sys2Proof.Machine.execLobbyRebalance hall s
  | .migrationWindow core slot => Sys2Proof.Machine.execMigrationWindow core slot s
  | .taskMigration core slot hall => Sys2Proof.Machine.execTaskMigration core slot hall s
  | .faultSaveDeferred core slot => Sys2Proof.Machine.execFaultSaveDeferred core slot s
  | .chimneyMessage ctx record tier unit => Sys2Proof.Machine.execChimneyMessage ctx record tier unit s
  | .launchQuiescent ctx record => Sys2Proof.Machine.execLaunchQuiescent ctx record s
  | .laundryKickAccept hall => Sys2Proof.Machine.execLaundryKickAccept hall s
  | .copy hall ring => Sys2Proof.Machine.execCopy hall ring s
  | .convert hall ring => Sys2Proof.Machine.execConvert hall ring s
  | .quant hall ring => Sys2Proof.Machine.execQuant hall ring s
  | .pad hall ring => Sys2Proof.Machine.execPad hall ring s
  | .slice hall ring => Sys2Proof.Machine.execSlice hall ring s
  | .fill hall ring => Sys2Proof.Machine.execFill hall ring s
  | .compress hall ring => Sys2Proof.Machine.execCompress hall ring s
  | .expand hall ring => Sys2Proof.Machine.execExpand hall ring s
  | .frameExchange hall ring => Sys2Proof.Machine.execFrameExchange hall ring s
  | .pairCompare core => Sys2Proof.Machine.execPairCompare core s
  | .superstepCommit ctx record => Sys2Proof.Machine.execSuperstepCommit ctx record s
  | .superstepRollback ctx record => Sys2Proof.Machine.execSuperstepRollback ctx record s
  | .contextCreate ctx => Sys2Proof.Machine.execContextCreate ctx s
  | .contextDestroy ctx => Sys2Proof.Machine.execContextDestroy ctx s
  | .regionDeclare region => Sys2Proof.Machine.execRegionDeclare region s
  | .regionDestroy region => Sys2Proof.Machine.execRegionDestroy region s
  | .submissionDoorbell ring w => Sys2Proof.Machine.execSubmissionDoorbell ring w s
  | .submissionReset ring => Sys2Proof.Machine.execSubmissionReset ring s
  | .submitArm ring => Sys2Proof.Machine.execSubmitArm ring s
  | .submitSave ring => Sys2Proof.Machine.execSubmitSave ring s
  | .submitRestore ring => Sys2Proof.Machine.execSubmitRestore ring s
  | .submitMapack ring => Sys2Proof.Machine.execSubmitMapack ring s
  | .eventRingEnable word => Sys2Proof.Machine.execEventRingEnable word s
  | .hostMessageMappingDone word target => Sys2Proof.Machine.execHostMessageMappingDone word target s
  | .hostMessageInvalidate word target => Sys2Proof.Machine.execHostMessageInvalidate word target s
  | .keyRetire key => Sys2Proof.Machine.execKeyRetire key s
  | .keyFlushComplete => Sys2Proof.Machine.execKeyFlushComplete s
  | .hostRegisterWrite offset value => Sys2Proof.Machine.execHostRegisterWrite offset value s
  | .unitWithdrawal u => Sys2Proof.Machine.execUnitWithdrawal u s
  | .mapPublication => Sys2Proof.Machine.execMapPublication s
  | .mapDeadline version => Sys2Proof.Machine.execMapDeadline version s
  | .thermostatPeriod p => Sys2Proof.Machine.execThermostatPeriod p s
  | .flitRetransmission link => Sys2Proof.Machine.execFlitRetransmission link s
  | .bootReset b => Sys2Proof.Machine.execBootReset b s
  | .fabricAccessArrival link m => Sys2Proof.Machine.execFabricAccessArrival link m s
  | .estateBarrierArrival m => Sys2Proof.Machine.execEstateBarrierArrival m s
  | .unitReturn u => Sys2Proof.Machine.execUnitReturn u s

end Sys2Proof.Machine
end

