-- ==== Sys2Proof/Machine/Dispatch.lean ====
section
/-! DEFINITION. The meaning of every instruction: one arm for each constructor of Instr. -/

namespace Sys2Proof.Machine

open Sys2Proof

def exec (i : Instr) (s : State) : Host.Outcome State Fault Refusal :=
  match i with
  | .add ty d a b => Sys2Proof.Machine.execAdd ty d a b s
  | .sub ty d a b => Sys2Proof.Machine.execSub ty d a b s
  | .mul ty d a b => Sys2Proof.Machine.execMul ty d a b s
  | .mulh ty d a b => Sys2Proof.Machine.execMulh ty d a b s
  | .div ty d a b => Sys2Proof.Machine.execDiv ty d a b s
  | .rem ty d a b => Sys2Proof.Machine.execRem ty d a b s
  | .and ty d a b => Sys2Proof.Machine.execAnd ty d a b s
  | .or ty d a b => Sys2Proof.Machine.execOr ty d a b s
  | .xor ty d a b => Sys2Proof.Machine.execXor ty d a b s
  | .andn ty d a b => Sys2Proof.Machine.execAndn ty d a b s
  | .sll ty d a b => Sys2Proof.Machine.execSll ty d a b s
  | .srl ty d a b => Sys2Proof.Machine.execSrl ty d a b s
  | .sra ty d a b => Sys2Proof.Machine.execSra ty d a b s
  | .rot ty d a b => Sys2Proof.Machine.execRot ty d a b s
  | .min ty d a b => Sys2Proof.Machine.execMin ty d a b s
  | .max ty d a b => Sys2Proof.Machine.execMax ty d a b s
  | .slt ty d a b => Sys2Proof.Machine.execSlt ty d a b s
  | .seq ty d a b => Sys2Proof.Machine.execSeq ty d a b s
  | .clz ty d a => Sys2Proof.Machine.execClz ty d a s
  | .ctz ty d a => Sys2Proof.Machine.execCtz ty d a s
  | .popc ty d a => Sys2Proof.Machine.execPopc ty d a s
  | .ext ty d a => Sys2Proof.Machine.execExt ty d a s
  | .bfx ty d a b => Sys2Proof.Machine.execBfx ty d a b s
  | .bfi ty d a b => Sys2Proof.Machine.execBfi ty d a b s
  | .cmov ty d a b => Sys2Proof.Machine.execCmov ty d a b s
  | .addi d a imm => Sys2Proof.Machine.execAddi d a imm s
  | .andi d a imm => Sys2Proof.Machine.execAndi d a imm s
  | .ori d a imm => Sys2Proof.Machine.execOri d a imm s
  | .xori d a imm => Sys2Proof.Machine.execXori d a imm s
  | .slli d a n => Sys2Proof.Machine.execSlli d a n s
  | .srli d a n => Sys2Proof.Machine.execSrli d a n s
  | .srai d a n => Sys2Proof.Machine.execSrai d a n s
  | .roti d a n => Sys2Proof.Machine.execRoti d a n s
  | .slti d a imm => Sys2Proof.Machine.execSlti d a imm s
  | .sltni d a imm => Sys2Proof.Machine.execSltni d a imm s
  | .lui d imm => Sys2Proof.Machine.execLui d imm s
  | .lea d a b k => Sys2Proof.Machine.execLea d a b k s
  | .part d a level => Sys2Proof.Machine.execPart d a level s
  | .coord d level => Sys2Proof.Machine.execCoord d level s
  | .beq a b off => Sys2Proof.Machine.execBeq a b off s
  | .bne a b off => Sys2Proof.Machine.execBne a b off s
  | .blt a b off => Sys2Proof.Machine.execBlt a b off s
  | .bge a b off => Sys2Proof.Machine.execBge a b off s
  | .bltn a b off => Sys2Proof.Machine.execBltn a b off s
  | .bgen a b off => Sys2Proof.Machine.execBgen a b off s
  | .j off => Sys2Proof.Machine.execJ off s
  | .jal off => Sys2Proof.Machine.execJal off s
  | .jr a => Sys2Proof.Machine.execJr a s
  | .jalr a => Sys2Proof.Machine.execJalr a s
  | .loop a len => Sys2Proof.Machine.execLoop a len s
  | .bsx k off => Sys2Proof.Machine.execBsx k off s
  | .ld ty d a off => Sys2Proof.Machine.execLd ty d a off s
  | .st ty d a off => Sys2Proof.Machine.execSt ty d a off s
  | .vld ty d a off => Sys2Proof.Machine.execVld ty d a off s
  | .vst ty d a off => Sys2Proof.Machine.execVst ty d a off s
  | .ldx ty d a b => Sys2Proof.Machine.execLdx ty d a b s
  | .stx ty d a b => Sys2Proof.Machine.execStx ty d a b s
  | .vldx ty d a b => Sys2Proof.Machine.execVldx ty d a b s
  | .vstx ty d a b => Sys2Proof.Machine.execVstx ty d a b s
  | .vlds ty d a b => Sys2Proof.Machine.execVlds ty d a b s
  | .vsts ty d a b => Sys2Proof.Machine.execVsts ty d a b s
  | .pf a b => Sys2Proof.Machine.execPf a b s
  | .ldf ty d a off => Sys2Proof.Machine.execLdf ty d a off s
  | .ldfk ty d a off => Sys2Proof.Machine.execLdfk ty d a off s
  | .ste ty d a off => Sys2Proof.Machine.execSte ty d a off s
  | .stf ty d a off => Sys2Proof.Machine.execStf ty d a off s
  | .fempty a off => Sys2Proof.Machine.execFempty a off s
  | .fstat d a off => Sys2Proof.Machine.execFstat d a off s
  | .qld d h k => Sys2Proof.Machine.execQld d h k s
  | .qldv d h k => Sys2Proof.Machine.execQldv d h k s
  | .qst d h k => Sys2Proof.Machine.execQst d h k s
  | .qstv d h k => Sys2Proof.Machine.execQstv d h k s
  | .qpub h n => Sys2Proof.Machine.execQpub h n s
  | .qrel h n => Sys2Proof.Machine.execQrel h n s
  | .qstat d h => Sys2Proof.Machine.execQstat d h s
  | .qbind h d => Sys2Proof.Machine.execQbind h d s
  | .map d a b => Sys2Proof.Machine.execMap d a b s
  | .unmap d a => Sys2Proof.Machine.execUnmap d a s
  | .syncw d a => Sys2Proof.Machine.execSyncw d a s
  | .invw d a => Sys2Proof.Machine.execInvw d a s
  | .mapq d a => Sys2Proof.Machine.execMapq d a s
  | .cpy d a b => Sys2Proof.Machine.execCpy d a b s
  | .mcast d a b => Sys2Proof.Machine.execMcast d a b s
  | .cpyw d a b => Sys2Proof.Machine.execCpyw d a b s
  | .aadd ty d a b => Sys2Proof.Machine.execAadd ty d a b s
  | .aand ty d a b => Sys2Proof.Machine.execAand ty d a b s
  | .aor ty d a b => Sys2Proof.Machine.execAor ty d a b s
  | .axor ty d a b => Sys2Proof.Machine.execAxor ty d a b s
  | .amin ty d a b => Sys2Proof.Machine.execAmin ty d a b s
  | .amax ty d a b => Sys2Proof.Machine.execAmax ty d a b s
  | .aswp ty d a b => Sys2Proof.Machine.execAswp ty d a b s
  | .cas ty d a b => Sys2Proof.Machine.execCas ty d a b s
  | .acca ty a b => Sys2Proof.Machine.execAcca ty a b s
  | .accn ty a b => Sys2Proof.Machine.execAccn ty a b s
  | .accx ty a b => Sys2Proof.Machine.execAccx ty a b s
  | .fence kind scope => Sys2Proof.Machine.execFence kind scope s
  | .fencep p1 p2 scope => Sys2Proof.Machine.execFencep p1 p2 scope s
  | .lda ty d a scope => Sys2Proof.Machine.execLda ty d a scope s
  | .stl ty d a scope => Sys2Proof.Machine.execStl ty d a scope s
  | .wsig ty d a b => Sys2Proof.Machine.execWsig ty d a b s
  | .binit tier n a => Sys2Proof.Machine.execBinit tier n a s
  | .barr tier n a => Sys2Proof.Machine.execBarr tier n a s
  | .bwait tier n => Sys2Proof.Machine.execBwait tier n s
  | .barrw d tier n a => Sys2Proof.Machine.execBarrw d tier n a s
  | .bread d tier n => Sys2Proof.Machine.execBread d tier n s
  | .vadd ty d a b => Sys2Proof.Machine.execVadd ty d a b s
  | .vsub ty d a b => Sys2Proof.Machine.execVsub ty d a b s
  | .vmul ty d a b => Sys2Proof.Machine.execVmul ty d a b s
  | .vmulh ty d a b => Sys2Proof.Machine.execVmulh ty d a b s
  | .vmin ty d a b => Sys2Proof.Machine.execVmin ty d a b s
  | .vmax ty d a b => Sys2Proof.Machine.execVmax ty d a b s
  | .vabs ty d a => Sys2Proof.Machine.execVabs ty d a s
  | .vneg ty d a => Sys2Proof.Machine.execVneg ty d a s
  | .vand ty d a b => Sys2Proof.Machine.execVand ty d a b s
  | .vor ty d a b => Sys2Proof.Machine.execVor ty d a b s
  | .vxor ty d a b => Sys2Proof.Machine.execVxor ty d a b s
  | .vshl ty d a b => Sys2Proof.Machine.execVshl ty d a b s
  | .vshr ty d a b => Sys2Proof.Machine.execVshr ty d a b s
  | .vcmpeq ty pd a b => Sys2Proof.Machine.execVcmpeq ty pd a b s
  | .vcmpne ty pd a b => Sys2Proof.Machine.execVcmpne ty pd a b s
  | .vcmplt ty pd a b => Sys2Proof.Machine.execVcmplt ty pd a b s
  | .vcmple ty pd a b => Sys2Proof.Machine.execVcmple ty pd a b s
  | .vcmpun ty pd a b => Sys2Proof.Machine.execVcmpun ty pd a b s
  | .vsel ty d a pb => Sys2Proof.Machine.execVsel ty d a pb s
  | .vdiv ty d a b => Sys2Proof.Machine.execVdiv ty d a b s
  | .vsqrt ty d a => Sys2Proof.Machine.execVsqrt ty d a s
  | .vfma ty d a b c => Sys2Proof.Machine.execVfma ty d a b c s
  | .vfms ty d a b c => Sys2Proof.Machine.execVfms ty d a b c s
  | .vfnma ty d a b c => Sys2Proof.Machine.execVfnma ty d a b c s
  | .vfnms ty d a b c => Sys2Proof.Machine.execVfnms ty d a b c s
  | .vcvt ty d a src => Sys2Proof.Machine.execVcvt ty d a src s
  | .vqnt ty d a src => Sys2Proof.Machine.execVqnt ty d a src s
  | .vxpq ty d a src => Sys2Proof.Machine.execVxpq ty d a src s
  | .vcvtx ty d a src => Sys2Proof.Machine.execVcvtx ty d a src s
  | .vcps ty d pa b => Sys2Proof.Machine.execVcps ty d pa b s
  | .vxpd ty d pa b => Sys2Proof.Machine.execVxpd ty d pa b s
  | .vperm ty d a b => Sys2Proof.Machine.execVperm ty d a b s
  | .vsplat ty d a => Sys2Proof.Machine.execVsplat ty d a s
  | .vins ty d a b => Sys2Proof.Machine.execVins ty d a b s
  | .vext ty d a b => Sys2Proof.Machine.execVext ty d a b s
  | .vmov d a => Sys2Proof.Machine.execVmov d a s
  | .vreda ty d a => Sys2Proof.Machine.execVreda ty d a s
  | .vredn ty d a => Sys2Proof.Machine.execVredn ty d a s
  | .vredx ty d a => Sys2Proof.Machine.execVredx ty d a s
  | .vdot ty d a b => Sys2Proof.Machine.execVdot ty d a b s
  | .pand pd pa pb => Sys2Proof.Machine.execPand pd pa pb s
  | .por pd pa pb => Sys2Proof.Machine.execPor pd pa pb s
  | .pxor pd pa pb => Sys2Proof.Machine.execPxor pd pa pb s
  | .pnot pd pa => Sys2Proof.Machine.execPnot pd pa s
  | .pcnt ty d pa => Sys2Proof.Machine.execPcnt ty d pa s
  | .pfst ty d pa => Sys2Proof.Machine.execPfst ty d pa s
  | .pset pd a => Sys2Proof.Machine.execPset pd a s
  | .pget d pa => Sys2Proof.Machine.execPget d pa s
  | .scfg sd a => Sys2Proof.Machine.execScfg sd a s
  | .sbind d sa => Sys2Proof.Machine.execSbind d sa s
  | .send sd => Sys2Proof.Machine.execSend sd s
  | .sstat d sa => Sys2Proof.Machine.execSstat d sa s
  | .sskip sd a => Sys2Proof.Machine.execSskip sd a s
  | .tset t a => Sys2Proof.Machine.execTset t a s
  | .tget t a => Sys2Proof.Machine.execTget t a s
  | .tclr t => Sys2Proof.Machine.execTclr t s
  | .tinfo a t => Sys2Proof.Machine.execTinfo a t s
  | .hmm d tc ta tb fl => Sys2Proof.Machine.execHmm d tc ta tb fl s
  | .hadd d tc ta tb fl => Sys2Proof.Machine.execHadd d tc ta tb fl s
  | .hmv d tc ta tb fl => Sys2Proof.Machine.execHmv d tc ta tb fl s
  | .hcvt d tc ta fmt swap => Sys2Proof.Machine.execHcvt d tc ta fmt swap s
  | .hsnap d b t => Sys2Proof.Machine.execHsnap d b t s
  | .hqry d a => Sys2Proof.Machine.execHqry d a s
  | .hres a => Sys2Proof.Machine.execHres a s
  | .hdrop a => Sys2Proof.Machine.execHdrop a s
  | .hwin d => Sys2Proof.Machine.execHwin d s
  | .lpatch d a b => Sys2Proof.Machine.execLpatch d a b s
  | .larm d a => Sys2Proof.Machine.execLarm d a s
  | .lqry d a => Sys2Proof.Machine.execLqry d a s
  | .qenq a b => Sys2Proof.Machine.execQenq a b s
  | .tend => Sys2Proof.Machine.execTend s
  | .tyld => Sys2Proof.Machine.execTyld s
  | .garm d a => Sys2Proof.Machine.execGarm d a s
  | .gdone a => Sys2Proof.Machine.execGdone a s
  | .migr a => Sys2Proof.Machine.execMigr a s
  | .done d => Sys2Proof.Machine.execDone d s
  | .slook d a b => Sys2Proof.Machine.execSlook d a b s
  | .shash d a b => Sys2Proof.Machine.execShash d a b s
  | .sref a => Sys2Proof.Machine.execSref a s
  | .sunref a => Sys2Proof.Machine.execSunref a s
  | .sres d a => Sys2Proof.Machine.execSres d a s
  | .scas d a b => Sys2Proof.Machine.execScas d a b s
  | .scopy d a => Sys2Proof.Machine.execScopy d a s
  | .sealSstat d a => Sys2Proof.Machine.execSealSstat d a s
  | .trap n => Sys2Proof.Machine.execTrap n s
  | .eret => Sys2Proof.Machine.execEret s
  | .mfs d sr => Sys2Proof.Machine.execMfs d sr s
  | .mts sr d => Sys2Proof.Machine.execMts sr d s
  | .wait d => Sys2Proof.Machine.execWait d s
  | .chain d => Sys2Proof.Machine.execChain d s
  | .unchain => Sys2Proof.Machine.execUnchain s
  | .arearm d => Sys2Proof.Machine.execArearm d s
  | .lkick d a => Sys2Proof.Machine.execLkick d a s
  | .brk n => Sys2Proof.Machine.execBrk n s
  | .tlbw d a b => Sys2Proof.Machine.execTlbw d a b s
  | .tlbinv d a => Sys2Proof.Machine.execTlbinv d a s
  | .tlbq d a => Sys2Proof.Machine.execTlbq d a s
  | .fbpop d => Sys2Proof.Machine.execFbpop d s
  | .replay => Sys2Proof.Machine.execReplay s
  | .msgrx d => Sys2Proof.Machine.execMsgrx d s
  | .mapack d => Sys2Proof.Machine.execMapack d s
  | .maprd d a b => Sys2Proof.Machine.execMaprd d a b s
  | .repw d a => Sys2Proof.Machine.execRepw d a s
  | .arrt d a b => Sys2Proof.Machine.execArrt d a b s
  | .shut => Sys2Proof.Machine.execShut s
  | .snaprd d a => Sys2Proof.Machine.execSnaprd d a s
  | .pairon => Sys2Proof.Machine.execPairon s
  | .pairoff => Sys2Proof.Machine.execPairoff s
  | .fpchk d => Sys2Proof.Machine.execFpchk d s
  | .ssbar => Sys2Proof.Machine.execSsbar s
  | .ssqry d => Sys2Proof.Machine.execSsqry d s
  | .hintWide v => Sys2Proof.Machine.execHintWide v s
  | .hintRm int mode => Sys2Proof.Machine.execHintRm int mode s
  | .hintDep p1 p2 n g k => Sys2Proof.Machine.execHintDep p1 p2 n g k s
  | .hintSchedYield n => Sys2Proof.Machine.execHintSchedYield n s
  | .hintSchedHold => Sys2Proof.Machine.execHintSchedHold s
  | .hintSat => Sys2Proof.Machine.execHintSat s
  | .hintCache policy => Sys2Proof.Machine.execHintCache policy s
  | .illegalInstruction word => Sys2Proof.Machine.execIllegalInstruction word s
  | .copyTransferComplete id => Sys2Proof.Machine.execCopyTransferComplete id s
  | .atomicLatchFault core slot cause sent => Sys2Proof.Machine.execAtomicLatchFault core slot cause sent s
  | .atomicResponse core slot old => Sys2Proof.Machine.execAtomicResponse core slot old s
  | .wsigDelivery m => Sys2Proof.Machine.execWsigDelivery m s
  | .fabricStoreArrival link pa data => Sys2Proof.Machine.execFabricStoreArrival link pa data s
  | .remoteWriteApply wing => Sys2Proof.Machine.execRemoteWriteApply wing s
  | .streamFetch core slot stream => Sys2Proof.Machine.execStreamFetch core slot stream s
  | .windowStallRelease room => Sys2Proof.Machine.execWindowStallRelease room s
  | .commandStart room => Sys2Proof.Machine.execCommandStart room s
  | .commandRetire room => Sys2Proof.Machine.execCommandRetire room s
  | .commandStop room code => Sys2Proof.Machine.execCommandStop room code s
  | .granuleStop room steps => Sys2Proof.Machine.execGranuleStop room steps s
  | .postedProduct room => Sys2Proof.Machine.execPostedProduct room s
  | .postedProductReturn room => Sys2Proof.Machine.execPostedProductReturn room s
  | .landingRetry hall => Sys2Proof.Machine.execLandingRetry hall s
  | .deferredRelease => Sys2Proof.Machine.execDeferredRelease s
  | .waitTimeout core slot => Sys2Proof.Machine.execWaitTimeout core slot s
  | .supervisorDelivery core => Sys2Proof.Machine.execSupervisorDelivery core s
  | .translationMiss hall m => Sys2Proof.Machine.execTranslationMiss hall m s
  | .missRetry hall => Sys2Proof.Machine.execMissRetry hall s
  | .promotion core slot => Sys2Proof.Machine.execPromotion core slot s
  | .promotionEnd core slot => Sys2Proof.Machine.execPromotionEnd core slot s
  | .prefetcherFill core => Sys2Proof.Machine.execPrefetcherFill core s
  | .scoreboardRetire room id => Sys2Proof.Machine.execScoreboardRetire room id s
  | .hostMemAccess key pa len data => Sys2Proof.Machine.execHostMemAccess key pa len data s
  | .partitionMove core kib => Sys2Proof.Machine.execPartitionMove core kib s
  | .launchStart ctx record room => Sys2Proof.Machine.execLaunchStart ctx record room s
  | .lobbyRebalance hall => Sys2Proof.Machine.execLobbyRebalance hall s
  | .migrationWindow core slot => Sys2Proof.Machine.execMigrationWindow core slot s
  | .taskMigration core slot hall => Sys2Proof.Machine.execTaskMigration core slot hall s
  | .faultSaveDeferred core slot => Sys2Proof.Machine.execFaultSaveDeferred core slot s
  | .chimneyMessage ctx record tier unit => Sys2Proof.Machine.execChimneyMessage ctx record tier unit s
  | .launchQuiescent ctx record => Sys2Proof.Machine.execLaunchQuiescent ctx record s
  | .laundryKickAccept hall => Sys2Proof.Machine.execLaundryKickAccept hall s
  | .copy hall ring => Sys2Proof.Machine.execCopy hall ring s
  | .convert hall ring => Sys2Proof.Machine.execConvert hall ring s
  | .quant hall ring => Sys2Proof.Machine.execQuant hall ring s
  | .pad hall ring => Sys2Proof.Machine.execPad hall ring s
  | .slice hall ring => Sys2Proof.Machine.execSlice hall ring s
  | .fill hall ring => Sys2Proof.Machine.execFill hall ring s
  | .compress hall ring => Sys2Proof.Machine.execCompress hall ring s
  | .expand hall ring => Sys2Proof.Machine.execExpand hall ring s
  | .frameExchange hall ring => Sys2Proof.Machine.execFrameExchange hall ring s
  | .pairCompare core => Sys2Proof.Machine.execPairCompare core s
  | .superstepCommit ctx record => Sys2Proof.Machine.execSuperstepCommit ctx record s
  | .superstepRollback ctx record => Sys2Proof.Machine.execSuperstepRollback ctx record s
  | .contextCreate ctx => Sys2Proof.Machine.execContextCreate ctx s
  | .contextDestroy ctx => Sys2Proof.Machine.execContextDestroy ctx s
  | .regionDeclare region => Sys2Proof.Machine.execRegionDeclare region s
  | .regionDestroy region => Sys2Proof.Machine.execRegionDestroy region s
  | .submissionDoorbell ring w => Sys2Proof.Machine.execSubmissionDoorbell ring w s
  | .submissionReset ring => Sys2Proof.Machine.execSubmissionReset ring s
  | .submitArm ring => Sys2Proof.Machine.execSubmitArm ring s
  | .submitSave ring => Sys2Proof.Machine.execSubmitSave ring s
  | .submitRestore ring => Sys2Proof.Machine.execSubmitRestore ring s
  | .submitMapack ring => Sys2Proof.Machine.execSubmitMapack ring s
  | .eventRingEnable word => Sys2Proof.Machine.execEventRingEnable word s
  | .hostMessageMappingDone word target => Sys2Proof.Machine.execHostMessageMappingDone word target s
  | .hostMessageInvalidate word target => Sys2Proof.Machine.execHostMessageInvalidate word target s
  | .keyRetire key => Sys2Proof.Machine.execKeyRetire key s
  | .keyFlushComplete => Sys2Proof.Machine.execKeyFlushComplete s
  | .hostRegisterWrite offset value => Sys2Proof.Machine.execHostRegisterWrite offset value s
  | .unitWithdrawal u => Sys2Proof.Machine.execUnitWithdrawal u s
  | .mapPublication => Sys2Proof.Machine.execMapPublication s
  | .mapDeadline version => Sys2Proof.Machine.execMapDeadline version s
  | .thermostatPeriod p => Sys2Proof.Machine.execThermostatPeriod p s
  | .flitRetransmission link => Sys2Proof.Machine.execFlitRetransmission link s
  | .bootReset b => Sys2Proof.Machine.execBootReset b s
  | .fabricAccessArrival link m => Sys2Proof.Machine.execFabricAccessArrival link m s
  | .estateBarrierArrival m => Sys2Proof.Machine.execEstateBarrierArrival m s
  | .unitReturn u => Sys2Proof.Machine.execUnitReturn u s

end Sys2Proof.Machine
end

