-- ==== Sys2Proof/Machine/Fetch.lean ====
section
/-! DEFINITION. What a core's cycle does (R13 to R15, R22 to R25): which slot issues, how its word is fetched, and the clock
that every step moves on (R3, R126; log entry 11). -/

namespace Sys2Proof.Machine

open Sys2Proof

/-! ### Which slot issues (R13, R14, R87) -/

/-- Instructions that a hop of a chain's forwarding links buffers (R22). -/
def hopSize : Nat := 8

/-- Whether the hops of a chain have room for another instruction: no follower is more than a hop's buffer behind the
member before it. -/
def hopsFree (s : State) : Nat → List Nat → Bool
  | _, [] => true
  | ahead, c :: t =>
    let n := ((coreAt s c).chain.map fun r => r.queue.length).getD 0
    decide (n < ahead + hopSize) && hopsFree s n t

/-- Whether a member of a chain has issued the instruction that one `n` instructions behind the leader is to issue: it has
executed it, or waits at it. -/
def hasIssued (s : State) (c n : Nat) : Bool :=
  decide (behind s c < n) || (behind s c == n && (slotAt s c 0).wait.isSome)

/-- Whether slot 0 of a core may issue as a member of a chain (R22, R23). No member goes past an instruction that another
waits at. A leader has room in every hop's buffer; a follower has an instruction to execute, which the member before it has
issued (log entry 31). -/
def chainReady (s : State) (c : Nat) (k : Fin 4) : Bool :=
  if k ≠ 0 then true
  else match (coreAt s c).chain with
    | none => true
    | some r =>
      let n := r.queue.length
      let others := (membersOf s r).filter fun d => d != c
      others.all (fun d => (slotAt s d 0).wait.isNone || decide (behind s d ≤ n)) &&
        if r.pos = 0 then n != 0 || (others.length + 1 == r.len && hopsFree s 0 (followers s c))
        else n != 0 && (others.filter fun d => decide (snakePos d < snakePos c)).all fun d => hasIssued s d n

/-- Whether a slot is ready (R13): it holds a task, is not parked and is not held back, and its context is not suspended
(R378), nor its room on its way (R376); the follower of a pair issues with its leader. -/
def isReady (s : State) (c : Nat) (k : Fin 4) : Bool :=
  let v := slotAt s c k
  let half := match followerOf s c k with
    | none => true
    | some d => (slotAt s d k).wait.isNone && (slotAt s d k).delay == 0 && !(coreAt s d).halted
  let out := k != 3 && (contextAt s v.ctx).suspended.isSome
  !out && !resettling s c && !(coreAt s c).halted && v.live && v.wait.isNone && v.delay == 0 && !isSecond s c k && half && chainReady s c k

/-- The task slots in the rotating order after a pointer (R14). -/
def rotation (p : Fin 3) : List (Fin 4) :=
  match p with
  | 0 => [1, 2, 0]
  | 1 => [2, 0, 1]
  | 2 => [0, 1, 2]

/-- The ready task slots of a core in the order of R14. -/
def readySlots (s : State) (c : Nat) : List (Fin 4) := (rotation (coreAt s c).pointer).filter fun k => isReady s c k

/-- The slot that issues in a core's cycle (R14): the supervisor slot, or the first ready task slot after the pointer; one
that yields its next selection gives way to another (R87). -/
def pickSlot (s : State) (c : Nat) : Option (Fin 4) :=
  if isReady s c 3 then some 3
  else match (readySlots s c).find? fun k => !(slotAt s c k).yielded with
    | some k => some k
    | none => (readySlots s c).head?

/-- The slots whose selection a pick has come to: those that gave theirs up, and the one picked. -/
def selected (s : State) (c : Nat) (k : Fin 4) : List (Fin 4) := (readySlots s c).takeWhile (fun j => j != k) ++ [k]

/-- The state as a slot issues: the pointer goes to a task slot (R14), and a yield is spent by the selection it gave up. -/
def issuing (s : State) (c : Nat) (k : Fin 4) : State :=
  let t := { s with cur := (c, k) }
  if k = 3 then t
  else (selected s c k).foldl (fun t j => onSlot t c j fun v => { v with yielded := false })
    (onCore t c fun q => { q with pointer := Fin.ofNat 3 k.val })

/-! ### Fetch (R411, R131) -/

/-- The word at the issuing slot's PC; one that lies in a vault is read as a load reads it (R128, R140, R142). -/
def fetchWord : M Word := do
  let v ← me
  let p ← locate v.pc .fetch
  stallOn p 4
  fillAt v.pc p 4
  let bs ← seeAt v.pc p 4
  return BitVec.ofNat 32 (natOfBytes bs)

/-- The instruction that a word is: one of the tables, or the illegal instruction (R46). -/
def instrOf (w : Word) : Instr :=
  match decode w with
  | .ok i => i
  | .error _ => .illegalInstruction w

/-- A follower parts from its chain where the leader's chain has ended (R24): at the first hint of the leader's instruction,
so that it has none pending. -/
def partHere (s : State) (f : Forward) : State :=
  let s := onSlot s s.cur.1 s.cur.2 fun v => { v with pc := f.pc, loops := f.loops, hints := [] }
  onCore s s.cur.1 fun q => { q with chain := none }

/-- The issuing slot issues: its own word at its PC, or in a chain's follower what the leader has forwarded. `run` is the
meaning of an instruction. -/
def issue (run : Instr → State → Host.Outcome State Fault Refusal) (s : State) : Host.Outcome State Fault Refusal :=
  match forwarded s s.cur.1 s.cur.2 with
  | some f => match f.instr with
    | some i => run i (onSlot s s.cur.1 s.cur.2 fun v => { v with pc := f.pc })
    | none => .next (partHere s f)
  | none => match fetchWord s with
    | .ok w t => run (instrOf w) t
    | .error e u => stopped (.illegalInstruction 0) s u e

/-- A cycle of a core: a ready slot issues, or nothing does (R14). -/
def cycle (run : Instr → State → Host.Outcome State Fault Refusal) (s : State) (c : Nat) : Host.Outcome State Fault Refusal :=
  match pickSlot s c with
  | some k => issue run (issuing s c k)
  | none => .next { s with cur := (c, s.cur.2) }

/-! ### The clock -/

/-- Tenths of 4.0 GHz that a level's core clock runs at (R384). -/
def levelRate (level : Nat) : Nat :=
  if level ≤ 7 then 10 else if level = 8 then 9 else if level = 9 then 8 else 6

/-- Tenths of 4.0 GHz that a speed bin allows at most (Table 26.1). -/
def binRate (bin : XWord) : Nat :=
  match bin.toNat % 4 with
  | 0 => 10 | 1 => 9 | 2 => 8 | _ => 6

/-- Tenths of 4.0 GHz of a wing's core clock (R384): its level's, and never beyond its speed bin. -/
def wingRate (s : State) (w : Nat) : Nat := min (levelRate (s.levels.get (Fin.ofNat 16 w))) (binRate (mapWord s 7 (w % 16)))

/-- Cycles of the time base that a step takes (R31: latency never changes a result): enough for a cycle of every wing. -/
def stepCycles (s : State) : Nat :=
  Config.stallCycles s.tick + if (List.range 16).all fun w => wingRate s w == 10 then 1 else 2

/-- Tenths of a cycle that a wing's core clock has run by the end of a step, those left from before among them. -/
def wingTenths (s : State) (w : Nat) : Nat := s.parts.get (Fin.ofNat 16 w) + stepCycles s * wingRate s w

/-- Cycles of a wing that pass in a step (R3). -/
def wingCycles (s : State) (w : Nat) : Nat := wingTenths s w / 10

/-- A slot after some cycles: its cycle count, and what is left of a delay and of a WAIT's limit (R321). -/
def aged (n : Nat) (v : Slot) : Slot :=
  if v.live then { v with
    cyc := v.cyc + BitVec.ofNat 64 n, delay := if v.delay = 0 then 0 else v.delay - n
    wait := match v.wait with
      | some (.event d (some left)) => some (.event d (some (left - n)))
      | w => w }
  else v

/-- WAITs whose limit has passed (R321). -/
def timedOut (s : State) : List Due :=
  s.cores.flatMap fun (c, q) => (List.finRange 4).filterMap fun k =>
    match (q.slots.get k).wait with
    | some (.event _ (some 0)) => some (.waitTimeout c k)
    | _ => none

/-- Whether a wing's cycle count has passed a multiple of `n` since another count of its cycles. -/
def wingPasses (s : State) (was : Vector Nat 16) (w n : Nat) : Bool :=
  s.cycles.get (Fin.ofNat 16 w) / n != was.get (Fin.ofNat 16 w) / n

/-- The lobbies that rebalance, every 4,096 cycles of their wing (R3, R243). The rounds begin at multiples of 4,096 cycles since
reset: the model's choice (log entry 92). -/
def rebalances (s : State) (was : Vector Nat 16) : List Due :=
  (ascending (s.launches.flatMap fun (_, r) => launchHalls r)).filterMap fun h =>
    if wingPasses s was ((physicalHall s h).getD h / 16) 4096 then some (.lobbyRebalance h) else none

/-- The tasks whose migration windows end, every 65,536 cycles of their wing (R3, R249). The windows begin at multiples of 65,536
cycles since reset, for every task alike: the model's choice (log entry 92). -/
def windowsEnd (s : State) (was : Vector Nat 16) : List Due :=
  s.cores.flatMap fun (c, q) => (List.finRange 4).filterMap fun k =>
    if (q.slots.get k).launch.isNone then none
    else if wingPasses s was (dieOf s c) 65536 then some (.migrationWindow c k) else none

/-- The deadlines of map versions that pass (R378). -/
def deadlinesPassed (s : State) : List Due :=
  s.deadlines.filterMap fun (v, t) => if t ≤ s.time then some (.mapDeadline (BitVec.ofNat 32 v)) else none

/-- A step of the house moves the clocks on, and makes due what falls due with them. -/
def advanceClock (s : State) : State :=
  let was := s.cycles
  let s := { s with
    tick := s.tick + 1
    time := s.time + stepCycles s
    cycles := Vector.ofFn fun w => s.cycles.get w + wingCycles s w.val
    parts := Vector.ofFn fun w => wingTenths s w.val % 10
    cores := s.cores.map fun (c, q) => (c, { q with slots := q.slots.map (aged (wingCycles s (dieOf s c))) }) }
  post s ((timedOut s ++ rebalances s was ++ windowsEnd s was ++ deadlinesPassed s).filter fun d =>
    !s.agenda.contains (.event d))

/-- The core that takes a cycle where nothing is due: the next after the last one, in rotation, with a ready slot; or the
last one again (log entry 11). -/
def nextCore (s : State) : Nat :=
  let ready := (s.cores.map Prod.fst).filter fun c => (pickSlot s c).isSome
  match ready.find? fun c => decide (s.cur.1 < c) with
  | some c => c
  | none => ready.headD s.cur.1

end Sys2Proof.Machine
end

