-- ==== Sys2Proof/Machine/Step.lean ====
section
/-! DEFINITION. One step of the house: the clocks move on, and the next turn of the agenda is taken, or a cycle of a core
where nothing is due (log entry 11). -/

namespace Sys2Proof.Machine

open Sys2Proof

/-- One step. -/
def step (s : State) : Host.Outcome State Fault Refusal :=
  let t := advanceClock s
  match t.agenda with
  | .event d :: rest => runDue d { t with agenda := rest }
  | .core c :: rest => cycle exec { t with agenda := rest } c
  | [] => cycle exec t (nextCore t)

/-- Where the instruction that `State.withFetchWord` places lies: a physical address of device DRAM. -/
def probeAddress : Nat := 65536

/-- The state with a word placed where the firmware slot of logical hall 0's threshold core fetches its next instruction:
memory holds it, the slot runs there, and nothing else is due. -/
def State.withFetchWord (s : State) (_nbits w : Nat) : State :=
  let s := onSlot { s with agenda := [], mem := memWrite s.mem (memKey 0 probeAddress) (bytesOfNat 4 w) } firstThreshold 3
    fun v => { v with live := true, wait := none, delay := 0, pc := BitVec.ofNat 64 probeAddress }
  { s with cur := (firstThreshold, 3) }

end Sys2Proof.Machine
end

