-- ==== Sys2Proof/Safety.lean ====
section
/-! DEFINITION. The terms in which claims are made: the issuing slot and its registers, when an instruction issues with
nothing else in its way, the state in which it has retired, the canonical form of memory. -/

namespace Sys2Proof.Machine

open Sys2Proof

/-! ### The issuing slot -/

/-- The issuing slot. -/
def here (s : State) : Slot := slotAt s s.cur.1 s.cur.2

/-- What a slot reads in an x register (R17): x0 reads zero. -/
def xOf (v : Slot) (r : Reg) : XWord := if r = 0 then 0 else v.x.get r

/-- A slot with an x register written (R17): x0 discards the write. -/
def withX (v : Slot) (r : Reg) (d : XWord) : Slot := if r = 0 then v else { v with x := v.x.set r d }

/-- What a slot reads in a p register (R17): p0 reads all ones. -/
def pOf (v : Slot) (r : Reg) : BitVec 32 := if r.val % 8 = 0 then BitVec.allOnes 32 else v.p.get (Fin.ofNat 8 r.val)

/-- A slot with a p register written (R17): p0 discards the write. -/
def withP (v : Slot) (r : Reg) (d : BitVec 32) : Slot :=
  if r.val % 8 = 0 then v else { v with p := v.p.set (Fin.ofNat 8 r.val) d }

/-- A slot with a w register written that no stream is bound to; R249 counts it as written. -/
def withW (v : Slot) (r : Reg) (d : VWide) : Slot :=
  { v with w := v.w.set r d, wWritten := v.wWritten ||| BitVec.ofNat 32 (2 ^ r.val) }

/-- A slot with flags raised (R57, R58). -/
def withFlags (v : Slot) (flags : Nat) : Slot := { v with fpFlags := v.fpFlags ||| BitVec.ofNat 64 flags }

/-! ### Issue -/

/-- No superstep waits to perform what it holds (R367). -/
def Quiet (s : State) : Prop := (∀ e ∈ s.launches, e.2.mode ≠ 2) ∧ s.lostLines = []

/-- The issuing core is in no chain and no pair (R22, R25). -/
def Alone (s : State) : Prop := (coreAt s s.cur.1).chain = none ∧ (coreAt s s.cur.1).pair = none

/-- An instruction issues with nothing in its way: its mode may issue it (R44), it accepts the hints bound to it (R38, R39),
and every stored register of its slot is as it was written (R410). -/
structure Plain (i : Instr) (s : State) : Prop where
  quiet : Quiet s
  alone : Alone s
  mode : (privilege i).level ≤ (modeOf s.cur.1 s.cur.2).level
  hints : (here s).hints.all (accepts i) = true
  bad : (here s).bad = []

/-- The state in which the issuing slot's instruction has retired (R20, R84, R87): the slot's contents `v` with its PC, loop
stack, hints and count moved on, and the issue pointer. -/
def after (s : State) (v : Slot) (flow : Flow) : State := onCore s s.cur.1 fun q => { q with
  slots := q.slots.set s.cur.2 (retired v (s.cur.2 == 3) flow)
  pointer := heldPointer v s.cur.2 q.pointer }

/-- An instruction that issues plainly retires with its slot's contents `v`. -/
def Runs (i : Instr) (s : State) (v : Slot) (flow : Flow) : Prop := Plain i s → exec i s = .next (after s v flow)

/-- An instruction that issues plainly traps at itself (R26): it takes no effect. -/
def Traps (i : Instr) (s : State) (cause : Nat) (addr : XWord) (sub info : Nat) : Prop :=
  Plain i s → exec i s = .next (shutterOn s (trapHere s cause addr sub info) s.cur.1)

/-- An instruction that issues plainly traps at itself after it has reached `u`: it takes no effect of its own (R26), and what the
memory hierarchy has done for it is not undone (R8). -/
def TrapsFrom (i : Instr) (s u : State) (cause : Nat) (addr : XWord) (sub info : Nat) : Prop :=
  Plain i s → exec i s = .next (shutterOn (left s u) (trapHere (left s u) cause addr sub info) s.cur.1)

/-! ### Programs within an instruction -/

/-- A program of the issuing slot's instruction answers `a` and leaves `t`, and the instruction goes on in the same slot. -/
structure Steps {α : Type} (act : M α) (s : State) (a : α) (t : State) : Prop where
  run : act s = .ok a t
  cur : t.cur = s.cur
  quiet : Quiet t
  alone : Alone t
  clean : (here t).bad = []

/-- An instruction that issues plainly retires from a state its body has reached, with the slot's contents `v`. -/
def Ends (i : Instr) (s t : State) (v : Slot) (flow : Flow) : Prop := Plain i s → exec i s = .next (after t v flow)

/-- The flags that fp.ctl[12:8] enables (Table 4.5). -/
def enabledOf (v : Slot) : Nat := v.fpCtl.toNat / 256 % 32

/-- The effective rounding mode (R55): a bound RM hint's, or fp.ctl[2:0]. -/
def roundingOf (v : Slot) : Nat := ((rmOf v).map Prod.snd).getD (v.fpCtl.toNat % 8)

/-- The state with flags raised in the issuing slot. -/
def withRaised (t : State) (flags : Nat) : State := onSlot t t.cur.1 t.cur.2 fun v => withFlags v flags

/-- How an instruction whose elements raise flags ends (R58), where its operands are read in `t` and `act` writes its result:
an enabled flag traps 0x08, with every flag raised and the lowest element that raised an enabled one, and nothing is
written; otherwise the flags are raised and the result is written. -/
def Raises (i : Instr) (s t : State) (fs : List (Nat × Nat)) (act : M Unit) : Prop :=
  (orFlags fs &&& enabledOf (here t) = 0 → ∀ u, Steps act (withRaised t (orFlags fs)) () u → Ends i s u (here u) .seq) ∧
  (orFlags fs &&& enabledOf (here t) ≠ 0 →
    TrapsFrom i s t 0x08 0 0 (orFlags fs + 256 * lowestRaised (enabledOf (here t)) fs))

/-- An instruction that issues plainly retires, and takes a trap after itself (R26): trap.pc is the next instruction. -/
def EndsTrapping (i : Instr) (s t : State) (v : Slot) (cause : Nat) (addr : XWord) (info : Nat) : Prop :=
  let u := after t v .seq
  Plain i s → exec i s = .next (shutterOn u (takeTrap u s.cur.1 s.cur.2 (here u).pc cause addr 0 info) s.cur.1)

/-- An instruction that issues plainly parks its slot (R113): it stays at its PC, with what it waits for. -/
def Parks (i : Instr) (s t : State) (w : Wait) : Prop := Plain i s → exec i s = .next (parkSlot t s.cur.1 s.cur.2 w)

/-- A step of another agent has an outcome; nothing of a superstep waits to be performed in it. -/
def Occurs (i : Instr) (s u : State) : Prop := Quiet u → exec i s = .next u

/-! ### Arithmetic and walks of a hearth -/

/-- What arithmetic that gathers flags answers (Table 4.6). -/
def resultOf {α : Type} (act : Flagged α) : α := (act.run 0).1

/-- The flags that arithmetic raises. -/
def raisedBy {α : Type} (act : Flagged α) : Nat := (act.run 0).2

/-- A part of a walk goes on: it answers `a`, and leaves the walk `v` and the state `t`. -/
def Walks {α : Type} (act : W α) (w : Walk) (s : State) (a : α) (v : Walk) (t : State) : Prop := act.run.run w s = .ok (.ok a, v) t

/-- A walk that has gathered flags. -/
def Walk.raised (w : Walk) (flags : Nat) : Walk := { w with flags := w.flags ||| flags }

/-- A slot with a stream replaced. -/
def withStream (v : Slot) (k : Fin 4) (q : Stream) : Slot := { v with s := v.s.set k q }

/-- What has happened before an instruction that releases at a scope goes on (R148, R168): wider than room, the dirty class S
words of the core's mapped ranges have been written back. -/
def Released (scope : Tier) (s t : State) : Prop :=
  let c := leadCore s s.cur.1 s.cur.2
  let dirty := (coreAt s c).mappings.flatMap (dirtyWords s (roomOf c))
  if scope.code ≤ 2 ∨ dirty = [] then t = s else Steps (backWords (releaseWord c) dirty) s none t

/-- No slot waits for a vault word (R124). -/
def NoWatcher (s : State) (r off : Nat) : Prop := ∀ c k op, (slotAt s c k).wait ≠ some (.word r off op)

/-- A vault word with nothing in the way of an access: its room is placed, its check bits match, it is not poisoned, no
copy covers it, it lies in no mapped range, and no partition move surrenders it. -/
structure Ready (s : State) (r off pr : Nat) (w : VaultWord) : Prop where
  placed : physicalRoom s r = some pr
  word : vaultAt s pr (off / 4 * 4) = w
  check : w.check = none
  clean : w.poison = false
  idle : boardHit s r (off / 4 * 4) 4 = none
  unmapped : isMapped s r off = none ∧ isMapped s r (off / 4 * 4) = none
  still : inMove s r (off / 4 * 4) 4 = false

/-- No mapped range and no accumulate-only line holds a copy of a memory word (R139, R144). -/
def Uncopied (s : State) : Prop :=
  (∀ e ∈ s.cores, e.2.mappings = []) ∧ (∀ e ∈ s.rooms, e.2.acc = []) ∧ s.homeParts = []

/-- An instruction that issues plainly leaves a state whole: its slot has gone on to something else, and its PC is not moved. -/
def Becomes (i : Instr) (s u : State) : Prop := Plain i s → exec i s = .next u

/-- What a program that ends the slot's task, or hands its slot over, has reached. -/
def Leaves (act : M Flow) (s u : State) : Prop :=
  act s = .ok .gone u ∧ u.cur = s.cur ∧ Quiet u ∧ (coreAt u s.cur.1).chain = none

end Sys2Proof.Machine
end

