-- ==== Sys2Proof/Certificates/Slice0/Obligations.lean ====
section
/-! DEFINITION. The statements for the provers. -/

open Sys2Proof Sys2Proof.Machine

/-! ### Integers (R69 to R78) -/

/-- R69, R71: the INT forms that compute on numbers write Ext of the exact result modulo 2^w, and retire. -/
def Claims.IntegerArithmetic : Prop := ∀ (s : State) (ty : Ty) (d a b : Reg),
  let v := here s
  let x := valTy ty (xOf v a)
  let y := valTy ty (xOf v b)
  let w := fun (r : Int) => withX v d (extInt ty r)
  Runs (.add ty d a b) s (w (x + y)) .seq ∧ Runs (.sub ty d a b) s (w (x - y)) .seq ∧
  Runs (.mul ty d a b) s (w (x * y)) .seq ∧ Runs (.mulh ty d a b) s (w (x * y / 2 ^ ty.bits)) .seq ∧
  Runs (.min ty d a b) s (w (min x y)) .seq ∧ Runs (.max ty d a b) s (w (max x y)) .seq ∧
  Runs (.slt ty d a b) s (w (if x < y then 1 else 0)) .seq

/-- R69, R71: the INT forms that compute on raw bits. The operand forms without xb are among them. -/
def Claims.IntegerBits : Prop := ∀ (s : State) (ty : Ty) (d a b : Reg),
  let v := here s
  let n := ty.bits
  let x := rawTy ty (xOf v a)
  let y := rawTy ty (xOf v b)
  let w := fun (r : Nat) => withX v d (extTy ty r)
  Runs (.and ty d a b) s (w (x &&& y)) .seq ∧ Runs (.or ty d a b) s (w (x ||| y)) .seq ∧
  Runs (.xor ty d a b) s (w (x ^^^ y)) .seq ∧
  Runs (.andn ty d a b) s (w (BitVec.ofNat n x &&& ~~~(BitVec.ofNat n y)).toNat) .seq ∧
  Runs (.sll ty d a b) s (w (x <<< (y % n))) .seq ∧ Runs (.srl ty d a b) s (w (x >>> (y % n))) .seq ∧
  Runs (.sra ty d a b) s (w ((BitVec.ofNat n x).sshiftRight (y % n)).toNat) .seq ∧
  Runs (.rot ty d a b) s (w ((BitVec.ofNat n x).rotateRight (y % n)).toNat) .seq ∧
  Runs (.seq ty d a b) s (w (if x = y then 1 else 0)) .seq ∧ Runs (.ext ty d a) s (w x) .seq ∧
  Runs (.cmov ty d a b) s (if y = 0 then v else w x) .seq

/-- R71: the counts are those of leading zeros, of trailing zeros and of ones. -/
def Claims.IntegerCounts : Prop := ∀ (s : State) (ty : Ty) (d a : Reg),
  let v := here s
  let n := ty.bits
  let x := rawTy ty (xOf v a)
  ∃ lead trail ones : Nat,
    Runs (.clz ty d a) s (withX v d (extTy ty lead)) .seq ∧ Runs (.ctz ty d a) s (withX v d (extTy ty trail)) .seq ∧
    Runs (.popc ty d a) s (withX v d (extTy ty ones)) .seq ∧
    lead ≤ n ∧ x < 2 ^ (n - lead) ∧ (lead < n → 2 ^ (n - lead - 1) ≤ x) ∧
    trail ≤ n ∧ 2 ^ trail ∣ x ∧ (trail < n → x.testBit trail = true) ∧
    ones = ((List.range n).filter fun i => x.testBit i).length

/-- R73: the bits of a field that BFX reads, and the bits that BFI places. -/
def Claims.BitFields : Prop := ∀ (s : State) (ty : Ty) (d a b : Reg),
  let v := here s
  let n := ty.bits
  let x := rawTy ty (xOf v a)
  let pos := (xOf v b).toNat % 64
  let len := min 64 ((xOf v b).toNat / 256 % 128)
  ∃ (f : Int) (t : Nat),
    Runs (.bfx ty d a b) s (withX v d (extInt ty f)) .seq ∧ Runs (.bfi ty d a b) s (withX v d (extTy ty t)) .seq ∧
    (len = 0 → f = 0) ∧
    (∀ i < len, (wrapInt len f).testBit i =
      if pos + i < n then x.testBit (pos + i) else ty.signed && x.testBit (n - 1)) ∧
    (0 < len → if ty.signed then -(2 ^ (len - 1) : Int) ≤ f ∧ f < 2 ^ (len - 1) else 0 ≤ f ∧ f < 2 ^ len) ∧
    t < 2 ^ n ∧ ∀ j < n, t.testBit j =
      if pos ≤ j ∧ j < pos + len then (xOf v a).toNat.testBit (j - pos) else (rawTy ty (xOf v d)).testBit j

/-- R72: division rounds toward zero, the remainder has the dividend's sign; a zero divisor traps 0x09 with trap.info[47:0]
zero, and leaves xd unchanged. -/
def Obligations.IntegerDivision : Prop := ∀ (s : State) (ty : Ty) (d a b : Reg),
  let v := here s
  let x := valTy ty (xOf v a)
  let y := valTy ty (xOf v b)
  (y ≠ 0 → Runs (.div ty d a b) s (withX v d (extInt ty (Int.tdiv x y))) .seq ∧
    Runs (.rem ty d a b) s (withX v d (extInt ty (x - y * Int.tdiv x y))) .seq) ∧
  (y = 0 → Traps (.div ty d a b) s 0x09 0 0 0 ∧ Traps (.rem ty d a b) s 0x09 0 0 0)

/-- R40, R74: the immediate forms on full registers; a bound WIDE hint gives the 38-bit immediate. -/
def Claims.Immediates : Prop := ∀ (s : State) (d a b : Reg) (imm : BitVec 16) (n : BitVec 6) (l : BitVec 21) (k : BitVec 4),
  let v := here s
  let x := xOf v a
  let si := match wideOf v with
    | some p => (p ++ imm : BitVec 38).signExtend 64
    | none => imm.signExtend 64
  let zi := match wideOf v with
    | some p => (p ++ imm : BitVec 38).setWidth 64
    | none => imm.setWidth 64
  Runs (.addi d a imm) s (withX v d (x + si)) .seq ∧ Runs (.andi d a imm) s (withX v d (x &&& zi)) .seq ∧
  Runs (.ori d a imm) s (withX v d (x ||| zi)) .seq ∧ Runs (.xori d a imm) s (withX v d (x ^^^ zi)) .seq ∧
  Runs (.slli d a n) s (withX v d (x <<< n.toNat)) .seq ∧ Runs (.srli d a n) s (withX v d (x >>> n.toNat)) .seq ∧
  Runs (.srai d a n) s (withX v d (x.sshiftRight n.toNat)) .seq ∧
  Runs (.roti d a n) s (withX v d (x.rotateRight n.toNat)) .seq ∧
  Runs (.slti d a imm) s (withX v d (if x.slt si then 1 else 0)) .seq ∧
  Runs (.sltni d a imm) s (withX v d (if x.ult zi then 1 else 0)) .seq ∧
  Runs (.lui d l) s (withX v d (l.signExtend 64 * 65536#64)) .seq ∧
  Runs (.lea d a b k) s (withX v d (x + xOf v b * BitVec.ofNat 64 (2 ^ k.toNat))) .seq

/-- R76 to R78: a slot that belongs to no launch forms a group of one at every level. PART gives it [0, E), and COORD 0. A
slot of a launch gets the share of R77 for its rank and group size. -/
def Claims.SharesOfWork : Prop := ∀ (s : State) (d a : Reg) (level : Tier),
  let v := here s
  let x := xOf v a
  let (k, n) := rankOf s s.cur.1 s.cur.2 level
  let e := x.toNat % 2 ^ 32
  let g := if x.toNat / 2 ^ 32 = 0 then 1 else x.toNat / 2 ^ 32
  let m := (e + g - 1) / g
  let lo := g * (k * m / n)
  let hi := min e (g * ((k + 1) * m / n))
  Runs (.part d a level) s (withX v d (BitVec.ofNat 32 hi ++ BitVec.ofNat 32 lo)) .seq ∧
  Runs (.coord d level) s (withX v d ((BitVec.ofNat 32 k).setWidth 64)) .seq ∧
  (launchOf v = none → (k, n) = (0, 1))

/-! ### Control (R79 to R88) -/

/-- R79: each compare-branch takes its branch exactly where its condition holds, to PC + 4 · the signed offset. -/
def Claims.CompareBranches : Prop := ∀ (s : State) (a b : Reg) (off : BitVec 16),
  let v := here s
  let x := xOf v a
  let y := xOf v b
  let go := fun (c : Prop) [Decidable c] => if c then Flow.taken (v.pc + 4 * off.signExtend 64) else Flow.seq
  Runs (.beq a b off) s v (go (x = y)) ∧ Runs (.bne a b off) s v (go (x ≠ y)) ∧
  Runs (.blt a b off) s v (go (x.toInt < y.toInt)) ∧ Runs (.bge a b off) s v (go (y.toInt ≤ x.toInt)) ∧
  Runs (.bltn a b off) s v (go (x.toNat < y.toNat)) ∧ Runs (.bgen a b off) s v (go (y.toNat ≤ x.toNat))

/-- R80, R81: the jumps; xa is read before x31 is written; a target that is not a multiple of 4 traps 0x03 with the target in
trap.addr, and x31 is unchanged. -/
def Claims.Jumps : Prop := ∀ (s : State) (a : Reg) (off : BitVec 26),
  let v := here s
  let t := xOf v a
  let dest := v.pc + 4 * off.signExtend 64
  Runs (.j off) s v (.taken dest) ∧ Runs (.jal off) s (withX v 31 (v.pc + 4)) (.taken dest) ∧
  (t.toNat % 4 = 0 → Runs (.jr a) s v (.taken t) ∧ Runs (.jalr a) s (withX v 31 (v.pc + 4)) (.taken t)) ∧
  (t.toNat % 4 ≠ 0 → Traps (.jr a) s 0x03 t 0 0 ∧ Traps (.jalr a) s 0x03 t 0 0)

/-- R20, R83: a LOOP pushes its count, start and end; a zero count skips the body; in a handler, on a full stack and where the
body leaves the enclosing one it traps 0x01. That the skip is no taken transfer is the model's choice (log entry 96). -/
def Claims.Loops : Prop := ∀ (s : State) (a : Reg) (len : BitVec 16),
  let v := here s
  let n := xOf v a
  let stop := v.pc + BitVec.ofNat 64 (4 * len.toNat)
  let leaves := (v.loops.head?.map fun e => decide (e.stop.toNat < stop.toNat)).getD false
  let word := (encode (.loop a len)).toNat
  (inHandler v = true → Traps (.loop a len) s 0x01 0 0 word) ∧
  (inHandler v = false → n = 0 → Runs (.loop a len) s v (.goto (v.pc + 4 + BitVec.ofNat 64 (4 * len.toNat)))) ∧
  (inHandler v = false → n ≠ 0 → v.loops.length < 4 → leaves = false →
    Runs (.loop a len) s { v with loops := ⟨n, v.pc + 4, stop⟩ :: v.loops } .seq) ∧
  (inHandler v = false → n ≠ 0 → 4 ≤ v.loops.length → Traps (.loop a len) s 0x01 0 0 1) ∧
  (inHandler v = false → n ≠ 0 → v.loops.length < 4 → leaves = true → Traps (.loop a len) s 0x01 0 0 word)

/-- R84: the loop end check. An instruction at the end of the innermost body starts another pass while passes are left, and
leaves the loop after the last; a taken transfer keeps the entries whose bodies hold its target; in a handler the stack is
frozen. -/
def Claims.LoopEnds : Prop := ∀ (v : Slot) (e : Loop) (rest : List Loop) (t : XWord),
  (v.loops = e :: rest → inHandler v = false →
    (v.pc = e.stop → e.remaining ≠ 1 →
      nextPc v .seq = (e.start, { e with remaining := e.remaining - 1 } :: rest)) ∧
    (v.pc = e.stop → e.remaining = 1 → nextPc v .seq = nextPc { v with loops := rest } .seq) ∧
    (v.pc ≠ e.stop → nextPc v .seq = (v.pc + 4, v.loops)) ∧
    (e.start ≤ t ∧ t ≤ e.stop → nextPc v (.taken t) = (t, v.loops)) ∧
    (¬(e.start ≤ t ∧ t ≤ e.stop) → nextPc v (.taken t) = nextPc { v with loops := rest } (.taken t))) ∧
  (v.loops = [] → nextPc v .seq = (v.pc + 4, [])) ∧
  (inHandler v = true → nextPc v .seq = (v.pc + 4, v.loops) ∧ nextPc v (.taken t) = (t, v.loops))

/-- R85: BSX branches while a configured stream is not exhausted, and traps 0x0B with the stream's number on one that is not
configured. -/
def Claims.StreamBranch : Prop := ∀ (s : State) (k : Fin 4) (off : BitVec 16),
  let v := here s
  let q := v.s.get k
  (q.configured = true → Runs (.bsx k off) s v (if streamDone q then .seq else .taken (v.pc + 4 * off.signExtend 64))) ∧
  (q.configured = false → Traps (.bsx k off) s 0x0B 0 k.val 0)

/-- R15, R38, R86: a hint joins the pending ones, and takes no effect of its own; a second of its kind, and one at the last
position of a loop body, trap 0x01. That its word counts in `retired` is the model's choice (log entry 94). -/
def Obligations.Hints : Prop := ∀ (s : State) (i : Instr), isHint i = true → Quiet s → Alone s →
  let v := here s
  let again := v.hints.any fun h => hintKind h == hintKind i
  (again = false → atLoopEnd v = false → exec i s = .next (putSlot s s.cur.1 s.cur.2 { v with
    hints := v.hints ++ [i], hintPc := if v.hints.isEmpty then v.pc else v.hintPc, pc := v.pc + 4, retired := v.retired + 1 })) ∧
  (again = true ∨ atLoopEnd v = true → exec i s = .next (shutterOn s (trapHere s 0x01 0 0 (encode i).toNat) s.cur.1))

/-! ### Vectors (R18, R52 to R58, R91 to R102) -/

/-- R19, R105: reading and writing the w registers that an instruction names. An unbound one is its stored contents; a bound
one pops its stream, once however often it is named; a write to a bound one pushes its stream. -/
def Claims.VectorOperands : Prop := ∀ s : State, (here s).bad = [] → Alone s →
  (∀ l : List Reg, (∀ r ∈ l, boundTo (here s) r = none) → readVecs l [] s = .ok (l.map (here s).w.get) s) ∧
  (∀ (r : Reg) (k : Fin 4) (e : VWide) (t : State), boundTo (here s) r = some k → popStream k s = .ok e t →
    readVecs [r] [] s = .ok [e] t ∧ readVecs [r, r] [] s = .ok [e, e] t) ∧
  (∀ (d : Reg) (e : VWide), boundTo (here s) d = none →
    ww d e s = .ok () (onSlot s s.cur.1 s.cur.2 fun v => withW v d e)) ∧
  (∀ (d : Reg) (k : Fin 4) (e : VWide), boundTo (here s) d = some k → ww d e s = pushStream k e s)

/-- R92, R58: the VARITH forms of two sources. Element j of the result comes from element j of the sources: an integer
modulo 2^w, a float rounded once at the effective mode. -/
def Claims.VectorArithmetic : Prop := ∀ (s t : State) (ty : Ty) (d a b : Reg) (x y : VWide),
  Steps (readVecs [a, b] []) s [x, y] t →
  let m := roundingOf (here t)
  let go := fun (i : Instr) (f : Nat → Nat → FRes) =>
    let rs := List.zipWith f (elems ty x) (elems ty y)
    Raises i s t (rs.mapIdx fun j r => (j, r.flags)) (ww d (joinElems ty (rs.map FRes.bits)))
  let int := fun (r : Int) => FRes.mk (wrapInt ty.bits r) 0
  let I := intOf ty
  let F := fmtOf ty
  go (.vadd ty d a b) (fun p q => if ty.isInt then int (I p + I q) else fAdd F m p q) ∧
  go (.vsub ty d a b) (fun p q => if ty.isInt then int (I p - I q) else fSub F m p q) ∧
  go (.vmul ty d a b) (fun p q => if ty.isInt then int (I p * I q) else fMul F m p q) ∧
  go (.vmulh ty d a b) (fun p q => int (I p * I q / 2 ^ ty.bits)) ∧
  go (.vmin ty d a b) (fun p q => if ty.isInt then int (min (I p) (I q)) else fMinMax F false p q) ∧
  go (.vmax ty d a b) (fun p q => if ty.isInt then int (max (I p) (I q)) else fMinMax F true p q) ∧
  go (.vdiv ty d a b) (fun p q => fDiv F m p q) ∧
  go (.vand ty d a b) (fun p q => ⟨p &&& q, 0⟩) ∧ go (.vor ty d a b) (fun p q => ⟨p ||| q, 0⟩) ∧
  go (.vxor ty d a b) (fun p q => ⟨p ^^^ q, 0⟩) ∧
  go (.vshl ty d a b) (fun p q => ⟨p * 2 ^ (q % ty.bits) % 2 ^ ty.bits, 0⟩) ∧
  go (.vshr ty d a b) (fun p q => int (I p / 2 ^ (q % ty.bits)))

/-- R92: the VARITH forms of one source. VABS and VNEG touch a float's sign bit only, and raise nothing. -/
def Claims.VectorUnary : Prop := ∀ (s t : State) (ty : Ty) (d a : Reg) (x : VWide),
  Steps (readVecs [a] []) s [x] t →
  let go := fun (i : Instr) (f : Nat → FRes) =>
    let rs := (elems ty x).map f
    Raises i s t (rs.mapIdx fun j r => (j, r.flags)) (ww d (joinElems ty (rs.map FRes.bits)))
  let int := fun (r : Int) => FRes.mk (wrapInt ty.bits r) 0
  let top := 2 ^ (ty.bits - 1)
  go (.vabs ty d a) (fun p => if ty.isInt then int (signedOf ty.bits p).natAbs else ⟨p % top, 0⟩) ∧
  go (.vneg ty d a) (fun p => if ty.isInt then int (-signedOf ty.bits p) else ⟨(p + top) % (2 * top), 0⟩) ∧
  go (.vsqrt ty d a) (fSqrt (fmtOf ty) (roundingOf (here t)))

/-- R93, R57: a compare makes the elements of pd active where it holds; floats compare as numbers, and a NaN is unordered. -/
def Claims.VectorCompares : Prop := ∀ (s t : State) (ty : Ty) (pd a b : Reg) (x y : VWide),
  Steps (readVecs [a, b] []) s [x, y] t →
  let go := fun (i : Instr) (strict : Bool) (fi : Int → Int → Bool) (ff : Order → Bool) =>
    let mask := maskOf ty (List.zipWith (fun p q =>
      if ty.isInt then fi (intOf ty p) (intOf ty q) else ff (fCompare (fmtOf ty) p q)) (elems ty x) (elems ty y))
    if ty.isInt then Ends i s t (withP (here t) pd mask) .seq
    else Raises i s t ((List.zipWith (compareFlags (fmtOf ty) strict) (elems ty x) (elems ty y)).mapIdx fun j f => (j, f))
      (wp pd mask)
  go (.vcmpeq ty pd a b) false (fun p q => p == q) (fun o => o == .eq) ∧
  go (.vcmpne ty pd a b) false (fun p q => p != q) (fun o => o != .eq) ∧
  go (.vcmplt ty pd a b) true (fun p q => decide (p < q)) (fun o => o == .lt) ∧
  go (.vcmple ty pd a b) true (fun p q => decide (p ≤ q)) (fun o => o == .lt || o == .eq) ∧
  go (.vcmpun ty pd a b) false (fun _ _ => false) (fun o => o == .un)

/-- R18, R93: the mask of a compare has element j active exactly where the comparison of element j held. -/
def Claims.MaskElements : Prop := ∀ (ty : Ty) (l : List Bool) (j : Nat), l.length ≤ elemsIn ty → j < l.length →
  active ty (maskOf ty l) j = l.getD j false ∧
  ∀ i < ty.size, (maskOf ty l).getLsbD (ty.size * j + i) = l.getD j false

/-- R95: the four fused forms round the exact value once. -/
def Claims.VectorFused : Prop := ∀ (s t : State) (ty : Ty) (d a b c : Reg) (x y z : VWide),
  Steps (readVecs [a, b, c] []) s [x, y, z] t →
  let go := fun (i : Instr) (negProduct negAddend : Bool) =>
    let rs := (List.range (elemsIn ty)).map fun j => fFma (fmtOf ty) (roundingOf (here t)) negProduct negAddend
      ((elems ty x).getD j 0) ((elems ty y).getD j 0) ((elems ty z).getD j 0)
    Raises i s t (rs.mapIdx fun j r => (j, r.flags)) (ww d (joinElems ty (rs.map FRes.bits)))
  go (.vfma ty d a b c) false false ∧ go (.vfms ty d a b c) false true ∧
  go (.vfnma ty d a b c) true false ∧ go (.vfnms ty d a b c) true true

/-- R56, R96, R59: VCVT converts the low elements and zeroes the rest; VCVTX fills the other half of a narrower destination,
or converts the high elements into a wider one. An intermediate step raises only the invalid flag. SAT from integer to integer is
the model's reading (log entry 95). -/
def Claims.VectorConversions : Prop := ∀ (s t : State) (ty src : Ty) (d a : Reg) (x : VWide),
  let m := 32 / max src.size ty.size
  let one := fun (v : Slot) (e : Nat) =>
    let r := convert src ty (roundingOf v) (satOf v) e
    FRes.mk r.bits (if ((rmOf v).map Prod.fst).getD false then r.flags &&& flagNV else r.flags)
  let go := fun (i : Instr) (first : Nat) (es : List Nat) (write : List Nat → VWide) =>
    let rs := es.map (one (here t))
    Raises i s t (rs.mapIdx fun j r => (j + first, r.flags)) (ww d (write (rs.map FRes.bits)))
  (Steps (readVecs [a] []) s [x] t →
    go (.vcvt ty d a src) 0 ((elems src x).take m) (joinElems ty) ∧
    (ty.size = src.size → go (.vcvtx ty d a src) 0 ((elems src x).take m) (joinElems ty)) ∧
    (src.size < ty.size → go (.vcvtx ty d a src) 0 (((elems src x).drop m).take m) (joinElems ty))) ∧
  (ty.size < src.size → ∀ (r : State) (old : VWide), Steps (rwOwn d) s old r → Steps (readVecs [a] []) r [x] t →
    go (.vcvtx ty d a src) m ((elems src x).take m)
      fun l => joinElems ty ((elems ty old).take m ++ l ++ (elems ty old).drop (2 * m)))

/-- R97, R98: VQNT packs the group's block of 32 into wd; VXPQ writes the 32 weights it holds, rounded by fp.ctl[2:0]. -/
def Claims.VectorQuantisation : Prop := ∀ (s t : State) (ty src : Ty) (d a : Reg),
  (∀ xs : List VWide, Steps (readGroup (groupRegs a src)) s xs t →
    let b := quantise ty (roundingOf (here t)) (fmtOf src) (xs.flatMap (elems src))
    Raises (.vqnt ty d a src) s t [(0, b.flags)]
      (ww d (BitVec.ofNat 256 (natOfBytes (packGroup ty b.q ++ [BitVec.ofNat 8 b.scale]))))) ∧
  (∀ x : VWide, (∀ r ∈ groupRegs d ty, boundTo (here s) r = none) → Steps (readVecs [a] []) s [x] t →
    let bs := bytesOfNat 32 x.toNat
    let scale := (bs.getD (if src = .q4 then 16 else 12) 0).toNat
    let rs := (List.range 32).map fun j =>
      if scale = 0xFF then FRes.mk (defaultNan (fmtOf ty)) flagNV
      else roundVal (fmtOf ty) ((here t).fpCtl.toNat % 8) false
        (.fin (decide (unpackWeight src bs j < 0)) (unpackWeight src bs j).natAbs ((scale : Int) - 127))
    Raises (.vxpq ty d a src) s t (rs.mapIdx fun j r => (j, r.flags))
      (writeGroup (groupRegs d ty) (groupOf ty (rs.map FRes.bits))))

/-- R94, R99, R100: the forms that move elements; none raises a flag. -/
def Claims.VectorMoves : Prop := ∀ (s t u : State) (ty : Ty) (d a b : Reg) (x y : VWide),
  let n := elemsIn ty
  let E := elems ty
  let X := xOf (here s)
  let P := pOf (here s)
  let packed := (((E y).zipIdx).filter fun e => active ty (P a) e.2).map Prod.fst
  let place := fun j => ((List.range j).filter (active ty (P a))).length
  let count := BitVec.ofNat 64 ((List.range n).filter (active ty (P a))).length
  (Steps (readVecs [a, b] []) s [x, y] t →
    Steps (ww d (joinElems ty ((E y).map fun i => (E x).getD i 0))) t () u → Ends (.vperm ty d a b) s u (here u) .seq) ∧
  (Steps (readVecs [a] []) s [x] t → Steps (ww d x) t () u → Ends (.vmov d a) s u (here u) .seq) ∧
  (Steps (readVecs [a] []) s [x] t →
    let i := (xOf (here t) b).toNat
    Ends (.vext ty d a b) s t (withX (here t) d (if i < n then extTy ty ((E x).getD i 0) else 0)) .seq) ∧
  (Steps (ww d (joinElems ty (List.replicate n (X a).toNat))) s () u → Ends (.vsplat ty d a) s u (here u) .seq) ∧
  (Steps (rwOwn d) s y s →
    (let i := (X b).toNat;
      Steps (ww d (if i < n then joinElems ty ((E y).set i (X a).toNat) else y)) s () u → Ends (.vins ty d a b) s u (here u) .seq) ∧
    (Steps (ww d (joinElems ty packed)) s () u → Ends (.vcps ty d a b) s u (withX (here u) b count) .seq) ∧
    (Steps (ww d (joinElems ty ((List.range n).map fun j => if active ty (P a) j then (E y).getD (place j) 0 else 0))) s () u →
      Ends (.vxpd ty d a b) s u (withX (here u) b count) .seq) ∧
    (Steps (readVecs [a] []) s [x] t →
      Steps (ww d (joinElems ty ((List.range n).map fun j =>
        if active ty (pOf (here t) b) j then (E x).getD j 0 else (E y).getD j 0))) t () u →
      Ends (.vsel ty d a b) s u (here u) .seq))

/-- R63, R64, R101: the reductions. Integers wrap; floats sum in a pairwise tree; VDOT sums lane products, in the tree where each is
rounded, exactly and rounded once for b16. -/
def Claims.VectorReductions : Prop := ∀ (s t : State) (ty : Ty) (d a b : Reg) (x y : VWide),
  let m := roundingOf (here t)
  let F := fmtOf ty
  let go := fun (i : Instr) (fi : List Int → Int) (ff : Nat → Nat → FRes) =>
    if ty.isInt then Ends i s t (withX (here t) d (extInt ty (fi ((elems ty x).map (intOf ty))))) .seq
    else
      let r := reduceTree ff (elems ty x)
      Raises i s t r.2 (wx d (BitVec.ofNat 64 r.1))
  (Steps (readVecs [a] []) s [x] t →
    go (.vreda ty d a) List.sum (fAdd F m) ∧
    go (.vredn ty d a) (fun l => l.tail.foldl min (l.headD 0)) (fMinMax F false) ∧
    go (.vredx ty d a) (fun l => l.tail.foldl max (l.headD 0)) (fMinMax F true)) ∧
  (Steps (readVecs [a, b] []) s [x, y] t →
    let sum := ((List.zipWith (fun p q => intOf ty p * intOf ty q) (elems ty x) (elems ty y))).sum
    let r := dotOf ty m (elems ty x) (elems ty y)
    Raises (.vdot ty d a b) s t r.2 (wx d r.1) ∧
    (ty = .i8 → r = (BitVec.ofInt 64 (signedOf 32 (wrapInt 32 sum)), [])) ∧
    (ty = .i32 ∨ ty = .i64 → r = (BitVec.ofInt 64 sum, [])) ∧
    (ty = .f32 ∨ ty = .f64 → let ps := List.zipWith (fMul F m) (elems ty x) (elems ty y)
      r.1 = BitVec.ofNat 64 (reduceTree (fAdd F m) (ps.map FRes.bits)).1) ∧
    (ty = .b16 → r.1 = BitVec.ofNat 64 (exactDot (F, F) m ((elems ty x).zip (elems ty y))).bits))

/-- R63, R101: the pairwise tree. Each level combines adjacent results of the level below, until one is left; a flag's lane is the
lowest below the operation that raised it. -/
def Claims.ReductionTree : Prop := ∀ (f : Nat → Nat → FRes) (l : List Nat) (n p q r w enabled : Nat),
  let level := (List.range (l.length / 2)).map fun i => (f (l.getD (2 * i) 0) (l.getD (2 * i + 1) 0)).bits
  let u := f p q
  let v := f r w
  let top := f u.bits v.bits
  let four := reduceTree f [p, q, r, w]
  reduceTree f [p] = (p, []) ∧
  (n < 5 → l.length = 2 ^ (n + 1) → (reduceTree f l).1 = (reduceTree f level).1) ∧
  (four.1 = top.bits ∧ orFlags four.2 = u.flags ||| v.flags ||| top.flags ∧
    lowestRaised enabled four.2 =
      if (u.flags ||| top.flags) &&& enabled ≠ 0 then 0 else if v.flags &&& enabled ≠ 0 then 2 else 0)

/-- R63, R64, R101: the reductions complete, on registers that no stream is bound to: the integer ones always, the float ones where
no flag that they raise is enabled. -/
def Claims.ReductionsComplete : Prop := ∀ (s : State) (ty : Ty) (d a b : Reg),
  let v := here s
  let m := roundingOf v
  let F := fmtOf ty
  let x := elems ty (v.w.get a)
  let y := elems ty (v.w.get b)
  let I := x.map (intOf ty)
  let float := fun (i : Instr) (r : XWord) (flags : Nat) => flags &&& enabledOf v = 0 →
    Runs i s (withX (withFlags v flags) d r) .seq
  let tree := fun (i : Instr) (f : Nat → Nat → FRes) =>
    float i (BitVec.ofNat 64 (reduceTree f x).1) (orFlags (reduceTree f x).2)
  boundTo v a = none → boundTo v b = none →
  (ty.isInt = true → Runs (.vreda ty d a) s (withX v d (extInt ty I.sum)) .seq ∧
    Runs (.vredn ty d a) s (withX v d (extInt ty (I.tail.foldl min (I.headD 0)))) .seq ∧
    Runs (.vredx ty d a) s (withX v d (extInt ty (I.tail.foldl max (I.headD 0)))) .seq) ∧
  (ty.isInt = false → tree (.vreda ty d a) (fAdd F m) ∧ tree (.vredn ty d a) (fMinMax F false) ∧
    tree (.vredx ty d a) (fMinMax F true)) ∧
  (let r := dotOf ty m x y
   float (.vdot ty d a b) r.1 (orFlags r.2))

/-- R102: the forms on masks; p0 reads all ones and discards writes. -/
def Claims.Predicates : Prop := ∀ (s : State) (ty : Ty) (d a b : Reg),
  let v := here s
  let P := pOf v
  let n := elemsIn ty
  Runs (.pand d a b) s (withP v d (P a &&& P b)) .seq ∧ Runs (.por d a b) s (withP v d (P a ||| P b)) .seq ∧
  Runs (.pxor d a b) s (withP v d (P a ^^^ P b)) .seq ∧ Runs (.pnot d a) s (withP v d (~~~(P a))) .seq ∧
  Runs (.pcnt ty d a) s (withX v d (BitVec.ofNat 64 ((List.range n).filter (active ty (P a))).length)) .seq ∧
  Runs (.pset d a) s (withP v d ((xOf v a).setWidth 32)) .seq ∧ Runs (.pget d a) s (withX v d ((P a).setWidth 64)) .seq ∧
  ∃ j, Runs (.pfst ty d a) s (withX v d (BitVec.ofNat 64 j)) .seq ∧ j ≤ n ∧ (∀ i < j, active ty (P a) i = false) ∧
    (j < n → active ty (P a) j = true)

/-- R54, Table 4.3: a magnitude brought to a unit 2^d by each mode. -/
def Claims.Rounding : Prop := ∀ (sign : Bool) (m d : Nat),
  let q := fun mode => (roundShift mode sign m d).1
  let lo := m / 2 ^ d
  (∀ mode, ((roundShift mode sign m d).2 = false ↔ q mode * 2 ^ d = m) ∧ (q mode = lo ∨ q mode = lo + 1)) ∧
  2 * (q 0 * 2 ^ d) ≤ 2 * m + 2 ^ d ∧ 2 * m ≤ 2 * (q 0 * 2 ^ d) + 2 ^ d ∧
  (2 * (m % 2 ^ d) = 2 ^ d → q 0 % 2 = 0) ∧
  q 1 = lo ∧
  (m % 2 ^ d ≠ 0 → (q 2 = if sign then lo else lo + 1) ∧ (q 3 = if sign then lo + 1 else lo) ∧ q 4 = if lo % 2 = 1 then lo else lo + 1)

/-- R50, R51, R54: every encoding that is no NaN is exactly the value it has: rounded in any mode, it gives itself and raises
nothing. -/
def Claims.FloatEncodings : Prop := ∀ (ty : Ty) (mode b : Nat), 8 ≤ ty.code → ty.code ≤ 13 → b < 2 ^ (fmtOf ty).width →
  (unpack (fmtOf ty) b).isNan = false → roundVal (fmtOf ty) mode false (unpack (fmtOf ty) b) = ⟨b, 0⟩

/-! ### Streams (R103 to R110) -/

/-- R103: the address of an item. A direct stream computes it; an indirect one reads its index first. -/
def Claims.StreamAddresses : Prop := ∀ (s : State) (q : Stream) (n : Nat),
  let field := fun (lo w : Nat) => q.desc.toNat / 2 ^ lo % 2 ^ w
  let wide := 4 * 2 ^ field 128 2
  let m := 32 / wide
  let base := BitVec.ofNat 64 (field 0 64)
  let stride := BitVec.ofInt 64 (signedOf 32 (field 96 32))
  let is := if field 192 32 = 0 then BitVec.ofNat 64 wide else BitVec.ofInt 64 (signedOf 32 (field 192 32))
  let z := if field 132 1 = 1 then 8 else 4
  (field 131 1 = 0 → itemAddress q n s = .ok (base + BitVec.ofNat 64 (n / m) * stride + BitVec.ofNat 64 (n % m) * is) s) ∧
  (field 131 1 = 1 → ∀ (bs : List Byte) (t : State),
    streamRead (BitVec.ofNat 64 (field 192 64) + BitVec.ofNat 64 (n * z)) z s = .ok bs t →
    itemAddress q n s = .ok (base + BitVec.ofNat 64 (natOfBytes bs) * stride) t)

/-- R105, R106, R108: a pop takes the next element, fetched ahead or now; a push writes the items below count in their order, each
checked before any is written; the position moves on. An exhausted stream gives zeros and sets its overrun bit; a pop of a write
stream and a push to a read stream trap 0x0B. What is fetched ahead, and what counts as the last element, are the model's choices
(log entries 18 and 99). -/
def Claims.StreamElements : Prop := ∀ (s : State) (k : Fin 4) (e : VWide),
  let q := (here s).s.get k
  let count := q.desc.toNat / 2 ^ 64 % 2 ^ 32
  let m := 32 / (4 * 2 ^ (q.desc.toNat / 2 ^ 128 % 4))
  let put := fun (t : State) (f : Stream → Stream) => onSlot t t.cur.1 t.cur.2 fun v => withStream v k (f (v.s.get k))
  let next := fun (p : Stream) => BitVec.ofNat 32 (min count (p.pos.toNat + m))
  (q.desc.getLsbD 130 = true → popStream k s = .error (.trap 0x0B 0 k.val 0) s) ∧
  (q.desc.getLsbD 130 = false → pushStream k e s = .error (.trap 0x0B 0 k.val 0) s) ∧
  (q.desc.getLsbD 130 = false → q.pos.toNat = count →
    popStream k s = .ok 0 (put s fun p => { p with overrun := true, last := some 0 })) ∧
  (q.desc.getLsbD 130 = false → q.pos.toNat ≠ count → q.fetched.head? = some e →
    popStream k s = .ok e (put s fun p => { p with pos := next p, fetched := p.fetched.tail, last := some e })) ∧
  (q.desc.getLsbD 130 = false → q.pos.toNat ≠ count → q.fetched = [] → ∀ t, Steps (fetchElement q q.pos.toNat) s e t →
    popStream k s = .ok e (put t fun p => { p with pos := next p, fetched := p.fetched.tail, last := some e })) ∧
  (q.desc.getLsbD 130 = true → q.pos.toNat < count → ∀ ps t u, Steps (itemParts q e.toNat (List.range m)) s ps t →
    Steps (ps.forM fun p => sendParts p.1 p.2) t () u →
    pushStream k e s = .ok () (put u fun p => { p with pos := next p, last := some e })) ∧
  (∀ i rest a ps qs t u w, q.pos.toNat + i < count → itemAddress q (q.pos.toNat + i) s = .ok a t →
    storeParts a (32 / m) t = .ok ps u → itemParts q e.toNat rest u = .ok qs w →
    itemParts q e.toNat (i :: rest) s = .ok ((ps, bytesOfNat (32 / m) (e.toNat / 2 ^ (8 * (32 / m) * i))) :: qs) w) ∧
  (∀ i rest, count ≤ q.pos.toNat + i → itemParts q e.toNat (i :: rest) s = itemParts q e.toNat rest s) ∧
  (q.desc.getLsbD 130 = true → q.pos.toNat = count →
    pushStream k e s = .ok () (put s fun p => { p with pos := next p, overrun := true, last := some e }))

/-- R104, R105, R107, R108: configuring, binding, ending, reading and skipping. The stream that a failed SBIND names, and what
counts as the last element, are the model's choices (log entries 98 and 99). -/
def Claims.StreamInstructions : Prop := ∀ (s : State) (d a : Reg),
  let v := here s
  let k : Fin 4 := Fin.ofNat 4 a.val
  let q := v.s.get k
  let count := q.desc.toNat / 2 ^ 64 % 2 ^ 32
  let ended := match q.bound, q.last with
    | some r, some e => withW v r e
    | _, _ => v
  (q.configured = true → q.bound = none → boundTo v d = none →
    Runs (.sbind d a) s (withStream v k { q with bound := some d }) .seq) ∧
  (q.configured = false ∨ q.bound.isSome ∨ (boundTo v d).isSome → Traps (.sbind d a) s 0x0B 0 k.val 0) ∧
  (q.configured = true → Runs (.send a) s (withStream ended k Stream.reset) .seq) ∧
  (q.configured = false → Traps (.send a) s 0x0B 0 k.val 0 ∧ Traps (.sskip a d) s 0x0B 0 k.val 0) ∧
  (q.configured = true → Runs (.sskip a d) s
    (withStream v k { q with pos := BitVec.ofNat 32 (min count (q.pos.toNat + (xOf v d).toNat)), fetched := [] }) .seq) ∧
  (q.configured = false → Runs (.sstat d a) s (withX v d 0) .seq) ∧
  (q.configured = true → q.pos.toNat ≤ count → Runs (.sstat d a) s (withX v d (BitVec.ofNat 64
    ((if q.pos.toNat = count then 2 ^ 41 else 0) + (if q.overrun then 2 ^ 40 else 0) +
      (match q.bound with | some r => 2 ^ 35 * r.val + 2 ^ 34 | none => 0) +
      (if q.desc.getLsbD 130 then 2 ^ 33 else 0) + 2 ^ 32 + (count - q.pos.toNat)))) .seq)

/-- R104: SCFG's checks, in their order, and what it leaves: a stream configured, unbound, at item 0. -/
def Claims.StreamSetup : Prop := ∀ (s t : State) (a d : Reg) (bs : List Byte),
  let k : Fin 4 := Fin.ofNat 4 d.val
  let x := xOf (here s) a
  let q : Stream := { Stream.reset with configured := true, desc := BitVec.ofNat 256 (natOfBytes bs) }
  (((here s).s.get k).configured = true → Traps (.scfg d a) s 0x0B 0 k.val 0) ∧
  (((here s).s.get k).configured = false → x.toNat % 8 ≠ 0 → Traps (.scfg d a) s 0x03 x 0 0) ∧
  (((here s).s.get k).configured = false → x.toNat % 8 = 0 → Steps (loadBytes x 32) s bs t →
    (streamZeros q = true → TrapsFrom (.scfg d a) s t 0x0B 0 k.val 0) ∧
    (∀ b, streamZeros q = false → streamMisaligned q = some b → TrapsFrom (.scfg d a) s t 0x03 b 0 0) ∧
    (streamZeros q = false → streamMisaligned q = none → Ends (.scfg d a) s t (withStream (here t) k q) .seq))

/-- R109, R110, R111, R298: a read stream fetches the next element it lacks, as its slot; a fetch that fails raises nothing, and one
that misses goes to the translation unit. A pair fetches once, for both cores. -/
def Claims.StreamFetches : Prop := ∀ (s : State) (c : Nat) (k n : Fin 4),
  let q := (slotAt s c k).s.get n
  let from_ := { s with cur := (c, k) }
  let pos := q.pos.toNat + 32 / streamWidth q * q.fetched.length
  (isSecond s c k = false → q.configured = true → streamWrites q = false → pos < streamCount q → q.fetched.length < fetchDepth →
    (∀ e t, fetchElement q pos from_ = .ok e t → Occurs (.streamFetch c k n) s (shareFetched c k n
      { onSlot t t.cur.1 t.cur.2 (fun v => withStream v n { v.s.get n with fetched := (v.s.get n).fetched ++ [e] }) with
        cur := s.cur })) ∧
    (∀ e t, fetchElement q pos from_ = .error e t → (∀ w due, e ≠ .park w due) →
      Occurs (.streamFetch c k n) s (shareFetched c k n { lookups from_ t with cur := s.cur })) ∧
    (∀ w due t, fetchElement q pos from_ = .error (.park w due) t → let l := lookups from_ t
      Occurs (.streamFetch c k n) s (shareFetched c k n { post l (newDue l (due.map (ofEngine c))) with cur := s.cur }))) ∧
  (isSecond s c k = true ∨ (q.configured = false ∧ followerOf s c k = none) → Occurs (.streamFetch c k n) s s) ∧
  (∀ f, followerOf s c k = some f → f ≠ c →
    ((slotAt (shareFetched c k n s) f k).s.get n).fetched = q.fetched)

/-! ### Loads and stores (R128 to R133, R153, R156 to R159) -/

/-- R158, R159, R168: the scalar and wide forms. Their addresses are xa plus the offset scaled by the access size, or xa plus
xb; the bytes are little-endian; x registers get them extended by the type. -/
def Claims.LoadsAndStores : Prop := ∀ (s t u : State) (ty : Ty) (d a b : Reg) (off : BitVec 12) (scope : Tier)
    (bs : List Byte) (e : VWide),
  let X := xOf (here s)
  let o := match wideOf (here s) with
    | some p => (p ++ off : BitVec 34).signExtend 64
    | none => off.signExtend 64
  let dest := fun (n : Nat) => X a + o * BitVec.ofNat 64 n
  let z := ty.size
  (Steps (loadBytes (dest z) z) s bs t → Ends (.ld ty d a off) s t (withX (here t) d (extTy ty (natOfBytes bs))) .seq) ∧
  (Steps (loadBytes (X a + X b) z) s bs t → Ends (.ldx ty d a b) s t (withX (here t) d (extTy ty (natOfBytes bs))) .seq) ∧
  (Steps (loadBytes (dest 32) 32) s bs t → Steps (ww d (BitVec.ofNat 256 (natOfBytes bs))) t () u →
    Ends (.vld ty d a off) s u (here u) .seq) ∧
  (Steps (storeBytes (dest z) (bytesOfNat z (X d).toNat)) s () t → Ends (.st ty d a off) s t (here t) .seq) ∧
  (Steps (storeBytes (X a + X b) (bytesOfNat z (X d).toNat)) s () t → Ends (.stx ty d a b) s t (here t) .seq) ∧
  (Steps (readVecs [d] []) s [e] t → Steps (storeBytes (dest 32) (bytesOfNat 32 e.toNat)) t () u →
    Ends (.vst ty d a off) s u (here u) .seq) ∧
  (Steps (prefetchLine s.cur.1 (here s).ctx (X a + X b)) s () t → Ends (.pf a b) s t (here t) .seq) ∧
  ((X a).toNat % z = 0 → Steps (loadBytes (X a) z) s bs t → ∀ w,
    Steps (do wx d (extTy ty (natOfBytes bs)); acquire scope) t () w → Ends (.lda ty d a scope) s w (here w) .seq) ∧
  ((X a).toNat % z = 0 → ∀ ps r, Steps (storeParts (X a) z) s ps r → Released scope r t →
    Steps (storeBytes (X a) (bytesOfNat z (xOf (here t) d).toNat)) t () u → Ends (.stl ty d a scope) s u (here u) .seq) ∧
  ((X a).toNat % z ≠ 0 → Traps (.lda ty d a scope) s 0x03 (X a) 0 0 ∧ Traps (.stl ty d a scope) s 0x03 (X a) 0 0)

/-- R159: the gathers and scatters. Element j is at xa plus its signed index scaled by the element size, or at xa + j · xb. -/
def Claims.GathersAndScatters : Prop := ∀ (s t u w : State) (ty : Ty) (d a b : Reg) (e f : VWide)
    (ps : List (List (XWord × Place × Nat))) (es : List (List Byte)),
  let X := xOf (here s)
  let z := ty.size
  let byIndex := (elems ty e).map fun j => X a + BitVec.ofInt 64 (signedOf ty.bits j * z)
  let byStride := (List.range (32 / z)).map fun j => X a + BitVec.ofNat 64 j * X b
  (Steps (readVecs [b] []) s [e] t → Steps (locateElems .read z byIndex) t ps u → ∀ r, Steps (seeElems ps) u es r →
    Steps (ww d (joinElems ty (es.map natOfBytes))) r () w → Ends (.vldx ty d a b) s w (here w) .seq) ∧
  (Steps (locateElems .read z byStride) s ps t → Steps (seeElems ps) t es u →
    Steps (ww d (joinElems ty (es.map natOfBytes))) u () w → Ends (.vlds ty d a b) s w (here w) .seq) ∧
  (Steps (readVecs [b, d] []) s [e, f] t → Steps (locateElems .write z byIndex) t ps u →
    Steps (sendElems ps ((elems ty f).map (bytesOfNat z))) u () w → Ends (.vstx ty d a b) s w (here w) .seq) ∧
  (Steps (readVecs [d] []) s [f] t → Steps (locateElems .write z byStride) t ps u →
    Steps (sendElems ps ((elems ty f).map (bytesOfNat z))) u () w → Ends (.vsts ty d a b) s w (here w) .seq)

/-- R133, R158: a load and a store within one word of a scratchpad of the slot's own hall: the load reads the word's bytes, the
store replaces them and makes the word valid. Nothing else changes: the next state is given whole. -/
def Claims.VaultAccesses : Prop := ∀ (s : State) (a : XWord) (n pr : Nat) (w : VaultWord) (data : List Byte),
  let off := a.toNat % 2 ^ 23
  let c := s.cur.1
  ∀ r, isThreshold c = false → isCanonical a = true → isVaultAddr a = true → vaultRoom (roomOf c) a = some r →
    r / 16 = hallOf c → roomRuns s (here s).ctx r = true → inScratchpad s r off = true → Ready s r off pr w →
    0 < n → off % 4 + n ≤ 4 → Alone s → recoverable s (here s) = none →
    ((roomAt s (roomOf c)).hold = [] → loadBytes a n s = .ok (bytesOfWord w.data (off % 4) n) s) ∧
    (data.length = n → storeBytes a data s = .ok ()
      (putVault s pr (off / 4 * 4) { w with data := patchWord w.data (off % 4) data, v := true }))

/-- R133, R380: reading a vault word after writing one: the word written reads as it was written, every other word of every
room as before, spare rows included; memory, cores, rooms and halls are as they were. -/
def Claims.VaultWords : Prop := ∀ (s : State) (pr off pr' off' : Nat) (w : VaultWord),
  let t := putVault s pr off w
  (w ≠ VaultWord.reset ∨ (tsorted 0 s.vault = true ∧ tsorted 0 s.spares = true) → vaultAt t pr off = w) ∧
  (pr' ≠ pr ∨ off' % 2 ^ 23 / 4 ≠ off % 2 ^ 23 / 4 → vaultAt t pr' off' = vaultAt s pr' off') ∧
  t.mem = s.mem ∧ t.cores = s.cores ∧ t.rooms = s.rooms ∧ t.halls = s.halls ∧ t.launches = s.launches

/-- R411: loads and stores of a threshold core are physical, under key id 0. A store changes the bytes it stores to and no
other byte of memory. Beyond device DRAM's 52 bits an address traps 0x05. -/
def Claims.FirmwareAccesses : Prop := ∀ (s : State) (a : XWord) (n : Nat) (data : List Byte),
  let pa := a.toNat
  isThreshold s.cur.1 = true → Alone s → migratable s (here s) = false → recoverable s (here s) = none →
  (2 ^ 52 ≤ pa → loadBytes a n s = .error (.trap 0x05 a 0 0) s ∧ storeBytes a data s = .error (.trap 0x05 a 0 0) s) ∧
  (pa < 2 ^ 52 → populated pa = true → pa % 16384 + n ≤ 16384 → 0 < n → Uncopied s →
    ((roomAt s (roomOf s.cur.1)).hold = [] → poisonIn s pa n = none → loadBytes a n s = .ok (memBytes s.mem pa n) s) ∧
    (data.length = n → ∃ u, storeBytes a data s = .ok () u ∧ u.mem = memWrite s.mem pa data ∧ u.vault = s.vault ∧
      u.spares = s.spares ∧ u.cores = s.cores ∧ u.rooms = s.rooms ∧ u.halls = s.halls))

/-- R6: bytes of memory after bytes were written from an address: those written read as written, every other as before; and
the canonical form is kept. -/
def Claims.MemoryBytes : Prop := ∀ (m : List Host.Cell) (a k : Nat) (bs : List Byte), Memory.wf m = true →
  memByte (memWrite m a bs) k = (if a ≤ k ∧ k < a + bs.length then bs.getD (k - a) 0 else memByte m k) ∧
  memBytes (memWrite m a bs) a bs.length = bs ∧ Memory.wf (memWrite m a bs) = true

/-- R127, R131, R132, R140, R144, R297, R298: a translated address of the issuing slot. A hit gives the entry's key and frame; an
access the page refuses traps; a miss parks the slot until the translation unit answers. -/
def Obligations.Translation : Prop := ∀ (s : State) (a : XWord) (acc : Access),
  let c := s.cur.1
  let miss := Stop.park .translation [.translationMiss (hallOf c) ⟨(here s).ctx, a, acc, .slot c s.cur.2⟩]
  isThreshold c = false → Alone s →
  (isCanonical a = false → locate a acc .plain s = .error (.trap 0x05 a 0 0) s) ∧
  (isCanonical a = true → isVaultAddr a = false →
    (slotLookup s c (here s).ctx (pageOf a) = none → locate a acc .plain s = .error miss s) ∧
    (∀ e t, slotLookup s c (here s).ctx (pageOf a) = some (e, t) →
      let pa := frameOf e a
      (∀ cause, refusal s pa e.attr acc .plain = some cause → locate a acc .plain s = .error (.trap cause a 0 0) t) ∧
      (refusal s pa e.attr acc .plain = none → populated pa = true →
        locate a acc .plain s = .ok (.mem (attrKey e.attr) pa) t))) ∧
  (∀ (attr : BitVec 32) (pa : Nat), spaceOf pa = .dram → (s.krBusy = false) →
    (refusal s pa attr .read .plain = if attr.getLsbD 0 then none else some 0x05) ∧
    (refusal s pa attr .fetch .plain = if attr.getLsbD 2 then none else some 0x05) ∧
    (refusal s pa attr .write .plain = if attr.getLsbD 5 then some 0x06 else if attr.getLsbD 1 then none else some 0x05))

/-! ### Full/empty words and rings (R114, R116, R117, R124, R160 to R163) -/

/-- R124, R160: the full/empty forms that do not store: what each reads and leaves, and where it waits. A ninth watch traps 0x15. -/
def Claims.FullEmptyReads : Prop := ∀ (s t : State) (ty : Ty) (d a : Reg) (off : BitVec 5) (x : XWord) (r o pr : Nat),
  Steps (fePlace a off) s (x, r, o) t → physicalRoom t r = some pr →
  let w := vaultAt t pr o
  w.check = none → w.poison = false → recoverable t (here t) = none → NoWatcher t r o → Steps (stallOn (.vault r o) 4) t () t →
  let clear := leaveFor (putVault t pr o { w with f := false }) (wingOf s.cur.1) [r / 256]
  let room := (coreAt t s.cur.1).watches.length
  let get := withX (here t) d (extTy ty w.data.toNat)
  Ends (.fstat d a off) s t (withX (here t) d (BitVec.ofNat 64 (w.f.toNat + 2 * w.d.toNat + 4 * w.v.toNat))) .seq ∧
  Ends (.fempty a off) s clear (here t) .seq ∧
  (w.f = true → Ends (.ldf ty d a off) s clear get .seq ∧ Ends (.ldfk ty d a off) s t get .seq) ∧
  (w.f = false → room < 8 → Parks (.ldf ty d a off) s t (.word r o (.take ty d)) ∧
    Parks (.ldfk ty d a off) s t (.word r o (.keep ty d))) ∧
  (w.f = false → 8 ≤ room → TrapsFrom (.ldf ty d a off) s t 0x15 0 0 0 ∧ TrapsFrom (.ldfk ty d a off) s t 0x15 0 0 0)

/-- R124, R140, R160: STE and STF. A range that a sealed page fills traps 0x06; a full word keeps STE waiting. -/
def Claims.FullEmptyStores : Prop := ∀ (s t : State) (ty : Ty) (d a : Reg) (off : BitVec 5) (x : XWord) (r o : Nat),
  Steps (fePlace a off) s (x, r, o) t →
  let data := (xOf (here s) d).setWidth 32
  let refused := fun (i : Instr) => Plain i s →
    exec i s = .next (enterTrap t s.cur.1 s.cur.2 (restartPc (here t)) 0x06 x 0 0)
  (isReadOnly t (.vault r o) 4 = true → refused (.ste ty d a off) ∧ refused (.stf ty d a off)) ∧
  (isReadOnly t (.vault r o) 4 = false → ∀ u pr, Steps (stallOn (.vault r o) 4) t () t → Steps (claimMapped r o) t () u →
    physicalRoom t r = some pr → physicalRoom u r = some pr →
    let w := vaultAt t pr o
    w.check = none → vaultAt u pr o = w → recoverable u (here u) = none → NoWatcher u r o →
    let full := leaveFor (putVault u pr o ⟨data, true, w.d || (isMapped u r o).isSome, true, none, false⟩) (wingOf s.cur.1) [r / 256]
    let room := (coreAt t s.cur.1).watches.length
    Ends (.stf ty d a off) s full (here u) .seq ∧
    (w.f = false → Ends (.ste ty d a off) s full (here u) .seq) ∧
    (w.f = true → room < 8 → Parks (.ste ty d a off) s t (.word r o (.put data))) ∧
    (w.f = true → 8 ≤ room → TrapsFrom (.ste ty d a off) s t 0x15 0 0 0))

/-- R114, R116, R117, R140, R142, R162: loads and stores of rings. Relative slot k past C, or past P, is at (count + k) mod 2^lc of the
storage; a form that finds its slot of the ring not filled, or not free, parks. A copy on its way there is waited for, and a store
into a range that a sealed page fills traps 0x06. -/
def Claims.RingElements : Prop := ∀ (s t t1 t2 u : State) (d : Reg) (h : Fin 8) (k : BitVec 15) (r off : Nat)
    (q : RingHead) (bs : List Byte) (e : VWide),
  Steps (ringOf h) s (r, off, q) t → k.toNat < 2 ^ q.lc →
  let size := 4 * 2 ^ q.sz
  let place := fun (count : Nat) => q.base.toNat % 2 ^ 23 + (count + k.toNat) % 2 ^ 32 % 2 ^ q.lc * size
  let filled := (q.p + 2 ^ 32 - q.c) % 2 ^ 32
  let scope : Tier := if q.span then .hall else .room
  let header := fun (o n : Nat) => (do stallOn (.vault r off) 32; let h ← readRing 0 r off; stallOn (.vault r o) n; return h : M RingHead)
  let ready := fun (n : Nat) => Steps (do stallOn (.vault r (place q.c)) n; fillAt (q.slotAddr q.c k.toNat) (.vault r (place q.c)) n) t () t1 ∧
    Steps (header (place q.c) n) t1 q t1 ∧ Steps (ringBytes (q.slotAddr q.c k.toNat) r (place q.c) n) t1 bs t2
  let stored := fun (s t : State) (data : List Byte) => isReadOnly s (.vault r (place q.p)) data.length = false ∧ Steps (do
    claimPlace (.vault r (place q.p)) data.length
    touchVault r (place q.p) data.length
    poke (r / 256) (.vault r (place q.p)) data) s () t
  (k.toNat < filled → ready (min 8 size) →
    Steps (do wx d (BitVec.ofNat 64 (natOfBytes bs)); acquire scope) t2 () u → Ends (.qld d h k) s u (here u) .seq) ∧
  (k.toNat < filled → ready (min 32 size) → boundTo (here t2) d = boundTo (here t1) d →
    Steps (do ww d (BitVec.ofNat 256 (natOfBytes bs)); acquire scope) t2 () u → Ends (.qldv d h k) s u (here u) .seq) ∧
  (k.toNat + filled < 2 ^ q.lc → Steps (stallOn (.vault r (place q.p)) (min 8 size)) t () t →
    Steps (header (place q.p) (min 8 size)) t q t1 →
    (stored t1 u (bytesOfNat (min 8 size) (xOf (here s) d).toNat) → Ends (.qst d h k) s u (here u) .seq) ∧
    (∀ i, readOnlyAt t1 (.vault r (place q.p)) (min 8 size) = some i →
      TrapsFrom (.qst d h k) s t1 0x06 (q.slotAddr q.p k.toNat + BitVec.ofNat 64 i) 0 0)) ∧
  (k.toNat + filled < 2 ^ q.lc → Steps (stallOn (.vault r (place q.p)) (min 32 size)) t () t → Steps (readVecs [d] []) t [e] t1 →
    Steps (header (place q.p) (min 32 size)) t1 q t2 →
    stored t2 u (bytesOfNat (min 32 size) e.toNat) → Ends (.qstv d h k) s u (here u) .seq) ∧
  (filled ≤ k.toNat → Parks (.qld d h k) s (lookups s t) (.ring r off k.toNat (.load d))) ∧
  (filled ≤ k.toNat → boundTo (here t) d = none → Parks (.qldv d h k) s (lookups s t) (.ring r off k.toNat (.loadWide d))) ∧
  (filled ≤ k.toNat → boundTo (here t) d ≠ none → Parks (.qldv d h k) s (lookups s t) (.ring r off k.toNat (.again true)))

/-- R116, R117, R118, R162, R163: publishing, releasing, reading and binding. A count moves by n; more than is free, or filled, is
misuse, and so is an unbound handle, or one whose span does not take in the core: trap 0x0A with the handle's number. -/
def Claims.RingCounts : Prop := ∀ (s t u w : State) (d : Reg) (h : Fin 8) (k n : BitVec 15) (r off : Nat) (q : RingHead),
  let filled := (q.p + 2 ^ 32 - q.c) % 2 ^ 32
  let scope : Tier := if q.span then .hall else .room
  let x := xOf (here s) d
  let holds := if q.span then r / 16 = hallOf s.cur.1 else r = roomOf s.cur.1
  let misused := fun (i : Instr) (t : State) => TrapsFrom i s t 0x0A 0 h.val 0
  (Steps (ringOf h) s (r, off, q) t →
    Ends (.qstat d h) s t (withX (here t) d (BitVec.ofNat 64 (q.p * 2 ^ 32 + q.c))) .seq ∧
    (n.toNat + filled ≤ 2 ^ q.lc → Released scope t u → Steps (ringCount r off 4 (q.p + n.toNat)) u .seq w →
      Ends (.qpub h n) s w (here w) .seq) ∧
    (n.toNat ≤ filled → Released scope t u → Steps (ringCount r off 0 (q.c + n.toNat)) u .seq w →
      Ends (.qrel h n) s w (here w) .seq) ∧
    (2 ^ q.lc < n.toNat + filled → misused (.qpub h n) t) ∧ (filled < n.toNat → misused (.qrel h n) t) ∧
    (2 ^ q.lc ≤ k.toNat →
      misused (.qld d h k) t ∧ misused (.qldv d h k) t ∧ misused (.qst d h k) t ∧ misused (.qstv d h k) t)) ∧
  ((here s).h.get h = none →
    misused (.qld d h k) s ∧ misused (.qldv d h k) s ∧ misused (.qst d h k) s ∧ misused (.qstv d h k) s ∧
    misused (.qpub h n) s ∧ misused (.qrel h n) s ∧ misused (.qstat d h) s) ∧
  (Steps (readHandle h x) s (r, off, q) t →
    (holds → Ends (.qbind h d) s t { here t with h := (here t).h.set h (some x) } .seq) ∧ (¬holds → misused (.qbind h d) t))

/-- R114, R117: a change of a ring's count writes its header word, as a vault word, and tests the ring's waiters; where none
waits, nothing else changes. -/
def Claims.RingHeaders : Prop := ∀ (s : State) (r off at_ value pr : Nat) (w : VaultWord),
  (off + at_) % 4 = 0 → Ready s r (off + at_) pr w → recoverable s (here s) = none → (coreAt s s.cur.1).pair = none →
  (∀ c k o n op, (slotAt s c k).wait ≠ some (.ring r o n op)) →
  ringCount r off at_ value s = .ok .seq
    (putVault s pr (off + at_) { w with data := BitVec.ofNat 32 value, v := true })

/-! ### Mapped ranges and copies (R139 to R142, R164, R165) -/

/-- R139, R141, R164: MAP, UNMAP, SYNCW, INVW and MAPQ, on operands that pass R164's checks. -/
def Obligations.MappedRanges : Prop := ∀ (s t u : State) (d a b : Reg) (r off : Nat) (m : Mapping),
  let c := leadCore s s.cur.1 s.cur.2
  let q := coreAt s c
  let X := xOf (here s)
  let x := X d
  let good := fun (v : XWord) => v.toNat % 128 = 0 ∧ v ≠ 0
  (good x → good (X a) → good (X b) → ownRange x (X b).toNat s = .ok (r, off) s →
    isTranslated (X a) (X b).toNat = true → q.mappings.length < 8 →
    (∀ y ∈ q.mappings, overlaps y.off y.len off (X b).toNat = false ∧ overlaps y.va.toNat y.len (X a).toNat (X b).toNat = false) →
    boardHit s r off (X b).toNat = none → inMove s r off (X b).toNat = false →
    Steps (changeWords r (fun v => { v with v := false, d := false }) (offsets off (X b).toNat)) s () t →
    Ends (.map d a b) s (onCore t c fun q => { q with
      mappings := q.mappings ++ [⟨off, X a, (X b).toNat, (here t).ctx, [], false⟩] }) (here t) .seq) ∧
  (good x → good (X a) → rangeMapping x (X a).toNat true s = .ok (r, off, m) s →
    Steps (backWords (backWord c) (dirtyIn s r off (X a).toNat)) s none t →
    Steps (changeWords r unmapWord (offsets off (X a).toNat)) t () u →
    Ends (.unmap d a) s (onCore u c fun q => { q with mappings := q.mappings.filter fun y => y.off != m.off }) (here u) .seq) ∧
  (good x → good (X a) → rangeMapping x (X a).toNat false s = .ok (r, off, m) s →
    (Steps (backWords (backWord c) (dirtyIn s r off (X a).toNat)) s none t → Ends (.syncw d a) s t (here t) .seq) ∧
    (Steps (changeWords r (fun v => { v with v := v.v && v.d }) (offsets off (X a).toNat)) s () t →
      Ends (.invw d a) s t (here t) .seq)) ∧
  Runs (.mapq d a) s (withX (here s) d ((mappedAddress s (X a)).getD (BitVec.ofNat 64 (2 ^ 63)))) .seq ∧
  (¬good x → Traps (.map d a b) s 0x03 x 0 0 ∧ Traps (.unmap d a) s 0x03 x 0 0 ∧ Traps (.syncw d a) s 0x03 x 0 0 ∧
    Traps (.invw d a) s 0x03 x 0 0)

/-- R142, R165: CPY and MCAST are accepted, and go on by themselves: the transfer, its number, its scoreboard entries and
its completion to come; no byte has moved yet. CPYW has moved every byte as it retires. A length of 0 does nothing. When the bytes
of an accepted copy move is the model's choice (log entry 38): R165 lets them move at any time and in any order. -/
def Claims.Copies : Prop := ∀ (s t : State) (d a b : Reg) (segs : List Segment),
  let X := xOf (here s)
  let n := (X b).toNat
  let m := (X b).toNat % 2 ^ 32
  let c := s.cur.1
  let accepted := fun (i : Instr) => ∃ u, Ends i s u (here t) .seq ∧
    u.transfers = t.transfers ++ [⟨t.serial, c, s.cur.2, segs, ascending ((copyIntervals segs).map Prod.fst)⟩] ∧
    u.serial = t.serial + 1 ∧ u.agenda = t.agenda ++ [.event (.copyTransferComplete t.serial)] ∧
    (∀ e ∈ copyIntervals segs, ⟨t.serial, e.2.1, e.2.2⟩ ∈ (roomAt u e.1).board) ∧
    u.mem = t.mem ∧ u.vault = t.vault ∧ u.cores = t.cores
  (X d).toNat % 4 = 0 → (X a).toNat % 4 = 0 →
  (n % 4 = 0 → n ≤ 2 ^ 24 →
    (n = 0 → Runs (.cpy d a b) s (here s) .seq ∧ Runs (.cpyw d a b) s (here s) .seq) ∧
    (n ≠ 0 → ∀ t0, Steps (copySegments (X a) [X d] n) s segs t0 → Steps (awaitBoards (copyIntervals segs)) t0 () t →
      accepted (.cpy d a b) ∧
      (∀ u, Steps (performCopy segs segs) t none u → Ends (.cpyw d a b) s u (here u) .seq) ∧
      (∀ u bad, Steps (performCopy segs segs) t (some bad) u → EndsTrapping (.cpyw d a b) s u (here u) 0x0E bad 5))) ∧
  (m % 4 = 0 → m ≤ 2 ^ 24 → (X b).toNat < 2 ^ 48 →
    (m = 0 → Runs (.mcast d a b) s (here s) .seq) ∧
    (m ≠ 0 → isCanonical (X d) = true → isVaultAddr (X d) = true → (vaultRoom (roomOf c) (X d)).isSome = true →
      let dsts := (((List.range 16).filter fun i => (X b).getLsbD (32 + i)).map fun i => 16 * hallOf c + i).map fun r =>
        BitVec.ofNat 64 (0xFFFE * 2 ^ 48 + r * 2 ^ 23 + (X d).toNat % 2 ^ 23)
      ∀ t0, Steps (copySegments (X a) dsts m) s segs t0 → Steps (awaitBoards (copyIntervals segs)) t0 () t →
        accepted (.mcast d a b)))

/-- R142, R165: a copy's completion moves its words, as its slot's, and lets its scoreboard entries go. That all of them move in that
one step is the model's choice (log entry 38). -/
def Claims.CopyEvents : Prop := ∀ (s : State) (id room : Nat),
  (s.transfers.find? (fun t => t.id == id) = none → Occurs (.copyTransferComplete id) s s) ∧
  (∀ t u bad, s.transfers.find? (fun t => t.id == id) = some t → Quiet u →
    performCopy t.segments t.segments { s with cur := (t.core, t.slot) } = .ok bad u →
    ∃ w, exec (.copyTransferComplete id) s = .next w ∧ w.cur = s.cur ∧ w.mem = u.mem ∧ w.vault = u.vault ∧
      w.transfers = u.transfers.filter (fun e => e.id != t.id) ∧
      (slotAt w t.core t.slot).copyError = (slotAt u t.core t.slot).copyError.orElse (fun _ => bad) ∧
      w.agenda = u.agenda ++ t.rooms.map fun r => Turn.event (.scoreboardRetire r t.id)) ∧
  (Quiet s → (∃ t ∈ s.transfers, t.id = id) → exec (.scoreboardRetire room id) s = .next s) ∧
  (Quiet s → (∀ t ∈ s.transfers, t.id ≠ id) → ∃ w, exec (.scoreboardRetire room id) s = .next w ∧ w.mem = s.mem ∧
    w.vault = s.vault ∧ (roomAt w room).board = (roomAt s room).board.filter fun e => e.id != id)

/-! ### Atomics, accumulations, ordering (R144 to R146, R166 to R170, R187, R189, R336, R346, R358, R365, R368) -/

/-- R166, R358: an atomic that its home performs, or whose word stores held in a superstep write whole (the model's choice, log entry
40; those that write a part go first): its operands, the old value extended into xd, the count of its slot's atomics.
CAS reads xd as the expected value. A misaligned word traps 0x03; a range that a sealed page fills, 0x06. -/
def Claims.Atomics : Prop := ∀ (s t t1 t2 u : State) (ty : Ty) (d a b : Reg) (p : Place) (cls old : Nat),
  let X := xOf (here s)
  let x := X a
  let i := fun (n : Fin 8) => [Instr.aadd ty d a b, .aand ty d a b, .aor ty d a b, .axor ty d a b, .amin ty d a b,
    .amax ty d a b, .aswp ty d a b, .cas ty d a b].getD n.val (.cas ty d a b)
  let q := fun (n : Fin 8) => Latch.mk false (i n) x p cls (X b) (if n = 7 then X d else 0)
  ∀ n, (x.toNat % ty.size ≠ 0 → Traps (i n) s 0x03 x 0 0) ∧
    (x.toNat % ty.size = 0 → Steps (locateClass x .update .atomic) s (p, cls) t →
      Steps (do stallOn p ty.size; fillAt x p ty.size) t () t1 →
      (isReadOnly t1 p ty.size = true → Plain (i n) s →
        exec (i n) s = .next (enterTrap t1 s.cur.1 s.cur.2 (restartPc (here t1)) 0x06 x 0 0)) ∧
      (isReadOnly t1 p ty.size = false → Steps (countRemote p) t1 () t2 → turnedAway t2 (q n) ty = none →
        let held := heldStores t2 (q n) ty
        let done := Ends (i n) s u (withX { here u with atomics := (here t2).atomics + 1 } d (extTy ty old)) .seq
        (coversWord held (q n) ty = true → Steps (atomHeld (q n) ty held) t2 (.done old) u → done) ∧
        (coversWord held (q n) ty = false → journalOf t2 (here t2) p = none → ∀ t3, Steps (holdsFirst held) t2 () t3 →
          Steps (atomStep (q n) ty) t3 (.done old) u → done)))

/-- R166: what an atomic does to its word, in one step of the word's order: the old value is read, and the new one written. -/
def Claims.AtomicValues : Prop := ∀ (s t : State) (ty : Ty) (d a b : Reg) (x v e : XWord) (key pa cls : Nat) (bs : List Byte),
  peek x (.mem key pa) ty.size (some (roomOf s.cur.1)) s = .ok (bs, false) t →
  let old := natOfBytes bs
  let y := v.toNat % 2 ^ ty.bits
  let I := intOf ty
  let go := fun (i : Instr) (new : Nat) => atomStep ⟨false, i, x, .mem key pa, cls, v, e⟩ ty s =
    .ok (.done old) (pokeMem t (wingOf t.cur.1) key pa (bytesOfNat ty.size new) (some (roomOf t.cur.1)))
  go (.aadd ty d a b) (if ty.isInt then (old + y) % 2 ^ ty.bits else (fAdd (fmtOf ty) 0 old y).bits) ∧
  go (.aand ty d a b) (old &&& y) ∧ go (.aor ty d a b) (old ||| y) ∧ go (.axor ty d a b) (old ^^^ y) ∧
  go (.amin ty d a b) (if I old ≤ I y then old else y) ∧ go (.amax ty d a b) (if I old ≤ I y then y else old) ∧
  go (.aswp ty d a b) y ∧ go (.cas ty d a b) (if old = e.toNat % 2 ^ ty.bits then y else old)

/-- R21, R29, R166, R319, R324: the retry latch. An atomic turned away at its home stays in the latch and its slot parks; the fault is
then delivered as trap 0x11 at the next instruction; a response writes the destination and empties the latch, and a slot that waits
for it after its fault goes on at its trap.pc; AREARM answers
0 without a valid latch, 2 for one already sent, 3 where it drops it, 1 where it sends it again. -/
def Obligations.RetryLatch : Prop := ∀ (s t t1 t2 : State) (ty : Ty) (d a b : Reg) (p : Place) (cls cause : Nat) (c : Nat)
    (k : Fin 4) (q : Latch) (code : BitVec 8) (sent : Bool) (v : XWord),
  let X := xOf (here s)
  let kept := Latch.mk false (.aadd ty d a b) (X a) p cls (X b) 0
  let x := X d
  let o : Fin 4 := Fin.ofNat 4 (x.toNat % 4)
  ((X a).toNat % ty.size = 0 → Steps (locateClass (X a) .update .atomic) s (p, cls) t →
    Steps (do stallOn p ty.size; fillAt (X a) p ty.size) t () t1 → isReadOnly t1 p ty.size = false → Steps (countRemote p) t1 () t2 →
    turnedAway t2 kept ty = some cause → Plain (.aadd ty d a b) s → ∃ u, exec (.aadd ty d a b) s = .next u ∧
      (here u).latch = some kept ∧ (here u).wait = some .latch ∧ (here u).x = (here t2).x ∧ u.mem = t2.mem ∧
      u.agenda = t2.agenda ++ [.event (.atomicLatchFault s.cur.1 s.cur.2 (BitVec.ofNat 8 cause) false)]) ∧
  ((slotAt s c k).latch = some q → (slotAt s c k).wait = some .latch → modeOf c k = .user → (coreAt s c).pair = none →
    (coreAt s c).chain = none → Quiet s → ∃ u, exec (.atomicLatchFault c k code sent) s = .next u ∧
      (slotAt u c k).wait = some .delivery ∧ (slotAt u c k).latch = some { q with sent := sent } ∧
      (slotAt u c k).trap.pc = (slotAt s c k).pc ∧ (slotAt u c k).trap.addr = q.addr ∧
      (slotAt u c k).trap.cause = BitVec.ofNat 64 (0x11 + 2 ^ 63) ∧
      (slotAt u c k).trap.info = trapInfo k.val 0 code.toNat ∧ u.mem = s.mem) ∧
  ((slotAt s c k).latch = some { q with sent := true } → (slotAt s c k).bad = [] → (coreAt s c).pair = none → Quiet s →
    ∃ u, exec (.atomicResponse c k (some v)) s = .next u ∧
      u.mem = s.mem ∧
      let w := { withX (slotAt s c k) (latchDest q) (extTy (latchTy q) v.toNat) with latch := none }
      let coming := ∃ code sent, Turn.event (.atomicLatchFault c k code sent) ∈ s.agenda
      (w.wait ≠ some .latch → slotAt u c k = w) ∧
      (w.wait = some .latch → coming → slotAt u c k = { w with wait := none }) ∧
      (w.wait = some .latch → ¬coming →
        slotAt u c k = { w with wait := none, pc := w.trap.pc, loops := loopKeep w.trap.pc w.loops })) ∧
  ((slotAt s c k).latch = none → Occurs (.atomicLatchFault c k code sent) s s ∧ Occurs (.atomicResponse c k none) s s) ∧
  (o = 3 ∨ (slotAt s s.cur.1 o).latch = none → Runs (.arearm d) s (withX (here s) d 0) .seq) ∧
  (∀ l, o ≠ 3 → (slotAt s s.cur.1 o).latch = some l →
    (l.sent = true → Runs (.arearm d) s (withX (here s) d 2) .seq) ∧
    (l.sent = false → x.getLsbD 8 = false → s.cur.2 = 3 → Plain (.arearm d) s → ∃ u, exec (.arearm d) s = .next u ∧
      xOf (here u) d = (if d = 0 then 0 else 1) ∧ (slotAt u s.cur.1 o).latch = some { l with sent := true } ∧
      u.agenda = s.agenda ++ [.event (.atomicResponse s.cur.1 o none)]) ∧
    (l.sent = false → x.getLsbD 8 = true → s.cur.2 = 3 → Plain (.arearm d) s → ∃ u, exec (.arearm d) s = .next u ∧
      xOf (here u) d = (if d = 0 then 0 else 3) ∧ (slotAt u s.cur.1 o).latch = none))

/-- R144, R145, R167, R363: an accumulation puts its value into its room's partial of the word: combined with one of the same
operation and type, and alone where the line held another for one of its words; memory does not change. A room without a vault
cache for the line sends it to the line's home. Which rooms have none is the model's choice (log entry 105). -/
def Claims.Accumulations : Prop := ∀ (s t t1 : State) (ty : Ty) (a b : Reg) (key pa : Nat),
  let X := xOf (here s)
  let v := BitVec.ofNat 64 ((X b).toNat % 2 ^ ty.bits)
  let room := roomOf s.cur.1
  let parts := fun (w : State) => (accLine (roomAt w room) key (pa / 128)).parts
  let held := fun (w : State) => tfind (parts w) (pa % 128)
  let go := fun (i : Instr) (op : AccOp) =>
    ((X a).toNat % ty.size ≠ 0 → Traps i s 0x03 (X a) 0 0) ∧
    ((X a).toNat % ty.size = 0 → Steps (locate (X a) .write .accumulate) s (.mem key pa) t →
      (spaceOf pa = .host ∨ spaceOf pa = .fabric → TrapsFrom i s t 0x05 (X a) 0 0) ∧
      (spaceOf pa ≠ .host → spaceOf pa ≠ .fabric → Steps (countRemote (.mem key pa)) t () t1 →
        recoverable t1 (here t1) = none → ∃ u, Ends i s u (here t1) .seq ∧ u.mem = t1.mem ∧
          if noVaultCache t1 room (pa / 128) then
            held u = held t1 ∧ u.homeParts = t1.homeParts ++ [(key, pa / 128, pa % 128, room, ⟨op, ty, v⟩)]
          else held u = if clashes (parts t1) (pa % 128) ⟨op, ty, v⟩ then some ⟨op, ty, v⟩
            else some ⟨op, ty, match held t1 with
              | some q => BitVec.ofNat 64 (combine op ty q.value.toNat v.toNat)
              | none => v⟩))
  go (.acca ty a b) .add ∧ go (.accn ty a b) .min ∧ go (.accx ty a b) .max

/-- R146, R147: a reader of an accumulate-only line has its partials combined into memory first; in a line without partials
and mapped copies a read changes nothing. -/
def Claims.AccumulateReads : Prop := ∀ (s : State) (a : XWord) (key pa n : Nat) (room : Option Nat),
  (Uncopied s → peek a (.mem key pa) n room s =
    .ok (memBytes s.mem (memKey key pa) n, (poisonIn s (memKey key pa) n).isSome) s) ∧
  (∀ line, hasPartials (recallLine s key line) key line = false)

/-- R168, R169: FENCE and FENCEP. At scopes up to room a fence of one slot's own accesses has nothing to move. FENCEP waits for
what its paths name; naming M, it reports a copy that met poison. -/
def Claims.Fences : Prop := ∀ (s t t1 t2 u : State) (kind : FenceKind) (p1 p2 : Path) (scope : Tier),
  (scope.code ≤ 2 → Runs (.fence kind scope) s (here s) .seq) ∧
  (Steps (acquire scope) s () t → Ends (.fence .acq scope) s t (here t) .seq) ∧
  (Released scope s t → Quiet t → Alone t → Ends (.fence .rel scope) s t (here t) .seq) ∧
  (Released scope s t → Steps (acquire scope) t () u → Ends (.fence .full scope) s u (here u) .seq) ∧
  (Steps (do awaitPath p1; awaitPath p2) s () t1 →
    (if p1 = .core ∨ p2 = .core then Released scope t1 t2 ∧ Steps (acquire scope) t2 () u else u = t1) →
    ((here u).copyError = none ∨ (p1 ≠ .copy ∧ p2 ≠ .copy) → Ends (.fencep p1 p2 scope) s u (here u) .seq) ∧
    (∀ x, (here u).copyError = some x → p1 = .copy ∨ p2 = .copy →
      EndsTrapping (.fencep p1 p2 scope) s u { here u with copyError := none } 0x0E x 5)) ∧
  (Alone s → (commandsOf s s.cur.1 s.cur.2 = [] → awaitPath .hearth s = .ok () s) ∧
    (transferOf s s.cur.1 s.cur.2 = none → awaitPath .copy s = .ok () s) ∧
    (kicksOf s s.cur.1 s.cur.2 = false → awaitPath .laundry s = .ok () s) ∧
    (windowTransfer s s.cur.1 s.cur.2 = none → awaitPath .fabric s = .ok () s) ∧
    (awaitPath .core s = .ok () s ∧ awaitPath .host s = .ok () s) ∧
    (awaitPath .stream s = .ok () (onSlot s s.cur.1 s.cur.2 fun v => { v with
      s := v.s.map fun q => { q with fetched := [] } }))) ∧
  (Plain (.fencep .hearth p2 scope) s → commandsOf s s.cur.1 s.cur.2 ≠ [] → exec (.fencep .hearth p2 scope) s =
    .next (post s [.commandStart (roomOf s.cur.1), .commandRetire (roomOf s.cur.1)]))

/-- R170, R368: a WSIG's payload is written, then its counter counts one more; a tuple that is not above the highest applied
from its sender is dropped whole. That xd is checked before xa, and the numbers of a message outside supersteps, are the model's
choices (log entry 41). -/
def Obligations.Signals : Prop := ∀ (s t t1 t2 t3 u : State) (ty : Ty) (d a b : Reg) (q p : Place) (cls seq ordinal : Nat),
  let X := xOf (here s)
  ((X d).toNat % 8 ≠ 0 → Traps (.wsig ty d a b) s 0x03 (X d) 0 0) ∧
  ((X d).toNat % 8 = 0 → (X a).toNat % ty.size = 0 → isThreshold s.cur.1 = true ∨ isVaultAddr (X d) = false →
    Steps (locateClass (X d) .update) s (q, cls) t →
    signalClass t q cls = 0 ∨ (∃ key n, q = .mem key n ∧ spaceOf n = .fabric) → Steps (locate (X a) .write) t p t1 →
    isReadOnly t1 p ty.size = false → Steps (do stallOn p ty.size; claimPlace p ty.size) t1 () t2 →
    Steps wsigOrder t2 (seq, ordinal) t3 → recoverable t3 (here t3) = none →
    Steps (applyWsig (roomOf s.cur.1 / 256)
      ⟨t3.house, s.cur.1, s.cur.2.val, wsigLaunch (here t3), seq, ordinal, ty.size, X b, p, q⟩ (some (roomOf s.cur.1))) t3 () u →
    Ends (.wsig ty d a b) s u (here u) .seq) ∧
  (∀ m, (wsigFresh s m = false → Occurs (.wsigDelivery m) s s) ∧
    (wsigFresh s m = true → ∀ bs bad t4, poke (homeWing s m.payload) m.payload (bytesOfNat m.size m.value.toNat) none s = .ok () t →
      peek 0 m.signal 8 none t = .ok (bs, bad) t1 →
      poke (homeWing s m.payload) m.signal (bytesOfNat 8 (natOfBytes bs + 1)) none t1 = .ok () t4 →
      (if bad then poisonAt m.signal 8 else pure () : M Unit) t4 = .ok () t2 →
      let others := t2.wsigSeen.filter fun e => e.take 4 != [m.house, m.core, m.slot, m.launch]
      Occurs (.wsigDelivery m) s { t2 with
        wsigSeen := [m.house, m.core, m.slot, m.launch, m.seq, m.ordinal] :: others }))

/-- R187: a wing applies the first remote write whose vector stamp it may apply, and its clock becomes the maximum of its own
and the stamp. That the home already holds the write is the model's choice (log entry 42). -/
def Claims.RemoteWrites : Prop := ∀ (s : State) (wing : Fin 16) (m : RemoteWrite),
  let able := fun (s : State) (m : RemoteWrite) => m.target == wing && mayApply s m
  (s.remotes.find? (able s) = none → Occurs (.remoteWriteApply wing) s s) ∧
  (s.remotes.find? (able s) = some m → Quiet s → ∃ t, exec (.remoteWriteApply wing) s = .next t ∧
    (∀ v, v < 16 → clockAt t wing v = max (clockAt s wing v) (m.stamp.getD v 0)) ∧
    (∀ w v, w ≠ wing.val → v < 16 → clockAt t w v = clockAt s w v) ∧
    t.remotes = s.remotes.filter (fun x => x != m) ∧ t.mem = s.mem ∧ t.cores = s.cores ∧
    t.agenda = s.agenda ++ if t.remotes.any (able t) then [.event (.remoteWriteApply wing)] else []) ∧
  (mayApply s m = true ↔ ∀ v, v < 16 → v ≠ m.target.val →
    m.stamp.getD v 0 ≤ clockAt s m.target v + if v = m.source.val then 1 else 0)

/-- R189, R193, R272, R336, R346: what arrives from other houses and from the host. A write stores its bytes at its home, under
key id 0 from the fabric; a write to a sealed page, as translations have named it (log entry 106), has no effect, but for an event of
type 6 where it is the host's; reads change no byte. -/
def Claims.Arrivals : Prop := ∀ (s : State) (link len minor : Nat) (pa : BitVec 52) (key : BitVec 10) (data : List Byte) (ty : Ty)
    (x e : XWord),
  let n := pa.toNat
  let wing := homeHall s n / 16
  let good := reachesDevice n
  (good = true → sealedOwner s n data.length = none →
    Occurs (.fabricStoreArrival link pa data) s (pokeMem s wing 0 n data) ∧
    Occurs (.hostMemAccess key pa len (some data)) s (pokeMem s wing key.toNat n data)) ∧
  (∀ ctx, good = true → sealedOwner s n data.length = some ctx →
    Occurs (.hostMemAccess key pa len (some data)) s (postEvent s 6 ctx 0 (pa.setWidth 64) 0) ∧
    Occurs (.fabricStoreArrival link pa data) s s) ∧
  (∀ e, e ∈ s.sealedPages → attrSL e.attr = true → inFrames e n data.length = true → (sealedOwner s n data.length).isSome) ∧
  (good = true → Uncopied s → Quiet s → exec (.hostMemAccess key pa len none) s = .next s ∧
    exec (.fabricAccessArrival link (.load n len)) s = .next s ∧ exec (.fabricAccessArrival link (.copyRead n len)) s = .next s ∧
    (poisonIn s (memKey 0 n) ty.size = none → sealedOwner s n ty.size = none → ∀ u, u = pokeMem s wing 0 n (bytesOfNat ty.size
      (atomNew minor ty (natOfBytes (memBytes s.mem (memKey 0 n) ty.size)) (x.toNat % 2 ^ ty.bits) (e.toNat % 2 ^ ty.bits))) →
      Occurs (.fabricAccessArrival link (.atomic minor ty n x e)) s u)) ∧
  (good = false → Quiet s → exec (.fabricStoreArrival link pa data) s = .next s ∧
    exec (.hostMemAccess key pa len (some data)) s = .next s ∧ exec (.fabricAccessArrival link (.load n len)) s = .next s) ∧
  (Uncopied s → (pokeMem s wing 0 n data).mem = memWrite s.mem (memKey 0 n) data)

/-! ### Barriers (R67, R120 to R123, R171) -/

/-- R120, R122, R123, R171: the barrier instructions, on a barrier of the slot's own launch. Misuse traps 0x0D: no launch, an
estate barrier of a launch in one house, BINIT while arrivals are counted or of a reserved word, an arrival at a barrier that is
not used, and a second arrival of a slot in a phase. An arrival counts the slot once, with its value at the slot's place among
the participants, and the last one completes the phase; a wait leaves where the done count is not the one the slot has seen,
and else parks. BARR and BARRW release at the tier, and leaving is an acquire at it. The trap of a slot without a launch, and what
crosses to the house that holds an estate barrier, are the model's choices (log entries 27 and 109). -/
def Claims.Barriers : Prop := ∀ (s t : State) (tier : Tier) (n : BitVec 5) (d a : Reg) (l : Nat) (r : Launch),
  let x := xOf (here s) a
  let key := barrierKey tier (unitOf tier s.cur.1) n.toNat
  let b := barrierAt r key
  let word : Word := x.setWidth 32
  let index := seenIndex tier n.toNat
  let left := fun (s : State) => if tier.code ≤ 2 then s else acquired s s.cur.1
  let noted := fun (v : Slot) (b : Barrier) => { v with seen := tput v.seen index b.done }
  let slot := 4 * s.cur.1 + s.cur.2.val
  let counted := barrierCounted b (some slot) (some (partialKey s.house s.cur.1 s.cur.2, x)) none
  let last := b.config.toNat % 2 ^ 18 ≤ b.arrived + 1
  let sum := if last then barrierDone counted else counted
  let misuse := b.config.toNat % 2 ^ 18 = 0 ∨ 9 ≤ b.config.toNat / 2 ^ 18 % 16 ∨ b.slots.contains slot = true
  let above := tier = .estate ∧ estateAbove t r = true
  let goes := fun (u : State) (b : Barrier) => Ends (.barr tier n a) s u (here u) .seq ∧
    (b.done ≠ tget 0 (here u).seen index → Ends (.barrw d tier n a) s (left u) (withX (noted (here u) b) d b.result) .seq) ∧
    (b.done = tget 0 (here u).seen index → Parks (.barrw d tier n a) s u (.barrier l key index (some d)))
  (launchOf (here s) = none ∨ (launchOf (here s) = some l ∧
      (launchAt s l = none ∨ (launchAt s l = some r ∧ tier = .estate ∧ r.estate.length ≤ 1))) →
    Traps (.binit tier n a) s 0x0D 0 0 0 ∧ Traps (.bwait tier n) s 0x0D 0 0 0 ∧ Traps (.bread d tier n) s 0x0D 0 0 0) ∧
  (launchOf (here s) = some l → launchAt s l = some r → (tier = .estate → 2 ≤ r.estate.length) →
    (b.arrived = 0 → barrierReserved word = false →
      let u := onLaunch s l fun r => { r with barriers := tput r.barriers key { b with config := word } }
      Ends (.binit tier n a) s (if tier = .estate ∧ estateAbove s r = true then
        { u with estateSent := u.estateSent ++ [.init (l / 1024) (l % 1024) (key % 64) word] } else u) (here s) .seq) ∧
    (b.arrived ≠ 0 ∨ barrierReserved word = true → Traps (.binit tier n a) s 0x0D 0 0 0) ∧
    Runs (.bread d tier n) s (withX (here s) d b.result) .seq ∧
    (b.done ≠ tget 0 (here s).seen index → Ends (.bwait tier n) s (left s) (noted (here s) b) .seq) ∧
    (b.done = tget 0 (here s).seen index → Parks (.bwait tier n) s s (.barrier l key index none))) ∧
  (Released tier s t → launchOf (here t) = none ∨ (launchOf (here t) = some l ∧
      (launchAt t l = none ∨ (launchAt t l = some r ∧ tier = .estate ∧ r.estate.length ≤ 1))) →
    TrapsFrom (.barr tier n a) s t 0x0D 0 0 0 ∧ TrapsFrom (.barrw d tier n a) s t 0x0D 0 0 0) ∧
  (Released tier s t → launchOf (here t) = some l → launchAt t l = some r → (tier = .estate → 2 ≤ r.estate.length) →
    (above → b.slots.contains slot = true →
      TrapsFrom (.barr tier n a) s t 0x0D 0 0 0 ∧ TrapsFrom (.barrw d tier n a) s t 0x0D 0 0 0) ∧
    (above → b.slots.contains slot = false →
      goes (onLaunch { t with estateSent := t.estateSent ++ [.arrival (estateArrival t l key (some slot) (some x) none)] } l
        fun r => { r with barriers := tput r.barriers key { b with slots := slot :: b.slots } }) { b with slots := slot :: b.slots }) ∧
    (¬above → misuse → TrapsFrom (.barr tier n a) s t 0x0D 0 0 0 ∧ TrapsFrom (.barrw d tier n a) s t 0x0D 0 0 0) ∧
    (¬above → ¬misuse → (last → ∀ c k i d, (slotAt t c k).wait ≠ some (.barrier l key i d)) →
      goes (onLaunch t l fun r => { r with barriers := tput r.barriers key sum }) sum))

/-- R122, R171: the barrier instructions complete: in any slot of a launch, at a tier no wider than room, where nothing releases
or acquires. -/
def Claims.BarriersComplete : Prop := ∀ (s : State) (tier : Tier) (n : BitVec 5) (d a : Reg) (l : Nat) (r : Launch),
  let x := xOf (here s) a
  let key := barrierKey tier (unitOf tier s.cur.1) n.toNat
  let b := barrierAt r key
  let slot := 4 * s.cur.1 + s.cur.2.val
  let index := seenIndex tier n.toNat
  let noted := fun (v : Slot) (b : Barrier) => { v with seen := tput v.seen index b.done }
  let counted := barrierCounted b (some slot) (some (partialKey s.house s.cur.1 s.cur.2, x)) none
  tier.code ≤ 2 → launchOf (here s) = some l → launchAt s l = some r →
  (Plain (.binit tier n a) s → b.arrived = 0 → barrierReserved (x.setWidth 32) = false → exec (.binit tier n a) s = .next (after
    (onLaunch s l fun r => { r with barriers := tput r.barriers key { b with config := x.setWidth 32 } }) (here s) .seq)) ∧
  (Plain (.bread d tier n) s → exec (.bread d tier n) s = .next (after s (withX (here s) d b.result) .seq)) ∧
  (Plain (.bwait tier n) s → b.done ≠ tget 0 (here s).seen index →
    exec (.bwait tier n) s = .next (after s (noted (here s) b) .seq)) ∧
  (b.arrived + 1 < b.config.toNat % 2 ^ 18 → b.config.toNat / 2 ^ 18 % 16 < 9 → b.slots.contains slot = false →
    let u := onLaunch s l fun r => { r with barriers := tput r.barriers key counted }
    (Plain (.barr tier n a) s → exec (.barr tier n a) s = .next (after u (here s) .seq)) ∧
    (Plain (.barrw d tier n a) s → b.done ≠ tget 0 (here s).seen index →
      exec (.barrw d tier n a) s = .next (after u (withX (noted (here s) b) d b.result) .seq)))

/-- R67, R120, R122, R347: an arrival. One that is not the last is counted; the last completes the phase: the phase turns, the
done count counts it, the arrived count is 0 again, the result is the combine, or the worst fault code with bit 63. A second
arrival of a slot in a phase, and one at an unused barrier, do not count. An arrival at an estate barrier that another house
holds goes to that house; the message's fields are the model's choice (log entry 109). -/
def Claims.BarrierArrivals : Prop := ∀ (s : State) (l key : Nat) (r : Launch) (slot : Option Nat) (v : Nat × XWord)
    (code : Option (BitVec 8)),
  let b := barrierAt r key
  let n := b.config.toNat % 2 ^ 18
  let op := b.config.toNat / 2 ^ 18 % 16
  let new := fun (t : State) => (launchAt t l).map fun r => barrierAt r key
  launchAt s l = some r →
  (isEstate key = true → estateAbove s r = true →
    ((∃ k, slot = some k ∧ b.slots.contains k = true) → arriveAt l key slot (some v) code s = .ok false s) ∧
    ((∀ k, slot = some k → b.slots.contains k = false) → arriveAt l key slot (some v) code s =
      .ok true (onLaunch { s with estateSent := s.estateSent ++ [.arrival (estateArrival s l key slot (some v.2) code)] } l
        fun r => { r with barriers := tput r.barriers key { b with slots := slot.toList ++ b.slots } }))) ∧
  (isEstate key = false ∨ estateAbove s r = false →
    (n = 0 ∨ 9 ≤ op ∨ (∃ k, slot = some k ∧ b.slots.contains k = true) → arriveAt l key slot (some v) code s = .ok false s) ∧
    (n ≠ 0 → op < 9 → (∀ k, slot = some k → b.slots.contains k = false) →
      (b.arrived + 1 < n → ∃ t, arriveAt l key slot (some v) code s = .ok true t ∧ t.cores = s.cores ∧ t.mem = s.mem ∧
        new t = some (barrierCounted b slot (some v) code) ∧ (barrierCounted b slot (some v) code).arrived = b.arrived + 1) ∧
      (n ≤ b.arrived + 1 → (∀ c k i d, (slotAt s c k).wait ≠ some (.barrier l key i d)) →
        ∃ t c, arriveAt l key slot (some v) code s = .ok true t ∧ new t = some c ∧ c.phase = !b.phase ∧ c.done = b.done + 1 ∧
          c.arrived = 0 ∧ c.config = b.config ∧ t.cores = s.cores ∧ t.mem = s.mem ∧
          (code = none → b.worst = none → op = 0 → c.result = 0 ∧ c.e = false) ∧
          (code = none → b.worst = none → c.result = combineAll op (barrierCounted b slot (some v) code).partials) ∧
          (∀ f, code = some f → b.worst = none → c.e = true ∧ c.result = BitVec.ofNat 64 (2 ^ 63 + f.toNat)))))

/-- R67: the combine is a tree: the slots of a core in ascending order, then the cores of a room, the rooms of a hall, the halls
of a wing, the wings of a house, the houses. -/
def Claims.CombineTree : Prop := ∀ (op house c e : Nat) (v w x y : XWord), op ≠ 0 →
  let f := barrierCombine op
  let at_ := partialKey house
  (c < e → e < 65536 → combineAll op [(at_ c 0, v), (at_ c 1, w), (at_ e 0, x), (at_ e 2, y)] = f (f v w) (f x y)) ∧
  (c < 65536 → combineAll op [(at_ c 0, v), (at_ c 1, w), (at_ c 2, x), (at_ c 3, y)] = f (f (f v w) x) y) ∧
  (c + 2 < e → e % 16 = 0 → c % 16 = 0 → e < 65536 →
    combineAll op [(at_ c 0, v), (at_ (c + 1) 0, w), (at_ (c + 2) 0, x), (at_ e 0, y)] = f (f (f v w) x) y) ∧
  (c % 16 = 15 → c + 2 < 65536 →
    combineAll op [(at_ c 0, v), (at_ (c + 1) 0, w), (at_ (c + 2) 0, x)] = f v (f w x)) ∧
  (house % 64 + 1 < 64 → c < 65536 → e < 65536 → combineAll op [(partialKey house c 0, v), (partialKey (house + 1) e 0, w),
    (partialKey (house + 1) e 3, x)] = f v (f w x))

/-! ### Tensors and hearths (R195 to R230) -/

/-- R196, R197, R219 to R221: the tensor slot instructions. A busy slot traps 0x0C with its number; TSET's checks come in their
order; a slot's new root takes a reference and the old one's is released. -/
def Claims.TensorSlots : Prop := ∀ (s t t1 u : State) (n : Fin 64) (a : Reg) (bs : List Byte) (g : Nat),
  let x := xOf (here s) a
  let room := roomOf s.cur.1
  let ctx := (here s).ctx
  let d := descriptorOf bs
  let kind := tKind d
  let busy := slotBusy s room ctx n.val
  let old := fun (s : State) => treeRoot (tensorAt s room ctx n.val)
  let own := ownerOf s room ctx n.val
  (x.toNat % 8 ≠ 0 → Traps (.tset n a) s 0x03 x 0 0 ∧ Traps (.tget n a) s 0x03 x 0 0) ∧
  (x.toNat % 8 = 0 → busy = true → Traps (.tset n a) s 0x0C 0 n.val 0) ∧
  (busy = true → Traps (.tclr n) s 0x0C 0 n.val 0) ∧
  (x.toNat % 8 = 0 → busy = false → Steps (loadBytes x 64) s bs t →
    (∀ k, firstBad d = some k → TrapsFrom (.tset n a) s t 0x01 (x + BitVec.ofNat 64 (8 * k)) 0 (encode (.tset n a)).toNat) ∧
    (∀ v, firstBad d = none → 2 ≤ kind → widthBad d = some v → TrapsFrom (.tset n a) s t 0x03 v 0 0) ∧
    (firstBad d = none → (2 ≤ kind → widthBad d = none) → kind ≠ 1 →
      Steps (swapRoots ctx (old t) (treeRoot d)) (putTensor t room ctx n.val d) () u → Ends (.tset n a) s u (here u) .seq) ∧
    (firstBad d = none → kind = 1 → Steps (checkRegion (tRegion d)) t g t1 →
      (tRoot d ≠ 0 → entryOf t1 g (tRoot d) = none → TrapsFrom (.tset n a) s t1 0x05 (x + 16) 0 0) ∧
      (tRoot d = 0 ∨ (entryOf t1 g (tRoot d)).isSome = true →
        Steps (swapRoots ctx (old t1) (treeRoot d)) (putTensor t1 room ctx n.val d) () u →
        Ends (.tset n a) s u (here u) .seq))) ∧
  (x.toNat % 8 = 0 → Steps (storeBytes x (dwords (tensorAt s room ctx n.val))) s () t → Ends (.tget n a) s t (here t) .seq) ∧
  (busy = false → Steps (swapRoots ctx (old s) 0) (putTensor s room ctx n.val noTensor) () u →
    Ends (.tclr n) s u (here u) .seq) ∧
  (∀ k, regionOfName s ctx (tRoot d) = some k → recoverable s (here s) = none → tRoot d ≠ 0 →
    swapRoots ctx 0 (tRoot d) s = .ok () (addRef s k (tRoot d)).1 ∧ swapRoots ctx (tRoot d) 0 s = .ok () (dropRef s k (tRoot d)).1) ∧
  Runs (.tinfo a n) s (withX (here s) a (BitVec.ofNat 64 (((own.map Command.id).getD 0) * 2 ^ 48 +
    (if own.isSome then 2 ^ 47 else 0) + (if readOwned s room ctx n.val then 2 ^ 46 else 0) +
    ((tensorAt s room ctx n.val).getD 0 0).toNat % 2 ^ 36))) .seq ∧
  (d ≠ noTensor → tensorAt (putTensor s room ctx n.val d) room ctx n.val = d)

/-- R197, R210, R211, R222, R223: a command is accepted: it gets the next id, joins the window as waiting with its scales, its
predecessors still there and its barrier, and its start falls due. A full window parks the slot; an owned slot traps 0x0C; a
slot without a launch, and a barrier that is not used, 0x0D; a root cell that is not a multiple of 16, 0x03. The trap of a slot
without a launch is the model's choice (log entry 59), as is what a predecessor that has left imposes (log entry 121); the beta that
a record of HADD with fl[1] holds is read by nothing, the walk takes 1. -/
def Obligations.HearthCommands : Prop := ∀ (s : State) (d : Reg) (c a b : Fin 64) (fl : BitVec 3) (f2 : BitVec 2) (ty : Ty) (swap : Bool),
  let v := here s
  let room := roomOf s.cur.1
  let l := (launchOf v).getD 0
  let (names, n, granule, skip) := depOf v
  let preds := predecessorsOf s room l names
  let id := nextIdOf s room l
  let one : XWord := 0x3FF0000000000000
  let go := fun (i : Instr) (flags : BitVec 3) (alpha beta : XWord) (reads : List Nat) =>
    let q : Command := {
      id := id, seq := ((gangOf s v).map fun g => g.2.seq).getD 0, ctx := v.ctx, launch := l, instr := i, core := s.cur.1,
      slot := s.cur.2, alpha := alpha, beta := beta, cell := if flags.getLsbD 2 then xOf v 3 else 0, saturate := satOf v,
      preds := preds, barrier := n, granule := granule, skip := skip, state := .waiting, code := 0, flags := 0,
      swapFailed := false, steps := 0, started := false, a := [], b := [], c := [], refs := [], sums := [], part := none,
      held := [], result := none, spreads := false, posted := 0, returned := [], index := 0, stairOwed := false }
    let u := post (onRoom s room fun r => { r with
      window := r.window ++ [q], nextId := tput r.nextId l (if id = 65535 then 1 else id + 1) }) [.commandStart room]
    (32 ≤ (roomAt s room).window.length → Parks i s s .window) ∧
    ((roomAt s room).window.length < 32 →
      (∀ t, busyOperand s room v.ctx l preds c.val reads = some t → Traps i s 0x0C 0 t 0) ∧
      (busyOperand s room v.ctx l preds c.val reads = none →
        (launchOf v = none ∨ roomBarrierN s l room n = 0 → Traps i s 0x0D 0 0 0) ∧
        (launchOf v ≠ none → roomBarrierN s l room n ≠ 0 → flags.getLsbD 2 = true → (xOf v 3).toNat % 16 ≠ 0 →
          Traps i s 0x03 (xOf v 3) 0 0) ∧
        (launchOf v ≠ none → roomBarrierN s l room n ≠ 0 → flags.getLsbD 2 = false ∨ (xOf v 3).toNat % 16 = 0 →
          (∀ p q, p ∈ preds → commandAt s room l p = some q → q.state ≠ .stopped) →
          Ends i s u (withX v d (BitVec.ofNat 64 id)) .seq)))
  let alphaOf := fun (z : Bool) => if z then one else xOf v 1
  let betaOf := fun (z : Bool) => if z then 0 else xOf v 2
  go (.hmm d c a b fl) fl (alphaOf (fl.getLsbD 0)) (betaOf (fl.getLsbD 1)) [a.val, b.val] ∧
  go (.hadd d c a b fl) fl (alphaOf (fl.getLsbD 0)) (betaOf (fl.getLsbD 1)) [a.val, b.val] ∧
  go (.hmv d c a b f2) (f2.setWidth 3) (alphaOf (f2.getLsbD 0)) (betaOf (f2.getLsbD 1)) [a.val, b.val] ∧
  go (.hcvt d c a ty swap) (if swap then 4 else 0) one 0 [a.val]

/-- R210, R222: a command completes: in a slot of a launch, without a DEP hint, where the hearth's window is empty, the launch's
barrier 0 of the room is used and the root cell of a swap is a multiple of 16, its slot gets the command's id and goes on, and
the command stands in the window. -/
def Claims.CommandsComplete : Prop := ∀ (s : State) (d : Reg) (c a b : Fin 64) (fl : BitVec 3) (f2 : BitVec 2) (ty : Ty) (swap : Bool)
    (l : Nat) (r : Launch),
  let v := here s
  let room := roomOf s.cur.1
  let id := nextIdOf s room l
  let go := fun (i : Instr) (swap : Bool) => Plain i s → (swap = true → (xOf v 3).toNat % 16 = 0) →
    ∃ u q, exec i s = .next (after u (withX v d (BitVec.ofNat 64 id)) .seq) ∧ (roomAt u room).window = [q] ∧ q.id = id ∧
      q.instr = i ∧ q.launch = l ∧ q.ctx = v.ctx ∧ q.state = .waiting ∧ u.mem = s.mem ∧ u.vault = s.vault
  launchOf v = some l → launchAt s l = some r → v.hints = [] → (roomAt s room).window = [] →
  (barrierAt r (barrierKey .room room 0)).config.toNat % 2 ^ 18 ≠ 0 →
  go (.hmm d c a b fl) (fl.getLsbD 2) ∧ go (.hadd d c a b fl) (fl.getLsbD 2) ∧ go (.hmv d c a b f2) false ∧
  go (.hcvt d c a ty swap) swap

/-- R212, R214, R226, R227, R229: the forms on commands complete. A snapshot of a slot that holds no tree; a drop of the one command of
the window, stopped: it leaves the window, dropped, and HQRY then says so. -/
def Claims.ControlComplete : Prop := ∀ (s : State) (d b a : Reg) (n : Fin 64) (q : Command),
  let v := here s
  let room := roomOf s.cur.1
  let l := q.launch
  let gone : CommandStatus := ⟨q.id, l, .dropped, 0, q.flags, q.swapFailed, q.steps⟩
  (tKind (tensorAt s room v.ctx n.val) ≠ 1 →
    Runs (.hsnap d b n) s (withX (withX (withX v d 0) (regPlus d 1) 0) b (BitVec.ofNat 64 (2 ^ 63))) .seq) ∧
  (launchOf v = some l → (xOf v a).toNat % 2 ^ 16 = q.id → (roomAt s room).window = [q] → q.state = .stopped → q.preds = [] →
    ∃ u, Ends (.hdrop a) s u v .seq ∧ (roomAt u room).window = [] ∧ (roomAt u room).left.head? = some gone ∧
      (s.indexes = [] → u.mem = s.mem)) ∧
  (launchOf v = some l → (xOf v a).toNat % 2 ^ 16 = q.id → (roomAt s room).window = [] → (roomAt s room).left = [gone] →
    Runs (.hqry d a) s (withX v d (statusOf q.id 6 0 q.flags.toNat q.swapFailed q.steps)) .seq)

/-- R226 to R229: snapshots, status, resuming, dropping and the window's counts. HRES and HDROP act on a stopped command of the
slot's launch, and on nothing else. -/
def Claims.CommandControl : Prop := ∀ (s t u : State) (d b a : Reg) (n : Fin 64) (q : Command) (name : BitVec 128) (w : XWord),
  let v := here s
  let room := roomOf s.cur.1
  let id := (xOf v a).toNat % 2 ^ 16
  let stopped := (launchOf v).bind fun l => (commandAt s room l id).filter fun q => q.state == .stopped
  let window := (roomAt s room).window
  let root := tensorAt s room v.ctx n.val
  let inactive := ∀ q, ownerOf s room v.ctx n.val = some q → q.state = .waiting ∨ q.state = .split
  let none64 := BitVec.ofNat 64 (2 ^ 63)
  (tKind root ≠ 1 → Steps (do wxName d 0; wx b none64) s () t → Ends (.hsnap d b n) s t (here t) .seq) ∧
  (tKind root = 1 → inactive → Steps (swapRoots v.ctx 0 (tRoot root)) s () t →
    Steps (do wxName d (tRoot root); wx b none64) t () u → Ends (.hsnap d b n) s u (here u) .seq) ∧
  (tKind root = 1 → ownerOf s room v.ctx n.val = some q → q.state = .running ∨ q.state = .stopped ∨ q.state = .resumed →
    Steps (takeSnapshot room q) s (name, w) t → recoverable t (here t) = none →
    Steps (do wxName d name; wx b w) t () u → Ends (.hsnap d b n) s u (here u) .seq) ∧
  (∀ l, launchOf v = some l →
    (commandAt s room l id = some q → Runs (.hqry d a) s (withX v d (statusOf id
      (match q.state with | .waiting | .split => 1 | .running | .resumed => 2 | .stopped => 3)
      (if q.state = .stopped then q.code.toNat else 0) q.flags.toNat q.swapFailed q.steps)) .seq) ∧
    (∀ e, commandAt s room l id = none → (roomAt s room).left.find? (fun q => q.launch == l && q.id == id) = some e →
      Runs (.hqry d a) s (withX v d (statusOf id
        (match e.how with | .retired => 4 | .inError => 5 | .dropped => 6) e.code.toNat e.flags.toNat e.swapFailed e.steps)) .seq)) ∧
  (stopped = none → Runs (.hres a) s v .seq ∧ Runs (.hdrop a) s v .seq) ∧
  (stopped = some q → (∃ u, Ends (.hres a) s u v .seq ∧ u.mem = s.mem ∧
      (roomAt u room).window = window.map (fun c => if c.launch = q.launch ∧ c.id = q.id then { c with state := .resumed } else c) ∧
      u.agenda = s.agenda ++ [.event (.commandStart room)]) ∧
    (Steps (dropCommand room q) s () t → Ends (.hdrop a) s t (here t) .seq)) ∧
  Runs (.hwin d) s (withX v d (BitVec.ofNat 64 (
    ((launchOf v).map (nextIdOf s room)).getD 1 * 2 ^ 32 +
    (window.filter fun q => q.ctx == v.ctx && q.state == .stopped).length * 2 ^ 16 +
    (window.filter fun q => launchOf v == some q.launch).length * 2 ^ 8 + window.length))) .seq

/-- R206, R207, R210, R212, R213, R216: the steps of a hearth, as its window has them. The walker that is free starts the command
R212 picks, and writes a stair that a waiting command owes; a running command whose products are in walks to its end; a fault
code of Table 11.9 stops it, its stair written; a granule stop splits it for a command of higher priority; products go out and
come back. A step that finds nothing to do changes nothing. That a walk runs to its end in one step is the model's choice (log entry
58); a command of higher priority is one of the occasions of R216, beside a context save and a change of the map. -/
def Claims.HearthSteps : Prop := ∀ (s t u : State) (room steps : Nat) (code : BitVec 8) (q : Command) (p : Posted) (o : Option Nat),
  let running := runningOf s room
  let idle := running = none ∨ ∃ q, running = some q ∧ q.posted ≠ 0
  let waiting := (roomAt s room).posted.find? fun p => p.result.isNone
  let back := (roomAt s room).posted.find? fun p => p.result.isSome
  let fault := code.toNat ∈ [0x04, 0x05, 0x0E, 0x20, 0x21, 0x22, 0x23]
  let higher := ∃ c ∈ (roomAt s room).window, mayStart s room c = true ∧ commandPri s q < commandPri s c
  (32 ≤ (roomAt s room).window.length → Occurs (.windowStallRelease room) s s) ∧
  ((roomAt s room).window.length < 32 → Quiet s → (∀ c, (coreAt s c).pair = none) → ∃ t, exec (.windowStallRelease room) s = .next t ∧
    (∀ c ∈ coresOf room, ∀ k, (slotAt t c k).wait = if (slotAt s c k).wait = some .window then none else (slotAt s c k).wait) ∧
    t.mem = s.mem ∧ t.vault = s.vault) ∧
  ((∃ q, running = some q ∧ (q.stairOwed = false ∨ q.code ≠ 0)) ∨ (running = none ∧ nextCommand s room = none) →
    Occurs (.commandStart room) s s) ∧
  (running = some q → q.stairOwed = true → q.code = 0 → Steps (writeStair room q.ctx) s none t →
    Occurs (.commandStart room) s (onCommand t room q.launch q.id fun _ => { q with stairOwed := false })) ∧
  (running = none → nextCommand s room = some q → q.started = true → rereads q = false → q.posted = 0 →
    (∀ e ∈ q.returned, e.2.code = 0) → Quiet s →
    ∃ t, exec (.commandStart room) s = .next t ∧ (roomAt t room).window =
        (roomAt s room).window.map (fun c => if c.launch = q.launch ∧ c.id = q.id then { q with state := .running, code := 0 } else c) ∧
      t.agenda = s.agenda ++ [.event (.commandRetire room)] ∧ t.mem = s.mem) ∧
  (commandStartAct room s = .ok () u → Occurs (.commandStart room) s u) ∧
  (running = none ∨ (running = some q ∧ (q.posted ≠ 0 ∨ q.code ≠ 0)) → Occurs (.commandRetire room) s s) ∧
  (running = some q → q.posted = 0 → q.code = 0 → retireCommand room q s = .ok () u → Occurs (.commandRetire room) s u) ∧
  (running = none ∨ ¬fault → Occurs (.commandStop room code) s s) ∧
  (running = some q → fault → writeStair room q.ctx s = .ok o t → endStop room q code t = .ok () u →
    Occurs (.commandStop room code) s u) ∧
  (running = none ∨ (running = some q ∧ (splittable q = false ∨ ¬higher)) → Occurs (.granuleStop room steps) s s) ∧
  (running = some q → splittable q = true → higher → splitAt room (max q.steps steps) q s = .ok () u →
    Occurs (.granuleStop room steps) s u) ∧
  (running = some q → splittable q = true → higher → steps ≤ q.steps → writeStair room q.ctx s = .ok none t →
    Occurs (.granuleStop room steps) s (post (onCommand t room q.launch q.id fun _ => { q with state := .split })
      [.commandStart room, .postedProduct room])) ∧
  (waiting = none ∨ ¬idle → Occurs (.postedProduct room) s s) ∧
  (idle → waiting = some p → commandAt s p.owner p.launch p.id = none →
    Occurs (.postedProduct room) s (onRoom s room fun r => { r with posted := r.posted.filter fun x => x != p })) ∧
  (idle → waiting = some p → postedProductAct room s = .ok () u → Occurs (.postedProduct room) s u) ∧
  (back = none → Occurs (.postedProductReturn room) s s) ∧
  (back = some p → Quiet s → ∃ t, exec (.postedProductReturn room) s = .next t ∧ t.mem = s.mem ∧
    ∀ c, commandAt s p.owner p.launch p.id = some c → (∃ e, commandAt t p.owner p.launch p.id = some e ∧
      e.posted = c.posted - 1 ∧ e.returned = tput c.returned p.index (p.result.getD ⟨kidZ, 0, 0⟩)) ∧
      (c.posted ≤ 1 → Turn.event (.commandRetire p.owner) ∈ t.agenda))

/-- R195, R205, R207, R212, R213: the one command of a hearth's window retires where its walk is complete and it swaps no root: its c slot
has the result, its status stays as retired. Where a fault stops it, it stands in the window with its code. A posted product with an
all-zero operand is an all-zero tree, on its way back. -/
def Claims.CommandsEnd : Prop := ∀ (s t : State) (room : Nat) (q : Command) (root : BitVec 128) (r : Launch) (code : BitVec 8)
    (o : Option Nat) (p : Posted),
  let b := fun (r : Launch) => barrierAt r (barrierKey .room room q.barrier)
  let counts := fun (s : State) => launchAt s q.launch = some r ∧ r.mode = 0 ∧ (b r).arrived + 1 < (b r).config.toNat % 2 ^ 18 ∧
    (b r).config.toNat / 2 ^ 18 % 16 < 9
  let c := { q with result := some root, posted := 0, code := 0, state := .running }
  let old := tensorAt s room q.ctx (slotC q)
  (Quiet s → (roomAt s room).window = [c] → counts s → (commandFlags q).getLsbD 2 = false → slotC q < 64 →
    (∀ d ty x y fl, q.instr ≠ .hmv d ty x y fl) → resultSlot c old root ≠ noTensor →
    ∃ u, exec (.commandRetire room) s = .next u ∧ (roomAt u room).window = [] ∧
      tensorAt u room q.ctx (slotC q) = resultSlot c old root ∧
      (roomAt u room).left.head? = some ⟨q.id, q.launch, .retired, 0, q.flags, q.swapFailed, totalSteps q⟩ ∧
      (s.indexes = [] → u.mem = s.mem)) ∧
  (Quiet t → (roomAt s room).window = [c] → (roomAt t room).window = [c] → q.preds = [] → counts t →
    code.toNat ∈ [0x04, 0x05, 0x0E, 0x20, 0x21, 0x22, 0x23] → writeStair room q.ctx s = .ok o t →
    ∃ u, exec (.commandStop room code) s = .next u ∧ (roomAt u room).window = [{ c with state := .stopped, code := code }] ∧
      u.mem = t.mem) ∧
  (runningOf s room = none → (roomAt s room).posted.find? (fun p => p.result.isNone) = some p → commandAt s p.owner p.launch p.id = some q →
    p.left.code = 0 ∨ p.right.code = 0 → Occurs (.postedProduct room) s (post (onRoom s room fun r => { r with
      posted := r.posted.map fun x => if x = p then { p with result := some ⟨kidZ, 0, 0⟩ } else x })
      [.postedProductReturn room, .postedProduct room]))

/-- R65, R202: the product of two leaves, row by row of Table 11.4: every scaling is exact and rounds once, an I times an I in f64,
and an inner product is that of its format pair (Table 4.9). What is raised does not hang on what was raised before. -/
def Claims.LeafProducts : Prop := ∀ (k : PairKind) (acc : Fmt) (x y : Leaf) (a b : FVal) (n : Nat) (ds es : List FVal)
    (us vs ws zs rows cols : List (List FVal)),
  let p := fun (x y : Leaf) => resultOf (leafProduct k acc x y)
  let times := fun (f : Fmt) (x y : FVal) => resultOf (scaleRound f x y)
  let by_ := times acc
  let inner := fun (weights : Bool) (x y : List FVal) => resultOf (dot k acc weights x y)
  let cs := columnsOf cols.length cols
  let core := vs.map fun v => ws.map fun w => inner false v w
  (∀ f x y, times f x y = resultOf (roundExactly f (resultOf (mulExact x y)))) ∧
  (p .z y = .z ∧ p x .z = .z ∧ p (.i a) (.i b) = .i (times fmtF64 a b)) ∧
  (p (.i a) (.d ds) = .d (ds.map fun v => by_ a v) ∧ p (.d ds) (.i b) = .d (ds.map fun v => by_ v b)) ∧
  (p (.i a) (.l us vs) = .l (us.map fun u => u.map fun e => by_ a e) vs ∧
    p (.l us vs) (.i b) = .l us (vs.map fun v => v.map fun e => by_ e b)) ∧
  (p (.i a) (.f rows) = .f (rows.map fun r => r.map fun e => by_ a e) ∧
    p (.f rows) (.i b) = .f (rows.map fun r => r.map fun e => by_ e b)) ∧
  (p (.d ds) (.d es) = .d (List.zipWith by_ ds es) ∧
    p (.d ds) (.f rows) = .f (List.zipWith (fun e r => r.map fun v => by_ e v) ds rows) ∧
    p (.f rows) (.d ds) = .f (rows.map fun r => List.zipWith by_ r ds)) ∧
  (us.length ≤ ws.length → p (.l us vs) (.l ws zs) =
    .l us (core.map fun row => (columnsOf (vs.headD []).length zs).map fun z => inner false z row)) ∧
  (ws.length < us.length → p (.l us vs) (.l ws zs) =
    .l ((columnsOf ws.length core).map fun col => (columnsOf (vs.headD []).length us).map fun u => inner false u col) zs) ∧
  (p (.l us vs) (.d ds) = .l us (vs.map fun v => List.zipWith by_ v ds) ∧
    p (.l us vs) (.f cols) = .l us (vs.map fun v => cs.map fun c => inner false v c) ∧
    p (.d ds) (.l us vs) = .l (us.map fun u => List.zipWith by_ ds u) vs ∧
    p (.f rows) (.l us vs) = .l (us.map fun u => rows.map fun r => inner true r u) vs) ∧
  p (.f rows) (.f cols) = .f (rows.map fun r => cs.map fun c => inner true r c) ∧
  (leafProduct k acc x y).run n = (p x y, n ||| raisedBy (leafProduct k acc x y))

/-- R66, R203, R225: the sum of two leaves has the type of Table 11.5, each operand brought to it, and one rounding an element; so does
a scaled sum, with one rounding of the exact value; a conversion takes every element. DEMOTE makes an F leaf of zeros a Z. -/
def Claims.LeafSums : Prop := ∀ (k : PairKind) (acc : Fmt) (d : Nat) (x y : Leaf) (a b : FVal) (ds : List FVal)
    (us vs ws zs rows : List (List FVal)) (blend : Blend) (f : Fmt) (sat demote : Bool),
  let sum := fun (x y : Leaf) => resultOf (leafSum k acc d x y)
  let plus := fun (f : Fmt) (x y : FVal) => resultOf (sumRound f x y)
  let full := fun (x : Leaf) => resultOf (fullRows (dot k acc false) d x)
  let wide := fun (x : Leaf) => resultOf (fullRows (fun u v => dotExact (u.zip v)) d x)
  let elem := fun (x y : Leaf) (v w : FVal) => resultOf (blendElem blend x.isZ y.isZ v w)
  let mix := fun (x y : Leaf) => resultOf (leafBlend blend d x y)
  let conv := fun (v : FVal) => resultOf (convertExact f sat v)
  let scaled := fun (s : Option FVal) (v : FVal) => resultOf (roundExactly blend.out (resultOf (scaledBy s v)))
  (sum .z y = y ∧ sum x .z = x ∧ sum (.i a) (.i b) = .i (plus fmtF64 a b)) ∧
  (sumType x y = .d → x ≠ .z → y ≠ .z → sum x y = .d (List.zipWith (plus acc) (diagonalOf d x) (diagonalOf d y))) ∧
  (us.length + ws.length ≤ 16 → sum (.l us vs) (.l ws zs) = .l (us ++ ws) (vs ++ zs)) ∧
  (sumType x y = .f → x ≠ .z → y ≠ .z → sum x y = .f (List.zipWith (List.zipWith (plus acc)) (full x) (full y))) ∧
  (full (.f rows) = rows ∧ full (.d ds) = diagonalRows ds ∧ full (.i a) = diagonalRows (List.replicate d a) ∧
    full (.l us vs) = (columnsOf d us).map fun u => (columnsOf d vs).map fun v => resultOf (dot k acc false u v)) ∧
  ([sumType .z .z, sumType .z (.i a), sumType .z (.d ds), sumType .z (.l us vs), sumType .z (.f rows)] = [.z, .i, .d, .l, .f] ∧
    [sumType (.i a) .z, sumType (.i a) (.i b), sumType (.i a) (.d ds), sumType (.i a) (.l us vs), sumType (.i a) (.f rows)] =
      [.i, .i, .d, .f, .f] ∧
    [sumType (.d ds) .z, sumType (.d ds) (.i a), sumType (.d ds) (.d ds), sumType (.d ds) (.l us vs), sumType (.d ds) (.f rows)] =
      [.d, .d, .d, .f, .f] ∧
    [sumType (.l us vs) .z, sumType (.l us vs) (.i a), sumType (.l us vs) (.d ds), sumType (.l us vs) (.f rows)] = [.l, .f, .f, .f] ∧
    sumType (.l us vs) (.l ws zs) = (if us.length + ws.length ≤ 16 then .l else .f) ∧ sumType (.f rows) y = .f) ∧
  (mix .z .z = .z ∧ mix (.i a) (.i b) = .i (elem (.i a) (.i b) a b)) ∧
  (sumType x y = .d → mix x y = .d (List.zipWith (elem x y) (diagonalOf d x) (diagonalOf d y))) ∧
  (us.length + ws.length ≤ 16 → mix (.l us vs) (.l ws zs) =
    .l (us.map (fun u => u.map (scaled blend.alpha)) ++ ws.map (fun w => w.map (scaled blend.beta)))
      (vs.map (fun v => v.map (scaled none)) ++ zs.map (fun z => z.map (scaled none)))) ∧
  (sumType x y = .f → let r := List.zipWith (List.zipWith (elem x y)) (wide x) (wide y)
    mix x y = if blend.demote && allZero r then .z else .f r) ∧
  (resultOf (leafConvert f sat demote (.i a)) = .i (conv a) ∧ resultOf (leafConvert f sat demote (.d ds)) = .d (ds.map conv) ∧
    resultOf (leafConvert f sat demote (.l us vs)) = .l (us.map fun u => u.map conv) (vs.map fun v => v.map conv) ∧
    resultOf (leafConvert f sat demote (.f rows)) =
      let r := rows.map fun r => r.map conv; if demote && allZero r then .z else .f r)

/-- R201, R203, R205: the walks over subtrees. A product with a Z is a Z and costs nothing; of two I at one level it is an I, as is
their sum, scaled sum or conversion; two leaves go by Table 11.4; two nodes by their quadrants, P0 and then P1 of each, and the node
that they make is in canonical form. -/
def Claims.TreeProducts : Prop := ∀ (env : WalkEnv) (r : Arith) (ta tb : TreeOf) (blend : Blend) (c : Convert) (ty : Ty) (e level : Nat)
    (root : Bool) (x y k k0 k1 k2 k3 : Kid) (as bs : List Kid) (p q : Leaf) (w w1 w2 w3 w4 w5 w6 w7 : Walk)
    (s s1 s2 s3 s4 s5 s6 s7 : State),
  let product := scaleRound fmtF64 (kidAlpha x) (kidAlpha y)
  let total := sumRound fmtF64 (kidAlpha x) (kidAlpha y)
  let leafI := fun (k : Kid) => if k.code = 1 then Leaf.i (kidAlpha k) else Leaf.z
  let converted := convertExact (fmtOf c.ty) c.sat (kidAlpha x)
  let quad := fun (i j : Nat) => (do
    let p ← mulKids env r ta tb level (kidAt as (2 * i)) (kidAt bs j)
    let q ← mulKids env r ta tb level (kidAt as (2 * i + 1)) (kidAt bs (2 + j))
    sumAndRelease env r level p q : W Kid)
  (x.code = 0 ∨ y.code = 0 → Walks (mulKids env r ta tb level x y) w s kidZ w s) ∧
  (x.code = 1 → y.code = 1 → (resultOf product).isNan = false →
    Walks (mulKids env r ta tb level x y) w s (kidI (resultOf product)) (w.raised (raisedBy product)) s) ∧
  (x.code = 0 → y.code ≤ 1 → Walks (sumKids env r level x y) w s y w s) ∧
  (x.code = 1 → y.code = 0 → Walks (sumKids env r level x y) w s x w s) ∧
  (x.code = 1 → y.code = 1 → (resultOf total).isNan = false →
    Walks (sumKids env r level x y) w s (kidI (resultOf total)) (w.raised (raisedBy total)) s) ∧
  (x.code = 0 → y.code = 0 → Walks (blendKids env blend ty ta tb level x y) w s kidZ w s) ∧
  (x.code ≤ 1 → y.code ≤ 1 → ¬(x.code = 0 ∧ y.code = 0) → (resultOf (blendI blend (leafI x) (leafI y))).isNan = false →
    Walks (blendKids env blend ty ta tb level x y) w s (kidI (resultOf (blendI blend (leafI x) (leafI y))))
      (w.raised (raisedBy (blendI blend (leafI x) (leafI y)))) s) ∧
  (x.code = 0 → Walks (convertKids env c ta level x) w s kidZ w s) ∧
  (x.code = 1 → isWeight c.ty = true ∨ c.ty = ta.ty → Walks (convertKids env c ta level x) w s x w s) ∧
  (x.code = 1 → isWeight c.ty = false → c.ty ≠ ta.ty → (resultOf converted).isNan = false →
    Walks (convertKids env c ta level x) w s (kidI (resultOf converted)) (w.raised (raisedBy converted)) s) ∧
  (x.code ≠ 0 → y.code ≠ 0 → Walks (leafOf env ta x) w s p w1 s1 → Walks (leafOf env tb y) w1 s1 q w2 s2 →
    let l := leafProduct r.kind (fmtOf r.acc) p q
    Walks (putLeaf env r.acc r.e (resultOf l)) (w2.raised (raisedBy l)) s2 k w3 s3 → Walks (mulKids env r ta tb 0 x y) w s k w3 s3) ∧
  (x.code ≠ 0 → y.code ≠ 0 → ¬(x.code = 1 ∧ y.code = 1) → env.spread ≠ some (level + 1) →
    Walks (kidsOf env ta (level + 1) x) w s as w1 s1 → Walks (kidsOf env tb (level + 1) y) w1 s1 bs w2 s2 →
    Walks (quad 0 0) w2 s2 k0 w3 s3 → Walks (quad 0 1) w3 s3 k1 w4 s4 → Walks (quad 1 0) w4 s4 k2 w5 s5 →
    Walks (quad 1 1) w5 s5 k3 w6 s6 → Walks (makeNode env r.acc r.e (level + 1) false [k0, k1, k2, k3]) w6 s6 k w7 s7 →
    Walks (mulKids env r ta tb (level + 1) x y) w s k w7 s7) ∧
  (Walks (kidsOf env ta level kidZ) w s [kidZ, kidZ, kidZ, kidZ] w s ∧
    (x.code = 1 → Walks (kidsOf env ta level x) w s [x, kidZ, kidZ, x] w s)) ∧
  ((∀ k ∈ as, k.code = 0) → Walks (makeNode env ty e level root as) w s kidZ w s) ∧
  (x.code = 1 → Walks (makeNode env ty e level false [x, kidZ, kidZ, x]) w s x w s) ∧
  (as.any (fun k => k.code != 0) = true → root = true ∨ reducesToI as = false →
    makeNode env ty e level root as = nameContents env 5 (nodeBytes ty e level as) as)

/-- R205, R224, R225, Table 11.6: the top-level steps of the four commands in their order, and the tree that they make: HMM forms P0 and
then P1 of each quadrant, HADD the scaled sums and HCVT the conversions quadrant by quadrant. With nothing to scale or add the sums are
the result's children; four Z are the all-zero tree. -/
def Claims.TreeResults : Prop := ∀ (env : WalkEnv) (q : Command) (as bs : List Kid) (p0 k : Kid) (w w1 w2 w3 w4 : Walk)
    (s s1 s2 s3 s4 t : State) (d : Reg) (c a b : Fin 64) (fl : BitVec 3) (fmt : Ty) (swap : Bool),
  let ta := treeOf s q.ctx q.a
  let tb := treeOf s q.ctx q.b
  let level := rootLevel q.a - 1
  let m := q.steps
  let kid := fun (l : List Kid) (i : Nat) => kidAt l i
  let roots := Walks (rootKids env ta (rootKid q.a)) w t as w1 s1
  let both := roots ∧ Walks (rootKids env tb (rootKid q.b)) w1 s1 bs w2 s2
  let product := mulKids env (arithOf q) ta tb level (kid as (m / 4 * 2 + m % 2)) (kid bs (m % 2 * 2 + m / 2 % 2))
  let made := fun (ty : Ty) => makeNode env ty (tE q.a) (level + 1) true q.sums
  (q.instr = .hmm d c a b fl → both → Walks product w2 s2 k w3 s3 →
    (q.part = none → Walks (topStep env s q) w t { q with steps := m + 1, part := some k } w3 s3) ∧
    (∀ n, q.part = some p0 → Walks (sumAndRelease env (arithOf q) level p0 k) w3 s3 n w4 s4 →
      Walks (topStep env s q) w t { q with steps := m + 1, part := none, sums := q.sums ++ [n] } w4 s4)) ∧
  (q.instr = .hadd d c a b fl → both → Walks (blendKids env (addBlend q) (tTy q.c) ta tb level (kid as m) (kid bs m)) w2 s2 k w3 s3 →
    Walks (topStep env s q) w t { q with steps := m + 1, sums := q.sums ++ [k] } w3 s3) ∧
  (q.instr = .hcvt d c a fmt swap → roots →
    Walks (convertKids env ⟨fmt, q.saturate, tDemote q.c⟩ ta level (kid as m)) w1 s1 k w2 s2 →
    Walks (topStep env s q) w t { q with steps := m + 1, sums := q.sums ++ [k] } w2 s2) ∧
  (q.instr = .hcvt d c a fmt swap → Walks (made fmt) w t k w1 s1 → Walks (finishTree env s q) w t k.field w1 s1) ∧
  (q.instr = .hadd d c a b fl → Walks (made (tTy q.c)) w t k w1 s1 → Walks (finishTree env s q) w t k.field w1 s1) ∧
  (q.instr = .hmm d c a b fl → fl.getLsbD 0 = true → fl.getLsbD 1 = true → tTy q.c = (arithOf q).acc → tDemote q.c = false →
    Walks (made (tTy q.c)) w t k w1 s1 → Walks (finishTree env s q) w t k.field w1 s1) ∧
  (q.instr = .hcvt d c a fmt swap ∨ q.instr = .hadd d c a b fl → (∀ k ∈ q.sums, k.code = 0) →
    Walks (finishTree env s q) w t 0 w t) ∧
  ((∀ x, alphaOf q = some x ↔ ((commandFlags q).getLsbD 0 = false ∧ x = valueOf fmtF64 q.alpha.toNat)) ∧
    (finalBlend q).alpha = alphaOf q ∧ (finalBlend q).beta = betaOf q)

/-- R212, R213: a command that leaves the window is in it no more; its status is kept, at the head of the last 32. -/
def Claims.CommandLeaves : Prop := ∀ (s : State) (room : Nat) (q : Command) (how : CommandEnd) (code : BitVec 8),
  let t := removeCommand s room q how code
  commandAt t room q.launch q.id = none ∧
  (∀ l id, (l ≠ q.launch ∨ id ≠ q.id) → commandAt t room l id = commandAt s room l id) ∧
  (roomAt t room).left.head? = some ⟨q.id, q.launch, how, code, q.flags, q.swapFailed, q.steps⟩ ∧
  (roomAt t room).left.length ≤ 32 ∧ t.mem = s.mem ∧ t.cores = s.cores

/-! ### Launches, tasks and graphs (R235 to R270) -/

/-- R236, R257 to R260, R268 to R270: records and graphs. Outside a recoverable superstep the operation is performed as its
instruction retires, and the answer is the state it leaves; an accepted LARM, GARM and every GDONE release at house scope. A landing
that has completions waiting takes a further one after them. The answers of GARM and GDONE in a slot without a launch are the
model's choice (log entry 27). -/
def Claims.RecordsAndGraphs : Prop := ∀ (s t u w : State) (d a b : Reg) (code g l : Nat) (r : Launch) (done : Bool),
  let v := here s
  let X := xOf v
  let i := (X a).toNat % 1024
  let k := (X a).toNat / 2 ^ 16 % 32
  let hall := hallOf s.cur.1
  let mine := launchOf v = some l ∧ launchAt s l = some r
  (k ∈ [0, 1, 7, 9] ∨ 24 ≤ k → Traps (.lpatch d a b) s 0x14 0 0 k) ∧
  (recoverable s v = none →
    (¬(k ∈ [0, 1, 7, 9] ∨ 24 ≤ k) → Steps (patchRecord v.ctx i k (X b)) s done u →
      (done = true → Ends (.lpatch d a b) s u (withX (here u) d (recordWord u v.ctx i 0 true)) .seq) ∧
      (done = false → Ends (.lpatch d a b) s s (withX v d (recordWord u v.ctx i 0 false)) .seq)) ∧
    (Steps (armRecord v.ctx i) s code u →
      (code ≠ 0 → Runs (.larm d a) s (withX v d (recordWord u v.ctx i code false)) .seq) ∧
      (code = 0 → Released .house s t → recoverable t (here t) = none → ∀ n, Steps (armRecord v.ctx i) t n w →
        Ends (.larm d a) s w (withX (here w) d (recordWord u v.ctx i 0 false)) .seq)) ∧
    (launchOf v = none ∨ (launchOf v = some l ∧ launchAt s l = none) →
      Runs (.garm d a) s (withX v d 3) .seq ∧ Runs (.gdone a) s v .seq) ∧
    (mine → Steps (do cleanHeader hall l r; armGraph hall l r ((X a).setWidth 32 : Word).toNat) s (g, code) u →
      (code ≠ 0 → Runs (.garm d a) s (withX v d (BitVec.ofNat 64 (g * 2 ^ 32 + code))) .seq) ∧
      (code = 0 → Released .house s t → recoverable t (here t) = none → launchAt t l = some r → ∀ n,
        Steps (armGraph hall l r ((X a).setWidth 32 : Word).toNat) t n w →
        Ends (.garm d a) s w (withX (here w) d (BitVec.ofNat 64 (g * 2 ^ 32))) .seq)) ∧
    (mine → recWord r 5 = 0 → Runs (.gdone a) s v .seq) ∧
    (mine → recWord r 5 ≠ 0 → Steps (releasedQuietly (pure .seq)) s .seq t → recoverable t (here t) = none → launchAt t l = some r →
      let n := ((X a).setWidth 32 : Word).toNat
      ((hallAt t hall).doneNodes = [] → Steps (graphDone hall l r n) t () w → Ends (.gdone a) s w (here w) .seq) ∧
      ((hallAt t hall).doneNodes ≠ [] → Ends (.gdone a) s (post (onHall t hall fun h => { h with doneNodes := h.doneNodes ++ [(l, n)] })
        [.landingRetry hall]) (here t) .seq))) ∧
  Runs (.lqry d a) s (withX v d (recordWord s v.ctx i 0 false)) .seq

/-- R235, R236: an arm that passes every check arms the record: its sequence counts it, its launch is there and not running, its
rooms' starts fall due; a record that is not idle answers code 1 and nothing changes. -/
def Claims.Arms : Prop := ∀ (s t : State) (ctx record : Nat) (r : Launch),
  let l := launchKey ctx record
  (recordState s ctx record ≠ 0 → armRecord ctx record s = .ok 1 s) ∧
  (∀ code, code ≠ 0 → judgeArm ctx record s = .ok (code, r) t → armRecord ctx record s = .ok code t) ∧
  (judgeArm ctx record s = .ok (0, r) t → ∃ u, armRecord ctx record s = .ok 0 u ∧ launchAt u l = some r ∧
    armSequence u ctx record = r.arm ∧ u.agenda = t.agenda ++ (startsOf l r).map Turn.event ∧ u.mem = t.mem ∧ u.cores = t.cores)

/-- R249, R261 to R266, R362, R397: enqueueing, ending, yielding and moving a task. An entry for the successor of the task's own
stage is held by the task; in a superstep an end arrives at the commit, unless the task arrived before in one that has committed
since. That a slot without a launch ends nothing, and what QENQ answers there, are the model's choices (log entry 27). -/
def Claims.Tasks : Prop := ∀ (s t t1 t2 u : State) (a b d : Reg) (m l : Nat) (r : Launch) (fields : List Word) (bs : List Byte),
  let v := here s
  let X := xOf v
  let st := (X b).toNat % 8
  let hall := hallOf s.cur.1
  let mine := launchOf (here t) = some l ∧ launchAt t l = some r
  let entry := BitVec.ofNat 32 m :: fields
  let full := queueFull t1 hall l r st
  let misused := fun (t : State) (n : Nat) => TrapsFrom (.qenq a b) s t 0x13 0 0 n
  let ends := fun (i : Instr) (scope : Tier) (op : CommitOp) (ending : M Flow) =>
    transferOf s s.cur.1 s.cur.2 = none → Released scope s t2 →
      (gangOf t2 v = none → Leaves ending t2 u → Becomes i s u) ∧
      (∀ l r, gangOf t2 v = some (l, r) →
        ((here t2).arrivedIn.any (fun q => decide (q < r.seq)) = false → Plain i s → ∃ w, exec i s = .next w ∧
          (here w).wait = some (.commit l r.seq op) ∧ (here w).arrivedIn = some r.seq ∧ (here w).pc = (here t2).pc ∧
          w.agenda = t2.agenda ++ [.event (.superstepCommit (l / 1024) (l % 1024))]) ∧
        ((here t2).arrivedIn.any (fun q => decide (q < r.seq)) = true →
          Leaves ending (onSlot t2 s.cur.1 s.cur.2 fun v => { v with arrivedIn := none }) u → Becomes i s u))
  ((X a).toNat % 4 ≠ 0 → Traps (.qenq a b) s 0x03 (X a) 0 0) ∧
  ((X a).toNat % 4 = 0 → Steps (loadBytes (X a) 4) s bs t → m = natOfBytes bs →
    (2 ^ 16 ≤ m → TrapsFrom (.qenq a b) s t 0x13 (X a) 0 3) ∧
    (m < 2 ^ 16 →
      (launchOf (here t) = none ∨ (launchOf (here t) = some l ∧ launchAt t l = none) → misused t 2) ∧
      (mine → stageDeclared r st = false → misused t 2) ∧
      (mine → stageDeclared r st = true → Steps (readEntry (X a) m) t fields t1 →
        (stageSucc r (here t1).stage = some st →
          (16 ≤ (here t1).held.length → misused t1 4) ∧ ((here t1).held.length < 16 → full = true → misused t1 1) ∧
          ((here t1).held.length < 16 → full = false → Ends (.qenq a b) s
            (onQueue t1 hall l st fun q => { q with reserved := q.reserved + 1 })
            { here t1 with held := (here t1).held ++ [⟨st, entry⟩] } .seq)) ∧
        (stageSucc r (here t1).stage ≠ some st →
          (full = true → misused t1 1) ∧
          (full = false → Released .hall t1 t2 →
            Steps (do reserve hall l st; emit (.enqueue l hall st entry)) t2 () u → Ends (.qenq a b) s u (here u) .seq))))) ∧
  (v.launch = none → Runs .tend s v .seq ∧ Runs .tyld s v .seq ∧
    (booting s s.cur.1 s.cur.2 = false → Runs (.done d) s v .seq)) ∧
  (v.launch ≠ none → ends .tend .hall .tend endTask) ∧
  (v.launch ≠ none → booting s s.cur.1 s.cur.2 = false → ends (.done d) .house (.done (X d)) (endLaunch (X d))) ∧
  (booting s s.cur.1 s.cur.2 = true → Leaves (bootDone (X d)) s u → Becomes (.done d) s u) ∧
  (launchOf v = some l →
    let ready := shadowReady s s.cur.1 s.cur.2 l
    (bound s s.cur.1 s.cur.2 = true ∨ ready = false ∨ freeFrame s v.ctx = none → Runs .tyld s v .seq) ∧
    (bound s s.cur.1 s.cur.2 = false → ready = true → freeFrame s v.ctx ≠ none →
      Leaves (do
        retire .seq
        let _ ← saveSlot s.cur.1 s.cur.2 none false
        return .gone) s u → Becomes .tyld s u)) ∧
  (let w := onSlot s s.cur.1 s.cur.2 fun v => { v with remoteCount := 0, remoteHall := 0, remoteOff := false };
    let h := (X a).toNat % 256;
    (migratable w (here w) && mayMigrate w s.cur.1 s.cur.2 h = true →
      Leaves (do
        retire .seq
        migrateTask s.cur.1 s.cur.2 h
        return .gone) w u → Becomes (.migr a) s u) ∧
    (migratable w (here w) && mayMigrate w s.cur.1 s.cur.2 h = false →
      Runs (.migr a) s { v with remoteCount := 0, remoteHall := 0, remoteOff := false } .seq))

/-- R249, R250, R263, R265, R266: the ends of a task complete, in a slot of a launch that runs in no supersteps and holds no entry,
with no copy under way, an empty latch and nothing mapped. TEND leaves the slot empty, DONE takes it out of the launch and reports, MIGR queues the
task at its hall. -/
def Claims.TasksComplete : Prop := ∀ (s : State) (d : Reg) (l : Nat) (r : Launch),
  let v := here s
  let (c, k) := s.cur
  let h := (xOf v d).toNat % 256
  let key := 2 ^ 20 * Tier.core.code + c
  let w := onSlot s c k fun v => { v with remoteCount := 0, remoteHall := 0, remoteOff := false }
  launchOf v = some l → launchAt s l = some r → gangOf s v = none → v.held = [] → transferOf s c k = none → v.latch = none →
  (coreAt s c).mappings = [] →
  (Plain .tend s → ∃ u, exec .tend s = .next u ∧ (here u).live = false ∧ (here u).launch = v.launch ∧ (here u).x = v.x ∧
    u.mem = s.mem ∧ u.vault = s.vault) ∧
  (Plain (.done d) s → booting s c k = false → (coreAt s c).shadows = [] → ∃ u, exec (.done d) s = .next u ∧
    (here u).live = false ∧ (here u).launch = none ∧ u.mem = s.mem ∧ u.vault = s.vault ∧
    (launchAt u l).map (fun q => tget [] q.chimney key) = some (tget [] r.chimney key ++ [(c, reportOf (xOf v d))])) ∧
  (Plain (.migr d) s → migratable w (here w) = true → mayMigrate w c k h = true → commandsOf s c k = [] →
    servesKicks s c k = false → ∃ u t, exec (.migr d) s = .next u ∧ (here u).live = false ∧ u.mem = s.mem ∧
      (hallAt u h).migrants = (hallAt s h).migrants ++ [t] ∧ t.task.x = v.x ∧ t.task.w = v.w ∧ t.task.pc = (nextPc v .seq).1)

/-- R17, R107, R263: a task that ends with nothing held and an empty latch leaves its slot empty: not live, no wait, no streams, no
handles, no loop stack; its x, w and p registers keep what they hold, but for the w registers that its streams were bound to. -/
def Claims.TaskEnds : Prop := ∀ s : State, transferOf s s.cur.1 s.cur.2 = none → (here s).held = [] → Alone s → (here s).latch = none →
  ∃ u, endTask s = .ok .gone u ∧ (here u).live = false ∧ (here u).wait = none ∧ (here u).loops = [] ∧
    (here u).h = Vector.replicate 8 none ∧ (here u).s = Vector.replicate 4 Stream.reset ∧ (here u).launch = (here s).launch ∧
    (here u).x = (here s).x ∧ (here u).p = (here s).p ∧ u.mem = s.mem ∧ ((coreAt s s.cur.1).mappings = [] → u.vault = s.vault) ∧
    (∀ r, boundTo (here s) r = none → (here u).w.get r = (here s).w.get r) ∧
    (∀ r k e, ((here s).s.get k).bound = some r → ((here s).s.get k).last = some e → (∀ j ≠ k, ((here s).s.get j).bound ≠ some r) →
      (here u).w.get r = e)

/-! ### Sealed memory (R271 to R296) -/

/-- R286 to R294: the sealed memory instructions. Names are in even pairs; a name that no region of the context holds traps
0x05, and name 0 counts nothing. -/
def Claims.SealedInstructions : Prop := ∀ (s t t1 t2 u : State) (d a b : Reg) (x : XWord) (bs : List Byte) (g : Nat)
    (name old e new : BitVec 128) (fresh : Bool) (p : Place) (segs : List Segment),
  let v := here s
  let n := xOf v (regPlus a 1) ++ xOf v a
  let present := presentName s v.ctx n
  let write := fun (name : BitVec 128) => wxName d name
  (Steps (staging a b) s (x, bs, g) t →
    (Steps (lookupOrAllocate (here t).ctx g bs false) t (.ok (name, fresh)) t1 → recoverable t1 (here t1) = none →
      Steps (write name) t1 () u → Ends (.slook d a b) s u (here u) .seq) ∧
    (Steps (lookupOrAllocate (here t).ctx g bs false) t (.error .indices) t1 → TrapsFrom (.slook d a b) s t1 0x07 0 0 1) ∧
    (Steps (lookupOrAllocate (here t).ctx g bs false) t (.error .full) t1 → TrapsFrom (.slook d a b) s t1 0x07 0 0 2) ∧
    (Steps (lookupOrAllocate (here t).ctx g bs false) t (.error .shard) t1 → TrapsFrom (.slook d a b) s t1 0x07 0 0 3) ∧
    (∀ j, Steps (lookupOrAllocate (here t).ctx g bs false) t (.error (.missingChild j)) t1 →
      TrapsFrom (.slook d a b) s t1 0x05 (x + BitVec.ofNat 64 (16 + 16 * j)) 0 0) ∧
    (Steps (write (nameOf (hashOf t g bs) 0)) t () u → Ends (.shash d a b) s u (here u) .seq)) ∧
  (n = 0 → Runs (.sref a) s v .seq ∧ Runs (.sunref a) s v .seq) ∧
  (n ≠ 0 → regionOfName s v.ctx n = none → Traps (.sref a) s 0x05 0 0 0 ∧ Traps (.sunref a) s 0x05 0 0 0) ∧
  (n ≠ 0 → regionOfName s v.ctx n = some g → recoverable s v = none →
    Ends (.sref a) s (addRef s g n).1 v .seq ∧ Ends (.sunref a) s (dropRef s g n).1 v .seq) ∧
  Runs (.sres d a) s (withX v d (match present with
    | some (g, e) => lineAddress s g e.line
    | none => 0)) .seq ∧
  Runs (.sealSstat d a) s (withX v d (match present with
    | some (g, e) => BitVec.ofNat 64 (2 ^ 63 + (if e.perm then 2 ^ 62 else 0) + (if e.node then 2 ^ 61 else 0) + g * 2 ^ 48 +
        (e.len + 1) * 2 ^ 32 + e.count)
    | none => 0)) .seq ∧
  ((xOf v d).toNat % 4 ≠ 0 → Traps (.scopy d a) s 0x03 (xOf v d) 0 0) ∧
  ((xOf v d).toNat % 4 = 0 →
    (n = 0 → Runs (.scopy d a) s v .seq) ∧
    (n ≠ 0 → present = none → Traps (.scopy d a) s 0x05 0 0 0) ∧
    (∀ e, present = some (g, e) → Steps (copySegments (lineAddress s g e.line) [xOf v d] (128 * (e.len + 1))) s segs t →
      Steps (awaitBoards (copyIntervals segs)) t () t1 →
      (Steps (performCopy segs segs) t1 none u → Ends (.scopy d a) s u (here u) .seq) ∧
      (∀ bad, Steps (performCopy segs segs) t1 (some bad) u → EndsTrapping (.scopy d a) s u (here u) 0x0E bad 5))) ∧
  (Steps (rxName a) s e s → Steps (rxName b) s new s → Steps (cellPlace (xOf v d)) s p t →
    Steps (cellAt (xOf v d) p) t bs t1 → old = BitVec.ofNat 128 (natOfBytes bs) → recoverable t1 (here t1) = none →
    (old ≠ e → Steps (do wxName a old; acquire .house) t1 () u → Ends (.scas d a b) s u (here u) .seq) ∧
    (old = e → Released .house t1 t2 → recoverable t2 (here t2) = none →
      Steps (do
        emit (.rootSwap (here t2).ctx none p e new none)
        wxName a old
        acquire .house) t2 () u → Ends (.scas d a b) s u (here u) .seq))

/-- R275, R277, R278, R286 to R290: naming contents completes. SHASH gives the hash of the staged lines with index 0. SLOOK of contents
whose hash no object of the region has, and which are no node, stores them where the larder places them, and gives their new name:
its entry has one reference. Which entry of its shard the name takes is the model's choice (log entry 125). -/
def Claims.SealedComplete : Prop := ∀ (s t u : State) (d a b : Reg) (bs : List Byte) (line : Nat),
  let v := here s
  let x := xOf v a
  let y := xOf v b
  let lines := y.toNat % 2 ^ 9
  let g := y.toNat / 2 ^ 16 % 2 ^ 8
  let hash := hashOf t g bs
  let name : BitVec 128 := nameOf hash 0
  let named := fun (v : Slot) => withX (withX v d (name.setWidth 64)) (regPlus d 1) (BitVec.ofNat 64 (name.toNat / 2 ^ 64))
  let entry := fun (u : State) => SealedEntry.mk name line (lines - 1) false false (regionKey u g) 1 [] (freePlace u g hash)
  x.toNat % 128 = 0 → inOneScratchpad s x (128 * lines) = true → 1 ≤ lines → lines ≤ 256 → regionDeclared s g = true →
  regionCtx s g = v.ctx → Steps (loadBytes x (128 * lines)) s bs t →
  Ends (.shash d a b) s t (named (here t)) .seq ∧
  (hash ≠ 0 → (∀ e ∈ indexOf t g, e.name.toNat / 16 ≠ hash) → isNode bs = false → placeObject t g lines = some line →
    shardFull t g hash = false → bs.length = 128 * lines →
    Steps (writeLines (larderFind (here t).ctx (homeLarder hash)) (homeLarder hash / 16) (lineAddress t g line) lines bs) t () u → recoverable u (here u) = none →
    Ends (.slook d a b) s (onIndex u g fun l => l ++ [entry u]) (named (here u)) .seq)

/-- R279, R280: reference counts. An add counts one more, up to the top, where the entry stays for good; a release counts one
less; the last release takes the entry away at once, and defers one release for each child of a node. -/
def Claims.ReferenceCounts : Prop := ∀ (s : State) (g : Nat) (name : BitVec 128) (e : SealedEntry),
  (entryOf s g name = none → addRef s g name = (s, false) ∧ dropRef s g name = (s, false)) ∧
  (entryOf s g name = some e →
    (e.count < 2 ^ 32 - 1 → entryOf (addRef s g name).1 g name =
      some { e with count := e.count + 1, perm := e.perm || decide (e.count + 1 = 2 ^ 32 - 1) }) ∧
    (e.count = 2 ^ 32 - 1 → entryOf (addRef s g name).1 g name = some e) ∧
    (e.perm = true → dropRef s g name = (s, true)) ∧
    (e.perm = false → 1 < e.count → entryOf (dropRef s g name).1 g name = some { e with count := e.count - 1 }) ∧
    (e.perm = false → e.count ≤ 1 → entryOf (dropRef s g name).1 g name = none ∧
      (dropRef s g name).1.deferred = s.deferred ++ e.kids.map fun k => (g, k))) ∧
  (∀ other, other ≠ name → entryOf (addRef s g name).1 g other = entryOf s g other ∧
    entryOf (dropRef s g name).1 g other = entryOf s g other) ∧
  (s.deferred = [] → Occurs .deferredRelease s s) ∧
  (∀ t, s.deferred = (g, name) :: t → Occurs .deferredRelease s (dropRef { s with deferred := t } g name).1)

/-! ### Traps (R26 to R30, R315 to R320) -/

/-- R26, R28, R29: taking a trap. A cause of class user enters the handler of its own slot outside a handler; every other
trap of a task slot parks it and queues a delivery to the supervisor slot; a trap in the supervisor's or the firmware's
handler stops the core, which is then withdrawn. -/
def Claims.TrapEntry : Prop := ∀ (s : State) (c : Nat) (k : Fin 4) (pc addr : XWord) (cause sub info : Nat),
  let v := slotAt s c k
  let t := takeTrap s c k pc cause addr sub info
  let word := BitVec.ofNat 64 (2 ^ 63 + cause)
  let entered := fun (origin : Nat) => { v with
    trap := { v.trap with cause := word, pc := pc, addr := addr, info := trapInfo origin sub info }
    pc := v.trap.vec, hints := [], delay := 0 }
  cause < 256 →
  (modeOf c k = .user → userClass cause = true → inHandler v = false → t = putSlot s c k (entered k.val)) ∧
  (modeOf c k = .user → userClass cause = false ∨ inHandler v = true →
    slotAt t c k = { v with
      trap := { v.trap with cause := word, pc := pc, addr := addr, info := trapInfo k.val sub info }
      pc := pc, hints := [], wait := some .delivery } ∧
    (∃ d, (coreAt t c).deliveries = (coreAt s c).deliveries ++ [d] ∧ d.slot = k ∧ d.trap.pc = pc ∧ d.trap.addr = addr ∧
      d.trap.info = trapInfo k.val sub info ∧ d.trap.cause.toNat % 256 = cause) ∧
    t.agenda = s.agenda ++ [.event (.supervisorDelivery c)] ∧ t.mem = s.mem ∧ t.vault = s.vault) ∧
  (modeOf c k ≠ .user → inHandler v = false → t = putSlot s c k (entered 3)) ∧
  (modeOf c k ≠ .user → inHandler v = true → (coreAt t c).halted = true ∧ slotAt t c k = v ∧
    t.agenda = s.agenda ++ [.event (.unitWithdrawal (coreUnit s c))] ∧ t.mem = s.mem ∧ t.vault = s.vault) ∧
  (sub < 256 → info < 2 ^ 48 → (trapInfo k.val sub info).toNat / 2 ^ 60 = k.val ∧
    (trapInfo k.val sub info).toNat / 2 ^ 48 % 256 = sub ∧ (trapInfo k.val sub info).toNat % 2 ^ 48 = info)

/-- R28, R317, R318, R321: a delivery enters the supervisor slot, which keeps its own vector and scratch, and ends a WAIT of its
handler; ERET goes back to trap.pc with H clear, or from the supervisor lets the slot it served go on at its own trap.pc, three
cycles later as after any taken transfer (R82), unless another delivery of that slot waits. That the supervisor's ERET clears the H of
the slot it served also where that slot's own handler had trapped is the model's choice (log entry 24). -/
def Claims.TrapReturn : Prop := ∀ (s : State) (c : Nat) (d : Delivery) (rest : List Delivery),
  let v := slotAt s c 3
  let w := here s
  let plain := { w with trap := { w.trap with cause := w.trap.cause &&& BitVec.ofNat 64 (2 ^ 63 - 1) } }
  ((coreAt s c).deliveries = [] ∨ v.live = false ∨ (coreAt s c).halted = true ∨ v.wait = some .latch ∨
      (inHandler v = true ∧ ∀ e n, v.wait ≠ some (.event e n)) → Occurs (.supervisorDelivery c) s s) ∧
  (∀ e n, (coreAt s c).deliveries = d :: rest → v.live = true → (coreAt s c).halted = false → inHandler v = true →
    v.wait = some (.event e n) → v.bad = [] → (coreAt s c).pair = none → (coreAt s c).chain = none → Quiet s →
    ∃ u, exec (.supervisorDelivery c) s = .next u ∧ u.mem = s.mem ∧ slotAt u c 3 =
      retired { withX v e (BitVec.ofNat 64 (2 ^ 62 + (n.getD 0) % 2 ^ 32)) with wait := none } true .seq) ∧
  ((coreAt s c).deliveries = d :: rest → v.live = true → (coreAt s c).halted = false → inHandler v = false → v.wait = none →
    Quiet s → ∃ u, exec (.supervisorDelivery c) s = .next u ∧ (slotAt u c 3).pc = v.trap.vec ∧
      (slotAt u c 3).trap.cause = d.trap.cause ||| BitVec.ofNat 64 (2 ^ 63) ∧ (slotAt u c 3).trap.pc = d.trap.pc ∧
      (slotAt u c 3).trap.addr = d.trap.addr ∧ (slotAt u c 3).trap.info = d.trap.info ∧
      (slotAt u c 3).trap.vec = v.trap.vec ∧ (slotAt u c 3).trap.save = v.trap.save ∧ (slotAt u c 3).x = v.x ∧
      (slotAt u c 3).hints = [] ∧ (coreAt u c).deliveries = rest ∧ (coreAt u c).activation = some d.slot ∧
      (coreAt u c).resume = restartPc v ∧ u.mem = s.mem) ∧
  (inHandler w = false → Traps .eret s 0x01 0 0 (encode .eret).toNat) ∧
  (inHandler w = true → s.cur.2 ≠ 3 → Runs .eret s plain (.taken w.trap.pc)) ∧
  (inHandler w = true → s.cur.2 = 3 → (coreAt s s.cur.1).activation = none →
    Ends .eret s (postFirst s [.supervisorDelivery s.cur.1]) plain (.taken w.trap.pc)) ∧
  (∀ o : Fin 4, inHandler w = true → s.cur.2 = 3 → (coreAt s s.cur.1).activation = some o → o ≠ 3 →
    (slotAt s s.cur.1 o).wait = some .delivery → (∀ e ∈ (coreAt s s.cur.1).deliveries, e.slot ≠ o) → ∃ u, Ends .eret s u plain (.taken (coreAt s s.cur.1).resume) ∧
      here u = w ∧ inHandler (slotAt u s.cur.1 o) = false ∧ (slotAt u s.cur.1 o).pc = (slotAt s s.cur.1 o).trap.pc ∧ (slotAt u s.cur.1 o).delay = 3 ∧
      (slotAt u s.cur.1 o).x = (slotAt s s.cur.1 o).x ∧ (coreAt u s.cur.1).activation = none ∧
      (slotAt u s.cur.1 o).wait = (if (slotAt s s.cur.1 o).latch.isSome then some .latch else none) ∧
      u.agenda = .event (.supervisorDelivery s.cur.1) :: s.agenda ∧ u.mem = s.mem) ∧
  (∀ o : Fin 4, inHandler w = true → s.cur.2 = 3 → (coreAt s s.cur.1).activation = some o →
    (∃ e ∈ (coreAt s s.cur.1).deliveries, e.slot = o) →
    Ends .eret s (postFirst (onCore s s.cur.1 fun q => { q with activation := none }) [.supervisorDelivery s.cur.1]) plain
      (.taken (coreAt s s.cur.1).resume))

/-- R44, R46, R316: TRAP is taken after itself and BRK at itself; a word of no instruction traps 0x01 with that word; an
instruction above its mode traps 0x02; one that does not accept a hint bound to it traps 0x01 with the hint's word:
of several the first in run order, which is the model's choice (log entry 93). -/
def Obligations.TrapsOnPurpose : Prop := ∀ (s : State) (n : BitVec 15) (w : Word) (i h : Instr),
  EndsTrapping (.trap n) s s (here s) 0x10 0 n.toNat ∧ Traps (.brk n) s 0x10 0 0 (2 ^ 47 + n.toNat) ∧
  (Alone s → exec (.illegalInstruction w) s = .next (shutterOn s (trapHere s 0x01 0 0 w.toNat) s.cur.1)) ∧
  (Alone s → (here s).hints.all (accepts i) = true → (modeOf s.cur.1 s.cur.2).level < (privilege i).level →
    exec i s = .next (shutterOn s (trapHere s 0x02 0 0 0) s.cur.1)) ∧
  (Alone s → i.coded = true → isHint i = false → (here s).hints.find? (fun h => !accepts i h) = some h →
    exec i s = .next (shutterOn s (trapHere s 0x01 0 0 (encode h).toNat) s.cur.1))

/-- R30, R315, R320, Tables 2.5 to 2.8: reading and writing the system registers. An unknown number traps 0x01, a write that
the mode may not make 0x02, a reserved rounding mode 0x01, an address that is no word's 0x03. A write counts from the next instruction: where it clears or sets H, the loop end check
is that of the H bit before it. What a threshold core reads in the registers that tell a core's place is the model's choice (log
entry 13). -/
def Obligations.SystemRegisters : Prop := ∀ (s : State) (d : Reg) (n : BitVec 12) (j : Fin 3),
  let v := here s
  let (c, k) := s.cur
  let x := xOf v d
  let mode := modeOf c k
  let rd := fun (n : BitVec 12) (x : XWord) => Runs (.mfs d n) s (withX v d x) .seq
  let wr := fun (n : BitVec 12) (w : Slot) => Runs (.mts n d) s w .seq
  let no := fun (n : BitVec 12) => Traps (.mts n d) s 0x01 0 0 (encode (.mts n d)).toNat
  let banked := BitVec.ofNat 12 (256 * (j.val + 1))
  let o : Fin 4 := j.castSucc
  let t := (slotAt s c o).trap
  (rd 0x10 v.fpCtl ∧ rd 0x11 v.fpFlags ∧ rd 0x20 v.trap.cause ∧ rd 0x21 v.trap.pc ∧ rd 0x22 v.trap.addr ∧ rd 0x23 v.trap.info ∧
    rd 0x24 v.trap.vec ∧ rd 0x25 v.trap.save ∧ rd 0x30 v.cyc ∧ rd 0x31 v.retired ∧ rd 0x40 ((mapVersion s).setWidth 64) ∧
    rd 0x60 0 ∧ rd 0x61 (superstepWord s v)) ∧
  (isThreshold c = false → rd 0x00 (BitVec.ofNat 64 c) ∧ rd 0x01 (BitVec.ofNat 64 (s.house % 64 * 2 ^ 16 + c % 2 ^ 16)) ∧
    rd 0x02 (BitVec.ofNat 64 k.val) ∧ rd 0x03 (BitVec.ofNat 64 v.ctx) ∧
    (∀ r, v.launch = some r → rd 0x04 (BitVec.ofNat 64 (r % 1024))) ∧
    rd 0x41 ((contextAt s v.ctx).mapAck.setWidth 64) ∧ rd 0x50 (BitVec.ofNat 64 (ctxKey s v.ctx))) ∧
  (isThreshold c = true → placeNumbers.contains n.toNat = true → rd n (Config.thresholdReg s.tick (hallOf c) n.toNat)) ∧
  (sysNumbers.contains n.toNat = false → bankedReg mode n.toNat = none → Traps (.mfs d n) s 0x01 0 0 (encode (.mfs d n)).toNat ∧ no n) ∧
  (mode = .supervisor → rd (banked + 0x20) t.cause ∧ rd (banked + 0x21) t.pc ∧ rd (banked + 0x22) t.addr ∧
    rd (banked + 0x23) t.info ∧ rd (banked + 0x24) t.vec ∧ rd (banked + 0x25) t.save ∧
    Ends (.mts (banked + 0x22) d) s (onSlot s c o fun w => { w with trap := { w.trap with addr := x } }) v .seq ∧
    (x.toNat % 4 = 0 → Ends (.mts (banked + 0x21) d) s (onSlot s c o fun w => { w with trap := { w.trap with pc := x } }) v .seq)) ∧
  (x.toNat % 8 < 5 → wr 0x10 { v with fpCtl := x &&& 0x1F07 }) ∧ (5 ≤ x.toNat % 8 → no 0x10) ∧
  wr 0x11 { v with fpFlags := x &&& 0x1F } ∧ wr 0x25 { v with trap := { v.trap with save := x } } ∧
  (x.toNat % 4 = 0 → wr 0x21 { v with trap := { v.trap with pc := x } } ∧ wr 0x24 { v with trap := { v.trap with vec := x } }) ∧
  (x.toNat % 4 ≠ 0 → Traps (.mts 0x21 d) s 0x03 x 0 0 ∧ Traps (.mts 0x24 d) s 0x03 x 0 0) ∧
  (mode = .user → Traps (.mts 0x20 d) s 0x02 0 0 0 ∧ Traps (.mts 0x22 d) s 0x02 0 0 0 ∧ Traps (.mts 0x23 d) s 0x02 0 0 0) ∧
  (mode ≠ .user → wr 0x22 { v with trap := { v.trap with addr := x } } ∧
    wr 0x23 { v with trap := { v.trap with info := x &&& 0xF0FFFFFFFFFFFFFF } } ∧
    Ends (.mts 0x20 d) s (if k = 3 then post s [.supervisorDelivery c] else s)
      { v with trap := { v.trap with cause := x &&& 0x80000000000000FF } } (.checked (nextPc v .seq).1 (nextPc v .seq).2)) ∧
  (n.toNat ∈ [0x00, 0x01, 0x02, 0x03, 0x04, 0x30, 0x31, 0x40, 0x41, 0x50, 0x60, 0x61] → Traps (.mts n d) s 0x02 0 0 0)

/-- R321: WAIT answers at once where an event is pending, and parks with its limit where none is; the limit's end answers
reason 0, and nothing left. -/
def Claims.Waiting : Prop := ∀ (s : State) (d : Reg) (c : Nat) (k : Fin 4),
  let v := here s
  let limit := (xOf v d).toNat % 2 ^ 32
  let pending := eventPending s s.cur.1 s.cur.2
  let w := slotAt s c k
  (pending = true → Runs (.wait d) s (withX v d (BitVec.ofNat 64 (2 ^ 62 + limit))) .seq) ∧
  (pending = false → Parks (.wait d) s s (.event d (if limit = 0 then none else some limit))) ∧
  (modeOf c k = .user → eventPending s c k = (mapVersion s != (contextAt s w.ctx).mapAck)) ∧
  (modeOf c k = .supervisor → eventPending s c k =
    ((coreAt s c).deliveries != [] || mapVersion s != (contextAt s w.ctx).mapAck)) ∧
  (modeOf c k = .firmware → eventPending s c k = ((hallAt s (hallOf c)).messages != [])) ∧
  ((∀ e, w.wait ≠ some (.event e (some 0))) → Occurs (.waitTimeout c k) s s) ∧
  (w.wait = some (.event d (some 0)) → w.bad = [] → (coreAt s c).pair = none → (coreAt s c).chain = none → Quiet s →
    ∃ u, exec (.waitTimeout c k) s = .next u ∧
      slotAt u c k = retired { withX w d 0 with wait := none } (k == 3) .seq ∧ u.mem = s.mem)

/-- R22, R322, R323: CHAIN traps on a slot, a range or a place that is wrong, and on a join that differs; it waits for the
other members; the last to come forms the chain. Outside a chain UNCHAIN has no effect; a leader's ends the chain. -/
def Obligations.Chains : Prop := ∀ (s : State) (d : Reg),
  let v := here s
  let (c, k) := s.cur
  let first := (xOf v d).toNat % 16
  let len := (xOf v d).toNat / 16 % 32
  let pos := snakePos c
  let good := k = 0 ∧ 1 ≤ len ∧ first + len ≤ 16 ∧ first ≤ pos ∧ pos < first + len
  let others := (chainCores c first len).filter fun e => e != c
  let differs := fun (e : Nat) => ∃ r f l, (slotAt s e 0).wait = some (.join r f l) ∧
    ¬(f = first ∧ l = len ∧ (slotAt s e 0).ctx = v.ctx ∧ (slotAt s e 0).launch = v.launch)
  let joined := fun (e : Nat) => ∃ r, (slotAt s e 0).wait = some (.join r first len) ∧ (slotAt s e 0).ctx = v.ctx ∧
    (slotAt s e 0).launch = v.launch ∧ (coreAt s e).chain = none ∧ (coreAt s e).pair = none
  (¬good → Traps (.chain d) s 0x0D 0 0 1) ∧
  (good → (∃ e ∈ others, differs e) → Traps (.chain d) s 0x0D 0 0 3) ∧
  (good → (∀ e ∈ others, ¬differs e) → (∃ e ∈ others, ∀ r f l, (slotAt s e 0).wait ≠ some (.join r f l)) →
    Parks (.chain d) s s (.join d first len)) ∧
  (good → (∀ e ∈ others, joined e) → Plain (.chain d) s → ∃ u, exec (.chain d) s = .next u ∧
    here u = retired (withX v d (BitVec.ofNat 64 (pos - first))) false .seq ∧ u.mem = s.mem ∧
    (∃ id, ∀ n < len, (coreAt u ((chainCores c first len).getD n 0)).chain =
      some ⟨id, (chainCores c first len).headD 0, n, len, [], false⟩) ∧ (∀ e ∈ others, (slotAt u e 0).wait = none)) ∧
  Runs .unchain s v .seq ∧
  (∀ r, (coreAt s c).chain = some r → r.pos = 0 → r.queue = [] → r.sent = false → k = 0 → v.hints = [] → v.bad = [] → (coreAt s c).pair = none → Quiet s →
    ∃ u, exec .unchain s = .next u ∧ (coreAt u c).chain = none ∧ slotAt u c 0 = retired v false .seq ∧ u.mem = s.mem ∧
      u.agenda = s.agenda ++ (followers s c).map Turn.core)

/-- R304, R325: LKICK. A header that is not a multiple of 64 traps 0x03; the kick goes to the hall's laundry, and the slot
parks until it is accepted; in a recoverable superstep the kick is held, and the slot goes on. -/
def Claims.Kicks : Prop := ∀ (s t t2 u : State) (d a : Reg),
  let x := xOf (here s) d
  let p : Word := (xOf (here s) a).setWidth 32
  let (c, k) := s.cur
  let hall := hallOf c
  (x.toNat % 64 ≠ 0 → Traps (.lkick d a) s 0x03 x 0 0) ∧
  (x.toNat % 64 = 0 → Steps (kickPlace x) s () t → Released .hall t t2 →
    (recoverable t2 (here t2) = none → Plain (.lkick d a) s → Quiet t2 → Alone t2 → exec (.lkick d a) s = .next (parkSlot
      (post (onHall t2 hall fun h => { h with kicks := h.kicks ++ [⟨x, (here t2).ctx, p, some (c, k)⟩] }) [.laundryKickAccept hall])
      c k .kick)) ∧
    ((recoverable t2 (here t2)).isSome = true → Steps (emit (.kick hall (here t2).ctx x p)) t2 () u →
      Ends (.lkick d a) s u (here u) .seq))

/-! ### Translation units (R297 to R303, R326 to R330) -/

/-- R298, R299: a miss that reaches the translation unit goes on where a translation has come, joins the entry of its page, takes the
free entry of lowest index with a message, or waits for one; the unit keeps the order in which accesses park. What has gone on
does nothing. That an update counts as a write in the message is the model's choice (log entry 66), as is the order in which
accesses that wait are tried again (67). -/
def Claims.Misses : Prop := ∀ (s : State) (hall : Nat) (m : MissReq),
  let h := hallAt s hall
  let hit := h.tlb.any fun e => covers e m.ctx (pageOf m.addr)
  let own := h.pending.find? fun (_, e) => e.ctx == m.ctx && e.va == pageOf m.addr
  let acc := match m.acc with | .read => 0 | .write => 1 | .update => 1 | .fetch => 2
  let ev := fun (u : State) => exec (.translationMiss hall m) s = .next u
  let on := onHall s hall fun h => { h with parked := if h.parked.contains m then h.parked else h.parked ++ [m] }
  Quiet s → (∀ c k, waitOf (slotAt s c k) = none) →
  (stillWaits s m = false → ev s) ∧
  (stillWaits s m = true → hit = true → ∀ c k, m.agent = .slot c k →
    ev (wake (onHall s hall fun h => { h with parked := h.parked.filter fun e => e != m }) c k)) ∧
  (stillWaits s m = true → hit = false → ∀ i e, own = some (i, e) → e.waiters.contains m = false →
    ev (onHall on hall fun h => { h with pending := tput h.pending i { e with waiters := e.waiters ++ [m] } })) ∧
  (stillWaits s m = true → hit = false → ∀ i e, own = some (i, e) → e.waiters.contains m = true → ev on) ∧
  (stillWaits s m = true → hit = false → own = none → ∀ i, i < 32 → tfind h.pending i = none →
    (∀ j < i, tfind h.pending j ≠ none) → ev (onHall on hall fun h => { h with
      pending := tput h.pending i ⟨m.ctx, pageOf m.addr, [m]⟩
      messages := h.messages ++ [BitVec.ofNat 64 (2 ^ 60 + m.ctx % 4096 * 2 ^ 48 + acc * 2 ^ 46 + i % 32 * 2 ^ 40 + pageOf m.addr)] })) ∧
  (stillWaits s m = true → hit = false → own = none → (∀ i < 32, tfind h.pending i ≠ none) →
    ev (onHall on hall fun h => { h with overflow := if h.overflow.contains m then h.overflow else h.overflow ++ [m] })) ∧
  (h.overflow = [] → ∃ u, exec (.missRetry hall) s = .next u ∧ hallAt u hall = h ∧ u.mem = s.mem ∧ u.cores = s.cores) ∧
  (h.overflow = [m] → exec (.missRetry hall) s = .next (missArrives hall (onHall s hall fun h => { h with overflow := [] }) m))

/-- R299, R300, R326 to R329: the instructions of the firmware that write, invalidate and look up translations. An invalidation
waits for the accesses that have used what it takes. An answer that names no pending entry frees no waiter (log entry 66). -/
def Claims.TranslationService : Prop := ∀ (s t : State) (d a b : Reg),
  let v := here s
  let x := xOf v d
  let y := xOf v a
  let z := xOf v b
  let hall := hallOf s.cur.1
  let h := hallAt s hall
  let w : Answer := ⟨x.getLsbD 60, x.toNat / 2 ^ 48 % 4096, x.toNat / 2 ^ 40 % 32, x.toNat % 2 ^ 40, y.toNat / 2 ^ 16 % 2 ^ 36,
    y.getLsbD 0, z.setWidth 32,
    x.toNat / 2 ^ 61 == 0 && x.toNat / 2 ^ 45 % 8 == 0 && y.toNat / 2 ^ 52 == 0 && y.toNat / 2 % 2 ^ 15 == 0⟩
  let size := pageUnits (attrSize w.attr)
  let bad := w.zeros = false ∨ (w.np = false ∧ attrReserved w.attr = true)
  let skew := w.np = false ∧ (w.va % size ≠ 0 ∨ w.pfn % size ≠ 0)
  let waits := fun (e : PendEntry) => e.waiters.filter fun m => !isPrefetch m
  let code := fun (n : Nat) => Runs (.tlbw d a b) s (withX v d (BitVec.ofNat 64 n)) .seq
  let mode := y.toNat / 2 ^ 62
  let ctx := y.toNat / 2 ^ 48 % 4096
  let gone := h.tlb.filter fun e => match mode with
    | 0 => covers e ctx (y.toNat % 2 ^ 40)
    | 1 => e.ctx == ctx
    | 2 => true
    | _ => false
  let hits := h.tlb.find? fun e => covers e ctx (y.toNat % 2 ^ 40)
  let held := h.pending.find? fun (_, e) => e.ctx == ctx && e.va == y.toNat % 2 ^ 40
  (bad → code 1) ∧ (¬bad → skew → code 2) ∧
  (¬bad → ¬skew → w.pa = true → tfind h.pending w.pend = none → code 3) ∧
  (¬bad → ¬skew → w.pa = false → w.np = true → code 4) ∧
  (¬bad → ¬skew → (w.pa = true → tfind h.pending w.pend ≠ none) → (w.np = true → w.pa = true) →
    (Steps (modify fun s => applyAnswer s hall w) s () t → Ends (.tlbw d a b) s t (withX (here t) d 0) .seq) ∧
    (w.np = false → (w.pa = true → ∀ e ∈ answered s hall w, ∀ m ∈ e.2.waiters, isPrefetch m = false) →
      (hallAt (applyAnswer s hall w) hall).tlb = l2Insert (answerEntry w) h.tlb) ∧
    (w.np = false → ∀ e, tfind h.pending w.pend = some e → w.pa = true → ∀ m ∈ e.waiters, ∀ c k, m.agent = .slot c k →
      (slotAt s c k).wait = some .translation → (slotAt (applyAnswer s hall w) c k).wait = none) ∧
    (w.np = true → ∀ e i, tfind h.pending w.pend = some e → (∀ f ∈ h.buffer, ¬(f.2.ctx = e.ctx ∧ f.2.va = e.va)) →
      waits e ≠ [] → i < 8 → tfind h.buffer i = none → (∀ j < i, tfind h.buffer j ≠ none) →
      tfind (hallAt (applyAnswer s hall w) hall).buffer i =
        some ⟨false, anyWrites (waits e), anyFetches (waits e), e.ctx, e.va, waits e⟩)) ∧
  (∀ m, s.transfers.find? (fun t => hallOf t.core == hall && t.segments.any fun g =>
      usesPlace (selectedEntries s hall y) g.src || usesPlace (selectedEntries s hall y) g.dst) = some m →
    Plain (.tlbinv d a) s → exec (.tlbinv d a) s = .next (postFirst s [.copyTransferComplete m.id])) ∧
  (s.transfers = [] → (∀ e ∈ s.cores, e.2.pair = none ∧ ∀ v ∈ e.2.slots.toList, v.latch = none) →
    (∀ e ∈ s.rooms, e.2.hold = []) → ∃ u, Ends (.tlbinv d a) s u (withX v d (if mode = 3 then BitVec.allOnes 64 else BitVec.ofNat 64 gone.length)) .seq ∧
    (∀ e, e ∈ (hallAt u hall).tlb ↔ e ∈ h.tlb ∧ e ∉ gone) ∧ here u = v ∧
    (∀ c, hallOf c = hall → ∀ e ∈ (coreAt u c).tlb, mode ≠ 2 ∧ (mode = 1 → e.ctx ≠ ctx))) ∧
  Runs (.tlbq d a) s (withX v d (BitVec.ofNat 64 (
    (match hits with | some e => 2 ^ 63 + e.pfn % 2 ^ 36 * 2 ^ 16 + e.attr.toNat % 2 ^ 10 | none => 0) +
    (match held with | some (i, _) => 2 ^ 62 + i % 32 * 2 ^ 57 | none => 0)))) .seq

/-- R301 to R303, R330: the queues of a threshold core, and REPLAY, which empties the fault buffer and lets every slot that is
parked on it issue again. What FBPOP answers where nothing is posted, and the order of a replay, are the model's choices (log entries
66 and 67). -/
def Claims.ThresholdQueues : Prop := ∀ (s t : State) (d : Reg),
  let v := here s
  let hall := hallOf s.cur.1
  let h := hallAt s hall
  let posted := h.buffer.find? fun (_, e) => !e.taken
  let word := fun (i : Nat) (e : FaultEntry) => BitVec.ofNat 64 (2 ^ 63 + (if h.drop then 2 ^ 62 else 0) + i % 8 * 2 ^ 59 +
    (if e.w then 2 ^ 58 else 0) + (if e.x then 2 ^ 57 else 0) + e.ctx % 4096 * 2 ^ 40 + e.va % 2 ^ 40)
  (posted = none → Runs (.fbpop d) s (withX v d (if h.drop then BitVec.ofNat 64 (2 ^ 62) else 0)) .seq) ∧
  (∀ i e, posted = some (i, e) → Ends (.fbpop d) s
    (onHall s hall fun h => { h with buffer := tput h.buffer i { e with taken := true } }) (withX v d (word i e)) .seq) ∧
  (h.messages = [] → Runs (.msgrx d) s (withX v d 0) .seq) ∧
  (∀ m rest, h.messages = m :: rest →
    Ends (.msgrx d) s (onHall s hall fun h => { h with messages := rest }) (withX v d m) .seq) ∧
  (Steps (do modify (replayHall hall); testEvents) s () t → Ends .replay s t (here t) .seq) ∧
  ((hallAt (replayHall hall s) hall).buffer = [] ∧ (hallAt (replayHall hall s) hall).drop = false) ∧
  (∀ c k i e, hallOf c = hall → (∀ c, (coreAt s c).pair = none) → tfind h.buffer i = some e →
    (slotAt s c k).wait = some (.page (some i)) → (slotAt (replayHall hall s) c k).wait = none)

/-! ### Maintenance (R372, R377, R380, R387 to R393, R410) -/

/-- R377, R379, R380, R387 to R390, R392, R393: map acknowledgements and reads, repair requests, the shutter and its snapshot. What REPW
and the arrays of a room answer on a threshold core, and that a BAD mark publishes, are the model's choices (log entries 81 and 77). -/
def Claims.Maintenance : Prop := ∀ (s : State) (d a b : Reg),
  let v := here s
  let x := xOf v a
  let ver := mapVersion s
  let old := (contextAt s v.ctx).mapAck
  let asked : Word := (xOf v d).setWidth 32
  let now := if old < asked ∧ asked ≤ ver ∧ (contextAt s v.ctx).suspended = none then asked else old
  let room := if isThreshold s.cur.1 then none else physicalRoom s (roomOf s.cur.1)
  let slice := x.toNat / 2 ^ 12 % 16
  let row := x.toNat % 4096
  let idx := x.toNat / 2 ^ 32 % 32
  let op := x.toNat / 2 ^ 30 % 4
  let entry := fun (pr i : Nat) => (repairWord s pr i).toNat
  let here_ := fun (pr i : Nat) => i < 32 ∧ entry pr i / 2 ^ 30 = 2 ∧ entry pr i / 2 ^ 12 % 16 = slice ∧ entry pr i % 4096 = row
  let free := fun (pr i : Nat) => i < 32 ∧ entry pr i / 2 ^ 30 = 0
  let answer := fun (n : Nat) => withX v d (BitVec.ofNat 64 n)
  (∃ u, Ends (.mapack d) s u (withX v d (ver ++ now)) .seq ∧ (contextAt u v.ctx).mapAck = now ∧ u.mem = s.mem ∧
    u.cores = s.cores ∧ u.map = s.map) ∧
  Runs (.maprd d a b) s (withX (withX v d (mapWord s (x.toNat / 2 ^ 24 % 256) (x.toNat % 2 ^ 24))) b (ver.setWidth 64)) .seq ∧
  (room = none → Runs (.repw d a) s (answer (2 ^ 60)) .seq) ∧
  (∀ pr i, room = some pr → op = 2 → here_ pr i → (∀ j < i, ¬here_ pr j) →
    Runs (.repw d a) s (answer (2 ^ 62 + i)) .seq) ∧
  (∀ pr i, room = some pr → op = 2 → (∀ j, ¬here_ pr j) → free pr i → (∀ j < i, ¬free pr j) →
    ∃ u, Ends (.repw d a) s u (answer (2 ^ 63 + i)) .seq ∧
      (repairWord u pr i).toNat = 2 ^ 31 + slice * 2 ^ 12 + row ∧ u.mem = s.mem ∧ u.cores = s.cores ∧
      (ver ≠ 0 → u.agenda = s.agenda ++ [.event .mapPublication]) ∧ (ver = 0 → u.agenda = s.agenda ∧ u.spares = s.spares)) ∧
  (∀ pr, room = some pr → op = 2 → (∀ j, ¬here_ pr j) → (∀ j, ¬free pr j) →
    Ends (.repw d a) s (post s [.unitWithdrawal (.room pr)]) (answer (2 ^ 61)) .seq) ∧
  (∀ pr, room = some pr → op = 1 → entry pr idx / 2 ^ 31 = 1 → Runs (.repw d a) s (answer (2 ^ 60)) .seq) ∧
  (∀ pr, room = some pr → op = 1 → entry pr idx / 2 ^ 31 = 0 → ∃ u, Ends (.repw d a) s u (answer (2 ^ 63 + idx)) .seq ∧
    repairWord u pr idx = repairWord s pr idx ||| 0x40000000#32 ∧ u.mem = s.mem ∧ u.cores = s.cores) ∧
  (∀ pr, room = some pr → op = 0 ∨ op = 3 → Runs (.repw d a) s (answer (2 ^ 60)) .seq) ∧
  (∃ u q, Ends .shut s u v .seq ∧ u.shutter = some q ∧ q.time = s.time ∧ q.source = 1 ∧ u.mem = s.mem ∧ u.cores = s.cores) ∧
  Runs (.snaprd d a) s (withX v d (snapRead s (x.toNat % 2 ^ 32))) .seq ∧ (s.shutter = none → snapRead s (x.toNat % 2 ^ 32) = 0) ∧
  (∀ q, s.shutter = some q → snapExists (x.toNat % 2 ^ 32) = true → x.toNat % 2 ^ 12 = 0 →
    snapRead s (x.toNat % 2 ^ 32) = BitVec.ofNat 64 q.time)

/-- R391, R410: the raw arrays. A read gives payload and stored check bits; an ordinary write stores the payload with its own
check bits, a raw write with those it names. A place that is none traps 0x05. -/
def Claims.RawArrays : Prop := ∀ (s : State) (d a b : Reg) (p : RawPlace),
  let v := here s
  let x := xOf v a
  let y := xOf v b
  let room := if isThreshold s.cur.1 then none else physicalRoom s (roomOf s.cur.1)
  let op := x.toNat / 2 ^ 62
  let loc := x.toNat % 2 ^ 23
  let array := x.toNat / 2 ^ 59 % 8
  let u := rawWrite s y (if op = 2 then some (x >>> 48) else none) p
  (rawPlace x room = none → Traps (.arrt d a b) s 0x05 x 0 0) ∧
  (rawPlace x room = some p → op = 0 →
    Runs (.arrt d a b) s (withX (withX v d (rawRead s p).1) b (rawRead s p).2) .seq) ∧
  (rawPlace x room = some p → op ≠ 0 → (∀ off, seenOffset s p = some off → NoWatcher s (roomOf s.cur.1) off) →
    Ends (.arrt d a b) s u (here u) .seq) ∧
  (op = 3 ∨ 4 ≤ array → rawPlace x room = none) ∧
  (∀ pr, op ≠ 3 → array = 0 → room = some pr → loc % 4 = 0 → rawPlace x room = some (.vault (2 ^ 21 * pr + loc / 4) loc)) ∧
  (∀ pr, op ≠ 3 → array = 3 → room = some pr → loc < 1024 → rawPlace x room = some (.spare (1024 * pr + loc))) ∧
  (∀ k r, p = .xreg k r → (slotAt u s.cur.1 k).x.get r = y ∧ (rawRead u p).1 = y ∧
    (op = 2 → (rawRead u p).2 = (BitVec.setWidth 8 (x >>> 48)).setWidth 64 ∨ tsorted 0 (slotAt s s.cur.1 k).bad = false))

/-! ### Pairs and supersteps (R25, R360 to R369, R394 to R398) -/

/-- R25, R111, R251, R360, R394 to R396: forming a pair, its compare, and leaving it. A compare that agrees lets the release buffer
leave; a trap that waits for it is taken by it. A disagreement goes back to the checkpoint, whose streams fetch again, with what had
left before it; the third makes the pair suspect, and its task is saved once a frame is free. In a pair PAIROFF and FPCHK compare
first: where the halves differ, the compare is a step of its own before them. That PAIROFF retires outside a pair, and that the save
waits for a frame, are the model's choices (log entry 32). -/
def Obligations.Pairs : Prop := ∀ (s : State) (d : Reg) (c : Nat) (p q : Pair),
  let v := here s
  let mine := s.cur.1
  let k := s.cur.2
  let other := partnerOf mine
  let lead := min mine other
  let joins := (List.finRange 4).filter fun j => (slotAt s other j).wait == some .pairJoin
  let mate := slotAt s other k
  let task := if lead = mine then v else { mate with wait := none }
  let busy := fun (v : Slot) => v.latch.isSome = true ∨ ∃ j, (v.s.get j).configured = true
  let back := { p.checkpoint with
    wait := if p.checkpoint.latch.isSome then some .latch else none, carries := false
    s := p.checkpoint.s.map fun q => { q with fetched := [] } }
  let both := fun (i : Instr) => Quiet s ∧ (privilege i).level ≤ (modeOf mine k).level ∧ (coreAt s mine).chain = none ∧
    (coreAt s (mine + 1)).chain = none ∧ (v.hints.all (accepts i) = true ∧ v.bad = []) ∧ slotAt s (mine + 1) k = v
  let leads := (coreAt s mine).pair = some p ∧ (coreAt s (mine + 1)).pair = some q ∧ p.slot = k ∧ q.slot = k ∧ p.leader = true ∧
    q.leader = false
  let ctx := (slotAt s c p.slot).ctx
  let agrees := fun (t : State) => onHalves t c fun d h => agreedHalf h (slotAt t d p.slot)
  let mismatch := ∃ j ∈ joins, j ≠ k ∨ (slotAt s other j).ctx ≠ v.ctx ∨ (slotAt s other j).launch ≠ v.launch
  (k = 3 → Traps .pairon s 0x0D 0 0 1) ∧
  (k ≠ 3 → mismatch → Traps .pairon s 0x0D 0 0 3) ∧
  (k ≠ 3 → ¬mismatch → busy v ∨ (joins.contains k = true ∧ busy mate) → Traps .pairon s 0x0D 0 0 4) ∧
  (k ≠ 3 → ¬mismatch → ¬busy v → (joins.contains k = true → ¬busy mate) →
    ((recoverable s v).isSome = true → Traps .pairon s 0x0D 0 0 5) ∧
    (recoverable s v = none → joins = [] → Parks .pairon s s .pairJoin) ∧
    (recoverable s v = none → joins.contains k = true → (coreAt s other).pair = none → (coreAt s other).chain = none →
      Plain .pairon s → ∃ u, exec .pairon s = .next u ∧
        ((coreAt u lead).pair.map fun p => (p.slot, p.leader)) = some (k, true) ∧
        ((coreAt u (lead + 1)).pair.map fun p => (p.slot, p.leader)) = some (k, false) ∧
        slotAt u lead k = retired task false .seq ∧ slotAt u (lead + 1) k = retired task false .seq ∧ u.mem = s.mem)) ∧
  Runs .pairoff s v .seq ∧ Runs (.fpchk d) s (withX v d 0) .seq ∧
  (leads → both .pairoff →
    (recoverable s v = none → p.print = q.print → p.buffer = [] → ∃ u, exec .pairoff s = .next u ∧ u.mem = s.mem ∧
      (coreAt u mine).pair = none ∧ (coreAt u (mine + 1)).pair = none ∧
      slotAt u mine k = retired { v with pairMode := false } (k == 3) .seq ∧
      slotAt u (mine + 1) k = retired { v with pairMode := false, held := [] } (k == 3) .seq) ∧
    (recoverable s v = none → p.print ≠ q.print → exec .pairoff s = .next (postFirst s [.pairCompare mine])) ∧
    ((recoverable s v).isSome = true → p.clear = true →
      exec .pairoff s = .next (enterTrap s mine k (restartPc v) 0x0D 0 0 5)) ∧
    ((recoverable s v).isSome = true → p.clear = false → exec .pairoff s = .next (postFirst s [.pairCompare mine]))) ∧
  (leads → both (.fpchk d) →
    (p.print = q.print → p.buffer = [] → ∃ u, exec (.fpchk d) s = .next u ∧ u.mem = s.mem ∧
      slotAt u mine k = retired (withX v d ((p.agreed + 1).setWidth 64)) (k == 3) .seq ∧
      ((coreAt u mine).pair.map fun p => (p.agreed, p.since, p.retry, p.clear)) = some (p.agreed + 1, 1, 0, false)) ∧
    (p.print ≠ q.print → exec (.fpchk d) s = .next (postFirst s [.pairCompare mine]))) ∧
  ((coreAt s c).pair = some p → (coreAt s (c + 1)).pair = some q → p.leader = true → p.suspect = false →
    (p.print = q.print → p.buffer = [] → p.due = none → Quiet s → ∃ u, exec (.pairCompare c) s = .next u ∧ u.mem = s.mem ∧
      (coreAt u c).pair = some { p with
        agreed := p.agreed + 1, since := 0, retry := 0, print := 0, buffer := [], checkpoint := slotAt s c p.slot, clear := true,
        wrote := [], leaves := false, kept := 0, due := none, fed := [] } ∧
      (coreAt u c).slots = (coreAt s c).slots) ∧
    (∀ t, p.print = q.print → drain c p.slot p.buffer s = .ok () t → p.due = none → Occurs (.pairCompare c) s (agrees t)) ∧
    (∀ t pc cause addr info, p.print = q.print → drain c p.slot p.buffer s = .ok () t → p.due = some (pc, cause, addr, info) →
      Occurs (.pairCompare c) s (enterTrap (agrees t) c p.slot pc cause addr 0 info)) ∧
    (p.print ≠ q.print → p.retry < 2 → Quiet s → ∃ u, exec (.pairCompare c) s = .next u ∧ u.mem = s.mem ∧
      slotAt u c p.slot = back ∧ slotAt u (c + 1) p.slot = back ∧
      ((coreAt u c).pair.map fun p => (p.retry, p.buffer)) = some (p.retry + 1, p.buffer.take p.kept)) ∧
    (p.print ≠ q.print → 2 ≤ p.retry → Quiet s → ∃ u, exec (.pairCompare c) s = .next u ∧ u.mem = s.mem ∧
      (coreAt u c).halted = true ∧ (coreAt u (c + 1)).halted = true ∧ slotAt u c p.slot = back ∧ slotAt u (c + 1) p.slot = back ∧
      ((coreAt u c).pair.map fun p => (p.suspect, p.buffer)) = some (true, p.buffer.take p.kept) ∧
      u.agenda = s.agenda ++ [.event (.pairCompare c), .event (.unitWithdrawal (coreUnit s c)),
        .event (.unitWithdrawal (coreUnit s (c + 1)))])) ∧
  ((coreAt s c).pair = some p → p.leader = false → Occurs (.pairCompare c) s s) ∧
  ((coreAt s c).pair = some p → (coreAt s (c + 1)).pair = some q → p.leader = true → p.suspect = true →
    (freeFrame s ctx = none → Occurs (.pairCompare c) s s) ∧
    (∀ t f u, freeFrame s ctx = some f → drain c p.slot p.buffer s = .ok () t → freeFrame t ctx = some f →
      saveOne c p.slot none false (onHalves t c fun _ q => { q with buffer := [], kept := 0 }) = .ok () u →
      Occurs (.pairCompare c) s u ∧ (coreAt u c).pair = none ∧ (coreAt u (c + 1)).pair = none ∧
        (slotAt u c p.slot).live = false ∧
        ∃ e ∈ (contextAt u ctx).saved, e.frame = some f ∧ e.waits = none ∧ e.task.pairMode = true)) ∧
  ((coreAt s c).pair = none ∨ (coreAt s (c + 1)).pair = none → Occurs (.pairCompare c) s s)

/-- R111, R362 to R368, R397, R398: supersteps. SSBAR arrives at the commit, or goes on where the slot arrived before in a superstep
that has committed since; the commit waits for every slot, then counts the superstep; a rollback goes back to the checkpoints,
whose streams fetch again, and counts against the superstep. A held effect that cannot be read has the superstep rolled back first;
a checkpoint or a logged word that cannot be read makes a rollback fail, and the superstep non-recoverable. -/
def Obligations.Supersteps : Prop := ∀ (s t : State) (d : Reg) (ctx record l : Nat) (r : Launch) (c : Nat) (k : Fin 4),
  let v := here s
  let m := launchKey ctx record
  let cellar := cellarUsed (roomAt s (roomOf s.cur.1)) % 2 ^ 17
  let logFails := (launchRooms r).any fun q => (roomAt s q).log.any fun e => e.launch == m && e.lost
  let woken := wake s c k
  (gangOf s v = none → Traps .ssbar s 0x0D 0 0 1 ∧ Runs (.ssqry d) s (withX v d (BitVec.ofNat 64 cellar)) .seq) ∧
  (gangOf s v = some (l, r) →
    Runs (.ssqry d) s (withX v d (BitVec.ofNat 64 (r.seq % 2 ^ 32 * 2 ^ 32 + r.rollbacks % 4 * 2 ^ 24 + r.mode % 4 * 2 ^ 22 + cellar))) .seq ∧
    (Released .house s t → (here t).arrivedIn.any (fun q => decide (q < r.seq)) = true →
      Ends .ssbar s (acquired t s.cur.1) { here t with arrivedIn := none } .seq) ∧
    (Released .house s t → Quiet t → Alone t → (here t).arrivedIn.any (fun q => decide (q < r.seq)) = false →
      Plain .ssbar s → ∃ u, exec .ssbar s = .next u ∧
      (here u).wait = some (.commit l r.seq .bar) ∧ (here u).arrivedIn = some r.seq ∧ (here u).pc = (here t).pc ∧
      u.mem = t.mem ∧ u.agenda = t.agenda ++ [.event (.superstepCommit (l / 1024) (l % 1024))])) ∧
  (launchAt s m = none → Occurs (.superstepCommit ctx record) s s ∧ Occurs (.superstepRollback ctx record) s s) ∧
  (launchAt s m = some r → r.mode = 0 ∨ gangArrived s m r = false → Occurs (.superstepCommit ctx record) s s) ∧
  (launchAt s m = some r → r.mode ≠ 1 ∨ 2 ≤ r.rollbacks → Occurs (.superstepRollback ctx record) s s) ∧
  (launchAt s m = some r → r.mode = 1 → gangArrived s m r = true → ∀ room ∈ launchRooms r, ∀ h ∈ heldOf s m room, h.lost = true →
    r.rollbacks < 2 →
    exec (.superstepCommit ctx record) s = .next (afterFirst s [.superstepRollback ctx record] (.superstepCommit ctx record))) ∧
  (launchAt s m = some r → r.mode = 1 → r.rollbacks < 2 → (gangBanks s m r).any bankFails = true ∨ logFails = true →
    gangTasks s m r = [(c, k)] → (coreAt s c).pair = none → (coreAt s c).chain = none → (∀ room, (roomAt s room).hold = []) →
    Quiet s → ∃ u, exec (.superstepRollback ctx record) s = .next u ∧ u.mem = s.mem ∧ u.vault = s.vault ∧
      (launchAt u m).map Launch.mode = some 2 ∧ u.shutter.map Shutter.source = some 3 ∧
      slotAt u c k = slotAt (takeTrap woken c k (restartPc (slotAt woken c k)) 0x0E 0 0 3) c k) ∧
  (launchAt s m = some r → r.mode = 1 → gangArrived s m r = true → gangTasks s m r = [(c, k)] →
    (slotAt s c k).wait = some (.commit m r.seq .bar) → (coreAt s c).pair = none → (coreAt s c).chain = none →
    (∀ room, (roomAt s room).hold = [] ∧ (roomAt s room).acc = []) → Quiet s → ∃ u, exec (.superstepCommit ctx record) s = .next u ∧
      ((launchAt u m).map fun q => (q.seq, q.rollbacks, q.mode)) = some (r.seq + 1, 0, 1) ∧
      (slotAt u c k).wait = none ∧ (slotAt u c k).arrivedIn = none ∧ u.mem = s.mem) ∧
  (launchAt s m = some r → r.mode = 1 → r.rollbacks < 2 → (gangBanks s m r).any bankFails = false → logFails = false → r.keptTasks = [] →
    r.taken = [] → (∀ room ∈ launchRooms r, (roomAt s room).window = []) → (∀ c, (coreAt s c).pair = none) → Quiet s →
    ∃ u, exec (.superstepRollback ctx record) s = .next u ∧ u.mem = s.mem ∧
      ((launchAt u m).map fun q => (q.rollbacks, q.seq, q.barriers)) = some (r.rollbacks + 1, r.seq, r.ckBarriers) ∧
      ∀ e ∈ gangSlots r, launchOf (slotAt s e.1 e.2) = some m → ∀ b, tfind (coreAt s e.1).banks e.2.val = some b →
        slotAt u e.1 e.2 = { b with
          wait := if b.latch.isSome then some .latch else none, carries := false
          s := b.s.map fun q => { q with fetched := [] } })

/-! ### Launches and the lobby (R16, R125, R126, R136, R137, R237 to R254, R266, R267) -/

/-- R136, R237, R238, R242: an armed launch starts in a room once every condition holds; cores whose partition is another move
first. It seeds its tasks, gives each core its stage and the context's ownership. -/
def Claims.LaunchStarts : Prop := ∀ (s : State) (ctx record room : Nat) (r : Launch),
  let l := launchKey ctx record
  let ev := Instr.launchStart ctx record room
  let open_ := (launchRooms r).contains room = true ∧ r.rooms.contains room = false ∧ departing s ctx = false ∧
    (physicalRoom s room).isSome = true ∧ outranked s l r room = false ∧
    ∀ c ∈ coresOf room, ownerAllows s ctx c = true ∧ (slotsFor s r c).isSome = true
  (launchAt s l = none → Occurs ev s s) ∧
  (launchAt s l = some r → ¬open_ → Occurs ev s s) ∧
  (launchAt s l = some r → open_ → wrongPartition s r room ≠ [] →
    Occurs ev s (post s ((wrongPartition s r room).map fun d => .partitionMove d (recScratch r)))) ∧
  (launchAt s l = some r → open_ → wrongPartition s r room = [] → record < 1024 →
    (∀ c ∈ coresOf room, ∀ ks out, slotsFor s r c = some (ks, out) → out = []) → Quiet s → ∃ u, exec ev s = .next u ∧
      (launchAt u l).map Launch.rooms = some (ascending (room :: r.rooms)) ∧ u.mem = s.mem ∧
      ∀ c ∈ coresOf room, (coreAt u c).owner = some ctx ∧ tfind (coreAt u c).stages l = some (startStage r c) ∧
        (slotAt u c 3).ctx = ctx ∧ (recPR r = false → ∀ ks, slotsFor s r c = some (ks, []) → ∀ k ∈ ks,
          slotAt u c k = seedTask l r (slotAt s c k)))

/-- R16, R121, R180, R241, R244, R248, R319: promotion of a shadow task into a slot, and its end, which is an acquire; a task that
comes with a valid latch waits for it. A task of a save brings its own seen counts. That a latch whose request has not been sent again
is delivered to the supervisor once more is the model's choice (log entry 53). -/
def Claims.Promotions : Prop := ∀ (s : State) (c : Nat) (k : Fin 4) (h : Shadow) (q : Latch),
  let v := slotAt s c k
  let ends := Instr.promotionEnd c k
  (promotable s c k = none → Occurs (.promotion c k) s s) ∧
  (promotable s c k = some h → h ∈ (coreAt s c).shadows ∧ h.waitsOn = [] ∧ h.warming = [] ∧ v.live = false ∧ v.wait = none ∧ k ≠ 3 ∧
    (Quiet s → ∃ u, exec (.promotion c k) s = .next u ∧ u.mem = s.mem ∧
      slotAt u c k = { h.task with
        seen := if h.task.carries then h.task.seen else v.seen, carries := false, wait := some .promotion } ∧
      (coreAt u c).shadows = (coreAt s c).shadows.filter (fun x => x != h) ∧
      u.agenda = s.agenda ++ [.event (.promotionEnd c k), .event (.prefetcherFill c)])) ∧
  (v.wait ≠ some .promotion → Occurs ends s s) ∧
  (v.wait = some .promotion → v.latch = none → Quiet s →
    ∃ u, exec ends s = .next u ∧ slotAt u c k = { v with wait := none } ∧ u.mem = s.mem ∧
      u.vault = (acquired s c).vault) ∧
  (v.wait = some .promotion → v.latch = some { q with sent := true } → Quiet s →
    ∃ u, exec ends s = .next u ∧ slotAt u c k = { v with wait := some .latch } ∧ u.mem = s.mem) ∧
  (v.wait = some .promotion → v.latch = some { q with sent := false } → Quiet s →
    ∃ u, exec ends s = .next u ∧ (slotAt u c k).wait = some .delivery ∧ (slotAt u c k).latch = v.latch ∧
      u.agenda = s.agenda ++ [.event (.supervisorDelivery c)] ∧ u.mem = s.mem)

/-- R239, R240, R244, R251, R254, R369: the prefetcher fills an empty shadow slot from the saved tasks, then from those that have
migrated, then from the queue R244 picks; a task comes back as the bytes of its frame have it, and a frame that fails its digest loses
its task. With no slot empty, a saved task of higher priority changes places with one that waits in a slot. The layout of the latch in
a frame, and the fields that come of poisoned words, are the model's choices (log entries 16 and 113). -/
def Claims.Prefetches : Prop := ∀ (s t t1 u : State) (c : Nat) (m : SavedTask) (l st : Nat) (r : Launch) (words : List Word)
    (bad : List Bool) (out : Shadow),
  let q := coreAt s c
  let hall := hallOf c
  let ev := Instr.prefetcherFill c
  let warm := fun (s : State) => ∀ h ∈ (coreAt s c).shadows, h.warming = []
  let room_ := q.shadows.length < 2 ∧ q.halted = false ∧ warm s
  (q.halted = true → Occurs ev s s) ∧
  (2 ≤ q.shadows.length → warm s → (∀ m, readySaved s c = some m → displaced s c m = none) → Occurs ev s s) ∧
  (2 ≤ q.shadows.length → q.halted = false → readySaved s c = some m → displaced s c m = some out → takeSaved c m s = .ok () t →
    backToFrame c out t = .ok () u → warm u → Occurs ev s u) ∧
  (∀ h, displaced s c m = some h → h ∈ q.shadows ∧ h.task.carries = true ∧ slotPri s h.task < slotPri s m.task) ∧
  (warm s → readySaved s c = none → readyMigrant s c = none → chooseQueue s c = none → Occurs ev s s) ∧
  (room_ → readySaved s c = some m → m.frame = none → Quiet s → ∃ u h, exec ev s = .next u ∧
    (coreAt u c).shadows = q.shadows ++ [h] ∧ h.task = m.task ∧ u.mem = s.mem) ∧
  (room_ → readySaved s c = some m → ∀ f code bs, m.frame = some f →
    readFrame m.task.ctx (foundationHall s m.task.ctx) f s = .ok (code, bs) t → Quiet t → warm t →
    (code = 0 → ∃ u h, exec ev s = .next u ∧ (coreAt u c).shadows = (coreAt t c).shadows ++ [h] ∧ h.task = frameTask bs m.task ∧
      h.waitsOn = [] ∧ u.mem = t.mem) ∧
    (code ≠ 0 → launchOf m.task = some l → launchAt t l = some r →
      ∃ u, exec ev s = .next u ∧ (launchAt u l).map Launch.lost = some true)) ∧
  (room_ → readySaved s c = none → readyMigrant s c = some m → Quiet s → ∃ u h, exec ev s = .next u ∧
    (coreAt u c).shadows = q.shadows ++ [h] ∧ h.task = m.task ∧
    (hallAt u hall).migrants = (hallAt s hall).migrants.filter (fun x => x != m) ∧ u.mem = s.mem) ∧
  (room_ → readySaved s c = none → readyMigrant s c = none → chooseQueue s c = some (l, r, st) → stageWarms r st = false →
    headEntry hall l r st s = .ok words t → entryPoison hall l r st t = .ok bad t1 → Quiet t1 → warm t1 → r.mode ≠ 1 →
    let old := queueAt t1 hall l st
    let lost := lostFields (words.headD 0).toNat old.lost bad
    let task := newTask l r st (decodeFields (words.headD 0).toNat 0 old.decode words.tail) Slot.reset
    ∃ u h, exec ev s = .next u ∧ (coreAt u c).shadows = (coreAt t1 c).shadows ++ [h] ∧ h.waitsOn = [] ∧ u.mem = t1.mem ∧
      h.task = withLost lost task ∧ (lost.all (fun b => !b) = true → h.task = task) ∧
      (queueAt u hall l st).count = old.count - 1 ∧ (queueAt u hall l st).head = (old.head + 1) % stageCap r st)

/-- R137, R243, R249, R250, R252: the lobby's rebalance, migration, the save of a faulting task, the partition move. A task at its
threshold that may not move counts no more until the next window; a slot whose page was dropped stays. -/
def Claims.LobbySteps : Prop := ∀ (s u : State) (hall h c l kib : Nat) (k : Fin 4) (r : Launch) (i : Option Nat)
    (hi lo : Nat) (dhi dlo : Nat × Nat),
  let v := slotAt s c k
  let ds := (declaredStages r).map fun st => (st, demandOf s hall l r st)
  let due := v.live = true ∧ migratable s v = true ∧ ctxMthr s v.ctx ≠ 0 ∧ v.remoteHall = h ∧ ctxMthr s v.ctx ≤ v.remoteCount
  let moves := due ∧ mayMigrate s c k h = true
  let old := (coreAt s c).partition
  let turns := partitionWanted s c kib = true ∧ old ≠ kib ∧ kib ≤ 480 ∧ kib % 16 = 0 ∧
    (kib < old → largerRequest s c kib = false)
  ((∀ e ∈ s.launches, (launchHalls e.2).contains hall = false) → Occurs (.lobbyRebalance hall) s s) ∧
  (s.launches = [(l, r)] → (launchHalls r).contains hall = true → Occurs (.lobbyRebalance hall) s (rebalance hall l r s)) ∧
  (extreme (fun a b => fracLess b a) ds = some (hi, dhi) → extreme fracLess ds = some (lo, dlo) →
    (servingCores s hall l lo).getLast? = some c →
    (dhi.2 * dlo.2 < 4 * (dhi.1 * dlo.2 - dlo.1 * dhi.2) → 1 < (servingCores s hall l lo).length ∨
        (queueAt s hall l lo).count + (queueAt s hall l lo).reserved = 0 →
      tfind (coreAt (rebalance hall l r s) c).stages l = some hi) ∧
    (4 * (dhi.1 * dlo.2 - dlo.1 * dhi.2) ≤ dhi.2 * dlo.2 → rebalance hall l r s = s)) ∧
  Occurs (.migrationWindow c k) s (putSlot s c k { v with remoteHall := 0, remoteCount := 0, remoteOff := false }) ∧
  (¬due → Occurs (.taskMigration c k h) s s) ∧
  (due → mayMigrate s c k h = false → Occurs (.taskMigration c k h) s (putSlot s c k { v with remoteOff := true })) ∧
  (moves → transferOf s c k = none → commandsOf s c k = [] → servesKicks s c k = false → v.held = [] → Quiet s → ∃ u t, exec (.taskMigration c k h) s = .next u ∧
    (slotAt u c k).live = false ∧ (hallAt u h).migrants = (hallAt s h).migrants ++ [t] ∧ t.core = c ∧ t.task.x = v.x ∧
    t.task.w = v.w ∧ t.task.pc = v.pc ∧ u.mem = s.mem) ∧
  ((∀ n, v.wait ≠ some (.page (some n))) ∨ v.live = false ∨ k = 3 → Occurs (.faultSaveDeferred c k) s s) ∧
  (v.wait = some (.page i) → i ≠ none → v.live = true → k ≠ 3 → ∀ b, saveSlot c k (some (.page i)) false s = .ok b u →
    Occurs (.faultSaveDeferred c k) s u) ∧
  (ctxFrames s v.ctx < ((contextAt s v.ctx).saved.filterMap SavedTask.frame).length + (coresWithChain s c k).length →
    saveSlot c k (some (.page i)) false s = .ok false s) ∧
  (¬turns → Occurs (.partitionMove c kib) s s) ∧ (partitionMoveAct c kib s = .ok () u → Occurs (.partitionMove c kib) s u) ∧
  (turns → (coreAt s c).mappings = [] → (roomAt s (roomOf c)).acc = [] → Quiet s → ∃ u, exec (.partitionMove c kib) s = .next u ∧
    (coreAt u c).partition = kib ∧ (coreAt u c).slots = (coreAt s c).slots ∧ u.mem = s.mem ∧
    ∀ pr, physicalRoom s (roomOf c) = some pr → (∀ i, repairWord s pr i = 0) → tsorted 0 s.vault = true →
      ∀ o, 1024 * min old kib ≤ o → o < 1024 * max old kib → vaultAt u pr (c % 16 * 2 ^ 19 + o) = VaultWord.reset)

/-- R125, R126, R267, Tables 7.7 and 7.8: the chimney. A node whose children have all reported forwards one report, combined; at
the house the launch completes and its record is idle; a quiescent launch is supplied the DONEs of the slots it has left;
and R241, R269: an entry that has landed goes to a queue with room, then the landing does the next completed node. -/
def Claims.Completions : Prop := ∀ (s t u : State) (ctx record unit hall : Nat) (tier : Tier) (r : Launch) (a b : Report)
    (e : LandingEntry) (rest : List LandingEntry),
  let l := launchKey ctx record
  let ev := Instr.chimneyMessage ctx record tier unit
  let key := 2 ^ 20 * tier.code + unit
  let kids := tget [] r.chimney key
  let all := combinedReport kids
  let up := 2 ^ 20 * (parentOf tier unit).1.code + (parentOf tier unit).2
  let full := childrenOf r tier unit ≤ kids.length ∧ kids ≠ [] ∧ r.sent.contains key = false
  (launchAt s l = none → Occurs ev s s ∧ Occurs (.launchQuiescent ctx record) s s) ∧
  (launchAt s l = some r → ¬full → Occurs ev s s) ∧
  (launchAt s l = some r → full → tier ≠ .house → Quiet s → ∃ u, exec ev s = .next u ∧ u.mem = s.mem ∧
    (launchAt u l).map (fun q => tget [] q.chimney up) = some (tget [] r.chimney up ++ [(unit, all)]) ∧
    (launchAt u l).map (fun q => q.sent) = some (key :: r.sent)) ∧
  (launchAt s l = some r → full → tier = .house → recWord r 8 = 0 → Occurs ev s
    (retireLaunch (postEvent s 13 (l / 1024) (l % 1024) 0 (BitVec.ofNat 64 (statusWord all))) l)) ∧
  (launchAt s l = some r → full → tier = .house → completeLaunch l r all s = .ok () u → Occurs ev s u) ∧
  (tsorted 0 s.launches = true → launchAt (retireLaunch s l) l = none) ∧
  combinedReport [(0, a), (1, b)] = ⟨max a.code b.code, a.flags ||| b.flags, (a.value + b.value) % 2 ^ 40, a.dones + b.dones⟩ ∧
  (launchAt s l = some r → quiescent s l r = false → Occurs (.launchQuiescent ctx record) s s) ∧
  (launchAt s l = some r → quiescent s l r = true → Quiet s → ∃ u, exec (.launchQuiescent ctx record) s = .next u ∧
    u.mem = s.mem ∧ u.cores = s.cores ∧ ∀ room ∈ launchRooms r, ∀ c ∈ coresOf room,
      (launchAt u l).map (fun q => (tget [] q.chimney (2 ^ 20 * Tier.core.code + c)).length) =
        some (max (recSlots r (c % 16)) (tget [] r.chimney (2 ^ 20 * Tier.core.code + c)).length)) ∧
  (landable s hall (hallAt s hall).landing = none → (hallAt s hall).doneNodes = [] → Occurs (.landingRetry hall) s s) ∧
  (landable s hall (hallAt s hall).landing = none → ∀ m v ms, (hallAt s hall).doneNodes = (m, v) :: ms → launchAt s m = some r →
    graphDone hall m r v s = .ok () t → Occurs (.landingRetry hall) s
      (post (onHall t hall fun h => { h with doneNodes := h.doneNodes.tail }) [.landingRetry hall])) ∧
  (landable s hall (hallAt s hall).landing = some (e, r, rest) → launchAt s e.launch = some r ∧
    queueFull s hall e.launch r e.stage = false ∧ (storeEntry hall e.launch r e.stage e.words s = .ok () t →
      Occurs (.landingRetry hall) s (post (onHall t hall fun h => { h with landing := rest }) [.landingRetry hall])))

/-! ### Laundries (R304 to R314) -/

/-- R304, R305, R308, R310, Table 18.8: a laundry completes the request that has ended, then accepts a kick, then takes the next
request, or goes on with one that it had stopped. A stale kick has no effect, one that overruns the ring marks it, a valid one
gives the ring its new P, and with nothing left to take the ring is active no more. -/
def Claims.LaundryRings : Prop := ∀ (s t : State) (hall : Nat) (q : Kick) (r : LaundryRing) (rest : List LaundryRing),
  let h := hallAt s hall
  let ev := Instr.laundryKickAccept hall
  let ended := h.rings.filter LaundryRing.ended
  let kicks := h.kicks.filter (acceptable s hall)
  let next := ringOrder s hall
  let more := Occurs ev s (post t [.laundryKickAccept hall])
  let delta := (q.p - r.cons).toNat
  (ended = [] → kicks = [] → next = [] → Occurs ev s s) ∧
  (ended = r :: rest → finishRequest hall r s = .ok () t → more) ∧
  (ended = [] → kicks.head? = some q → acceptKick hall q s = .ok () t → more) ∧
  (ended = [] → kicks = [] → next = r :: rest → r.stopped = false → takeRequest hall r s = .ok () t → more) ∧
  (ended = [] → kicks = [] → next = r :: rest → r.stopped = true → resumeRequest hall r s = .ok () t → more) ∧
  (laundryRing s hall (ringKey q.ctx q.header) = some r → q.from_ = none →
    (2 ^ 31 ≤ delta → acceptKick hall q s = .ok () (onHall s hall fun h => { h with kicks := h.kicks.erase q })) ∧
    (delta < 2 ^ 31 → 2 ^ r.lc < delta → writeOverrun hall r true s = .ok () t → laundryRing t hall r.key = some r →
      ∃ u, acceptKick hall q s = .ok () u ∧ laundryRing u hall r.key = some { r with overrun := true }) ∧
    (0 < delta → delta < 2 ^ 31 → delta ≤ 2 ^ r.lc → writeOverrun hall r false s = .ok () t → laundryRing t hall r.key = some r →
      ∃ u, acceptKick hall q s = .ok () u ∧ laundryRing u hall r.key = some { r with p := q.p, overrun := false } ∧
        u.mem = t.mem) ∧
    (q.p = r.cons → r.req = [] → writeOverrun hall r false s = .ok () t → laundryRing t hall r.key = some r →
      ∃ u, acceptKick hall q s = .ok () u ∧ laundryRing u hall r.key = none ∧ u.mem = t.mem)) ∧
  (fieldAt (completionBytes r) 0 4 = r.cons.toNat ∧ fieldAt (completionBytes r) 4 1 = r.status % 256 ∧
    fieldAt (completionBytes r) 5 1 = reqOp r ∧ fieldAt (completionBytes r) 6 1 = r.flags % 32 ∧
    fieldAt (completionBytes r) 8 8 = r.index % 2 ^ 64) ∧
  (r.cons = r.p → laundryRing (requestDone s hall r) hall r.key = none) ∧
  ((h.rings.filter fun r => !r.req.isEmpty && !r.stopped).length ≥ 4 → next = [])

/-- R307, R309: requests. The step of an operation serves a ring whose request is of that operation, element by element from the
one it has come to; it ends after the last, or with a status; an element whose page misses makes it wait. COPY, PAD and SLICE
convert in one step, CONVERT in two; PAD writes zeros around; FILL writes one value. A request may stop at a granule for a ring
of higher priority; when is the model's choice (log entry 110). -/
def Claims.LaundryRequests : Prop := ∀ (s t t1 t2 t3 u : State) (hall key fuel i n flags status x : Nat) (r : LaundryRing)
    (d : Due) (bad : Bool) (due : List Due) (src : List Int) (ps qs : List (XWord × Place × Nat)) (bs : List Byte),
  let ring := laundryRing s hall key
  let run := runRequest hall key d
  let step_ := requestStep hall r r.index s
  let serves := fun (ev : Instr) (op : Nat) (d : Due) =>
    ((∀ r, ring = some r → r.req = [] ∨ r.ended = true ∨ r.stopped = true ∨ reqOp r ≠ op) → Occurs ev s s) ∧
    (∀ r, ring = some r → r.req ≠ [] → r.ended = false → r.stopped = false → reqOp r = op →
      runRequest hall key d (reqTotal r + 2) s = .ok () u → Occurs ev s u)
  let sf := typeOf (reqSf r)
  let df := typeOf (reqDf r)
  let mf := typeOf (reqMf r)
  let dest := elementAddr (reqDst r) (dstStride r) ((reqIndex r i).map Int.ofNat)
  let first := convert sf mf 4 (reqSat r) x
  let second := convert mf df (reqRm r) (reqSat r) first.bits
  let place := movedElement hall r i
  serves (.copy hall key) 1 (.copy hall key) ∧ serves (.convert hall key) 2 (.convert hall key) ∧
  serves (.quant hall key) 3 (.quant hall key) ∧ serves (.pad hall key) 4 (.pad hall key) ∧
  serves (.slice hall key) 5 (.slice hall key) ∧ serves (.fill hall key) 6 (.fill hall key) ∧
  serves (.compress hall key) 7 (.compress hall key) ∧ serves (.expand hall key) 8 (.expand hall key) ∧
  serves (.frameExchange hall key) 9 (.frameExchange hall key) ∧
  (ring = some r → reqOp r < 7 → reqTotal r ≤ r.index → run (fuel + 1) s = .ok () (endRequest s hall key 0)) ∧
  (ring = some r → 7 ≤ reqOp r ∨ r.index < reqTotal r →
    (step_ = .ok (.wrote n flags bad) t →
      let q := { r with index := r.index + n, flags := r.flags ||| flags, status := if bad then 0x0E else r.status }
      let v := onRing t hall key fun _ => q
      (stopsHere v hall q = false → run (fuel + 1) s = run fuel v) ∧
      (stopsHere v hall q = true → stopRequest hall q v = .ok true u → run (fuel + 1) s = .ok () u) ∧
      (stopsHere v hall q = true → stopRequest hall q v = .ok false u → run (fuel + 1) s = run fuel u)) ∧
    (step_ = .ok (.ends status) t → run (fuel + 1) s = .ok () (endRequest t hall key status)) ∧
    (step_ = .error (.engine hall none due) t → run (fuel + 1) s = .ok () (blockOn (lookups s t) hall due d))) ∧
  (reachElement hall r .read (elementAddr (reqSrc r) (srcStride r) src) sf.size s = .ok (.ok ps) t →
    peekParts ps t = .ok (bs, bad) t1 → reachElement hall r .write dest df.size t1 = .ok (.ok qs) t2 →
    x = natOfBytes bs → deliverParts hall bad qs (bytesOfNat df.size (requestConvert r x).bits) t2 = .ok () t3 →
    place src s = .ok (.wrote 1 (requestConvert r x).flags bad) t3) ∧
  (reqOp r ≠ 2 → requestConvert r x = convert sf df (reqRm r) (reqSat r) x) ∧
  (reqOp r = 2 → requestConvert r x = ⟨second.bits, (first.flags &&& flagNV) ||| second.flags⟩) ∧
  (reqOp r = 1 ∨ reqOp r = 2 → requestStep hall r i = place ((reqIndex r i).map Int.ofNat)) ∧
  (reqOp r = 4 → (padSource r i = none → requestStep hall r i = writeElement hall r i ⟨0, 0⟩ false) ∧
    (padSource r i = some src → requestStep hall r i = place src ∧ ∀ k < 4,
      (src.getD k 0) + reqOffset r k = (reqIndex r i).getD k 0 ∧ 0 ≤ src.getD k 0 ∧
        src.getD k 0 < (reqExtent r k : Int) - 2 * reqOffset r k)) ∧
  (reqOp r = 5 → requestStep hall r i = place ((reqIndex r i).mapIdx fun k j => ((j + reqOffset r k : Nat) : Int))) ∧
  (reqOp r = 6 → requestStep hall r i = writeElement hall r i
    (convert (if 8 ≤ reqDf r then .f32 else .i32) df (reqRm r) (reqSat r) (reqImm r)) false) ∧
  (i < reqTotal r → let j := fun k => (reqIndex r i).getD k 0
    i = ((j 0 * reqExtent r 1 + j 1) * reqExtent r 2 + j 2) * reqExtent r 3 + j 3 ∧ ∀ k < 4, j k < reqExtent r k)

/-- R152, R194, R297, R307, R312: requests on whole pages. COMPRESS and EXPAND set and clear CP of a 64 KiB page in DRAM, and no
byte changes; FRAME EXCHANGE moves the contents of two pages with their translations. Another page ends with status 0x05. The
look-up of a page's translation is a use of it. -/
def Claims.LaundryPages : Prop := ∀ (s t t1 : State) (hall : Nat) (r : LaundryRing) (a b : TlbEntry) (i : Nat),
  let found := fun (s : State) (x : XWord) (e : TlbEntry) (t : State) => isCanonical x = true ∧ isVaultAddr x = false ∧
    hallLookup s hall r.ctx (pageOf x) = some (e, t) ∧ ¬(t.krBusy = true ∧ attrKey e.attr = t.krKey)
  let fits := a.size = 0 ∧ spaceOf (pageStart a) = .dram ∧ attrSL a.attr = false ∧ attrClass a.attr ≠ 2
  let with_ := fun (w : BitVec 32) => rewriteEntries t a { a with attr := w }
  let clear := a.attr &&& ~~~0x40#32
  (hallLookup s hall r.ctx (pageOf (reqSrc r)) = some (a, t) → covers a r.ctx (pageOf (reqSrc r)) = true ∧
    a ∈ (hallAt s hall).tlb ∧ (hallAt t hall).tlb.head? = some a ∧ t.mem = s.mem ∧ t.cores = s.cores) ∧
  (found s (reqSrc r) a t →
    (reqOp r = 7 → requestStep hall r i s = if fits then .ok (.ends 0) (with_ (clear ||| 0x40#32)) else .ok (.ends 0x05) t) ∧
    (reqOp r = 8 → requestStep hall r i s = if fits then .ok (.ends 0) (with_ clear) else .ok (.ends 0x05) t)) ∧
  (isVaultAddr (reqSrc r) = true → 7 ≤ reqOp r → reqOp r ≤ 8 → requestStep hall r i s = .ok (.ends 0x05) s) ∧
  (found s (reqSrc r) a t → found t (reqDst r) b t1 → reqOp r = 9 →
    (exchangeable a b = false → requestStep hall r i s = .ok (.ends 0x05) t1) ∧
    (exchangeable a b = true → ∃ u, requestStep hall r i s = .ok (.ends 0) u ∧
      u.mem = (exchangeFrames (settlePage (settlePage t1 a) b) a b).mem)) ∧
  (exchangeable a b = true → Memory.wf s.mem → pageStart a + pageBytes a ≤ 2 ^ 52 → pageStart b + pageBytes a ≤ 2 ^ 52 →
    i < pageBytes a → let m := (exchangeFrames s a b).mem
      memByte m (memKey (attrKey a.attr) (pageStart b + i)) = memByte s.mem (memKey (attrKey a.attr) (pageStart a + i)) ∧
      memByte m (memKey (attrKey b.attr) (pageStart a + i)) = memByte s.mem (memKey (attrKey b.attr) (pageStart b + i)))

/-- R152, R305, R307, R308, R312: the steps of a laundry run to their ends. A valid kick of an active ring gives it its new P; a request
of elements that has done its last ends; COMPRESS, EXPAND and FRAME EXCHANGE on pages that they may act on change them and end. Which
pages those are beyond the spec's words is the model's choice (log entry 68). -/
def Claims.LaundryCompletes : Prop := ∀ (s t t1 : State) (hall key : Nat) (q : Kick) (r : LaundryRing) (a b : TlbEntry) (ev : Instr),
  let h := hallAt s hall
  let delta := (q.p - r.cons).toNat
  let found := fun (s : State) (x : XWord) (e : TlbEntry) (t : State) => isCanonical x = true ∧ isVaultAddr x = false ∧
    hallLookup s hall r.ctx (pageOf x) = some (e, t) ∧ ¬(t.krBusy = true ∧ attrKey e.attr = t.krKey)
  let fits := a.size = 0 ∧ spaceOf (pageStart a) = .dram ∧ attrSL a.attr = false ∧ attrClass a.attr ≠ 2
  let runs := laundryRing s hall key = some r ∧ r.req ≠ [] ∧ r.ended = false ∧ r.stopped = false
  let clear := a.attr &&& ~~~0x40#32
  let with_ := fun (w : BitVec 32) => endRequest (rewriteEntries t a { a with attr := w }) hall key 0
  (h.rings.filter LaundryRing.ended = [] → (h.kicks.filter (acceptable s hall)).head? = some q → q.from_ = none →
    laundryRing s hall (ringKey q.ctx q.header) = some r → 0 < delta → delta < 2 ^ 31 → delta ≤ 2 ^ r.lc →
    writeOverrun hall r false s = .ok () t → laundryRing t hall r.key = some r → Quiet t →
    ∃ u, exec (.laundryKickAccept hall) s = .next u ∧ u.mem = t.mem ∧
      laundryRing u hall r.key = some { r with p := q.p, overrun := false }) ∧
  (runs → reqTotal r ≤ r.index → (ev, reqOp r) ∈ [(.copy hall key, 1), (.convert hall key, 2), (.quant hall key, 3),
    (.pad hall key, 4), (.slice hall key, 5), (.fill hall key, 6)] → Occurs ev s (endRequest s hall key 0)) ∧
  (runs → found s (reqSrc r) a t → fits →
    (reqOp r = 7 → Occurs (.compress hall key) s (with_ (clear ||| 0x40#32))) ∧
    (reqOp r = 8 → Occurs (.expand hall key) s (with_ clear))) ∧
  (runs → found s (reqSrc r) a t → found t (reqDst r) b t1 → reqOp r = 9 →
    let u := rewriteEntries (exchangeFrames (settlePage (settlePage t1 a) b) a b) a { a with pfn := b.pfn, attr := clear }
    exchangeable a b = true → Occurs (.frameExchange hall key) s
      (endRequest (rewriteEntries u b { b with pfn := a.pfn, attr := b.attr &&& ~~~0x40#32 }) hall key 0))

/-! ### Contexts, regions and the host port (R232, R233, R255, R271 to R273, R332 to R343, R369, R370) -/

/-- R232, R233, R271 to R273: creating and destroying contexts and sealed regions. A refused write posts event 9. The refused destroy
of a region in use, and the refused writes of a declared region, are the model's choices (log entry 71). -/
def Claims.ContextsAndRegions : Prop := ∀ (s : State) (ctx g k : Nat) (v : XWord),
  let refused := fun (ctx unit : Nat) (info : XWord) => postEvent s 9 ctx unit 0 info
  let runs := s.launches.any fun e => e.1 / 1024 == ctx && !e.2.rooms.isEmpty
  let owner := regionCtx s g
  let uses := s.launches.any fun e => e.1 / 1024 == owner && !e.2.rooms.isEmpty
  (4096 ≤ ctx ∨ contextLive s ctx = true → Occurs (.contextCreate ctx) s s) ∧
  (ctx < 4096 → contextLive s ctx = false → descriptorValid s ctx = false →
    Occurs (.contextCreate ctx) s (refused ctx ctx 1)) ∧
  (ctx < 4096 → contextLive s ctx = false → descriptorValid s ctx = true → Quiet s → ∃ u, exec (.contextCreate ctx) s = .next u ∧
    contextLive u ctx = true ∧ contextAt u ctx = { Context.reset with mapAck := mapVersion s } ∧ u.mem = s.mem ∧
    u.cores = s.cores ∧ u.launches = s.launches) ∧
  (contextLive s ctx = false → Occurs (.contextDestroy ctx) s s) ∧
  (contextLive s ctx = true → runs = true ∨ (contextAt s ctx).saved ≠ [] → Occurs (.contextDestroy ctx) s (refused ctx ctx 1)) ∧
  (contextLive s ctx = true → runs = false → (contextAt s ctx).saved = [] → Quiet s → ∃ u, exec (.contextDestroy ctx) s = .next u ∧
    (tsorted 0 s.contextTable = true → contextLive u ctx = false) ∧ (∀ e ∈ u.launches, e.1 / 1024 ≠ ctx) ∧
    (∀ c, (coreAt u c).owner ≠ some ctx) ∧ (∀ c, (coreAt u c).slots = (coreAt s c).slots) ∧
    ((∀ g ∈ regionsOf s ctx, indexOf s g = []) → u.mem = s.mem) ∧ ∀ e ∈ u.runtime, e.launch / 1024 ≠ ctx) ∧
  (256 ≤ g ∨ regionDeclared s g = true → Occurs (.regionDeclare g) s s) ∧
  (g < 256 → regionDeclared s g = false → regionValid s g = false → Occurs (.regionDeclare g) s (refused owner g 2)) ∧
  (g < 256 → regionDeclared s g = false → regionValid s g = true → Quiet s → ∃ u, exec (.regionDeclare g) s = .next u ∧
    regionDeclared u g = true ∧ u.mem = s.mem ∧ u.cores = s.cores ∧
    (tsorted 0 s.indexes = true → ∀ name, entryOf u g name = none)) ∧
  (regionDeclared s g = false → Occurs (.regionDestroy g) s s) ∧
  (regionDeclared s g = true → uses = true → Occurs (.regionDestroy g) s (refused owner g 2)) ∧
  (regionDeclared s g = true → uses = false → Quiet s → ∃ u, exec (.regionDestroy g) s = .next u ∧
    (tsorted 0 s.regionTable = true → regionDeclared u g = false) ∧ (∀ e ∈ u.deferred, e.1 ≠ g) ∧
    (tsorted 0 s.indexes = true → indexOf u g = []) ∧ (indexOf s g = [] → u.mem = s.mem ∧ u.cores = s.cores)) ∧
  (regionDeclared s g = true → k < 5 ∨ 5 < k →
    let t := { s with regionTable := tset 0 s.regionTable (8 * g + k) v }
    writeRegionTable s g k v = if regionValid t g then t else refused owner g 2) ∧
  (regionDeclared s g = true → v.getLsbD 0 = true →
    writeRegionTable s g 5 v = if v = 1 then s else refused owner g 2)

/-- R255, R339 to R341, R378: submission rings. A doorbell below W posts event 8, one too far ahead puts the ring in overrun, a
reset discards what is left; a ring's next entry is taken, which is a foundation event (R385), and completed with its result and
status; one whose operation waits stays taken as it was read; an invalid entry has status 0x01. Code 9 for an ARM of a context that is
not live, and what a ring's turns do beside R341, are the model's choices (log entries 51 and 72). -/
def Claims.Submissions : Prop := ∀ (s t u : State) (i code : Nat) (w : XWord),
  let r := ringAt s i
  let e := readEntryAt s r
  let ring := fun (u : State) => ringAt u i
  let done := fun (s : State) (result : XWord) (status op : Nat) => completeEntry s i result status op
  let all := fun (P : Instr → Prop) => P (.submitArm i) ∧ P (.submitSave i) ∧ P (.submitRestore i) ∧ P (.submitMapack i)
  let x := contextAt s r.ctx
  let b := if r.entry.isNone then sequenced s else s
  let waiting := fun (t : State) => taken i e (lookups b t)
  (64 ≤ i → Occurs (.submissionDoorbell i w) s s ∧ Occurs (.submissionReset i) s s) ∧
  (i < 64 → w < r.w → Occurs (.submissionDoorbell i w) s (postEvent s 8 r.ctx i 0 w)) ∧
  (i < 64 → ¬(w < r.w) → 2 ^ r.lc < (w - r.r).toNat → Quiet s → ∃ u, exec (.submissionDoorbell i w) s = .next u ∧
    (ring u).ov = true ∧ (ring u).w = w ∧ u.irqs = s.irqs ++ (if r.ov then [] else [r.vec]) ∧ u.mem = s.mem) ∧
  (i < 64 → ¬(w < r.w) → (w - r.r).toNat ≤ 2 ^ r.lc → tsorted 0 s.subRings = true → Quiet s → ∃ u, exec (.submissionDoorbell i w) s = .next u ∧
    (ring u).w = w ∧ (ring u).ov = r.ov ∧ u.irqs = s.irqs ∧ u.mem = s.mem) ∧
  (i < 64 → tsorted 0 s.subRings = true → Quiet s → ∃ u, exec (.submissionReset i) s = .next u ∧ (ring u).r = r.w ∧ (ring u).c = r.w ∧ (ring u).ov = false ∧
    (ring u).entry = none ∧ u.mem = s.mem) ∧
  (∀ kept, r.entry = some kept → e = kept) ∧ (tsorted 0 s.subRings = true → (ring (taken i e s)).entry = some e ∧
    (ring (taken i e s)).r = r.c + 1) ∧
  (served s r = false → all fun ev => Occurs ev s s) ∧
  (served s r = true → e.valid = false → all fun ev => Occurs ev s (done (sequenced s) 0 1 e.op)) ∧
  (served s r = true → e.valid = true →
    (e.op ≠ 1 → Occurs (.submitArm i) s s) ∧ (e.op ≠ 2 → Occurs (.submitSave i) s s) ∧
    (e.op ≠ 3 → Occurs (.submitRestore i) s s) ∧ (e.op ≠ 4 → Occurs (.submitMapack i) s s) ∧
    (e.op = 1 → contextLive s r.ctx = false →
      Occurs (.submitArm i) s (done b (recordWord b r.ctx e.record 9 false) 0 1)) ∧
    (e.op = 1 → contextLive s r.ctx = true → armRecord r.ctx e.record b = .ok code t →
      Occurs (.submitArm i) s (done t (recordWord t r.ctx e.record code false) 0 1)) ∧
    (e.op = 2 → saveContext r.ctx b = .ok () t → Occurs (.submitSave i) s (done t 0 0 2)) ∧
    (e.op = 3 → x.suspended = none → restoreContext r.ctx b = .ok () t → Occurs (.submitRestore i) s (done t 0 0 3)) ∧
    (e.op = 3 → x.suspended.isSome = true → Occurs (.submitRestore i) s (done b 0 0 3)) ∧
    (e.op = 4 → x.suspended = none → Occurs (.submitMapack i) s (done (acknowledge b r.ctx e.ver) 0 0 4)) ∧
    (∀ v, e.op = 4 → x.suspended = some v → ¬(mapVersion s ≤ e.ver ∧ v ≤ e.ver) →
      Occurs (.submitMapack i) s (done b 0 0 4)) ∧
    (∀ v, e.op = 4 → x.suspended = some v → mapVersion s ≤ e.ver → v ≤ e.ver →
      restoreContext r.ctx
        (resumeDispatch (onContext b r.ctx fun x => { x with mapAck := e.ver, suspended := none }) r.ctx) = .ok () t →
      Occurs (.submitMapack i) s (done t 0 0 4)) ∧
    (∀ hall due, e.op = 2 → saveContext r.ctx b = .error (.engine hall none due) t →
      Occurs (.submitSave i) s (blockOn (waiting t) hall due (.submitSave i))) ∧
    (∀ due, e.op = 2 → saveContext r.ctx b = .error (.later due) t →
      Occurs (.submitSave i) s (post (waiting t) (due ++ [.submitSave i])))) ∧
  (∀ status op, u = done s w status op → (tsorted 0 s.subRings = true → (ring u).c = r.c + 1 ∧ (ring u).r = r.c + 1 ∧
      (ring u).entry = none) ∧
    (Uncopied s → let a := memKey 0 ((r.cbase.toNat + 16 * (r.c.toNat % 2 ^ r.lc)) % 2 ^ 52)
      u.mem = memWrite s.mem a (bytesOfNat 8 w.toNat ++ bytesOfNat 4 r.c.toNat ++ bytesOfNat 1 status ++ bytesOfNat 1 op ++ [0, 0]))) ∧
  (contextLive s r.ctx = false ∨ x.switchedOut = true → saveContext r.ctx s = .ok () s) ∧
  (contextLive s r.ctx = false ∨ x.switchedOut = false → restoreContext r.ctx s = .ok () s) ∧
  (saveContext r.ctx s = .ok () t → contextLive s r.ctx = true → (contextAt t r.ctx).switchedOut = true)

/-- R255, R280, R339, R340: context switches complete, of a context with no rooms and no laundry requests: the save performs its
deferred releases and switches it out, the restore of a saved context without images brings it back; the entry completes with status 0
in its record. The order of the releases is the model's choice (log entry 73). -/
def Claims.SwitchesComplete : Prop := ∀ (s : State) (i : Nat),
  let r := ringAt s i
  let e := readEntryAt s r
  let x := contextAt s r.ctx
  let cell := memKey 0 ((r.cbase.toNat + 16 * (r.c.toNat % 2 ^ r.lc)) % 2 ^ 52)
  let ended := fun (t : State) (op : Nat) => (ringAt (completeEntry t i 0 0 op) i).c = r.c + 1 ∧
    (Uncopied t → (completeEntry t i 0 0 op).mem =
      memWrite t.mem cell (bytesOfNat 8 0 ++ bytesOfNat 4 r.c.toNat ++ [0, BitVec.ofNat 8 op, 0, 0])) ∧ (Uncopied s → Uncopied t)
  tsorted 0 s.subRings = true → Quiet s → served s r = true → e.valid = true → contextLive s r.ctx = true →
  (e.op = 2 → x.switchedOut = false → contextRooms s r.ctx = [] → (∀ h ∈ s.halls, ∀ q ∈ h.2.rings, q.ctx ≠ r.ctx) →
    ∃ t, exec (.submitSave i) s = .next (completeEntry t i 0 0 2) ∧ ended t 2 ∧
      (contextAt (completeEntry t i 0 0 2) r.ctx).switchedOut = true ∧
      (tsorted 0 s.indexes = true → ∀ e ∈ (completeEntry t i 0 0 2).deferred, regionCtx s e.1 ≠ r.ctx)) ∧
  (e.op = 3 → x.switchedOut = true → x.suspended = none → x.images = [] → (contextDword s r.ctx 7).msb = false →
    ∃ t, exec (.submitRestore i) s = .next (completeEntry t i 0 0 3) ∧ ended t 3 ∧
      (contextAt (completeEntry t i 0 0 3) r.ctx).switchedOut = false)

/-- R334, R342, R343, R370, Tables 20.2 to 20.11: the host's registers, the event ring, messages to the threshold cores, the
retirement of keys. That a dropped event raises its vector only where EOV was clear, that EOV is set as the ring becomes full, and that
event records are written under key 0, are the model's choices (log entry 72). -/
def Obligations.HostPort : Prop := ∀ (s : State) (v w target : XWord) (offset : Nat) (key : BitVec 10) (type ctx unit : Nat)
    (addr info : XWord),
  let reg := fun (n : Nat) (u : State) => Occurs (.hostRegisterWrite n v) s u
  let ring := s.eventRing
  let kind := w.toNat / 2 ^ 60
  let bad := w.toNat / 2 ^ 40 % 2 ^ 6 ≠ 0 ∨ target.toNat / 2 ^ 9 ≠ 0
  let refused := postEvent s 9 noContext (target.toNat % 256) 0 3
  let control : EventRing := { ring with
    evec := v.toNat / 2 ^ 9 % 2 ^ 11, eov := ring.eov && !v.getLsbD 8, eie := v.getLsbD 7, een := v.getLsbD 6
    elc := v.toNat % 16, eh := if v.getLsbD 6 then 0 else ring.eh, et := if v.getLsbD 6 then 0 else ring.et }
  let sent := fun (i : Instr) => bad → Occurs i s refused
  let queued := fun (i : Instr) => ¬bad → target.getLsbD 8 = false → (∀ c k, waitOf (slotAt s c k) = none) → Quiet s →
    ∃ u, exec i s = .next u ∧ (hallAt u (target.toNat % 256)).messages = (hallAt s (target.toNat % 256)).messages ++ [w] ∧
      ∀ h, h ≠ target.toNat % 256 → (hallAt u h).messages = (hallAt s h).messages
  let full := decide (2 ^ ring.elc ≤ (ring.eh - ring.et).toNat)
  let filled := decide (2 ^ ring.elc ≤ (ring.eh + 1 - ring.et).toNat)
  (offset % 8 ≠ 0 → reg offset s) ∧
  (s.hmMsg.toNat / 2 ^ 60 ≠ 2 → s.hmMsg.toNat / 2 ^ 60 ≠ 3 → reg 0x0308 (postEvent s 9 noContext (v.toNat % 256) 0 3)) ∧
  (reg 0x0000 { s with hpCtl := v &&& 7 } ∧ reg 0x0040 (retireKey s (v.toNat % 1024)) ∧
    reg 0x0080 { s with grace := max 1 (v.toNat % 2 ^ 32) } ∧
    reg 0x0100 { s with budget := max 2000 (min 9000 (v.toNat % 2 ^ 16)) } ∧
    reg 0x0200 { s with eventRing := { ring with ebase := v } } ∧ reg 0x0208 { s with eventRing := control } ∧
    reg 0x0218 { s with eventRing := { ring with et := v } } ∧ reg 0x0300 { s with hmMsg := v }) ∧
  (∀ i k, i < 64 → k < 8 → reg (0x1000 + 64 * i + 8 * k) (writeRing s i k v)) ∧
  (∀ x k, x < 4096 → k < 8 → reg (0x10000 + 64 * x + 8 * k) (writeContextTable s x k v)) ∧
  (∀ g k, g < 256 → k < 8 → reg (0x50000 + 64 * g + 8 * k) (writeRegionTable s g k v)) ∧
  (v.getLsbD 6 = false → Occurs (.eventRingEnable v) s s) ∧
  (v.getLsbD 6 = true → Occurs (.eventRingEnable v) s { s with eventRing := control }) ∧
  (kind ≠ 2 → Occurs (.hostMessageMappingDone w target) s s) ∧ (kind ≠ 3 → Occurs (.hostMessageInvalidate w target) s s) ∧
  (kind = 2 → sent (.hostMessageMappingDone w target) ∧ queued (.hostMessageMappingDone w target)) ∧
  (kind = 3 → sent (.hostMessageInvalidate w target) ∧ queued (.hostMessageInvalidate w target)) ∧
  (s.krBusy = true → Occurs (.keyRetire key) s s) ∧
  (s.krBusy = false → keyInUse s key.toNat = true →
    Occurs (.keyRetire key) s (postEvent s 11 noContext 0 0 (key.setWidth 64))) ∧
  (s.krBusy = false → keyInUse s key.toNat = false → Uncopied s → Quiet s → ∃ u, exec (.keyRetire key) s = .next u ∧
    u.krBusy = true ∧ u.krKey = key.toNat ∧ u.mem = s.mem ∧ u.agenda = s.agenda ++ [.event .keyFlushComplete]) ∧
  Occurs .keyFlushComplete s { s with krBusy := false } ∧
  (ring.een = false → postEvent s type ctx unit addr info =
    { s with arbiter := s.arbiter + 1, eventRing := { ring with edrp := min 4095 (ring.edrp + 1) } }) ∧
  (ring.een = true → full = false → Uncopied s →
    let u := postEvent s type ctx unit addr info;
    u.eventRing = { ring with eh := ring.eh + 1, eov := ring.eov || filled } ∧
    u.irqs = s.irqs ++ (if ring.eie then [ring.evec] else []) ++ (if filled && !ring.eov then [ring.evec] else []) ∧
    u.mem = memWrite s.mem (memKey 0 ((ring.ebase.toNat + 32 * (ring.eh.toNat % 2 ^ ring.elc)) % 2 ^ 52))
      (bytesOfNat 1 type ++ [0] ++ bytesOfNat 2 ctx ++ bytesOfNat 4 unit ++ bytesOfNat 8 s.arbiter ++
        bytesOfNat 8 addr.toNat ++ bytesOfNat 8 info.toNat)) ∧
  (ring.een = true → full = true → let u := postEvent s type ctx unit addr info;
    u.eventRing = { ring with eov := true, edrp := min 4095 (ring.edrp + 1) } ∧
    u.irqs = s.irqs ++ (if ring.eov then [] else [ring.evec]) ∧ u.mem = s.mem)

/-! ### The map, power and start-up (R345, R347, R372 to R386, R399) -/

/-- R373 to R379, R385: withdrawals and returns of units wait for a publication, and the last change of a unit decides; a publication
counts a version, with its changes in the tables and its deadline; a passed deadline suspends every context that has not acknowledged
its version. That a BAD mark and a return are changes, that a publication comes before the saves that it causes, and that version 1
waits for the summaries, are the model's choices (log entries 77, 78 and 80); so is that a deadline suspends before it saves (79). -/
def Claims.MapChanges : Prop := ∀ (s u : State) (unit : DeviceUnit) (pr i : Nat) (v : BitVec 32),
  let pending := leaving s unit = true
  let asked := fun (c : Change) => post { s with changes := s.changes ++ [c] } [.mapPublication]
  let due := s.deadlines.any fun e => e.1 == v.toNat && decide (e.2 ≤ s.time)
  let late := (liveContexts s).filter fun x => (contextAt s x).suspended.isSome && !(contextAt s x).switchedOut
  (pending → Occurs (.unitWithdrawal unit) s s) ∧ (¬pending → Occurs (.unitWithdrawal unit) s (asked (.withdraw unit))) ∧
  (¬pending → Occurs (.unitReturn unit) s s) ∧ (pending → Occurs (.unitReturn unit) s (asked (.giveBack unit))) ∧
  (leaving (asked (.withdraw unit)) unit = true ∧ leaving (asked (.giveBack unit)) unit = false ∧
    (s.changes = [] → leaving s unit = s.withdrawn.contains unit)) ∧
  (mapVersion s ≠ 0 → s.changes = [] → s.unsettled = [] → (∀ c k, waitOf (slotAt s c k) = none) → Occurs .mapPublication s s) ∧
  (mapPublicationAct s = .ok () u → Occurs .mapPublication s u) ∧
  (s.changes = [.repair pr i] → s.unsettled = [] → pr < 4096 → i < 32 → mapVersion s ≠ 0 → mapVersion s ≠ BitVec.allOnes 32 →
    (∀ r < 4096, ∃ p, physicalRoom s r = some p ∧ roomLive s p = true) →
    (∀ h < 256, ∃ p, physicalHall s h = some p ∧ hallLive s p = true) → (∀ c k, waitOf (slotAt s c k) = none) → Quiet s →
    ∃ u, exec .mapPublication s = .next u ∧ mapVersion u = mapVersion s + 1 ∧ u.changes = [] ∧
      mapWord u 3 (32 * pr + i) = (repairWord s pr i).setWidth 64 ∧ (∀ r, physicalRoom u r = physicalRoom s r) ∧
      u.deadlines = s.deadlines ++ [((mapVersion s).toNat + 1, s.time + 4000 * s.grace)] ∧ u.cores = s.cores ∧ u.mem = s.mem) ∧
  (due = true → Quiet s → ∃ u, exec (.mapDeadline v) s = .next u ∧ u.cores = s.cores ∧ u.mem = s.mem ∧
    (∀ e ∈ u.deadlines, e.1 ≠ v.toNat) ∧ ∀ x ∈ liveContexts s, (contextAt s x).suspended = none →
      (contextAt u x).suspended = if (contextAt s x).mapAck < v then some v else none) ∧
  (due = false → late = [] → Occurs (.mapDeadline v) s s) ∧
  (due = false → saveSuspended late s = .ok () u → Occurs (.mapDeadline v) s u)

/-- R32, R67, R345, R347, R381, R383, R384, R399: the thermostat, retransmission, start-up with what the links and channels trained to,
arrivals at estate barriers. What flash keeps, and how training is given, are the model's choices (log entry 80), as are the values of
the thermostat's formula (83) and what the houses tell one another (109). -/
def Claims.HouseSteps : Prop := ∀ (s : State) (p : PowerReport) (link : Nat) (b : BootInput) (m : EstateArrival) (r : Launch),
  let l := launchKey m.ctx m.record
  let key := barrierKey .estate 0 m.n
  let estate := fun (P : Launch → Prop) (u : State) => launchAt s l = some r → 2 ≤ r.estate.length → m.house ∈ r.estate → P r →
    Occurs (.estateBarrierArrival m) s u
  let budget := s.budget - p.foundation
  let at4 := fun (a : XWord) => a &&& ~~~3#64
  let share := fun (w : Nat) => wingShare budget p.demand w
  let drawn := fun (w : Fin 16) => 16 * (share w.val).2 * p.drawn.getD w.val 0
  (Quiet s → ∃ u, exec (.thermostatPeriod p) s = .next u ∧ u.mem = s.mem ∧ u.cores = s.cores ∧ ∀ w : Fin 16,
    ((share w.val).1 < drawn w → u.levels.get w = min 10 (s.levels.get w + 1)) ∧
    (drawn w ≤ (share w.val).1 → 100 * drawn w < 95 * (share w.val).1 → u.levels.get w = s.levels.get w - 1) ∧
    (drawn w ≤ (share w.val).1 → 95 * (share w.val).1 ≤ 100 * drawn w → u.levels.get w = s.levels.get w)) ∧
  Occurs (.flitRetransmission link) s s ∧
  (∃ u, exec (.bootReset b) s = .next u ∧ u.tick = s.tick ∧ u.house = s.house ∧ u.mem = [] ∧ u.vault = [] ∧ u.launches = [] ∧
    u.contextTable = [] ∧ (b.slotA = false → b.slotB = false → u.bootCode = 1 ∧ u.bootStep = 1 ∧ u.cores = []) ∧
    (b.slotA = true ∨ b.slotB = true → u.bootStep = 4 ∧ u.bootCode = (if b.mapImage then 0 else 2) ∧
      u.changes = b.failed.map .withdraw ∧
      (∀ ch n, b.rates = [(ch, n)] → tget 0 u.rates ch = n) ∧
      (∀ f lanes peer, b.links = [(f, lanes, peer)] → lanes ≠ 0 →
        tget 0 u.links f = BitVec.ofNat 64 (1 + 2 ^ 8 * min 8 lanes + 2 ^ 16 * (peer % 64))) ∧ u.firmware = ⟨at4 b.bootEntry, at4 b.loopEntry, at4 b.bootVec⟩ ∧ (tsorted 0 s.map = true → mapVersion u = 0) ∧
      (b.mapImage = false → ∀ q, q < 4096 → let v := slotAt u (16 * q) 3
        v.live = true ∧ v.pc = at4 b.bootEntry ∧ v.trap.vec = at4 b.bootVec ∧ v.wait = none))) ∧
  (launchAt s l = none → Occurs (.estateBarrierArrival m) s s) ∧
  (launchAt s l = some r → r.estate.length < 2 ∨ m.house ∉ r.estate → Occurs (.estateBarrierArrival m) s s) ∧
  estate (fun r => (∃ h ∈ r.estate, h < s.house) ∧ ∃ h ∈ r.estate, h < m.house) s ∧
  (∀ t, completePhase l key (barrierTold m (barrierAt r key)) s = .ok () t →
    estate (fun r => (∃ h ∈ r.estate, h < s.house) ∧ ∀ h ∈ r.estate, m.house ≤ h) t) ∧
  (∀ counts t, arriveAt l key (m.value.map fun _ => 2 ^ 18 * (m.house + 1) + 4 * m.core + m.slot)
    (m.value.map fun v => (4 * (65536 * m.house + m.core) + m.slot, v))
    (if m.code = 0 then none else some (BitVec.ofNat 8 m.code)) s = .ok counts t →
    estate (fun r => ∀ h ∈ r.estate, s.house ≤ h) t)

/-- R67, R122, R347: the arrival of another house's unit is counted at the house that holds the barrier: one that is not the last
leaves it counted, with its value at its own place in the tree, and a second of one slot in a phase counts for nothing. The fields of
an arrival are the model's (log entry 109). -/
def Claims.EstateArrivals : Prop := ∀ (s : State) (m : EstateArrival) (r : Launch) (x : XWord),
  let l := launchKey m.ctx m.record
  let key := barrierKey .estate 0 m.n
  let b := barrierAt r key
  let own := 4 * (65536 * m.house + m.core) + m.slot
  let slot := 2 ^ 18 * (m.house + 1) + 4 * m.core + m.slot
  launchAt s l = some r → 2 ≤ r.estate.length → (∀ h ∈ r.estate, s.house ≤ h) → m.house ∈ r.estate → m.value = some x → m.code = 0 →
  (slot ∈ b.slots → Occurs (.estateBarrierArrival m) s s) ∧
  (slot ∉ b.slots → b.arrived + 1 < b.config.toNat % 2 ^ 18 → b.config.toNat / 2 ^ 18 % 16 < 9 → tfind b.partials own = none →
    let counted := { b with arrived := b.arrived + 1, partials := tput b.partials own x, slots := slot :: b.slots }
    Occurs (.estateBarrierArrival m) s (onLaunch s l fun r => { r with barriers := tput r.barriers key counted }))

/-! ### Coding, stepping, frames, reset -/

/-- The example words of the tables of the spec, one or more of each family, decode to the instructions they stand for. -/
def Obligations.DecodedWords : Prop :=
  decode 0x00C63813 = .ok (.add .i64 6 6 7) ∧ decode 0x01053863 = .ok (.rem .i64 8 5 7) ∧
  decode 0x04A0789A = .ok (.addi 5 0 0x789A) ∧ decode 0x16D64034 = .ok (.srli 22 22 52) ∧
  decode 0x20E0001F = .ok (.lui 7 0x1F) ∧ decode 0x25674812 = .ok (.lea 11 7 9 2) ∧
  decode 0x25280022 = .ok (.part 9 8 .room) ∧ decode 0x3064FFFE = .ok (.blt 3 4 0xFFFE) ∧
  decode 0x4C050006 = .ok (.loop 5 6) ∧ decode 0x5D142001 = .ok (.st .i32 8 20 1) ∧
  decode 0x68251039 = .ok (.vldx .f32 1 5 2) ∧ decode 0x6CF42032 = .ok (.ste .i32 7 20 4) ∧
  decode 0x71280003 = .ok (.qld 9 2 3) ∧ decode 0x7695B810 = .ok (.map 20 21 23) ∧
  decode 0x7CA63883 = .ok (.cas .i64 5 6 7) ∧ decode 0x80011810 = .ok (.fence .rel .hall) ∧
  decode 0x80853057 = .ok (.wsig .n64 4 5 6) ∧ decode 0x860F0043 = .ok (.barrw 16 .hall 0 15) ∧
  decode 0x88210819 = .ok (.vadd .f32 1 1 1) ∧ decode 0x89AC0938 = .ok (.vsel .f64 13 12 1) ∧
  decode 0x90440949 = .ok (.vfma .f32 2 4 1 5) ∧ decode 0x9500482E = .ok (.vqnt .q4 8 0 .f32) ∧
  decode 0x98612019 = .ok (.vcps .f32 3 1 4) ∧ decode 0x9CC11048 = .ok (.vdot .f64 6 1 2) ∧
  decode 0xA4140010 = .ok (.scfg 0 20) ∧ decode 0xA8A60021 = .ok (.tget 37 6) ∧
  decode 0xAD410003 = .ok (.hmm 10 2 0 0 3) ∧ decode 0xB582800B = .ok (.hmv 12 5 0 1 3) ∧
  decode 0xB9620660 = .ok (.hcvt 11 4 3 .e4m3 false) ∧ decode 0xBDC28010 = .ok (.hsnap 14 16 2) ∧
  decode 0xC1885010 = .ok (.lpatch 12 8 10) ∧ decode 0xC0053040 = .ok (.qenq 5 6) ∧
  decode 0xC4462810 = .ok (.slook 2 6 5) ∧ decode 0xC8002810 = .ok (.trap 5) ∧
  decode 0xC8F90030 = .ok (.mfs 7 0x320) ∧ decode 0xC8C08040 = .ok (.mts 0x010 6) ∧
  decode 0xCCA63810 = .ok (.tlbw 5 6 7) ∧ decode 0xD24F9840 = .ok (.arrt 18 15 19) ∧
  decode 0xFC123456 = .ok (.hintWide 0x123456) ∧ decode 0xFC40000C = .ok (.hintRm true 4) ∧
  decode 0xFC800030 = .ok (.hintDep 0 0 3 0 false) ∧ decode 0xFCC00010 = .ok (.hintSchedYield 4)

/-- Every operand of every encoded instruction, at every value the encoding admits, is in its word. -/
def Obligations.RoundTrip : Prop := ∀ i : Instr, i.coded = true → i.wf = true → decode (encode i) = .ok i

/-- Each word has one meaning: one that decodes is the word of the well-formed instruction it decodes to. -/
def Obligations.DecodeExact : Prop := ∀ (w : Word) (i : Instr), decode w = .ok i → encode i = w ∧ i.wf = true ∧ i.coded = true

/-- A step runs the instruction that the word at the PC decodes to, as the slot that R14 selects; a follower of a chain runs
what its leader has forwarded; a word that is no instruction runs as the illegal one (R46); what is due comes first. The
clocks move on before it. Firmware fetches from physical memory (R411). The turns are the model's (log entry 11). -/
def Obligations.StepRuns : Prop := ∀ (s : State) (c : Nat) (rest : List Turn),
  let r := advanceClock s
  let q := { r with agenda := rest }
  (∀ d, r.agenda = .event d :: rest → step s = runDue d q) ∧
  (∀ d t, ∃ i : Instr, i.coded = false ∧ runDue d t = exec i t) ∧
  (r.agenda = .core c :: rest ∨ (r.agenda = [] ∧ rest = [] ∧ c = nextCore r) →
    (pickSlot q c = none → step s = .next { q with cur := (c, q.cur.2) }) ∧
    (∀ k, pickSlot q c = some k → let t := issuing q c k
      t.cur = (c, k) ∧ t.mem = q.mem ∧ t.vault = q.vault ∧
      (∀ f i, forwarded t c k = some f → f.instr = some i →
        step s = exec i (onSlot t c k fun v => { v with pc := f.pc })) ∧
      (∀ f, forwarded t c k = some f → f.instr = none → step s = .next (partHere t f)) ∧
      (∀ w u, forwarded t c k = none → fetchWord t = .ok w u →
        (∀ i, decode w = .ok i → step s = exec i u) ∧
        (∀ e, decode w = .error e → step s = exec (.illegalInstruction w) u)) ∧
      (∀ e u, forwarded t c k = none → fetchWord t = .error e u → step s = stopped (.illegalInstruction 0) t u e))) ∧
  (isThreshold s.cur.1 = true → Alone s → Uncopied s → (roomAt s (roomOf s.cur.1)).hold = [] →
    let pa := (here s).pc.toNat
    pa < 2 ^ 52 → pa % 4 = 0 → populated pa = true → poisonIn s pa 4 = none →
    fetchWord s = .ok (BitVec.ofNat 32 (natOfBytes (memBytes s.mem pa 4))) s)

/-- What an instruction that goes on leaves as it was, in the terms the other statements use: an instruction of one slot
changes that slot and the issue pointer; a register's write changes that register, and x0 and p0 never; a trap's entry in
its own slot changes that slot. Every byte of memory and every vault word reads as before. -/
def Claims.Frames : Prop := ∀ (s : State) (v : Slot) (flow : Flow) (c : Nat) (k : Fin 4) (d r : Reg) (x : XWord)
    (y : BitVec 32) (z : VWide) (n : Nat),
  let t := after s v flow
  let p := putSlot s c k v
  (t = { s with cores := t.cores } ∧ p = { s with cores := p.cores }) ∧
  (∀ a, memByte t.mem a = memByte s.mem a) ∧ (∀ pr off, vaultAt t pr off = vaultAt s pr off) ∧
  (∀ c', c' ≠ s.cur.1 → coreAt t c' = coreAt s c') ∧ (∀ k', k' ≠ s.cur.2 → slotAt t s.cur.1 k' = slotAt s s.cur.1 k') ∧
  coreAt t s.cur.1 = { coreAt s s.cur.1 with slots := (coreAt t s.cur.1).slots, pointer := (coreAt t s.cur.1).pointer } ∧
  (let u := here t
   u = { v with pc := u.pc, loops := u.loops, hints := [], retired := v.retired + 1, delay := u.delay, yielded := u.yielded }) ∧
  (inHandler v = true → (here t).loops = v.loops) ∧
  (∀ c', c' ≠ c → coreAt p c' = coreAt s c') ∧ (∀ k', k' ≠ k → slotAt p c k' = slotAt s c k') ∧
  slotAt p c k = v ∧ coreAt p c = { coreAt s c with slots := (coreAt p c).slots } ∧
  xOf (withX v d x) r = (if r = d ∧ r ≠ 0 then x else xOf v r) ∧ withX v d x = { v with x := (withX v d x).x } ∧
  (withX v d x).x.get 0 = v.x.get 0 ∧
  pOf (withP v d y) r = (if r.val % 8 = d.val % 8 ∧ r.val % 8 ≠ 0 then y else pOf v r) ∧
  withP v d y = { v with p := (withP v d y).p } ∧
  (withW v d z).w.get r = (if r = d then z else v.w.get r) ∧
  withW v d z = { v with w := (withW v d z).w, wWritten := (withW v d z).wWritten } ∧
  withFlags v n = { v with fpFlags := v.fpFlags ||| BitVec.ofNat 64 n }

/-- No instruction and no step is turned away: what has no next state is an access to a physical address at which Table
20.1 puts no memory, the model's one fault (R332). -/
def Claims.NothingRefused : Prop := ∀ (i : Instr) (s : State) (pa : Nat),
  (∀ r, exec i s ≠ .refused r) ∧ (∀ r, step s ≠ .refused r) ∧
  (populated pa = true ↔ (spaceOf pa = .dram ∧ pa < 3 * 2 ^ 40) ∨ (spaceOf pa = .expander ∧ pa / 2 ^ 44 % 16 = 0) ∨
    spaceOf pa = .host ∨ spaceOf pa = .fabric)

/-- What reset leaves, where the spec gives it: R14, R187, R342, R378, R383, Tables 2.5, 2.7, 2.8, 8.3, 20.2, 20.5, 20.8,
26.2 and 26.5. No word of memory is listed: what it then reads as is the model's choice (log entry 6). -/
def Obligations.ResetState : Prop :=
  let s := State.reset
  (∀ c k, (slotAt s c k).fpCtl = 0 ∧ (slotAt s c k).fpFlags = 0 ∧ (slotAt s c k).trap.cause = 0 ∧
    (slotAt s c k).trap.pc = 0 ∧ (slotAt s c k).trap.addr = 0 ∧ (slotAt s c k).trap.info = 0 ∧
    (slotAt s c k).trap.save = 0 ∧ (slotAt s c k).cyc = 0 ∧ (slotAt s c k).retired = 0 ∧ inHandler (slotAt s c k) = false) ∧
  (∀ c, (coreAt s c).pointer = 2 ∧ (coreAt s c).halted = false ∧ (coreAt s c).pair = none) ∧
  (∀ pr off, (vaultAt s pr off).v = true ∧ (vaultAt s pr off).d = false ∧ (vaultAt s pr off).f = false ∧
    (vaultAt s pr off).data = 0) ∧
  (∀ u v, clockAt s u v = 0) ∧
  s.hpCtl = 0 ∧ (∀ ring, tget SubRing.reset s.subRings ring = ⟨0, 0, 0, 0, false, false, false, 0, 0, 0, 0, none⟩) ∧
  s.eventRing = ⟨0, 0, 0, false, false, false, 0, 0, 0⟩ ∧ s.grace = 1000 ∧ s.budget = 9000 ∧
  s.bootStep = 0 ∧ s.bootCode = 0 ∧ s.mem = [] ∧ Memory.wf s.mem = true

/-- Every step keeps memory in its canonical form. -/
def Obligations.MemoryInvariant : Prop := ∀ s t : State, Memory.wf s.mem = true → step s = .next t → Memory.wf t.mem = true

/-! ### Statements of several parts -/

/-- The reductions and their tree. Each part names its rules. -/
def Obligations.VectorReductions : Prop := Claims.VectorReductions ∧ Claims.ReductionTree

/-- The forms that move elements, and reductions that complete. Each part names its rules. -/
def Obligations.VectorMoves : Prop := Claims.VectorMoves ∧ Claims.ReductionsComplete

/-- The fences, and barriers that complete. Each part names its rules. -/
def Obligations.Fences : Prop := Claims.Fences ∧ Claims.BarriersComplete

/-- Tensor slots, hearth commands that complete, and the names they hold. Each part names its rules. -/
def Obligations.TensorSlots : Prop := Claims.TensorSlots ∧ Claims.CommandsComplete ∧ Claims.ControlComplete ∧ Claims.SealedComplete

/-- The forms on commands in the window, and how commands end. Each part names its rules. -/
def Obligations.CommandControl : Prop := Claims.CommandControl ∧ Claims.CommandsEnd

/-- The INT instructions on two operands. Each part names its rules. -/
def Obligations.IntegerResults : Prop := Claims.IntegerArithmetic ∧ Claims.IntegerBits

/-- Counts of bits, and fields of bits. Each part names its rules. -/
def Obligations.IntegerFields : Prop := Claims.IntegerCounts ∧ Claims.BitFields

/-- The immediate forms, LUI, LEA, PART and COORD. Each part names its rules. -/
def Obligations.ImmediateForms : Prop := Claims.Immediates ∧ Claims.SharesOfWork

/-- Branches and jumps. Each part names its rules. -/
def Obligations.Transfers : Prop := Claims.CompareBranches ∧ Claims.Jumps ∧ Claims.StreamBranch

/-- LOOP, and where its bodies end. Each part names its rules. -/
def Obligations.HardwareLoops : Prop := Claims.Loops ∧ Claims.LoopEnds

/-- What a vector instruction reads, and which elements it acts on. Each part names its rules. -/
def Obligations.VectorElements : Prop := Claims.VectorOperands ∧ Claims.MaskElements

/-- The element arithmetic of vectors. Each part names its rules. -/
def Obligations.VectorNumbers : Prop := Claims.VectorArithmetic ∧ Claims.VectorUnary ∧ Claims.VectorFused

/-- Compares into predicates, and predicates. Each part names its rules. -/
def Obligations.MasksAndCompares : Prop := Claims.VectorCompares ∧ Claims.Predicates

/-- Conversions between number formats. Each part names its rules. -/
def Obligations.FormatChanges : Prop := Claims.VectorConversions ∧ Claims.VectorQuantisation

/-- Rounding of exact numbers, and the encodings of the formats. Each part names its rules. -/
def Obligations.Formats : Prop := Claims.Rounding ∧ Claims.FloatEncodings

/-- What streams address, pop and push. Each part names its rules. -/
def Obligations.StreamEngines : Prop := Claims.StreamAddresses ∧ Claims.StreamElements ∧ Claims.StreamFetches

/-- The instructions on streams. Each part names its rules. -/
def Obligations.StreamForms : Prop := Claims.StreamInstructions ∧ Claims.StreamSetup

/-- The loads and stores. Each part names its rules. -/
def Obligations.Accesses : Prop := Claims.LoadsAndStores ∧ Claims.GathersAndScatters

/-- Accesses to vault words. Each part names its rules. -/
def Obligations.Vaults : Prop := Claims.VaultAccesses ∧ Claims.VaultWords

/-- Memory, as firmware reads and writes it. Each part names its rules. -/
def Obligations.PhysicalMemory : Prop := Claims.FirmwareAccesses ∧ Claims.MemoryBytes

/-- The full/empty instructions. Each part names its rules. -/
def Obligations.FullEmptyBits : Prop := Claims.FullEmptyReads ∧ Claims.FullEmptyStores

/-- The ring instructions. Each part names its rules. -/
def Obligations.Rings : Prop := Claims.RingElements ∧ Claims.RingCounts ∧ Claims.RingHeaders

/-- The copy instructions, and what the copy engine does. Each part names its rules. -/
def Obligations.CopyEngine : Prop := Claims.Copies ∧ Claims.CopyEvents

/-- The atomics. Each part names its rules. -/
def Obligations.AtomicAccesses : Prop := Claims.Atomics ∧ Claims.AtomicValues

/-- The accumulations. Each part names its rules. -/
def Obligations.AccumulateOnly : Prop := Claims.Accumulations ∧ Claims.AccumulateReads

/-- Writes between wings and between houses. Each part names its rules. -/
def Obligations.Wings : Prop := Claims.RemoteWrites ∧ Claims.Arrivals

/-- The barriers of a launch. Each part names its rules. -/
def Obligations.LaunchBarriers : Prop := Claims.Barriers ∧ Claims.BarrierArrivals ∧ Claims.CombineTree

/-- The steps of the commands of the hearth. Each part names its rules. -/
def Obligations.HearthWalks : Prop := Claims.HearthSteps ∧ Claims.CommandLeaves ∧ Claims.LeafProducts ∧ Claims.LeafSums ∧
  Claims.TreeProducts ∧ Claims.TreeResults

/-- Launch records, arms and graphs. Each part names its rules. -/
def Obligations.LaunchRecords : Prop := Claims.RecordsAndGraphs ∧ Claims.Arms

/-- The instructions that end, yield and move a task. Each part names its rules. -/
def Obligations.TaskLives : Prop := Claims.Tasks ∧ Claims.TaskEnds

/-- Sealed memory. Each part names its rules. -/
def Obligations.SealedMemory : Prop := Claims.SealedInstructions ∧ Claims.ReferenceCounts

/-- Taking a trap and returning from it. Each part names its rules. -/
def Obligations.TrapsTaken : Prop := Claims.TrapEntry ∧ Claims.TrapReturn

/-- WAIT and LKICK. Each part names its rules. -/
def Obligations.WaitsAndKicks : Prop := Claims.Waiting ∧ Claims.Kicks

/-- Translation misses and the firmware that serves them. Each part names its rules. -/
def Obligations.MissService : Prop := Claims.LaundryCompletes ∧ Claims.Misses ∧ Claims.ThresholdQueues ∧ Claims.TranslationService

/-- The instructions of maintenance. Each part names its rules. -/
def Obligations.MaintenanceForms : Prop := Claims.Maintenance ∧ Claims.RawArrays

/-- How tasks come to run. Each part names its rules. -/
def Obligations.TaskStarts : Prop := Claims.TasksComplete ∧ Claims.LaunchStarts ∧ Claims.Promotions ∧ Claims.Prefetches

/-- The lobby, and completion. Each part names its rules. -/
def Obligations.LobbyWork : Prop := Claims.LobbySteps ∧ Claims.Completions

/-- The laundries. Each part names its rules. -/
def Obligations.Laundries : Prop := Claims.LaundryRings ∧ Claims.LaundryRequests ∧ Claims.LaundryPages

/-- Contexts, regions and submissions. Each part names its rules. -/
def Obligations.Foundation : Prop := Claims.ContextsAndRegions ∧ Claims.Submissions

/-- The map keeper, and the steps of the house. Each part names its rules. -/
def Obligations.Keeper : Prop := Claims.SwitchesComplete ∧ Claims.EstateArrivals ∧ Claims.MapChanges ∧ Claims.HouseSteps

/-- What an instruction leaves as it was; and that nothing is turned away. Each part names its rules. -/
def Obligations.FramesAndNext : Prop := Claims.Frames ∧ Claims.NothingRefused
end

