-- ==== Sys2Proof/Laws/Coding.lean ====
section
/-! SUPPORT. The fields that the decoder reads from the words the encoder builds, format by format, and the decoder at each
major opcode. -/

namespace Sys2Proof

/-! ### Fields of encoded words -/

theorem encA_toNat (op d a b minor ty : Nat) (hop : op < 64) (hd : d < 32) (ha : a < 32) (hb : b < 32) (hminor : minor < 128) (hty : ty < 16) :
    (encA op d a b minor ty).toNat = op * 2 ^ 26 + d * 2 ^ 21 + a * 2 ^ 16 + b * 2 ^ 11 + minor * 2 ^ 4 + ty := by
  simp only [encA, BitVec.toNat_ofNat]; omega

theorem fMajor_encA (op d a b minor ty : Nat) (hop : op < 64) (hd : d < 32) (ha : a < 32) (hb : b < 32) (hminor : minor < 128) (hty : ty < 16) :
    fMajor (encA op d a b minor ty) = op := by
  simp only [fMajor, encA_toNat op d a b minor ty hop hd ha hb hminor hty]; omega

theorem fD_encA (op d a b minor ty : Nat) (hop : op < 64) (hd : d < 32) (ha : a < 32) (hb : b < 32) (hminor : minor < 128) (hty : ty < 16) :
    fD (encA op d a b minor ty) = Fin.ofNat 32 d := by
  apply Fin.ext; simp only [fD, encA_toNat op d a b minor ty hop hd ha hb hminor hty, Fin.ofNat]; omega

theorem fA_encA (op d a b minor ty : Nat) (hop : op < 64) (hd : d < 32) (ha : a < 32) (hb : b < 32) (hminor : minor < 128) (hty : ty < 16) :
    fA (encA op d a b minor ty) = Fin.ofNat 32 a := by
  apply Fin.ext; simp only [fA, encA_toNat op d a b minor ty hop hd ha hb hminor hty, Fin.ofNat]; omega

theorem fB_encA (op d a b minor ty : Nat) (hop : op < 64) (hd : d < 32) (ha : a < 32) (hb : b < 32) (hminor : minor < 128) (hty : ty < 16) :
    fB (encA op d a b minor ty) = Fin.ofNat 32 b := by
  apply Fin.ext; simp only [fB, encA_toNat op d a b minor ty hop hd ha hb hminor hty, Fin.ofNat]; omega

theorem fBbits_encA (op d a b minor ty : Nat) (hop : op < 64) (hd : d < 32) (ha : a < 32) (hb : b < 32) (hminor : minor < 128) (hty : ty < 16) :
    fBbits (encA op d a b minor ty) = BitVec.ofNat 5 b := by
  apply BitVec.eq_of_toNat_eq; simp only [fBbits, encA_toNat op d a b minor ty hop hd ha hb hminor hty, BitVec.toNat_ofNat]; omega

theorem fMinor_encA (op d a b minor ty : Nat) (hop : op < 64) (hd : d < 32) (ha : a < 32) (hb : b < 32) (hminor : minor < 128) (hty : ty < 16) :
    fMinor (encA op d a b minor ty) = minor := by
  simp only [fMinor, encA_toNat op d a b minor ty hop hd ha hb hminor hty]; omega

theorem fTy_encA (op d a b minor ty : Nat) (hop : op < 64) (hd : d < 32) (ha : a < 32) (hb : b < 32) (hminor : minor < 128) (hty : ty < 16) :
    fTy (encA op d a b minor ty) = ty := by
  simp only [fTy, encA_toNat op d a b minor ty hop hd ha hb hminor hty]; omega

theorem fTyBits_encA (op d a b minor ty : Nat) (hop : op < 64) (hd : d < 32) (ha : a < 32) (hb : b < 32) (hminor : minor < 128) (hty : ty < 16) :
    fTyBits (encA op d a b minor ty) = BitVec.ofNat 4 ty := by
  apply BitVec.eq_of_toNat_eq; simp only [fTyBits, encA_toNat op d a b minor ty hop hd ha hb hminor hty, BitVec.toNat_ofNat]; omega

theorem fCode_encA (op d a b minor ty : Nat) (hop : op < 64) (hd : d < 32) (ha : a < 32) (hb : b < 32) (hminor : minor < 128) (hty : ty < 16) :
    fCode (encA op d a b minor ty) = BitVec.ofNat 15 (d * 1024 + a * 32 + b) := by
  apply BitVec.eq_of_toNat_eq; simp only [fCode, encA_toNat op d a b minor ty hop hd ha hb hminor hty, BitVec.toNat_ofNat]; omega

theorem fSysReg_encA (op d a b minor ty : Nat) (hop : op < 64) (hd : d < 32) (ha : a < 32) (hb : b < 32) (hminor : minor < 128) (hty : ty < 16) :
    fSysReg (encA op d a b minor ty) = BitVec.ofNat 12 (ty % 4 * 1024 + a * 32 + b) := by
  have h1 : (op * 2 ^ 26 + d * 2 ^ 21 + a * 2 ^ 16 + b * 2 ^ 11 + minor * 2 ^ 4 + ty) % 4 = ty % 4 := by omega
  have h2 : (op * 2 ^ 26 + d * 2 ^ 21 + a * 2 ^ 16 + b * 2 ^ 11 + minor * 2 ^ 4 + ty) / 2 ^ 11 % 1024 = a * 32 + b := by omega
  rw [fSysReg, encA_toNat op d a b minor ty hop hd ha hb hminor hty, h1, h2]; simp only [Nat.add_assoc]

theorem encQ_toNat (op d a b c variant ty : Nat) (hop : op < 64) (hd : d < 32) (ha : a < 32) (hb : b < 32) (hc : c < 32) (hvariant : variant < 4) (hty : ty < 16) :
    (encQ op d a b c variant ty).toNat = op * 2 ^ 26 + d * 2 ^ 21 + a * 2 ^ 16 + b * 2 ^ 11 + c * 2 ^ 6 + variant * 2 ^ 4 + ty := by
  simp only [encQ, BitVec.toNat_ofNat]; omega

theorem fMajor_encQ (op d a b c variant ty : Nat) (hop : op < 64) (hd : d < 32) (ha : a < 32) (hb : b < 32) (hc : c < 32) (hvariant : variant < 4) (hty : ty < 16) :
    fMajor (encQ op d a b c variant ty) = op := by
  simp only [fMajor, encQ_toNat op d a b c variant ty hop hd ha hb hc hvariant hty]; omega

theorem fD_encQ (op d a b c variant ty : Nat) (hop : op < 64) (hd : d < 32) (ha : a < 32) (hb : b < 32) (hc : c < 32) (hvariant : variant < 4) (hty : ty < 16) :
    fD (encQ op d a b c variant ty) = Fin.ofNat 32 d := by
  apply Fin.ext; simp only [fD, encQ_toNat op d a b c variant ty hop hd ha hb hc hvariant hty, Fin.ofNat]; omega

theorem fA_encQ (op d a b c variant ty : Nat) (hop : op < 64) (hd : d < 32) (ha : a < 32) (hb : b < 32) (hc : c < 32) (hvariant : variant < 4) (hty : ty < 16) :
    fA (encQ op d a b c variant ty) = Fin.ofNat 32 a := by
  apply Fin.ext; simp only [fA, encQ_toNat op d a b c variant ty hop hd ha hb hc hvariant hty, Fin.ofNat]; omega

theorem fB_encQ (op d a b c variant ty : Nat) (hop : op < 64) (hd : d < 32) (ha : a < 32) (hb : b < 32) (hc : c < 32) (hvariant : variant < 4) (hty : ty < 16) :
    fB (encQ op d a b c variant ty) = Fin.ofNat 32 b := by
  apply Fin.ext; simp only [fB, encQ_toNat op d a b c variant ty hop hd ha hb hc hvariant hty, Fin.ofNat]; omega

theorem fC_encQ (op d a b c variant ty : Nat) (hop : op < 64) (hd : d < 32) (ha : a < 32) (hb : b < 32) (hc : c < 32) (hvariant : variant < 4) (hty : ty < 16) :
    fC (encQ op d a b c variant ty) = Fin.ofNat 32 c := by
  apply Fin.ext; simp only [fC, encQ_toNat op d a b c variant ty hop hd ha hb hc hvariant hty, Fin.ofNat]; omega

theorem fVariant_encQ (op d a b c variant ty : Nat) (hop : op < 64) (hd : d < 32) (ha : a < 32) (hb : b < 32) (hc : c < 32) (hvariant : variant < 4) (hty : ty < 16) :
    fVariant (encQ op d a b c variant ty) = variant := by
  simp only [fVariant, encQ_toNat op d a b c variant ty hop hd ha hb hc hvariant hty]; omega

theorem fTy_encQ (op d a b c variant ty : Nat) (hop : op < 64) (hd : d < 32) (ha : a < 32) (hb : b < 32) (hc : c < 32) (hvariant : variant < 4) (hty : ty < 16) :
    fTy (encQ op d a b c variant ty) = ty := by
  simp only [fTy, encQ_toNat op d a b c variant ty hop hd ha hb hc hvariant hty]; omega

theorem encI_toNat (op d a imm : Nat) (hop : op < 64) (hd : d < 32) (ha : a < 32) (himm : imm < 65536) :
    (encI op d a imm).toNat = op * 2 ^ 26 + d * 2 ^ 21 + a * 2 ^ 16 + imm := by
  simp only [encI, BitVec.toNat_ofNat]; omega

theorem fMajor_encI (op d a imm : Nat) (hop : op < 64) (hd : d < 32) (ha : a < 32) (himm : imm < 65536) :
    fMajor (encI op d a imm) = op := by
  simp only [fMajor, encI_toNat op d a imm hop hd ha himm]; omega

theorem fD_encI (op d a imm : Nat) (hop : op < 64) (hd : d < 32) (ha : a < 32) (himm : imm < 65536) :
    fD (encI op d a imm) = Fin.ofNat 32 d := by
  apply Fin.ext; simp only [fD, encI_toNat op d a imm hop hd ha himm, Fin.ofNat]; omega

theorem fA_encI (op d a imm : Nat) (hop : op < 64) (hd : d < 32) (ha : a < 32) (himm : imm < 65536) :
    fA (encI op d a imm) = Fin.ofNat 32 a := by
  apply Fin.ext; simp only [fA, encI_toNat op d a imm hop hd ha himm, Fin.ofNat]; omega

theorem fImm16_encI (op d a imm : Nat) (hop : op < 64) (hd : d < 32) (ha : a < 32) (himm : imm < 65536) :
    fImm16 (encI op d a imm) = BitVec.ofNat 16 imm := by
  apply BitVec.eq_of_toNat_eq; simp only [fImm16, encI_toNat op d a imm hop hd ha himm, BitVec.toNat_ofNat]; omega

theorem encL_toNat (op d imm : Nat) (hop : op < 64) (hd : d < 32) (himm : imm < 2097152) :
    (encL op d imm).toNat = op * 2 ^ 26 + d * 2 ^ 21 + imm := by
  simp only [encL, BitVec.toNat_ofNat]; omega

theorem fMajor_encL (op d imm : Nat) (hop : op < 64) (hd : d < 32) (himm : imm < 2097152) :
    fMajor (encL op d imm) = op := by
  simp only [fMajor, encL_toNat op d imm hop hd himm]; omega

theorem fD_encL (op d imm : Nat) (hop : op < 64) (hd : d < 32) (himm : imm < 2097152) :
    fD (encL op d imm) = Fin.ofNat 32 d := by
  apply Fin.ext; simp only [fD, encL_toNat op d imm hop hd himm, Fin.ofNat]; omega

theorem fImm21_encL (op d imm : Nat) (hop : op < 64) (hd : d < 32) (himm : imm < 2097152) :
    fImm21 (encL op d imm) = BitVec.ofNat 21 imm := by
  apply BitVec.eq_of_toNat_eq; simp only [fImm21, encL_toNat op d imm hop hd himm, BitVec.toNat_ofNat]; omega

theorem encJ_toNat (op off : Nat) (hop : op < 64) (hoff : off < 67108864) :
    (encJ op off).toNat = op * 2 ^ 26 + off := by
  simp only [encJ, BitVec.toNat_ofNat]; omega

theorem fMajor_encJ (op off : Nat) (hop : op < 64) (hoff : off < 67108864) :
    fMajor (encJ op off) = op := by
  simp only [fMajor, encJ_toNat op off hop hoff]; omega

theorem fOff26_encJ (op off : Nat) (hop : op < 64) (hoff : off < 67108864) :
    fOff26 (encJ op off) = BitVec.ofNat 26 off := by
  apply BitVec.eq_of_toNat_eq; simp only [fOff26, encJ_toNat op off hop hoff, BitVec.toNat_ofNat]; omega

theorem encBsx_toNat (op s off : Nat) (hop : op < 64) (hs : s < 4) (hoff : off < 65536) :
    (encBsx op s off).toNat = op * 2 ^ 26 + s * 2 ^ 24 + off := by
  simp only [encBsx, BitVec.toNat_ofNat]; omega

theorem fMajor_encBsx (op s off : Nat) (hop : op < 64) (hs : s < 4) (hoff : off < 65536) :
    fMajor (encBsx op s off) = op := by
  simp only [fMajor, encBsx_toNat op s off hop hs hoff]; omega

theorem fBsxStream_encBsx (op s off : Nat) (hop : op < 64) (hs : s < 4) (hoff : off < 65536) :
    fBsxStream (encBsx op s off) = Fin.ofNat 4 s := by
  apply Fin.ext; simp only [fBsxStream, encBsx_toNat op s off hop hs hoff, Fin.ofNat]; omega

theorem fImm16_encBsx (op s off : Nat) (hop : op < 64) (hs : s < 4) (hoff : off < 65536) :
    fImm16 (encBsx op s off) = BitVec.ofNat 16 off := by
  apply BitVec.eq_of_toNat_eq; simp only [fImm16, encBsx_toNat op s off hop hs hoff, BitVec.toNat_ofNat]; omega

theorem bsxZero_encBsx (op s off : Nat) (hop : op < 64) (hs : s < 4) (hoff : off < 65536) :
    bsxZero (encBsx op s off) = true := by
  simp only [bsxZero, encBsx_toNat op s off hop hs hoff, decide_eq_true_eq]; omega

theorem encM_toNat (op d a ty off : Nat) (hop : op < 64) (hd : d < 32) (ha : a < 32) (hty : ty < 16) (hoff : off < 4096) :
    (encM op d a ty off).toNat = op * 2 ^ 26 + d * 2 ^ 21 + a * 2 ^ 16 + ty * 2 ^ 12 + off := by
  simp only [encM, BitVec.toNat_ofNat]; omega

theorem fMajor_encM (op d a ty off : Nat) (hop : op < 64) (hd : d < 32) (ha : a < 32) (hty : ty < 16) (hoff : off < 4096) :
    fMajor (encM op d a ty off) = op := by
  simp only [fMajor, encM_toNat op d a ty off hop hd ha hty hoff]; omega

theorem fD_encM (op d a ty off : Nat) (hop : op < 64) (hd : d < 32) (ha : a < 32) (hty : ty < 16) (hoff : off < 4096) :
    fD (encM op d a ty off) = Fin.ofNat 32 d := by
  apply Fin.ext; simp only [fD, encM_toNat op d a ty off hop hd ha hty hoff, Fin.ofNat]; omega

theorem fA_encM (op d a ty off : Nat) (hop : op < 64) (hd : d < 32) (ha : a < 32) (hty : ty < 16) (hoff : off < 4096) :
    fA (encM op d a ty off) = Fin.ofNat 32 a := by
  apply Fin.ext; simp only [fA, encM_toNat op d a ty off hop hd ha hty hoff, Fin.ofNat]; omega

theorem fMemTy_encM (op d a ty off : Nat) (hop : op < 64) (hd : d < 32) (ha : a < 32) (hty : ty < 16) (hoff : off < 4096) :
    fMemTy (encM op d a ty off) = ty := by
  simp only [fMemTy, encM_toNat op d a ty off hop hd ha hty hoff]; omega

theorem fOff12_encM (op d a ty off : Nat) (hop : op < 64) (hd : d < 32) (ha : a < 32) (hty : ty < 16) (hoff : off < 4096) :
    fOff12 (encM op d a ty off) = BitVec.ofNat 12 off := by
  apply BitVec.eq_of_toNat_eq; simp only [fOff12, encM_toNat op d a ty off hop hd ha hty hoff, BitVec.toNat_ofNat]; omega

theorem encK_toNat (op d h fn k : Nat) (hop : op < 64) (hd : d < 32) (hh : h < 8) (hfn : fn < 8) (hk : k < 32768) :
    (encK op d h fn k).toNat = op * 2 ^ 26 + d * 2 ^ 21 + h * 2 ^ 18 + fn * 2 ^ 15 + k := by
  simp only [encK, BitVec.toNat_ofNat]; omega

theorem fMajor_encK (op d h fn k : Nat) (hop : op < 64) (hd : d < 32) (hh : h < 8) (hfn : fn < 8) (hk : k < 32768) :
    fMajor (encK op d h fn k) = op := by
  simp only [fMajor, encK_toNat op d h fn k hop hd hh hfn hk]; omega

theorem fD_encK (op d h fn k : Nat) (hop : op < 64) (hd : d < 32) (hh : h < 8) (hfn : fn < 8) (hk : k < 32768) :
    fD (encK op d h fn k) = Fin.ofNat 32 d := by
  apply Fin.ext; simp only [fD, encK_toNat op d h fn k hop hd hh hfn hk, Fin.ofNat]; omega

theorem fH_encK (op d h fn k : Nat) (hop : op < 64) (hd : d < 32) (hh : h < 8) (hfn : fn < 8) (hk : k < 32768) :
    fH (encK op d h fn k) = Fin.ofNat 8 h := by
  apply Fin.ext; simp only [fH, encK_toNat op d h fn k hop hd hh hfn hk, Fin.ofNat]; omega

theorem fFn_encK (op d h fn k : Nat) (hop : op < 64) (hd : d < 32) (hh : h < 8) (hfn : fn < 8) (hk : k < 32768) :
    fFn (encK op d h fn k) = fn := by
  simp only [fFn, encK_toNat op d h fn k hop hd hh hfn hk]; omega

theorem fK_encK (op d h fn k : Nat) (hop : op < 64) (hd : d < 32) (hh : h < 8) (hfn : fn < 8) (hk : k < 32768) :
    fK (encK op d h fn k) = BitVec.ofNat 15 k := by
  apply BitVec.eq_of_toNat_eq; simp only [fK, encK_toNat op d h fn k hop hd hh hfn hk, BitVec.toNat_ofNat]; omega

theorem encH_toNat (op d c a b fl : Nat) (hop : op < 64) (hd : d < 32) (hc : c < 64) (ha : a < 64) (hb : b < 64) (hfl : fl < 8) :
    (encH op d c a b fl).toNat = op * 2 ^ 26 + d * 2 ^ 21 + c * 2 ^ 15 + a * 2 ^ 9 + b * 2 ^ 3 + fl := by
  simp only [encH, BitVec.toNat_ofNat]; omega

theorem fMajor_encH (op d c a b fl : Nat) (hop : op < 64) (hd : d < 32) (hc : c < 64) (ha : a < 64) (hb : b < 64) (hfl : fl < 8) :
    fMajor (encH op d c a b fl) = op := by
  simp only [fMajor, encH_toNat op d c a b fl hop hd hc ha hb hfl]; omega

theorem fD_encH (op d c a b fl : Nat) (hop : op < 64) (hd : d < 32) (hc : c < 64) (ha : a < 64) (hb : b < 64) (hfl : fl < 8) :
    fD (encH op d c a b fl) = Fin.ofNat 32 d := by
  apply Fin.ext; simp only [fD, encH_toNat op d c a b fl hop hd hc ha hb hfl, Fin.ofNat]; omega

theorem fTc_encH (op d c a b fl : Nat) (hop : op < 64) (hd : d < 32) (hc : c < 64) (ha : a < 64) (hb : b < 64) (hfl : fl < 8) :
    fTc (encH op d c a b fl) = Fin.ofNat 64 c := by
  apply Fin.ext; simp only [fTc, encH_toNat op d c a b fl hop hd hc ha hb hfl, Fin.ofNat]; omega

theorem fTa_encH (op d c a b fl : Nat) (hop : op < 64) (hd : d < 32) (hc : c < 64) (ha : a < 64) (hb : b < 64) (hfl : fl < 8) :
    fTa (encH op d c a b fl) = Fin.ofNat 64 a := by
  apply Fin.ext; simp only [fTa, encH_toNat op d c a b fl hop hd hc ha hb hfl, Fin.ofNat]; omega

theorem fTb_encH (op d c a b fl : Nat) (hop : op < 64) (hd : d < 32) (hc : c < 64) (ha : a < 64) (hb : b < 64) (hfl : fl < 8) :
    fTb (encH op d c a b fl) = Fin.ofNat 64 b := by
  apply Fin.ext; simp only [fTb, encH_toNat op d c a b fl hop hd hc ha hb hfl, Fin.ofNat]; omega

theorem fFl_encH (op d c a b fl : Nat) (hop : op < 64) (hd : d < 32) (hc : c < 64) (ha : a < 64) (hb : b < 64) (hfl : fl < 8) :
    fFl (encH op d c a b fl) = BitVec.ofNat 3 fl := by
  apply BitVec.eq_of_toNat_eq; simp only [fFl, encH_toNat op d c a b fl hop hd hc ha hb hfl, BitVec.toNat_ofNat]; omega

theorem encY_toNat (kind payload : Nat) (hkind : kind < 16) (hpayload : payload < 4194304) :
    (encY kind payload).toNat = 63 * 2 ^ 26 + kind * 2 ^ 22 + payload := by
  simp only [encY, BitVec.toNat_ofNat]; omega

theorem fMajor_encY (kind payload : Nat) (hkind : kind < 16) (hpayload : payload < 4194304) :
    fMajor (encY kind payload) = 63 := by
  simp only [fMajor, encY_toNat kind payload hkind hpayload]; omega

theorem fKind_encY (kind payload : Nat) (hkind : kind < 16) (hpayload : payload < 4194304) :
    fKind (encY kind payload) = kind := by
  simp only [fKind, encY_toNat kind payload hkind hpayload]; omega

theorem fPayload_encY (kind payload : Nat) (hkind : kind < 16) (hpayload : payload < 4194304) :
    fPayload (encY kind payload) = BitVec.ofNat 22 payload := by
  apply BitVec.eq_of_toNat_eq; simp only [fPayload, encY_toNat kind payload hkind hpayload, BitVec.toNat_ofNat]; omega

/-! ### Codes and operand checks -/

theorem Ty.code_lt (t : Ty) : t.code < 16 := by cases t <;> decide

theorem Tier.code_lt (t : Tier) : t.code < 7 := by cases t <;> decide

theorem Path.code_lt (t : Path) : t.code < 7 := by cases t <;> decide

theorem FenceKind.code_lt (t : FenceKind) : t.code < 4 := by cases t <;> decide

theorem Ty.ofCode_code (t : Ty) : Ty.ofCode t.code = some t := by cases t <;> rfl

theorem typeIn_code (col : Ty → Bool) (t : Ty) (h : col t = true) : typeIn col t.code = .ok t := by
  simp [typeIn, Ty.ofCode_code, h]

theorem typeIn_all (t : Ty) : typeIn Ty.colAll t.code = .ok t := typeIn_code _ t rfl

theorem tierOf_code (t : Tier) : tierOf t.code = .ok t := by cases t <;> rfl

theorem pathOf_code (t : Path) : pathOf t.code = .ok t := by cases t <;> rfl

theorem fenceKindOf_code (t : FenceKind) : fenceKindOf t.code = .ok t := by cases t <;> rfl

theorem predicate_ok (r : Reg) (h : isPred r = true) : predicate r = .ok r := by simp [predicate, h]

theorem stream_ok (r : Reg) (h : isStream r = true) : stream r = .ok r := by simp [stream, h]

theorem pair_ok (r : Reg) (h : isPair r = true) : pair r = .ok r := by simp [pair, h]

theorem need_ok (b : Bool) (h : b = true) : need b = .ok () := by simp [need, h]

theorem ok_bind {α β : Type} (a : α) (f : α → Except Reject β) : (Except.ok a >>= f) = f a := rfl

theorem ofNat_val {n : Nat} [NeZero n] (r : Fin n) : Fin.ofNat n r.val = r := by simp

theorem fin_ofNat_val {m : Nat} [NeZero m] (n : Nat) (h : n < m) : (Fin.ofNat m n).val = n := by
  simp [Nat.mod_eq_of_lt h]

theorem slotNumber_split (t : Fin 64) : slotNumber (t.val / 32) (Fin.ofNat 32 (t.val % 32)) = .ok t := by
  have h : t.val / 32 < 2 := by omega
  have e : t.val / 32 * 32 + t.val % 32 = t.val := by omega
  simp [slotNumber, h, e]

theorem code_split (n : BitVec 15) :
    BitVec.ofNat 15 (n.toNat / 1024 * 1024 + n.toNat / 32 % 32 * 32 + n.toNat % 32) = n := by
  apply BitVec.eq_of_toNat_eq; rw [BitVec.toNat_ofNat]; omega

theorem sysReg_split (n : BitVec 12) :
    BitVec.ofNat 12 (n.toNat / 1024 % 4 * 1024 + n.toNat / 32 % 32 * 32 + n.toNat % 32) = n := by
  apply BitVec.eq_of_toNat_eq; rw [BitVec.toNat_ofNat]; omega

/-! ### The decoder at each major opcode -/

theorem decode_0 (w : Word) (h : fMajor w = 0) : decode w = decodeInt w := by
  unfold decode; rw [h]; rfl

theorem decode_1 (w : Word) (h : fMajor w = 1) : decode w = .ok (.addi (fD w) (fA w) (fImm16 w)) := by
  unfold decode; rw [h]; rfl

theorem decode_2 (w : Word) (h : fMajor w = 2) : decode w = .ok (.andi (fD w) (fA w) (fImm16 w)) := by
  unfold decode; rw [h]; rfl

theorem decode_3 (w : Word) (h : fMajor w = 3) : decode w = .ok (.ori (fD w) (fA w) (fImm16 w)) := by
  unfold decode; rw [h]; rfl

theorem decode_4 (w : Word) (h : fMajor w = 4) : decode w = .ok (.xori (fD w) (fA w) (fImm16 w)) := by
  unfold decode; rw [h]; rfl

theorem decode_5 (w : Word) (h : fMajor w = 5) : decode w = decodeShift w := by
  unfold decode; rw [h]; rfl

theorem decode_6 (w : Word) (h : fMajor w = 6) : decode w = .ok (.slti (fD w) (fA w) (fImm16 w)) := by
  unfold decode; rw [h]; rfl

theorem decode_7 (w : Word) (h : fMajor w = 7) : decode w = .ok (.sltni (fD w) (fA w) (fImm16 w)) := by
  unfold decode; rw [h]; rfl

theorem decode_8 (w : Word) (h : fMajor w = 8) : decode w = .ok (.lui (fD w) (fImm21 w)) := by
  unfold decode; rw [h]; rfl

theorem decode_9 (w : Word) (h : fMajor w = 9) : decode w = decodeAddr w := by
  unfold decode; rw [h]; rfl

theorem decode_10 (w : Word) (h : fMajor w = 10) : decode w = .ok (.beq (fD w) (fA w) (fImm16 w)) := by
  unfold decode; rw [h]; rfl

theorem decode_11 (w : Word) (h : fMajor w = 11) : decode w = .ok (.bne (fD w) (fA w) (fImm16 w)) := by
  unfold decode; rw [h]; rfl

theorem decode_12 (w : Word) (h : fMajor w = 12) : decode w = .ok (.blt (fD w) (fA w) (fImm16 w)) := by
  unfold decode; rw [h]; rfl

theorem decode_13 (w : Word) (h : fMajor w = 13) : decode w = .ok (.bge (fD w) (fA w) (fImm16 w)) := by
  unfold decode; rw [h]; rfl

theorem decode_14 (w : Word) (h : fMajor w = 14) : decode w = .ok (.bltn (fD w) (fA w) (fImm16 w)) := by
  unfold decode; rw [h]; rfl

theorem decode_15 (w : Word) (h : fMajor w = 15) : decode w = .ok (.bgen (fD w) (fA w) (fImm16 w)) := by
  unfold decode; rw [h]; rfl

theorem decode_16 (w : Word) (h : fMajor w = 16) : decode w = .ok (.j (fOff26 w)) := by
  unfold decode; rw [h]; rfl

theorem decode_17 (w : Word) (h : fMajor w = 17) : decode w = .ok (.jal (fOff26 w)) := by
  unfold decode; rw [h]; rfl

theorem decode_18 (w : Word) (h : fMajor w = 18) : decode w = decodeJr w := by
  unfold decode; rw [h]; rfl

theorem decode_19 (w : Word) (h : fMajor w = 19) : decode w = (do
      need (decide (fImm16 w ≠ 0))
      need (decide (fD w = 0))
      return .loop (fA w) (fImm16 w)) := by
  unfold decode; rw [h]; rfl

theorem decode_20 (w : Word) (h : fMajor w = 20) : decode w = (do
      need (bsxZero w)
      return .bsx (fBsxStream w) (fImm16 w)) := by
  unfold decode; rw [h]; rfl

theorem decode_22 (w : Word) (h : fMajor w = 22) : decode w = (do
      let ty ← typeIn Ty.colI (fMemTy w)
      return .ld ty (fD w) (fA w) (fOff12 w)) := by
  unfold decode; rw [h]; rfl

theorem decode_23 (w : Word) (h : fMajor w = 23) : decode w = (do
      let ty ← typeIn Ty.colI (fMemTy w)
      return .st ty (fD w) (fA w) (fOff12 w)) := by
  unfold decode; rw [h]; rfl

theorem decode_24 (w : Word) (h : fMajor w = 24) : decode w = (do
      let ty ← typeIn Ty.colAll (fMemTy w)
      return .vld ty (fD w) (fA w) (fOff12 w)) := by
  unfold decode; rw [h]; rfl

theorem decode_25 (w : Word) (h : fMajor w = 25) : decode w = (do
      let ty ← typeIn Ty.colAll (fMemTy w)
      return .vst ty (fD w) (fA w) (fOff12 w)) := by
  unfold decode; rw [h]; rfl

theorem decode_26 (w : Word) (h : fMajor w = 26) : decode w = decodeMemx w := by
  unfold decode; rw [h]; rfl

theorem decode_27 (w : Word) (h : fMajor w = 27) : decode w = decodeFe w := by
  unfold decode; rw [h]; rfl

theorem decode_28 (w : Word) (h : fMajor w = 28) : decode w = decodeRing w := by
  unfold decode; rw [h]; rfl

theorem decode_29 (w : Word) (h : fMajor w = 29) : decode w = decodeMapf w := by
  unfold decode; rw [h]; rfl

theorem decode_30 (w : Word) (h : fMajor w = 30) : decode w = decodeCopyf w := by
  unfold decode; rw [h]; rfl

theorem decode_31 (w : Word) (h : fMajor w = 31) : decode w = decodeAtom w := by
  unfold decode; rw [h]; rfl

theorem decode_32 (w : Word) (h : fMajor w = 32) : decode w = decodeOrdr w := by
  unfold decode; rw [h]; rfl

theorem decode_33 (w : Word) (h : fMajor w = 33) : decode w = decodeBar w := by
  unfold decode; rw [h]; rfl

theorem decode_34 (w : Word) (h : fMajor w = 34) : decode w = decodeVarith w := by
  unfold decode; rw [h]; rfl

theorem decode_36 (w : Word) (h : fMajor w = 36) : decode w = decodeVfma w := by
  unfold decode; rw [h]; rfl

theorem decode_37 (w : Word) (h : fMajor w = 37) : decode w = decodeVconv w := by
  unfold decode; rw [h]; rfl

theorem decode_38 (w : Word) (h : fMajor w = 38) : decode w = decodeVprm w := by
  unfold decode; rw [h]; rfl

theorem decode_39 (w : Word) (h : fMajor w = 39) : decode w = decodeVrdc w := by
  unfold decode; rw [h]; rfl

theorem decode_40 (w : Word) (h : fMajor w = 40) : decode w = decodePred w := by
  unfold decode; rw [h]; rfl

theorem decode_41 (w : Word) (h : fMajor w = 41) : decode w = decodeStrm w := by
  unfold decode; rw [h]; rfl

theorem decode_42 (w : Word) (h : fMajor w = 42) : decode w = decodeTslt w := by
  unfold decode; rw [h]; rfl

theorem decode_43 (w : Word) (h : fMajor w = 43) : decode w = .ok (.hmm (fD w) (fTc w) (fTa w) (fTb w) (fFl w)) := by
  unfold decode; rw [h]; rfl

theorem decode_44 (w : Word) (h : fMajor w = 44) : decode w = .ok (.hadd (fD w) (fTc w) (fTa w) (fTb w) (fFl w)) := by
  unfold decode; rw [h]; rfl

theorem decode_45 (w : Word) (h : fMajor w = 45) : decode w = (do
      need (decide ((fFl w).toNat < 4))
      return .hmv (fD w) (fTc w) (fTa w) (fTb w) ((fFl w).setWidth 2)) := by
  unfold decode; rw [h]; rfl

theorem decode_46 (w : Word) (h : fMajor w = 46) : decode w = (do
      let fmt ← typeIn Ty.colAll (fTb w).val
      need (decide ((fFl w).toNat % 4 = 0))
      return .hcvt (fD w) (fTc w) (fTa w) fmt ((fFl w).getLsbD 2)) := by
  unfold decode; rw [h]; rfl

theorem decode_47 (w : Word) (h : fMajor w = 47) : decode w = decodeHctl w := by
  unfold decode; rw [h]; rfl

theorem decode_48 (w : Word) (h : fMajor w = 48) : decode w = decodeTask w := by
  unfold decode; rw [h]; rfl

theorem decode_49 (w : Word) (h : fMajor w = 49) : decode w = decodeSeal w := by
  unfold decode; rw [h]; rfl

theorem decode_50 (w : Word) (h : fMajor w = 50) : decode w = decodeSys w := by
  unfold decode; rw [h]; rfl

theorem decode_51 (w : Word) (h : fMajor w = 51) : decode w = decodeXlat w := by
  unfold decode; rw [h]; rfl

theorem decode_52 (w : Word) (h : fMajor w = 52) : decode w = decodeMaint w := by
  unfold decode; rw [h]; rfl

theorem decode_63 (w : Word) (h : fMajor w = 63) : decode w = decodeHint w := by
  unfold decode; rw [h]; rfl

end Sys2Proof
end

