-- ==== Sys2Proof/Laws/Table.lean ====
section
/-! SUPPORT. Sparse tables and memory: a read after a write, and the canonical form that every write keeps. -/

namespace Sys2Proof

variable {α : Type}

@[simp] theorem tfind_tput_same (t : Table α) (k : Nat) (a : α) : tfind (tput t k a) k = some a := by
  induction t with
  | nil => simp [tput, tfind]
  | cons e t ih =>
    obtain ⟨j, b⟩ := e
    simp only [tput]
    split
    · simp [tfind]
    · split
      · simp [tfind]
      · rename_i h
        simp [tfind, h, ih]

theorem tfind_tput_other (t : Table α) (k j : Nat) (a : α) (h : j ≠ k) : tfind (tput t k a) j = tfind t j := by
  induction t with
  | nil => simp [tput, tfind, Ne.symm h]
  | cons e t ih =>
    obtain ⟨i, b⟩ := e
    simp only [tput]
    split
    · simp [tfind, Ne.symm h]
    · split
      · rename_i h1
        subst h1
        simp [tfind, Ne.symm h]
      · simp only [tfind, ih]

@[simp] theorem tput_tput (t : Table α) (k : Nat) (a b : α) : tput (tput t k a) k b = tput t k b := by
  induction t with
  | nil => simp [tput]
  | cons e t ih =>
    obtain ⟨j, c⟩ := e
    simp only [tput]
    by_cases h : k < j
    · simp [h, tput]
    · by_cases h1 : j = k
      · simp [h1, tput]
      · simp [h, h1, tput, ih]

@[simp] theorem tget_tput_same (d : α) (t : Table α) (k : Nat) (a : α) : tget d (tput t k a) k = a := by
  simp [tget]

theorem tget_tput_other (d : α) (t : Table α) (k j : Nat) (a : α) (h : j ≠ k) :
    tget d (tput t k a) j = tget d t j := by
  simp [tget, tfind_tput_other t k j a h]

/-- A key below the bound of a sorted table is not in it. -/
theorem tfind_below (t : Table α) (b k : Nat) (hs : tsorted b t = true) (hk : k < b) : tfind t k = none := by
  induction t generalizing b with
  | nil => rfl
  | cons e t ih =>
    obtain ⟨j, c⟩ := e
    simp only [tsorted, Bool.and_eq_true, decide_eq_true_eq] at hs
    have hj : j ≠ k := by omega
    simp only [tfind, hj, if_false]
    exact ih (j + 1) hs.2 (by omega)

theorem tfind_tdel_same (t : Table α) (b k : Nat) (hs : tsorted b t = true) : tfind (tdel t k) k = none := by
  induction t generalizing b with
  | nil => rfl
  | cons e t ih =>
    obtain ⟨j, c⟩ := e
    simp only [tsorted, Bool.and_eq_true, decide_eq_true_eq] at hs
    simp only [tdel]
    split
    · rename_i h
      exact tfind_below t (j + 1) k hs.2 (by omega)
    · rename_i h
      simp only [tfind, h, if_false]
      exact ih (j + 1) hs.2

theorem tfind_tdel_other (t : Table α) (k j : Nat) (h : j ≠ k) : tfind (tdel t k) j = tfind t j := by
  induction t with
  | nil => rfl
  | cons e t ih =>
    obtain ⟨i, c⟩ := e
    simp only [tdel]
    split
    · rename_i h1
      have : i ≠ j := by omega
      simp [tfind, this]
    · simp only [tfind, ih]

theorem tsorted_mono (t : Table α) (a b : Nat) (hs : tsorted b t = true) (h : a ≤ b) : tsorted a t = true := by
  cases t with
  | nil => rfl
  | cons e t =>
    obtain ⟨j, c⟩ := e
    simp only [tsorted, Bool.and_eq_true, decide_eq_true_eq] at hs ⊢
    exact ⟨by omega, hs.2⟩

theorem tsorted_tput (t : Table α) (b k : Nat) (a : α) (hs : tsorted b t = true) (h : b ≤ k) :
    tsorted b (tput t k a) = true := by
  induction t generalizing b with
  | nil => simp [tput, tsorted, h]
  | cons e t ih =>
    obtain ⟨j, c⟩ := e
    simp only [tsorted, Bool.and_eq_true, decide_eq_true_eq] at hs
    simp only [tput]
    split
    · rename_i h1
      simp only [tsorted, Bool.and_eq_true, decide_eq_true_eq]
      exact ⟨h, by omega, hs.2⟩
    · split
      · rename_i h1
        simp only [tsorted, Bool.and_eq_true, decide_eq_true_eq]
        exact ⟨h, h1 ▸ hs.2⟩
      · simp only [tsorted, Bool.and_eq_true, decide_eq_true_eq]
        exact ⟨hs.1, ih (j + 1) hs.2 (by omega)⟩

theorem tsorted_tdel (t : Table α) (b k : Nat) (hs : tsorted b t = true) : tsorted b (tdel t k) = true := by
  induction t generalizing b with
  | nil => rfl
  | cons e t ih =>
    obtain ⟨j, c⟩ := e
    simp only [tsorted, Bool.and_eq_true, decide_eq_true_eq] at hs
    simp only [tdel]
    split
    · exact tsorted_mono t b (j + 1) hs.2 (by omega)
    · simp only [tsorted, Bool.and_eq_true, decide_eq_true_eq]
      exact ⟨hs.1, ih (j + 1) hs.2⟩

section
variable [DecidableEq α]

theorem tlean_tput (d : α) (t : Table α) (k : Nat) (a : α) (hl : tlean d t = true) (h : a ≠ d) :
    tlean d (tput t k a) = true := by
  induction t with
  | nil => simp [tput, tlean, h]
  | cons e t ih =>
    obtain ⟨j, c⟩ := e
    simp only [tlean, Bool.and_eq_true, decide_eq_true_eq] at hl
    simp only [tput]
    split
    · simp [tlean, h, hl]
    · split
      · simp [tlean, h, hl.2]
      · simp [tlean, hl.1, ih hl.2]

theorem tlean_tdel (d : α) (t : Table α) (k : Nat) (hl : tlean d t = true) : tlean d (tdel t k) = true := by
  induction t with
  | nil => rfl
  | cons e t ih =>
    obtain ⟨j, c⟩ := e
    simp only [tlean, Bool.and_eq_true, decide_eq_true_eq] at hl
    simp only [tdel]
    split
    · exact hl.2
    · simp [tlean, hl.1, ih hl.2]

end

namespace Machine

/-- A read after a write of the same byte. -/
theorem memByte_memPut_same (m : List Host.Cell) (a : Nat) (b : Byte) (hm : Memory.wf m = true) :
    memByte (memPut m a b) a = b := by
  simp only [Memory.wf, Bool.and_eq_true] at hm
  simp only [memByte, memPut, tset, tget]
  split
  · rename_i h
    rw [tfind_tdel_same m 0 a hm.1]
    exact h.symm
  · simp

/-- A write leaves every other byte alone. -/
theorem memByte_memPut_other (m : List Host.Cell) (a c : Nat) (b : Byte) (h : c ≠ a) :
    memByte (memPut m a b) c = memByte m c := by
  simp only [memByte, memPut, tset, tget]
  split
  · rw [tfind_tdel_other m a c h]
  · rw [tfind_tput_other m a c b h]

/-- A write keeps the canonical form. -/
theorem memPut_wf (m : List Host.Cell) (a : Nat) (b : Byte) (hm : Memory.wf m = true) :
    Memory.wf (memPut m a b) = true := by
  simp only [Memory.wf, Bool.and_eq_true] at hm ⊢
  simp only [memPut, tset]
  split
  · exact ⟨tsorted_tdel m 0 a hm.1, tlean_tdel 0 m a hm.2⟩
  · rename_i h
    exact ⟨tsorted_tput m 0 a b hm.1 (Nat.zero_le a), tlean_tput 0 m a b hm.2 h⟩

/-- Writing bytes keeps the canonical form. -/
theorem memWrite_wf (bs : List Byte) (m : List Host.Cell) (a : Nat) (hm : Memory.wf m = true) :
    Memory.wf (memWrite m a bs) = true := by
  induction bs generalizing m a with
  | nil => exact hm
  | cons b bs ih => exact ih (memPut m a b) (a + 1) (memPut_wf m a b hm)

/-- Writing bytes leaves every byte outside them alone. -/
theorem memByte_memWrite_outside (bs : List Byte) (m : List Host.Cell) (a c : Nat)
    (h : c < a ∨ a + bs.length ≤ c) : memByte (memWrite m a bs) c = memByte m c := by
  induction bs generalizing m a with
  | nil => rfl
  | cons b bs ih =>
    simp only [List.length_cons] at h
    rw [memWrite, ih (memPut m a b) (a + 1) (by omega), memByte_memPut_other m a c b (by omega)]

/-- Bytes written read back. -/
theorem memBytes_memWrite (bs : List Byte) (m : List Host.Cell) (a : Nat) (hm : Memory.wf m = true) :
    memBytes (memWrite m a bs) a bs.length = bs := by
  induction bs generalizing m a with
  | nil => rfl
  | cons b bs ih =>
    have h := ih (memPut m a b) (a + 1) (memPut_wf m a b hm)
    simp only [List.length_cons, memBytes, memWrite, List.cons.injEq]
    refine ⟨?_, h⟩
    rw [memByte_memWrite_outside bs (memPut m a b) (a + 1) a (by omega), memByte_memPut_same m a b hm]

end Machine

end Sys2Proof
end

