-- ==== Sys2Proof/Laws/State.lean ====
section
/-! SUPPORT. The fields of the state under each named update, and the units it leaves alone. -/

namespace Sys2Proof.Machine

open Sys2Proof

/-! ### putCore -/

@[simp] theorem putCore_cur (s : State) (c : Nat) (v : Core) : (putCore s c v).cur = s.cur := rfl
@[simp] theorem putCore_agenda (s : State) (c : Nat) (v : Core) : (putCore s c v).agenda = s.agenda := rfl
@[simp] theorem putCore_tick (s : State) (c : Nat) (v : Core) : (putCore s c v).tick = s.tick := rfl
@[simp] theorem putCore_serial (s : State) (c : Nat) (v : Core) : (putCore s c v).serial = s.serial := rfl
@[simp] theorem putCore_time (s : State) (c : Nat) (v : Core) : (putCore s c v).time = s.time := rfl
@[simp] theorem putCore_rooms (s : State) (c : Nat) (v : Core) : (putCore s c v).rooms = s.rooms := rfl
@[simp] theorem putCore_halls (s : State) (c : Nat) (v : Core) : (putCore s c v).halls = s.halls := rfl
@[simp] theorem putCore_mem (s : State) (c : Nat) (v : Core) : (putCore s c v).mem = s.mem := rfl
@[simp] theorem putCore_poison (s : State) (c : Nat) (v : Core) : (putCore s c v).poison = s.poison := rfl
@[simp] theorem putCore_vault (s : State) (c : Nat) (v : Core) : (putCore s c v).vault = s.vault := rfl
@[simp] theorem putCore_spares (s : State) (c : Nat) (v : Core) : (putCore s c v).spares = s.spares := rfl
@[simp] theorem putCore_repairs (s : State) (c : Nat) (v : Core) : (putCore s c v).repairs = s.repairs := rfl
@[simp] theorem putCore_homeParts (s : State) (c : Nat) (v : Core) : (putCore s c v).homeParts = s.homeParts := rfl
@[simp] theorem putCore_transfers (s : State) (c : Nat) (v : Core) : (putCore s c v).transfers = s.transfers := rfl
@[simp] theorem putCore_vclocks (s : State) (c : Nat) (v : Core) : (putCore s c v).vclocks = s.vclocks := rfl
@[simp] theorem putCore_remotes (s : State) (c : Nat) (v : Core) : (putCore s c v).remotes = s.remotes := rfl
@[simp] theorem putCore_contextTable (s : State) (c : Nat) (v : Core) : (putCore s c v).contextTable = s.contextTable := rfl
@[simp] theorem putCore_contexts (s : State) (c : Nat) (v : Core) : (putCore s c v).contexts = s.contexts := rfl
@[simp] theorem putCore_launches (s : State) (c : Nat) (v : Core) : (putCore s c v).launches = s.launches := rfl
@[simp] theorem putCore_regionTable (s : State) (c : Nat) (v : Core) : (putCore s c v).regionTable = s.regionTable := rfl
@[simp] theorem putCore_indexes (s : State) (c : Nat) (v : Core) : (putCore s c v).indexes = s.indexes := rfl
@[simp] theorem putCore_deferred (s : State) (c : Nat) (v : Core) : (putCore s c v).deferred = s.deferred := rfl
@[simp] theorem putCore_wsigSeen (s : State) (c : Nat) (v : Core) : (putCore s c v).wsigSeen = s.wsigSeen := rfl
@[simp] theorem putCore_hpCtl (s : State) (c : Nat) (v : Core) : (putCore s c v).hpCtl = s.hpCtl := rfl
@[simp] theorem putCore_subRings (s : State) (c : Nat) (v : Core) : (putCore s c v).subRings = s.subRings := rfl
@[simp] theorem putCore_eventRing (s : State) (c : Nat) (v : Core) : (putCore s c v).eventRing = s.eventRing := rfl
@[simp] theorem putCore_hmMsg (s : State) (c : Nat) (v : Core) : (putCore s c v).hmMsg = s.hmMsg := rfl
@[simp] theorem putCore_krBusy (s : State) (c : Nat) (v : Core) : (putCore s c v).krBusy = s.krBusy := rfl
@[simp] theorem putCore_krKey (s : State) (c : Nat) (v : Core) : (putCore s c v).krKey = s.krKey := rfl
@[simp] theorem putCore_grace (s : State) (c : Nat) (v : Core) : (putCore s c v).grace = s.grace := rfl
@[simp] theorem putCore_budget (s : State) (c : Nat) (v : Core) : (putCore s c v).budget = s.budget := rfl
@[simp] theorem putCore_bootStep (s : State) (c : Nat) (v : Core) : (putCore s c v).bootStep = s.bootStep := rfl
@[simp] theorem putCore_bootCode (s : State) (c : Nat) (v : Core) : (putCore s c v).bootCode = s.bootCode := rfl
@[simp] theorem putCore_firmware (s : State) (c : Nat) (v : Core) : (putCore s c v).firmware = s.firmware := rfl
@[simp] theorem putCore_irqs (s : State) (c : Nat) (v : Core) : (putCore s c v).irqs = s.irqs := rfl
@[simp] theorem putCore_blocked (s : State) (c : Nat) (v : Core) : (putCore s c v).blocked = s.blocked := rfl
@[simp] theorem putCore_arbiter (s : State) (c : Nat) (v : Core) : (putCore s c v).arbiter = s.arbiter := rfl
@[simp] theorem putCore_map (s : State) (c : Nat) (v : Core) : (putCore s c v).map = s.map := rfl
@[simp] theorem putCore_changes (s : State) (c : Nat) (v : Core) : (putCore s c v).changes = s.changes := rfl
@[simp] theorem putCore_withdrawn (s : State) (c : Nat) (v : Core) : (putCore s c v).withdrawn = s.withdrawn := rfl
@[simp] theorem putCore_deadlines (s : State) (c : Nat) (v : Core) : (putCore s c v).deadlines = s.deadlines := rfl
@[simp] theorem putCore_summaries (s : State) (c : Nat) (v : Core) : (putCore s c v).summaries = s.summaries := rfl
@[simp] theorem putCore_levels (s : State) (c : Nat) (v : Core) : (putCore s c v).levels = s.levels := rfl
@[simp] theorem putCore_lostLines (s : State) (c : Nat) (v : Core) : (putCore s c v).lostLines = s.lostLines := rfl
@[simp] theorem putCore_indexOwed (s : State) (c : Nat) (v : Core) : (putCore s c v).indexOwed = s.indexOwed := rfl
@[simp] theorem putCore_rates (s : State) (c : Nat) (v : Core) : (putCore s c v).rates = s.rates := rfl
@[simp] theorem putCore_links (s : State) (c : Nat) (v : Core) : (putCore s c v).links = s.links := rfl
@[simp] theorem putCore_unsettled (s : State) (c : Nat) (v : Core) : (putCore s c v).unsettled = s.unsettled := rfl
@[simp] theorem putCore_parts (s : State) (c : Nat) (v : Core) : (putCore s c v).parts = s.parts := rfl
@[simp] theorem putCore_shutter (s : State) (c : Nat) (v : Core) : (putCore s c v).shutter = s.shutter := rfl
@[simp] theorem putCore_house (s : State) (c : Nat) (v : Core) : (putCore s c v).house = s.house := rfl
@[simp] theorem putCore_cycles (s : State) (c : Nat) (v : Core) : (putCore s c v).cycles = s.cycles := rfl
@[simp] theorem putCore_runtime (s : State) (c : Nat) (v : Core) : (putCore s c v).runtime = s.runtime := rfl
@[simp] theorem putCore_estateSent (s : State) (c : Nat) (v : Core) : (putCore s c v).estateSent = s.estateSent := rfl
@[simp] theorem putCore_sealedPages (s : State) (c : Nat) (v : Core) : (putCore s c v).sealedPages = s.sealedPages := rfl

/-! ### onCore -/

@[simp] theorem onCore_cur (s : State) (c : Nat) (f : Core → Core) : (onCore s c f).cur = s.cur := rfl
@[simp] theorem onCore_agenda (s : State) (c : Nat) (f : Core → Core) : (onCore s c f).agenda = s.agenda := rfl
@[simp] theorem onCore_tick (s : State) (c : Nat) (f : Core → Core) : (onCore s c f).tick = s.tick := rfl
@[simp] theorem onCore_serial (s : State) (c : Nat) (f : Core → Core) : (onCore s c f).serial = s.serial := rfl
@[simp] theorem onCore_time (s : State) (c : Nat) (f : Core → Core) : (onCore s c f).time = s.time := rfl
@[simp] theorem onCore_rooms (s : State) (c : Nat) (f : Core → Core) : (onCore s c f).rooms = s.rooms := rfl
@[simp] theorem onCore_halls (s : State) (c : Nat) (f : Core → Core) : (onCore s c f).halls = s.halls := rfl
@[simp] theorem onCore_mem (s : State) (c : Nat) (f : Core → Core) : (onCore s c f).mem = s.mem := rfl
@[simp] theorem onCore_poison (s : State) (c : Nat) (f : Core → Core) : (onCore s c f).poison = s.poison := rfl
@[simp] theorem onCore_vault (s : State) (c : Nat) (f : Core → Core) : (onCore s c f).vault = s.vault := rfl
@[simp] theorem onCore_spares (s : State) (c : Nat) (f : Core → Core) : (onCore s c f).spares = s.spares := rfl
@[simp] theorem onCore_repairs (s : State) (c : Nat) (f : Core → Core) : (onCore s c f).repairs = s.repairs := rfl
@[simp] theorem onCore_homeParts (s : State) (c : Nat) (f : Core → Core) : (onCore s c f).homeParts = s.homeParts := rfl
@[simp] theorem onCore_transfers (s : State) (c : Nat) (f : Core → Core) : (onCore s c f).transfers = s.transfers := rfl
@[simp] theorem onCore_vclocks (s : State) (c : Nat) (f : Core → Core) : (onCore s c f).vclocks = s.vclocks := rfl
@[simp] theorem onCore_remotes (s : State) (c : Nat) (f : Core → Core) : (onCore s c f).remotes = s.remotes := rfl
@[simp] theorem onCore_contextTable (s : State) (c : Nat) (f : Core → Core) : (onCore s c f).contextTable = s.contextTable := rfl
@[simp] theorem onCore_contexts (s : State) (c : Nat) (f : Core → Core) : (onCore s c f).contexts = s.contexts := rfl
@[simp] theorem onCore_launches (s : State) (c : Nat) (f : Core → Core) : (onCore s c f).launches = s.launches := rfl
@[simp] theorem onCore_regionTable (s : State) (c : Nat) (f : Core → Core) : (onCore s c f).regionTable = s.regionTable := rfl
@[simp] theorem onCore_indexes (s : State) (c : Nat) (f : Core → Core) : (onCore s c f).indexes = s.indexes := rfl
@[simp] theorem onCore_deferred (s : State) (c : Nat) (f : Core → Core) : (onCore s c f).deferred = s.deferred := rfl
@[simp] theorem onCore_wsigSeen (s : State) (c : Nat) (f : Core → Core) : (onCore s c f).wsigSeen = s.wsigSeen := rfl
@[simp] theorem onCore_hpCtl (s : State) (c : Nat) (f : Core → Core) : (onCore s c f).hpCtl = s.hpCtl := rfl
@[simp] theorem onCore_subRings (s : State) (c : Nat) (f : Core → Core) : (onCore s c f).subRings = s.subRings := rfl
@[simp] theorem onCore_eventRing (s : State) (c : Nat) (f : Core → Core) : (onCore s c f).eventRing = s.eventRing := rfl
@[simp] theorem onCore_hmMsg (s : State) (c : Nat) (f : Core → Core) : (onCore s c f).hmMsg = s.hmMsg := rfl
@[simp] theorem onCore_krBusy (s : State) (c : Nat) (f : Core → Core) : (onCore s c f).krBusy = s.krBusy := rfl
@[simp] theorem onCore_krKey (s : State) (c : Nat) (f : Core → Core) : (onCore s c f).krKey = s.krKey := rfl
@[simp] theorem onCore_grace (s : State) (c : Nat) (f : Core → Core) : (onCore s c f).grace = s.grace := rfl
@[simp] theorem onCore_budget (s : State) (c : Nat) (f : Core → Core) : (onCore s c f).budget = s.budget := rfl
@[simp] theorem onCore_bootStep (s : State) (c : Nat) (f : Core → Core) : (onCore s c f).bootStep = s.bootStep := rfl
@[simp] theorem onCore_bootCode (s : State) (c : Nat) (f : Core → Core) : (onCore s c f).bootCode = s.bootCode := rfl
@[simp] theorem onCore_firmware (s : State) (c : Nat) (f : Core → Core) : (onCore s c f).firmware = s.firmware := rfl
@[simp] theorem onCore_irqs (s : State) (c : Nat) (f : Core → Core) : (onCore s c f).irqs = s.irqs := rfl
@[simp] theorem onCore_blocked (s : State) (c : Nat) (f : Core → Core) : (onCore s c f).blocked = s.blocked := rfl
@[simp] theorem onCore_arbiter (s : State) (c : Nat) (f : Core → Core) : (onCore s c f).arbiter = s.arbiter := rfl
@[simp] theorem onCore_map (s : State) (c : Nat) (f : Core → Core) : (onCore s c f).map = s.map := rfl
@[simp] theorem onCore_changes (s : State) (c : Nat) (f : Core → Core) : (onCore s c f).changes = s.changes := rfl
@[simp] theorem onCore_withdrawn (s : State) (c : Nat) (f : Core → Core) : (onCore s c f).withdrawn = s.withdrawn := rfl
@[simp] theorem onCore_deadlines (s : State) (c : Nat) (f : Core → Core) : (onCore s c f).deadlines = s.deadlines := rfl
@[simp] theorem onCore_summaries (s : State) (c : Nat) (f : Core → Core) : (onCore s c f).summaries = s.summaries := rfl
@[simp] theorem onCore_levels (s : State) (c : Nat) (f : Core → Core) : (onCore s c f).levels = s.levels := rfl
@[simp] theorem onCore_lostLines (s : State) (c : Nat) (f : Core → Core) : (onCore s c f).lostLines = s.lostLines := rfl
@[simp] theorem onCore_indexOwed (s : State) (c : Nat) (f : Core → Core) : (onCore s c f).indexOwed = s.indexOwed := rfl
@[simp] theorem onCore_rates (s : State) (c : Nat) (f : Core → Core) : (onCore s c f).rates = s.rates := rfl
@[simp] theorem onCore_links (s : State) (c : Nat) (f : Core → Core) : (onCore s c f).links = s.links := rfl
@[simp] theorem onCore_unsettled (s : State) (c : Nat) (f : Core → Core) : (onCore s c f).unsettled = s.unsettled := rfl
@[simp] theorem onCore_parts (s : State) (c : Nat) (f : Core → Core) : (onCore s c f).parts = s.parts := rfl
@[simp] theorem onCore_shutter (s : State) (c : Nat) (f : Core → Core) : (onCore s c f).shutter = s.shutter := rfl
@[simp] theorem onCore_house (s : State) (c : Nat) (f : Core → Core) : (onCore s c f).house = s.house := rfl
@[simp] theorem onCore_cycles (s : State) (c : Nat) (f : Core → Core) : (onCore s c f).cycles = s.cycles := rfl
@[simp] theorem onCore_runtime (s : State) (c : Nat) (f : Core → Core) : (onCore s c f).runtime = s.runtime := rfl
@[simp] theorem onCore_estateSent (s : State) (c : Nat) (f : Core → Core) : (onCore s c f).estateSent = s.estateSent := rfl
@[simp] theorem onCore_sealedPages (s : State) (c : Nat) (f : Core → Core) : (onCore s c f).sealedPages = s.sealedPages := rfl

/-! ### putSlot -/

@[simp] theorem putSlot_cur (s : State) (c : Nat) (k : Fin 4) (v : Slot) : (putSlot s c k v).cur = s.cur := rfl
@[simp] theorem putSlot_agenda (s : State) (c : Nat) (k : Fin 4) (v : Slot) : (putSlot s c k v).agenda = s.agenda := rfl
@[simp] theorem putSlot_tick (s : State) (c : Nat) (k : Fin 4) (v : Slot) : (putSlot s c k v).tick = s.tick := rfl
@[simp] theorem putSlot_serial (s : State) (c : Nat) (k : Fin 4) (v : Slot) : (putSlot s c k v).serial = s.serial := rfl
@[simp] theorem putSlot_time (s : State) (c : Nat) (k : Fin 4) (v : Slot) : (putSlot s c k v).time = s.time := rfl
@[simp] theorem putSlot_rooms (s : State) (c : Nat) (k : Fin 4) (v : Slot) : (putSlot s c k v).rooms = s.rooms := rfl
@[simp] theorem putSlot_halls (s : State) (c : Nat) (k : Fin 4) (v : Slot) : (putSlot s c k v).halls = s.halls := rfl
@[simp] theorem putSlot_mem (s : State) (c : Nat) (k : Fin 4) (v : Slot) : (putSlot s c k v).mem = s.mem := rfl
@[simp] theorem putSlot_poison (s : State) (c : Nat) (k : Fin 4) (v : Slot) : (putSlot s c k v).poison = s.poison := rfl
@[simp] theorem putSlot_vault (s : State) (c : Nat) (k : Fin 4) (v : Slot) : (putSlot s c k v).vault = s.vault := rfl
@[simp] theorem putSlot_spares (s : State) (c : Nat) (k : Fin 4) (v : Slot) : (putSlot s c k v).spares = s.spares := rfl
@[simp] theorem putSlot_repairs (s : State) (c : Nat) (k : Fin 4) (v : Slot) : (putSlot s c k v).repairs = s.repairs := rfl
@[simp] theorem putSlot_homeParts (s : State) (c : Nat) (k : Fin 4) (v : Slot) : (putSlot s c k v).homeParts = s.homeParts := rfl
@[simp] theorem putSlot_transfers (s : State) (c : Nat) (k : Fin 4) (v : Slot) : (putSlot s c k v).transfers = s.transfers := rfl
@[simp] theorem putSlot_vclocks (s : State) (c : Nat) (k : Fin 4) (v : Slot) : (putSlot s c k v).vclocks = s.vclocks := rfl
@[simp] theorem putSlot_remotes (s : State) (c : Nat) (k : Fin 4) (v : Slot) : (putSlot s c k v).remotes = s.remotes := rfl
@[simp] theorem putSlot_contextTable (s : State) (c : Nat) (k : Fin 4) (v : Slot) : (putSlot s c k v).contextTable = s.contextTable := rfl
@[simp] theorem putSlot_contexts (s : State) (c : Nat) (k : Fin 4) (v : Slot) : (putSlot s c k v).contexts = s.contexts := rfl
@[simp] theorem putSlot_launches (s : State) (c : Nat) (k : Fin 4) (v : Slot) : (putSlot s c k v).launches = s.launches := rfl
@[simp] theorem putSlot_regionTable (s : State) (c : Nat) (k : Fin 4) (v : Slot) : (putSlot s c k v).regionTable = s.regionTable := rfl
@[simp] theorem putSlot_indexes (s : State) (c : Nat) (k : Fin 4) (v : Slot) : (putSlot s c k v).indexes = s.indexes := rfl
@[simp] theorem putSlot_deferred (s : State) (c : Nat) (k : Fin 4) (v : Slot) : (putSlot s c k v).deferred = s.deferred := rfl
@[simp] theorem putSlot_wsigSeen (s : State) (c : Nat) (k : Fin 4) (v : Slot) : (putSlot s c k v).wsigSeen = s.wsigSeen := rfl
@[simp] theorem putSlot_hpCtl (s : State) (c : Nat) (k : Fin 4) (v : Slot) : (putSlot s c k v).hpCtl = s.hpCtl := rfl
@[simp] theorem putSlot_subRings (s : State) (c : Nat) (k : Fin 4) (v : Slot) : (putSlot s c k v).subRings = s.subRings := rfl
@[simp] theorem putSlot_eventRing (s : State) (c : Nat) (k : Fin 4) (v : Slot) : (putSlot s c k v).eventRing = s.eventRing := rfl
@[simp] theorem putSlot_hmMsg (s : State) (c : Nat) (k : Fin 4) (v : Slot) : (putSlot s c k v).hmMsg = s.hmMsg := rfl
@[simp] theorem putSlot_krBusy (s : State) (c : Nat) (k : Fin 4) (v : Slot) : (putSlot s c k v).krBusy = s.krBusy := rfl
@[simp] theorem putSlot_krKey (s : State) (c : Nat) (k : Fin 4) (v : Slot) : (putSlot s c k v).krKey = s.krKey := rfl
@[simp] theorem putSlot_grace (s : State) (c : Nat) (k : Fin 4) (v : Slot) : (putSlot s c k v).grace = s.grace := rfl
@[simp] theorem putSlot_budget (s : State) (c : Nat) (k : Fin 4) (v : Slot) : (putSlot s c k v).budget = s.budget := rfl
@[simp] theorem putSlot_bootStep (s : State) (c : Nat) (k : Fin 4) (v : Slot) : (putSlot s c k v).bootStep = s.bootStep := rfl
@[simp] theorem putSlot_bootCode (s : State) (c : Nat) (k : Fin 4) (v : Slot) : (putSlot s c k v).bootCode = s.bootCode := rfl
@[simp] theorem putSlot_firmware (s : State) (c : Nat) (k : Fin 4) (v : Slot) : (putSlot s c k v).firmware = s.firmware := rfl
@[simp] theorem putSlot_irqs (s : State) (c : Nat) (k : Fin 4) (v : Slot) : (putSlot s c k v).irqs = s.irqs := rfl
@[simp] theorem putSlot_blocked (s : State) (c : Nat) (k : Fin 4) (v : Slot) : (putSlot s c k v).blocked = s.blocked := rfl
@[simp] theorem putSlot_arbiter (s : State) (c : Nat) (k : Fin 4) (v : Slot) : (putSlot s c k v).arbiter = s.arbiter := rfl
@[simp] theorem putSlot_map (s : State) (c : Nat) (k : Fin 4) (v : Slot) : (putSlot s c k v).map = s.map := rfl
@[simp] theorem putSlot_changes (s : State) (c : Nat) (k : Fin 4) (v : Slot) : (putSlot s c k v).changes = s.changes := rfl
@[simp] theorem putSlot_withdrawn (s : State) (c : Nat) (k : Fin 4) (v : Slot) : (putSlot s c k v).withdrawn = s.withdrawn := rfl
@[simp] theorem putSlot_deadlines (s : State) (c : Nat) (k : Fin 4) (v : Slot) : (putSlot s c k v).deadlines = s.deadlines := rfl
@[simp] theorem putSlot_summaries (s : State) (c : Nat) (k : Fin 4) (v : Slot) : (putSlot s c k v).summaries = s.summaries := rfl
@[simp] theorem putSlot_levels (s : State) (c : Nat) (k : Fin 4) (v : Slot) : (putSlot s c k v).levels = s.levels := rfl
@[simp] theorem putSlot_lostLines (s : State) (c : Nat) (k : Fin 4) (v : Slot) : (putSlot s c k v).lostLines = s.lostLines := rfl
@[simp] theorem putSlot_indexOwed (s : State) (c : Nat) (k : Fin 4) (v : Slot) : (putSlot s c k v).indexOwed = s.indexOwed := rfl
@[simp] theorem putSlot_rates (s : State) (c : Nat) (k : Fin 4) (v : Slot) : (putSlot s c k v).rates = s.rates := rfl
@[simp] theorem putSlot_links (s : State) (c : Nat) (k : Fin 4) (v : Slot) : (putSlot s c k v).links = s.links := rfl
@[simp] theorem putSlot_unsettled (s : State) (c : Nat) (k : Fin 4) (v : Slot) : (putSlot s c k v).unsettled = s.unsettled := rfl
@[simp] theorem putSlot_parts (s : State) (c : Nat) (k : Fin 4) (v : Slot) : (putSlot s c k v).parts = s.parts := rfl
@[simp] theorem putSlot_shutter (s : State) (c : Nat) (k : Fin 4) (v : Slot) : (putSlot s c k v).shutter = s.shutter := rfl
@[simp] theorem putSlot_house (s : State) (c : Nat) (k : Fin 4) (v : Slot) : (putSlot s c k v).house = s.house := rfl
@[simp] theorem putSlot_cycles (s : State) (c : Nat) (k : Fin 4) (v : Slot) : (putSlot s c k v).cycles = s.cycles := rfl
@[simp] theorem putSlot_runtime (s : State) (c : Nat) (k : Fin 4) (v : Slot) : (putSlot s c k v).runtime = s.runtime := rfl
@[simp] theorem putSlot_estateSent (s : State) (c : Nat) (k : Fin 4) (v : Slot) : (putSlot s c k v).estateSent = s.estateSent := rfl
@[simp] theorem putSlot_sealedPages (s : State) (c : Nat) (k : Fin 4) (v : Slot) : (putSlot s c k v).sealedPages = s.sealedPages := rfl

/-! ### onSlot -/

@[simp] theorem onSlot_cur (s : State) (c : Nat) (k : Fin 4) (f : Slot → Slot) : (onSlot s c k f).cur = s.cur := rfl
@[simp] theorem onSlot_agenda (s : State) (c : Nat) (k : Fin 4) (f : Slot → Slot) : (onSlot s c k f).agenda = s.agenda := rfl
@[simp] theorem onSlot_tick (s : State) (c : Nat) (k : Fin 4) (f : Slot → Slot) : (onSlot s c k f).tick = s.tick := rfl
@[simp] theorem onSlot_serial (s : State) (c : Nat) (k : Fin 4) (f : Slot → Slot) : (onSlot s c k f).serial = s.serial := rfl
@[simp] theorem onSlot_time (s : State) (c : Nat) (k : Fin 4) (f : Slot → Slot) : (onSlot s c k f).time = s.time := rfl
@[simp] theorem onSlot_rooms (s : State) (c : Nat) (k : Fin 4) (f : Slot → Slot) : (onSlot s c k f).rooms = s.rooms := rfl
@[simp] theorem onSlot_halls (s : State) (c : Nat) (k : Fin 4) (f : Slot → Slot) : (onSlot s c k f).halls = s.halls := rfl
@[simp] theorem onSlot_mem (s : State) (c : Nat) (k : Fin 4) (f : Slot → Slot) : (onSlot s c k f).mem = s.mem := rfl
@[simp] theorem onSlot_poison (s : State) (c : Nat) (k : Fin 4) (f : Slot → Slot) : (onSlot s c k f).poison = s.poison := rfl
@[simp] theorem onSlot_vault (s : State) (c : Nat) (k : Fin 4) (f : Slot → Slot) : (onSlot s c k f).vault = s.vault := rfl
@[simp] theorem onSlot_spares (s : State) (c : Nat) (k : Fin 4) (f : Slot → Slot) : (onSlot s c k f).spares = s.spares := rfl
@[simp] theorem onSlot_repairs (s : State) (c : Nat) (k : Fin 4) (f : Slot → Slot) : (onSlot s c k f).repairs = s.repairs := rfl
@[simp] theorem onSlot_homeParts (s : State) (c : Nat) (k : Fin 4) (f : Slot → Slot) : (onSlot s c k f).homeParts = s.homeParts := rfl
@[simp] theorem onSlot_transfers (s : State) (c : Nat) (k : Fin 4) (f : Slot → Slot) : (onSlot s c k f).transfers = s.transfers := rfl
@[simp] theorem onSlot_vclocks (s : State) (c : Nat) (k : Fin 4) (f : Slot → Slot) : (onSlot s c k f).vclocks = s.vclocks := rfl
@[simp] theorem onSlot_remotes (s : State) (c : Nat) (k : Fin 4) (f : Slot → Slot) : (onSlot s c k f).remotes = s.remotes := rfl
@[simp] theorem onSlot_contextTable (s : State) (c : Nat) (k : Fin 4) (f : Slot → Slot) : (onSlot s c k f).contextTable = s.contextTable := rfl
@[simp] theorem onSlot_contexts (s : State) (c : Nat) (k : Fin 4) (f : Slot → Slot) : (onSlot s c k f).contexts = s.contexts := rfl
@[simp] theorem onSlot_launches (s : State) (c : Nat) (k : Fin 4) (f : Slot → Slot) : (onSlot s c k f).launches = s.launches := rfl
@[simp] theorem onSlot_regionTable (s : State) (c : Nat) (k : Fin 4) (f : Slot → Slot) : (onSlot s c k f).regionTable = s.regionTable := rfl
@[simp] theorem onSlot_indexes (s : State) (c : Nat) (k : Fin 4) (f : Slot → Slot) : (onSlot s c k f).indexes = s.indexes := rfl
@[simp] theorem onSlot_deferred (s : State) (c : Nat) (k : Fin 4) (f : Slot → Slot) : (onSlot s c k f).deferred = s.deferred := rfl
@[simp] theorem onSlot_wsigSeen (s : State) (c : Nat) (k : Fin 4) (f : Slot → Slot) : (onSlot s c k f).wsigSeen = s.wsigSeen := rfl
@[simp] theorem onSlot_hpCtl (s : State) (c : Nat) (k : Fin 4) (f : Slot → Slot) : (onSlot s c k f).hpCtl = s.hpCtl := rfl
@[simp] theorem onSlot_subRings (s : State) (c : Nat) (k : Fin 4) (f : Slot → Slot) : (onSlot s c k f).subRings = s.subRings := rfl
@[simp] theorem onSlot_eventRing (s : State) (c : Nat) (k : Fin 4) (f : Slot → Slot) : (onSlot s c k f).eventRing = s.eventRing := rfl
@[simp] theorem onSlot_hmMsg (s : State) (c : Nat) (k : Fin 4) (f : Slot → Slot) : (onSlot s c k f).hmMsg = s.hmMsg := rfl
@[simp] theorem onSlot_krBusy (s : State) (c : Nat) (k : Fin 4) (f : Slot → Slot) : (onSlot s c k f).krBusy = s.krBusy := rfl
@[simp] theorem onSlot_krKey (s : State) (c : Nat) (k : Fin 4) (f : Slot → Slot) : (onSlot s c k f).krKey = s.krKey := rfl
@[simp] theorem onSlot_grace (s : State) (c : Nat) (k : Fin 4) (f : Slot → Slot) : (onSlot s c k f).grace = s.grace := rfl
@[simp] theorem onSlot_budget (s : State) (c : Nat) (k : Fin 4) (f : Slot → Slot) : (onSlot s c k f).budget = s.budget := rfl
@[simp] theorem onSlot_bootStep (s : State) (c : Nat) (k : Fin 4) (f : Slot → Slot) : (onSlot s c k f).bootStep = s.bootStep := rfl
@[simp] theorem onSlot_bootCode (s : State) (c : Nat) (k : Fin 4) (f : Slot → Slot) : (onSlot s c k f).bootCode = s.bootCode := rfl
@[simp] theorem onSlot_firmware (s : State) (c : Nat) (k : Fin 4) (f : Slot → Slot) : (onSlot s c k f).firmware = s.firmware := rfl
@[simp] theorem onSlot_irqs (s : State) (c : Nat) (k : Fin 4) (f : Slot → Slot) : (onSlot s c k f).irqs = s.irqs := rfl
@[simp] theorem onSlot_blocked (s : State) (c : Nat) (k : Fin 4) (f : Slot → Slot) : (onSlot s c k f).blocked = s.blocked := rfl
@[simp] theorem onSlot_arbiter (s : State) (c : Nat) (k : Fin 4) (f : Slot → Slot) : (onSlot s c k f).arbiter = s.arbiter := rfl
@[simp] theorem onSlot_map (s : State) (c : Nat) (k : Fin 4) (f : Slot → Slot) : (onSlot s c k f).map = s.map := rfl
@[simp] theorem onSlot_changes (s : State) (c : Nat) (k : Fin 4) (f : Slot → Slot) : (onSlot s c k f).changes = s.changes := rfl
@[simp] theorem onSlot_withdrawn (s : State) (c : Nat) (k : Fin 4) (f : Slot → Slot) : (onSlot s c k f).withdrawn = s.withdrawn := rfl
@[simp] theorem onSlot_deadlines (s : State) (c : Nat) (k : Fin 4) (f : Slot → Slot) : (onSlot s c k f).deadlines = s.deadlines := rfl
@[simp] theorem onSlot_summaries (s : State) (c : Nat) (k : Fin 4) (f : Slot → Slot) : (onSlot s c k f).summaries = s.summaries := rfl
@[simp] theorem onSlot_levels (s : State) (c : Nat) (k : Fin 4) (f : Slot → Slot) : (onSlot s c k f).levels = s.levels := rfl
@[simp] theorem onSlot_lostLines (s : State) (c : Nat) (k : Fin 4) (f : Slot → Slot) : (onSlot s c k f).lostLines = s.lostLines := rfl
@[simp] theorem onSlot_indexOwed (s : State) (c : Nat) (k : Fin 4) (f : Slot → Slot) : (onSlot s c k f).indexOwed = s.indexOwed := rfl
@[simp] theorem onSlot_rates (s : State) (c : Nat) (k : Fin 4) (f : Slot → Slot) : (onSlot s c k f).rates = s.rates := rfl
@[simp] theorem onSlot_links (s : State) (c : Nat) (k : Fin 4) (f : Slot → Slot) : (onSlot s c k f).links = s.links := rfl
@[simp] theorem onSlot_unsettled (s : State) (c : Nat) (k : Fin 4) (f : Slot → Slot) : (onSlot s c k f).unsettled = s.unsettled := rfl
@[simp] theorem onSlot_parts (s : State) (c : Nat) (k : Fin 4) (f : Slot → Slot) : (onSlot s c k f).parts = s.parts := rfl
@[simp] theorem onSlot_shutter (s : State) (c : Nat) (k : Fin 4) (f : Slot → Slot) : (onSlot s c k f).shutter = s.shutter := rfl
@[simp] theorem onSlot_house (s : State) (c : Nat) (k : Fin 4) (f : Slot → Slot) : (onSlot s c k f).house = s.house := rfl
@[simp] theorem onSlot_cycles (s : State) (c : Nat) (k : Fin 4) (f : Slot → Slot) : (onSlot s c k f).cycles = s.cycles := rfl
@[simp] theorem onSlot_runtime (s : State) (c : Nat) (k : Fin 4) (f : Slot → Slot) : (onSlot s c k f).runtime = s.runtime := rfl
@[simp] theorem onSlot_estateSent (s : State) (c : Nat) (k : Fin 4) (f : Slot → Slot) : (onSlot s c k f).estateSent = s.estateSent := rfl
@[simp] theorem onSlot_sealedPages (s : State) (c : Nat) (k : Fin 4) (f : Slot → Slot) : (onSlot s c k f).sealedPages = s.sealedPages := rfl

/-! ### onRoom -/

@[simp] theorem onRoom_cur (s : State) (r : Nat) (f : Room → Room) : (onRoom s r f).cur = s.cur := rfl
@[simp] theorem onRoom_agenda (s : State) (r : Nat) (f : Room → Room) : (onRoom s r f).agenda = s.agenda := rfl
@[simp] theorem onRoom_tick (s : State) (r : Nat) (f : Room → Room) : (onRoom s r f).tick = s.tick := rfl
@[simp] theorem onRoom_serial (s : State) (r : Nat) (f : Room → Room) : (onRoom s r f).serial = s.serial := rfl
@[simp] theorem onRoom_time (s : State) (r : Nat) (f : Room → Room) : (onRoom s r f).time = s.time := rfl
@[simp] theorem onRoom_cores (s : State) (r : Nat) (f : Room → Room) : (onRoom s r f).cores = s.cores := rfl
@[simp] theorem onRoom_halls (s : State) (r : Nat) (f : Room → Room) : (onRoom s r f).halls = s.halls := rfl
@[simp] theorem onRoom_mem (s : State) (r : Nat) (f : Room → Room) : (onRoom s r f).mem = s.mem := rfl
@[simp] theorem onRoom_poison (s : State) (r : Nat) (f : Room → Room) : (onRoom s r f).poison = s.poison := rfl
@[simp] theorem onRoom_vault (s : State) (r : Nat) (f : Room → Room) : (onRoom s r f).vault = s.vault := rfl
@[simp] theorem onRoom_spares (s : State) (r : Nat) (f : Room → Room) : (onRoom s r f).spares = s.spares := rfl
@[simp] theorem onRoom_repairs (s : State) (r : Nat) (f : Room → Room) : (onRoom s r f).repairs = s.repairs := rfl
@[simp] theorem onRoom_homeParts (s : State) (r : Nat) (f : Room → Room) : (onRoom s r f).homeParts = s.homeParts := rfl
@[simp] theorem onRoom_transfers (s : State) (r : Nat) (f : Room → Room) : (onRoom s r f).transfers = s.transfers := rfl
@[simp] theorem onRoom_vclocks (s : State) (r : Nat) (f : Room → Room) : (onRoom s r f).vclocks = s.vclocks := rfl
@[simp] theorem onRoom_remotes (s : State) (r : Nat) (f : Room → Room) : (onRoom s r f).remotes = s.remotes := rfl
@[simp] theorem onRoom_contextTable (s : State) (r : Nat) (f : Room → Room) : (onRoom s r f).contextTable = s.contextTable := rfl
@[simp] theorem onRoom_contexts (s : State) (r : Nat) (f : Room → Room) : (onRoom s r f).contexts = s.contexts := rfl
@[simp] theorem onRoom_launches (s : State) (r : Nat) (f : Room → Room) : (onRoom s r f).launches = s.launches := rfl
@[simp] theorem onRoom_regionTable (s : State) (r : Nat) (f : Room → Room) : (onRoom s r f).regionTable = s.regionTable := rfl
@[simp] theorem onRoom_indexes (s : State) (r : Nat) (f : Room → Room) : (onRoom s r f).indexes = s.indexes := rfl
@[simp] theorem onRoom_deferred (s : State) (r : Nat) (f : Room → Room) : (onRoom s r f).deferred = s.deferred := rfl
@[simp] theorem onRoom_wsigSeen (s : State) (r : Nat) (f : Room → Room) : (onRoom s r f).wsigSeen = s.wsigSeen := rfl
@[simp] theorem onRoom_hpCtl (s : State) (r : Nat) (f : Room → Room) : (onRoom s r f).hpCtl = s.hpCtl := rfl
@[simp] theorem onRoom_subRings (s : State) (r : Nat) (f : Room → Room) : (onRoom s r f).subRings = s.subRings := rfl
@[simp] theorem onRoom_eventRing (s : State) (r : Nat) (f : Room → Room) : (onRoom s r f).eventRing = s.eventRing := rfl
@[simp] theorem onRoom_hmMsg (s : State) (r : Nat) (f : Room → Room) : (onRoom s r f).hmMsg = s.hmMsg := rfl
@[simp] theorem onRoom_krBusy (s : State) (r : Nat) (f : Room → Room) : (onRoom s r f).krBusy = s.krBusy := rfl
@[simp] theorem onRoom_krKey (s : State) (r : Nat) (f : Room → Room) : (onRoom s r f).krKey = s.krKey := rfl
@[simp] theorem onRoom_grace (s : State) (r : Nat) (f : Room → Room) : (onRoom s r f).grace = s.grace := rfl
@[simp] theorem onRoom_budget (s : State) (r : Nat) (f : Room → Room) : (onRoom s r f).budget = s.budget := rfl
@[simp] theorem onRoom_bootStep (s : State) (r : Nat) (f : Room → Room) : (onRoom s r f).bootStep = s.bootStep := rfl
@[simp] theorem onRoom_bootCode (s : State) (r : Nat) (f : Room → Room) : (onRoom s r f).bootCode = s.bootCode := rfl
@[simp] theorem onRoom_firmware (s : State) (r : Nat) (f : Room → Room) : (onRoom s r f).firmware = s.firmware := rfl
@[simp] theorem onRoom_irqs (s : State) (r : Nat) (f : Room → Room) : (onRoom s r f).irqs = s.irqs := rfl
@[simp] theorem onRoom_blocked (s : State) (r : Nat) (f : Room → Room) : (onRoom s r f).blocked = s.blocked := rfl
@[simp] theorem onRoom_arbiter (s : State) (r : Nat) (f : Room → Room) : (onRoom s r f).arbiter = s.arbiter := rfl
@[simp] theorem onRoom_map (s : State) (r : Nat) (f : Room → Room) : (onRoom s r f).map = s.map := rfl
@[simp] theorem onRoom_changes (s : State) (r : Nat) (f : Room → Room) : (onRoom s r f).changes = s.changes := rfl
@[simp] theorem onRoom_withdrawn (s : State) (r : Nat) (f : Room → Room) : (onRoom s r f).withdrawn = s.withdrawn := rfl
@[simp] theorem onRoom_deadlines (s : State) (r : Nat) (f : Room → Room) : (onRoom s r f).deadlines = s.deadlines := rfl
@[simp] theorem onRoom_summaries (s : State) (r : Nat) (f : Room → Room) : (onRoom s r f).summaries = s.summaries := rfl
@[simp] theorem onRoom_levels (s : State) (r : Nat) (f : Room → Room) : (onRoom s r f).levels = s.levels := rfl
@[simp] theorem onRoom_lostLines (s : State) (r : Nat) (f : Room → Room) : (onRoom s r f).lostLines = s.lostLines := rfl
@[simp] theorem onRoom_indexOwed (s : State) (r : Nat) (f : Room → Room) : (onRoom s r f).indexOwed = s.indexOwed := rfl
@[simp] theorem onRoom_rates (s : State) (r : Nat) (f : Room → Room) : (onRoom s r f).rates = s.rates := rfl
@[simp] theorem onRoom_links (s : State) (r : Nat) (f : Room → Room) : (onRoom s r f).links = s.links := rfl
@[simp] theorem onRoom_unsettled (s : State) (r : Nat) (f : Room → Room) : (onRoom s r f).unsettled = s.unsettled := rfl
@[simp] theorem onRoom_parts (s : State) (r : Nat) (f : Room → Room) : (onRoom s r f).parts = s.parts := rfl
@[simp] theorem onRoom_shutter (s : State) (r : Nat) (f : Room → Room) : (onRoom s r f).shutter = s.shutter := rfl
@[simp] theorem onRoom_house (s : State) (r : Nat) (f : Room → Room) : (onRoom s r f).house = s.house := rfl
@[simp] theorem onRoom_cycles (s : State) (r : Nat) (f : Room → Room) : (onRoom s r f).cycles = s.cycles := rfl
@[simp] theorem onRoom_runtime (s : State) (r : Nat) (f : Room → Room) : (onRoom s r f).runtime = s.runtime := rfl
@[simp] theorem onRoom_estateSent (s : State) (r : Nat) (f : Room → Room) : (onRoom s r f).estateSent = s.estateSent := rfl
@[simp] theorem onRoom_sealedPages (s : State) (r : Nat) (f : Room → Room) : (onRoom s r f).sealedPages = s.sealedPages := rfl

/-! ### onHall -/

@[simp] theorem onHall_cur (s : State) (h : Nat) (f : Hall → Hall) : (onHall s h f).cur = s.cur := rfl
@[simp] theorem onHall_agenda (s : State) (h : Nat) (f : Hall → Hall) : (onHall s h f).agenda = s.agenda := rfl
@[simp] theorem onHall_tick (s : State) (h : Nat) (f : Hall → Hall) : (onHall s h f).tick = s.tick := rfl
@[simp] theorem onHall_serial (s : State) (h : Nat) (f : Hall → Hall) : (onHall s h f).serial = s.serial := rfl
@[simp] theorem onHall_time (s : State) (h : Nat) (f : Hall → Hall) : (onHall s h f).time = s.time := rfl
@[simp] theorem onHall_cores (s : State) (h : Nat) (f : Hall → Hall) : (onHall s h f).cores = s.cores := rfl
@[simp] theorem onHall_rooms (s : State) (h : Nat) (f : Hall → Hall) : (onHall s h f).rooms = s.rooms := rfl
@[simp] theorem onHall_mem (s : State) (h : Nat) (f : Hall → Hall) : (onHall s h f).mem = s.mem := rfl
@[simp] theorem onHall_poison (s : State) (h : Nat) (f : Hall → Hall) : (onHall s h f).poison = s.poison := rfl
@[simp] theorem onHall_vault (s : State) (h : Nat) (f : Hall → Hall) : (onHall s h f).vault = s.vault := rfl
@[simp] theorem onHall_spares (s : State) (h : Nat) (f : Hall → Hall) : (onHall s h f).spares = s.spares := rfl
@[simp] theorem onHall_repairs (s : State) (h : Nat) (f : Hall → Hall) : (onHall s h f).repairs = s.repairs := rfl
@[simp] theorem onHall_homeParts (s : State) (h : Nat) (f : Hall → Hall) : (onHall s h f).homeParts = s.homeParts := rfl
@[simp] theorem onHall_transfers (s : State) (h : Nat) (f : Hall → Hall) : (onHall s h f).transfers = s.transfers := rfl
@[simp] theorem onHall_vclocks (s : State) (h : Nat) (f : Hall → Hall) : (onHall s h f).vclocks = s.vclocks := rfl
@[simp] theorem onHall_remotes (s : State) (h : Nat) (f : Hall → Hall) : (onHall s h f).remotes = s.remotes := rfl
@[simp] theorem onHall_contextTable (s : State) (h : Nat) (f : Hall → Hall) : (onHall s h f).contextTable = s.contextTable := rfl
@[simp] theorem onHall_contexts (s : State) (h : Nat) (f : Hall → Hall) : (onHall s h f).contexts = s.contexts := rfl
@[simp] theorem onHall_launches (s : State) (h : Nat) (f : Hall → Hall) : (onHall s h f).launches = s.launches := rfl
@[simp] theorem onHall_regionTable (s : State) (h : Nat) (f : Hall → Hall) : (onHall s h f).regionTable = s.regionTable := rfl
@[simp] theorem onHall_indexes (s : State) (h : Nat) (f : Hall → Hall) : (onHall s h f).indexes = s.indexes := rfl
@[simp] theorem onHall_deferred (s : State) (h : Nat) (f : Hall → Hall) : (onHall s h f).deferred = s.deferred := rfl
@[simp] theorem onHall_wsigSeen (s : State) (h : Nat) (f : Hall → Hall) : (onHall s h f).wsigSeen = s.wsigSeen := rfl
@[simp] theorem onHall_hpCtl (s : State) (h : Nat) (f : Hall → Hall) : (onHall s h f).hpCtl = s.hpCtl := rfl
@[simp] theorem onHall_subRings (s : State) (h : Nat) (f : Hall → Hall) : (onHall s h f).subRings = s.subRings := rfl
@[simp] theorem onHall_eventRing (s : State) (h : Nat) (f : Hall → Hall) : (onHall s h f).eventRing = s.eventRing := rfl
@[simp] theorem onHall_hmMsg (s : State) (h : Nat) (f : Hall → Hall) : (onHall s h f).hmMsg = s.hmMsg := rfl
@[simp] theorem onHall_krBusy (s : State) (h : Nat) (f : Hall → Hall) : (onHall s h f).krBusy = s.krBusy := rfl
@[simp] theorem onHall_krKey (s : State) (h : Nat) (f : Hall → Hall) : (onHall s h f).krKey = s.krKey := rfl
@[simp] theorem onHall_grace (s : State) (h : Nat) (f : Hall → Hall) : (onHall s h f).grace = s.grace := rfl
@[simp] theorem onHall_budget (s : State) (h : Nat) (f : Hall → Hall) : (onHall s h f).budget = s.budget := rfl
@[simp] theorem onHall_bootStep (s : State) (h : Nat) (f : Hall → Hall) : (onHall s h f).bootStep = s.bootStep := rfl
@[simp] theorem onHall_bootCode (s : State) (h : Nat) (f : Hall → Hall) : (onHall s h f).bootCode = s.bootCode := rfl
@[simp] theorem onHall_firmware (s : State) (h : Nat) (f : Hall → Hall) : (onHall s h f).firmware = s.firmware := rfl
@[simp] theorem onHall_irqs (s : State) (h : Nat) (f : Hall → Hall) : (onHall s h f).irqs = s.irqs := rfl
@[simp] theorem onHall_blocked (s : State) (h : Nat) (f : Hall → Hall) : (onHall s h f).blocked = s.blocked := rfl
@[simp] theorem onHall_arbiter (s : State) (h : Nat) (f : Hall → Hall) : (onHall s h f).arbiter = s.arbiter := rfl
@[simp] theorem onHall_map (s : State) (h : Nat) (f : Hall → Hall) : (onHall s h f).map = s.map := rfl
@[simp] theorem onHall_changes (s : State) (h : Nat) (f : Hall → Hall) : (onHall s h f).changes = s.changes := rfl
@[simp] theorem onHall_withdrawn (s : State) (h : Nat) (f : Hall → Hall) : (onHall s h f).withdrawn = s.withdrawn := rfl
@[simp] theorem onHall_deadlines (s : State) (h : Nat) (f : Hall → Hall) : (onHall s h f).deadlines = s.deadlines := rfl
@[simp] theorem onHall_summaries (s : State) (h : Nat) (f : Hall → Hall) : (onHall s h f).summaries = s.summaries := rfl
@[simp] theorem onHall_levels (s : State) (h : Nat) (f : Hall → Hall) : (onHall s h f).levels = s.levels := rfl
@[simp] theorem onHall_lostLines (s : State) (h : Nat) (f : Hall → Hall) : (onHall s h f).lostLines = s.lostLines := rfl
@[simp] theorem onHall_indexOwed (s : State) (h : Nat) (f : Hall → Hall) : (onHall s h f).indexOwed = s.indexOwed := rfl
@[simp] theorem onHall_rates (s : State) (h : Nat) (f : Hall → Hall) : (onHall s h f).rates = s.rates := rfl
@[simp] theorem onHall_links (s : State) (h : Nat) (f : Hall → Hall) : (onHall s h f).links = s.links := rfl
@[simp] theorem onHall_unsettled (s : State) (h : Nat) (f : Hall → Hall) : (onHall s h f).unsettled = s.unsettled := rfl
@[simp] theorem onHall_parts (s : State) (h : Nat) (f : Hall → Hall) : (onHall s h f).parts = s.parts := rfl
@[simp] theorem onHall_shutter (s : State) (h : Nat) (f : Hall → Hall) : (onHall s h f).shutter = s.shutter := rfl
@[simp] theorem onHall_house (s : State) (h : Nat) (f : Hall → Hall) : (onHall s h f).house = s.house := rfl
@[simp] theorem onHall_cycles (s : State) (h : Nat) (f : Hall → Hall) : (onHall s h f).cycles = s.cycles := rfl
@[simp] theorem onHall_runtime (s : State) (h : Nat) (f : Hall → Hall) : (onHall s h f).runtime = s.runtime := rfl
@[simp] theorem onHall_estateSent (s : State) (h : Nat) (f : Hall → Hall) : (onHall s h f).estateSent = s.estateSent := rfl
@[simp] theorem onHall_sealedPages (s : State) (h : Nat) (f : Hall → Hall) : (onHall s h f).sealedPages = s.sealedPages := rfl

/-! ### onContext -/

@[simp] theorem onContext_cur (s : State) (x : Nat) (f : Context → Context) : (onContext s x f).cur = s.cur := rfl
@[simp] theorem onContext_agenda (s : State) (x : Nat) (f : Context → Context) : (onContext s x f).agenda = s.agenda := rfl
@[simp] theorem onContext_tick (s : State) (x : Nat) (f : Context → Context) : (onContext s x f).tick = s.tick := rfl
@[simp] theorem onContext_serial (s : State) (x : Nat) (f : Context → Context) : (onContext s x f).serial = s.serial := rfl
@[simp] theorem onContext_time (s : State) (x : Nat) (f : Context → Context) : (onContext s x f).time = s.time := rfl
@[simp] theorem onContext_cores (s : State) (x : Nat) (f : Context → Context) : (onContext s x f).cores = s.cores := rfl
@[simp] theorem onContext_rooms (s : State) (x : Nat) (f : Context → Context) : (onContext s x f).rooms = s.rooms := rfl
@[simp] theorem onContext_halls (s : State) (x : Nat) (f : Context → Context) : (onContext s x f).halls = s.halls := rfl
@[simp] theorem onContext_mem (s : State) (x : Nat) (f : Context → Context) : (onContext s x f).mem = s.mem := rfl
@[simp] theorem onContext_poison (s : State) (x : Nat) (f : Context → Context) : (onContext s x f).poison = s.poison := rfl
@[simp] theorem onContext_vault (s : State) (x : Nat) (f : Context → Context) : (onContext s x f).vault = s.vault := rfl
@[simp] theorem onContext_spares (s : State) (x : Nat) (f : Context → Context) : (onContext s x f).spares = s.spares := rfl
@[simp] theorem onContext_repairs (s : State) (x : Nat) (f : Context → Context) : (onContext s x f).repairs = s.repairs := rfl
@[simp] theorem onContext_homeParts (s : State) (x : Nat) (f : Context → Context) : (onContext s x f).homeParts = s.homeParts := rfl
@[simp] theorem onContext_transfers (s : State) (x : Nat) (f : Context → Context) : (onContext s x f).transfers = s.transfers := rfl
@[simp] theorem onContext_vclocks (s : State) (x : Nat) (f : Context → Context) : (onContext s x f).vclocks = s.vclocks := rfl
@[simp] theorem onContext_remotes (s : State) (x : Nat) (f : Context → Context) : (onContext s x f).remotes = s.remotes := rfl
@[simp] theorem onContext_contextTable (s : State) (x : Nat) (f : Context → Context) : (onContext s x f).contextTable = s.contextTable := rfl
@[simp] theorem onContext_launches (s : State) (x : Nat) (f : Context → Context) : (onContext s x f).launches = s.launches := rfl
@[simp] theorem onContext_regionTable (s : State) (x : Nat) (f : Context → Context) : (onContext s x f).regionTable = s.regionTable := rfl
@[simp] theorem onContext_indexes (s : State) (x : Nat) (f : Context → Context) : (onContext s x f).indexes = s.indexes := rfl
@[simp] theorem onContext_deferred (s : State) (x : Nat) (f : Context → Context) : (onContext s x f).deferred = s.deferred := rfl
@[simp] theorem onContext_wsigSeen (s : State) (x : Nat) (f : Context → Context) : (onContext s x f).wsigSeen = s.wsigSeen := rfl
@[simp] theorem onContext_hpCtl (s : State) (x : Nat) (f : Context → Context) : (onContext s x f).hpCtl = s.hpCtl := rfl
@[simp] theorem onContext_subRings (s : State) (x : Nat) (f : Context → Context) : (onContext s x f).subRings = s.subRings := rfl
@[simp] theorem onContext_eventRing (s : State) (x : Nat) (f : Context → Context) : (onContext s x f).eventRing = s.eventRing := rfl
@[simp] theorem onContext_hmMsg (s : State) (x : Nat) (f : Context → Context) : (onContext s x f).hmMsg = s.hmMsg := rfl
@[simp] theorem onContext_krBusy (s : State) (x : Nat) (f : Context → Context) : (onContext s x f).krBusy = s.krBusy := rfl
@[simp] theorem onContext_krKey (s : State) (x : Nat) (f : Context → Context) : (onContext s x f).krKey = s.krKey := rfl
@[simp] theorem onContext_grace (s : State) (x : Nat) (f : Context → Context) : (onContext s x f).grace = s.grace := rfl
@[simp] theorem onContext_budget (s : State) (x : Nat) (f : Context → Context) : (onContext s x f).budget = s.budget := rfl
@[simp] theorem onContext_bootStep (s : State) (x : Nat) (f : Context → Context) : (onContext s x f).bootStep = s.bootStep := rfl
@[simp] theorem onContext_bootCode (s : State) (x : Nat) (f : Context → Context) : (onContext s x f).bootCode = s.bootCode := rfl
@[simp] theorem onContext_firmware (s : State) (x : Nat) (f : Context → Context) : (onContext s x f).firmware = s.firmware := rfl
@[simp] theorem onContext_irqs (s : State) (x : Nat) (f : Context → Context) : (onContext s x f).irqs = s.irqs := rfl
@[simp] theorem onContext_blocked (s : State) (x : Nat) (f : Context → Context) : (onContext s x f).blocked = s.blocked := rfl
@[simp] theorem onContext_arbiter (s : State) (x : Nat) (f : Context → Context) : (onContext s x f).arbiter = s.arbiter := rfl
@[simp] theorem onContext_map (s : State) (x : Nat) (f : Context → Context) : (onContext s x f).map = s.map := rfl
@[simp] theorem onContext_changes (s : State) (x : Nat) (f : Context → Context) : (onContext s x f).changes = s.changes := rfl
@[simp] theorem onContext_withdrawn (s : State) (x : Nat) (f : Context → Context) : (onContext s x f).withdrawn = s.withdrawn := rfl
@[simp] theorem onContext_deadlines (s : State) (x : Nat) (f : Context → Context) : (onContext s x f).deadlines = s.deadlines := rfl
@[simp] theorem onContext_summaries (s : State) (x : Nat) (f : Context → Context) : (onContext s x f).summaries = s.summaries := rfl
@[simp] theorem onContext_levels (s : State) (x : Nat) (f : Context → Context) : (onContext s x f).levels = s.levels := rfl
@[simp] theorem onContext_lostLines (s : State) (x : Nat) (f : Context → Context) : (onContext s x f).lostLines = s.lostLines := rfl
@[simp] theorem onContext_indexOwed (s : State) (x : Nat) (f : Context → Context) : (onContext s x f).indexOwed = s.indexOwed := rfl
@[simp] theorem onContext_rates (s : State) (x : Nat) (f : Context → Context) : (onContext s x f).rates = s.rates := rfl
@[simp] theorem onContext_links (s : State) (x : Nat) (f : Context → Context) : (onContext s x f).links = s.links := rfl
@[simp] theorem onContext_unsettled (s : State) (x : Nat) (f : Context → Context) : (onContext s x f).unsettled = s.unsettled := rfl
@[simp] theorem onContext_parts (s : State) (x : Nat) (f : Context → Context) : (onContext s x f).parts = s.parts := rfl
@[simp] theorem onContext_shutter (s : State) (x : Nat) (f : Context → Context) : (onContext s x f).shutter = s.shutter := rfl
@[simp] theorem onContext_house (s : State) (x : Nat) (f : Context → Context) : (onContext s x f).house = s.house := rfl
@[simp] theorem onContext_cycles (s : State) (x : Nat) (f : Context → Context) : (onContext s x f).cycles = s.cycles := rfl
@[simp] theorem onContext_runtime (s : State) (x : Nat) (f : Context → Context) : (onContext s x f).runtime = s.runtime := rfl
@[simp] theorem onContext_estateSent (s : State) (x : Nat) (f : Context → Context) : (onContext s x f).estateSent = s.estateSent := rfl
@[simp] theorem onContext_sealedPages (s : State) (x : Nat) (f : Context → Context) : (onContext s x f).sealedPages = s.sealedPages := rfl

/-! ### post -/

@[simp] theorem post_cur (s : State) (es : List Due) : (post s es).cur = s.cur := rfl
@[simp] theorem post_tick (s : State) (es : List Due) : (post s es).tick = s.tick := rfl
@[simp] theorem post_serial (s : State) (es : List Due) : (post s es).serial = s.serial := rfl
@[simp] theorem post_time (s : State) (es : List Due) : (post s es).time = s.time := rfl
@[simp] theorem post_cores (s : State) (es : List Due) : (post s es).cores = s.cores := rfl
@[simp] theorem post_rooms (s : State) (es : List Due) : (post s es).rooms = s.rooms := rfl
@[simp] theorem post_halls (s : State) (es : List Due) : (post s es).halls = s.halls := rfl
@[simp] theorem post_mem (s : State) (es : List Due) : (post s es).mem = s.mem := rfl
@[simp] theorem post_poison (s : State) (es : List Due) : (post s es).poison = s.poison := rfl
@[simp] theorem post_vault (s : State) (es : List Due) : (post s es).vault = s.vault := rfl
@[simp] theorem post_spares (s : State) (es : List Due) : (post s es).spares = s.spares := rfl
@[simp] theorem post_repairs (s : State) (es : List Due) : (post s es).repairs = s.repairs := rfl
@[simp] theorem post_homeParts (s : State) (es : List Due) : (post s es).homeParts = s.homeParts := rfl
@[simp] theorem post_transfers (s : State) (es : List Due) : (post s es).transfers = s.transfers := rfl
@[simp] theorem post_vclocks (s : State) (es : List Due) : (post s es).vclocks = s.vclocks := rfl
@[simp] theorem post_remotes (s : State) (es : List Due) : (post s es).remotes = s.remotes := rfl
@[simp] theorem post_contextTable (s : State) (es : List Due) : (post s es).contextTable = s.contextTable := rfl
@[simp] theorem post_contexts (s : State) (es : List Due) : (post s es).contexts = s.contexts := rfl
@[simp] theorem post_launches (s : State) (es : List Due) : (post s es).launches = s.launches := rfl
@[simp] theorem post_regionTable (s : State) (es : List Due) : (post s es).regionTable = s.regionTable := rfl
@[simp] theorem post_indexes (s : State) (es : List Due) : (post s es).indexes = s.indexes := rfl
@[simp] theorem post_deferred (s : State) (es : List Due) : (post s es).deferred = s.deferred := rfl
@[simp] theorem post_wsigSeen (s : State) (es : List Due) : (post s es).wsigSeen = s.wsigSeen := rfl
@[simp] theorem post_hpCtl (s : State) (es : List Due) : (post s es).hpCtl = s.hpCtl := rfl
@[simp] theorem post_subRings (s : State) (es : List Due) : (post s es).subRings = s.subRings := rfl
@[simp] theorem post_eventRing (s : State) (es : List Due) : (post s es).eventRing = s.eventRing := rfl
@[simp] theorem post_hmMsg (s : State) (es : List Due) : (post s es).hmMsg = s.hmMsg := rfl
@[simp] theorem post_krBusy (s : State) (es : List Due) : (post s es).krBusy = s.krBusy := rfl
@[simp] theorem post_krKey (s : State) (es : List Due) : (post s es).krKey = s.krKey := rfl
@[simp] theorem post_grace (s : State) (es : List Due) : (post s es).grace = s.grace := rfl
@[simp] theorem post_budget (s : State) (es : List Due) : (post s es).budget = s.budget := rfl
@[simp] theorem post_bootStep (s : State) (es : List Due) : (post s es).bootStep = s.bootStep := rfl
@[simp] theorem post_bootCode (s : State) (es : List Due) : (post s es).bootCode = s.bootCode := rfl
@[simp] theorem post_firmware (s : State) (es : List Due) : (post s es).firmware = s.firmware := rfl
@[simp] theorem post_irqs (s : State) (es : List Due) : (post s es).irqs = s.irqs := rfl
@[simp] theorem post_blocked (s : State) (es : List Due) : (post s es).blocked = s.blocked := rfl
@[simp] theorem post_arbiter (s : State) (es : List Due) : (post s es).arbiter = s.arbiter := rfl
@[simp] theorem post_map (s : State) (es : List Due) : (post s es).map = s.map := rfl
@[simp] theorem post_changes (s : State) (es : List Due) : (post s es).changes = s.changes := rfl
@[simp] theorem post_withdrawn (s : State) (es : List Due) : (post s es).withdrawn = s.withdrawn := rfl
@[simp] theorem post_deadlines (s : State) (es : List Due) : (post s es).deadlines = s.deadlines := rfl
@[simp] theorem post_summaries (s : State) (es : List Due) : (post s es).summaries = s.summaries := rfl
@[simp] theorem post_levels (s : State) (es : List Due) : (post s es).levels = s.levels := rfl
@[simp] theorem post_lostLines (s : State) (es : List Due) : (post s es).lostLines = s.lostLines := rfl
@[simp] theorem post_indexOwed (s : State) (es : List Due) : (post s es).indexOwed = s.indexOwed := rfl
@[simp] theorem post_rates (s : State) (es : List Due) : (post s es).rates = s.rates := rfl
@[simp] theorem post_links (s : State) (es : List Due) : (post s es).links = s.links := rfl
@[simp] theorem post_unsettled (s : State) (es : List Due) : (post s es).unsettled = s.unsettled := rfl
@[simp] theorem post_parts (s : State) (es : List Due) : (post s es).parts = s.parts := rfl
@[simp] theorem post_shutter (s : State) (es : List Due) : (post s es).shutter = s.shutter := rfl
@[simp] theorem post_house (s : State) (es : List Due) : (post s es).house = s.house := rfl
@[simp] theorem post_cycles (s : State) (es : List Due) : (post s es).cycles = s.cycles := rfl
@[simp] theorem post_runtime (s : State) (es : List Due) : (post s es).runtime = s.runtime := rfl
@[simp] theorem post_estateSent (s : State) (es : List Due) : (post s es).estateSent = s.estateSent := rfl
@[simp] theorem post_sealedPages (s : State) (es : List Due) : (post s es).sealedPages = s.sealedPages := rfl

/-! ### postFirst -/

@[simp] theorem postFirst_cur (s : State) (es : List Due) : (postFirst s es).cur = s.cur := rfl
@[simp] theorem postFirst_tick (s : State) (es : List Due) : (postFirst s es).tick = s.tick := rfl
@[simp] theorem postFirst_serial (s : State) (es : List Due) : (postFirst s es).serial = s.serial := rfl
@[simp] theorem postFirst_time (s : State) (es : List Due) : (postFirst s es).time = s.time := rfl
@[simp] theorem postFirst_cores (s : State) (es : List Due) : (postFirst s es).cores = s.cores := rfl
@[simp] theorem postFirst_rooms (s : State) (es : List Due) : (postFirst s es).rooms = s.rooms := rfl
@[simp] theorem postFirst_halls (s : State) (es : List Due) : (postFirst s es).halls = s.halls := rfl
@[simp] theorem postFirst_mem (s : State) (es : List Due) : (postFirst s es).mem = s.mem := rfl
@[simp] theorem postFirst_poison (s : State) (es : List Due) : (postFirst s es).poison = s.poison := rfl
@[simp] theorem postFirst_vault (s : State) (es : List Due) : (postFirst s es).vault = s.vault := rfl
@[simp] theorem postFirst_spares (s : State) (es : List Due) : (postFirst s es).spares = s.spares := rfl
@[simp] theorem postFirst_repairs (s : State) (es : List Due) : (postFirst s es).repairs = s.repairs := rfl
@[simp] theorem postFirst_homeParts (s : State) (es : List Due) : (postFirst s es).homeParts = s.homeParts := rfl
@[simp] theorem postFirst_transfers (s : State) (es : List Due) : (postFirst s es).transfers = s.transfers := rfl
@[simp] theorem postFirst_vclocks (s : State) (es : List Due) : (postFirst s es).vclocks = s.vclocks := rfl
@[simp] theorem postFirst_remotes (s : State) (es : List Due) : (postFirst s es).remotes = s.remotes := rfl
@[simp] theorem postFirst_contextTable (s : State) (es : List Due) : (postFirst s es).contextTable = s.contextTable := rfl
@[simp] theorem postFirst_contexts (s : State) (es : List Due) : (postFirst s es).contexts = s.contexts := rfl
@[simp] theorem postFirst_launches (s : State) (es : List Due) : (postFirst s es).launches = s.launches := rfl
@[simp] theorem postFirst_regionTable (s : State) (es : List Due) : (postFirst s es).regionTable = s.regionTable := rfl
@[simp] theorem postFirst_indexes (s : State) (es : List Due) : (postFirst s es).indexes = s.indexes := rfl
@[simp] theorem postFirst_deferred (s : State) (es : List Due) : (postFirst s es).deferred = s.deferred := rfl
@[simp] theorem postFirst_wsigSeen (s : State) (es : List Due) : (postFirst s es).wsigSeen = s.wsigSeen := rfl
@[simp] theorem postFirst_hpCtl (s : State) (es : List Due) : (postFirst s es).hpCtl = s.hpCtl := rfl
@[simp] theorem postFirst_subRings (s : State) (es : List Due) : (postFirst s es).subRings = s.subRings := rfl
@[simp] theorem postFirst_eventRing (s : State) (es : List Due) : (postFirst s es).eventRing = s.eventRing := rfl
@[simp] theorem postFirst_hmMsg (s : State) (es : List Due) : (postFirst s es).hmMsg = s.hmMsg := rfl
@[simp] theorem postFirst_krBusy (s : State) (es : List Due) : (postFirst s es).krBusy = s.krBusy := rfl
@[simp] theorem postFirst_krKey (s : State) (es : List Due) : (postFirst s es).krKey = s.krKey := rfl
@[simp] theorem postFirst_grace (s : State) (es : List Due) : (postFirst s es).grace = s.grace := rfl
@[simp] theorem postFirst_budget (s : State) (es : List Due) : (postFirst s es).budget = s.budget := rfl
@[simp] theorem postFirst_bootStep (s : State) (es : List Due) : (postFirst s es).bootStep = s.bootStep := rfl
@[simp] theorem postFirst_bootCode (s : State) (es : List Due) : (postFirst s es).bootCode = s.bootCode := rfl
@[simp] theorem postFirst_firmware (s : State) (es : List Due) : (postFirst s es).firmware = s.firmware := rfl
@[simp] theorem postFirst_irqs (s : State) (es : List Due) : (postFirst s es).irqs = s.irqs := rfl
@[simp] theorem postFirst_blocked (s : State) (es : List Due) : (postFirst s es).blocked = s.blocked := rfl
@[simp] theorem postFirst_arbiter (s : State) (es : List Due) : (postFirst s es).arbiter = s.arbiter := rfl
@[simp] theorem postFirst_map (s : State) (es : List Due) : (postFirst s es).map = s.map := rfl
@[simp] theorem postFirst_changes (s : State) (es : List Due) : (postFirst s es).changes = s.changes := rfl
@[simp] theorem postFirst_withdrawn (s : State) (es : List Due) : (postFirst s es).withdrawn = s.withdrawn := rfl
@[simp] theorem postFirst_deadlines (s : State) (es : List Due) : (postFirst s es).deadlines = s.deadlines := rfl
@[simp] theorem postFirst_summaries (s : State) (es : List Due) : (postFirst s es).summaries = s.summaries := rfl
@[simp] theorem postFirst_levels (s : State) (es : List Due) : (postFirst s es).levels = s.levels := rfl
@[simp] theorem postFirst_lostLines (s : State) (es : List Due) : (postFirst s es).lostLines = s.lostLines := rfl
@[simp] theorem postFirst_indexOwed (s : State) (es : List Due) : (postFirst s es).indexOwed = s.indexOwed := rfl
@[simp] theorem postFirst_rates (s : State) (es : List Due) : (postFirst s es).rates = s.rates := rfl
@[simp] theorem postFirst_links (s : State) (es : List Due) : (postFirst s es).links = s.links := rfl
@[simp] theorem postFirst_unsettled (s : State) (es : List Due) : (postFirst s es).unsettled = s.unsettled := rfl
@[simp] theorem postFirst_parts (s : State) (es : List Due) : (postFirst s es).parts = s.parts := rfl
@[simp] theorem postFirst_shutter (s : State) (es : List Due) : (postFirst s es).shutter = s.shutter := rfl
@[simp] theorem postFirst_house (s : State) (es : List Due) : (postFirst s es).house = s.house := rfl
@[simp] theorem postFirst_cycles (s : State) (es : List Due) : (postFirst s es).cycles = s.cycles := rfl
@[simp] theorem postFirst_runtime (s : State) (es : List Due) : (postFirst s es).runtime = s.runtime := rfl
@[simp] theorem postFirst_estateSent (s : State) (es : List Due) : (postFirst s es).estateSent = s.estateSent := rfl
@[simp] theorem postFirst_sealedPages (s : State) (es : List Due) : (postFirst s es).sealedPages = s.sealedPages := rfl

/-! ### putMapWord -/

@[simp] theorem putMapWord_cur (s : State) (t i : Nat) (v : XWord) : (putMapWord s t i v).cur = s.cur := rfl
@[simp] theorem putMapWord_agenda (s : State) (t i : Nat) (v : XWord) : (putMapWord s t i v).agenda = s.agenda := rfl
@[simp] theorem putMapWord_tick (s : State) (t i : Nat) (v : XWord) : (putMapWord s t i v).tick = s.tick := rfl
@[simp] theorem putMapWord_serial (s : State) (t i : Nat) (v : XWord) : (putMapWord s t i v).serial = s.serial := rfl
@[simp] theorem putMapWord_time (s : State) (t i : Nat) (v : XWord) : (putMapWord s t i v).time = s.time := rfl
@[simp] theorem putMapWord_cores (s : State) (t i : Nat) (v : XWord) : (putMapWord s t i v).cores = s.cores := rfl
@[simp] theorem putMapWord_rooms (s : State) (t i : Nat) (v : XWord) : (putMapWord s t i v).rooms = s.rooms := rfl
@[simp] theorem putMapWord_halls (s : State) (t i : Nat) (v : XWord) : (putMapWord s t i v).halls = s.halls := rfl
@[simp] theorem putMapWord_mem (s : State) (t i : Nat) (v : XWord) : (putMapWord s t i v).mem = s.mem := rfl
@[simp] theorem putMapWord_poison (s : State) (t i : Nat) (v : XWord) : (putMapWord s t i v).poison = s.poison := rfl
@[simp] theorem putMapWord_vault (s : State) (t i : Nat) (v : XWord) : (putMapWord s t i v).vault = s.vault := rfl
@[simp] theorem putMapWord_spares (s : State) (t i : Nat) (v : XWord) : (putMapWord s t i v).spares = s.spares := rfl
@[simp] theorem putMapWord_repairs (s : State) (t i : Nat) (v : XWord) : (putMapWord s t i v).repairs = s.repairs := rfl
@[simp] theorem putMapWord_homeParts (s : State) (t i : Nat) (v : XWord) : (putMapWord s t i v).homeParts = s.homeParts := rfl
@[simp] theorem putMapWord_transfers (s : State) (t i : Nat) (v : XWord) : (putMapWord s t i v).transfers = s.transfers := rfl
@[simp] theorem putMapWord_vclocks (s : State) (t i : Nat) (v : XWord) : (putMapWord s t i v).vclocks = s.vclocks := rfl
@[simp] theorem putMapWord_remotes (s : State) (t i : Nat) (v : XWord) : (putMapWord s t i v).remotes = s.remotes := rfl
@[simp] theorem putMapWord_contextTable (s : State) (t i : Nat) (v : XWord) : (putMapWord s t i v).contextTable = s.contextTable := rfl
@[simp] theorem putMapWord_contexts (s : State) (t i : Nat) (v : XWord) : (putMapWord s t i v).contexts = s.contexts := rfl
@[simp] theorem putMapWord_launches (s : State) (t i : Nat) (v : XWord) : (putMapWord s t i v).launches = s.launches := rfl
@[simp] theorem putMapWord_regionTable (s : State) (t i : Nat) (v : XWord) : (putMapWord s t i v).regionTable = s.regionTable := rfl
@[simp] theorem putMapWord_indexes (s : State) (t i : Nat) (v : XWord) : (putMapWord s t i v).indexes = s.indexes := rfl
@[simp] theorem putMapWord_deferred (s : State) (t i : Nat) (v : XWord) : (putMapWord s t i v).deferred = s.deferred := rfl
@[simp] theorem putMapWord_wsigSeen (s : State) (t i : Nat) (v : XWord) : (putMapWord s t i v).wsigSeen = s.wsigSeen := rfl
@[simp] theorem putMapWord_hpCtl (s : State) (t i : Nat) (v : XWord) : (putMapWord s t i v).hpCtl = s.hpCtl := rfl
@[simp] theorem putMapWord_subRings (s : State) (t i : Nat) (v : XWord) : (putMapWord s t i v).subRings = s.subRings := rfl
@[simp] theorem putMapWord_eventRing (s : State) (t i : Nat) (v : XWord) : (putMapWord s t i v).eventRing = s.eventRing := rfl
@[simp] theorem putMapWord_hmMsg (s : State) (t i : Nat) (v : XWord) : (putMapWord s t i v).hmMsg = s.hmMsg := rfl
@[simp] theorem putMapWord_krBusy (s : State) (t i : Nat) (v : XWord) : (putMapWord s t i v).krBusy = s.krBusy := rfl
@[simp] theorem putMapWord_krKey (s : State) (t i : Nat) (v : XWord) : (putMapWord s t i v).krKey = s.krKey := rfl
@[simp] theorem putMapWord_grace (s : State) (t i : Nat) (v : XWord) : (putMapWord s t i v).grace = s.grace := rfl
@[simp] theorem putMapWord_budget (s : State) (t i : Nat) (v : XWord) : (putMapWord s t i v).budget = s.budget := rfl
@[simp] theorem putMapWord_bootStep (s : State) (t i : Nat) (v : XWord) : (putMapWord s t i v).bootStep = s.bootStep := rfl
@[simp] theorem putMapWord_bootCode (s : State) (t i : Nat) (v : XWord) : (putMapWord s t i v).bootCode = s.bootCode := rfl
@[simp] theorem putMapWord_firmware (s : State) (t i : Nat) (v : XWord) : (putMapWord s t i v).firmware = s.firmware := rfl
@[simp] theorem putMapWord_irqs (s : State) (t i : Nat) (v : XWord) : (putMapWord s t i v).irqs = s.irqs := rfl
@[simp] theorem putMapWord_blocked (s : State) (t i : Nat) (v : XWord) : (putMapWord s t i v).blocked = s.blocked := rfl
@[simp] theorem putMapWord_arbiter (s : State) (t i : Nat) (v : XWord) : (putMapWord s t i v).arbiter = s.arbiter := rfl
@[simp] theorem putMapWord_changes (s : State) (t i : Nat) (v : XWord) : (putMapWord s t i v).changes = s.changes := rfl
@[simp] theorem putMapWord_withdrawn (s : State) (t i : Nat) (v : XWord) : (putMapWord s t i v).withdrawn = s.withdrawn := rfl
@[simp] theorem putMapWord_deadlines (s : State) (t i : Nat) (v : XWord) : (putMapWord s t i v).deadlines = s.deadlines := rfl
@[simp] theorem putMapWord_summaries (s : State) (t i : Nat) (v : XWord) : (putMapWord s t i v).summaries = s.summaries := rfl
@[simp] theorem putMapWord_levels (s : State) (t i : Nat) (v : XWord) : (putMapWord s t i v).levels = s.levels := rfl
@[simp] theorem putMapWord_lostLines (s : State) (t i : Nat) (v : XWord) : (putMapWord s t i v).lostLines = s.lostLines := rfl
@[simp] theorem putMapWord_indexOwed (s : State) (t i : Nat) (v : XWord) : (putMapWord s t i v).indexOwed = s.indexOwed := rfl
@[simp] theorem putMapWord_rates (s : State) (t i : Nat) (v : XWord) : (putMapWord s t i v).rates = s.rates := rfl
@[simp] theorem putMapWord_links (s : State) (t i : Nat) (v : XWord) : (putMapWord s t i v).links = s.links := rfl
@[simp] theorem putMapWord_unsettled (s : State) (t i : Nat) (v : XWord) : (putMapWord s t i v).unsettled = s.unsettled := rfl
@[simp] theorem putMapWord_parts (s : State) (t i : Nat) (v : XWord) : (putMapWord s t i v).parts = s.parts := rfl
@[simp] theorem putMapWord_shutter (s : State) (t i : Nat) (v : XWord) : (putMapWord s t i v).shutter = s.shutter := rfl
@[simp] theorem putMapWord_house (s : State) (t i : Nat) (v : XWord) : (putMapWord s t i v).house = s.house := rfl
@[simp] theorem putMapWord_cycles (s : State) (t i : Nat) (v : XWord) : (putMapWord s t i v).cycles = s.cycles := rfl
@[simp] theorem putMapWord_runtime (s : State) (t i : Nat) (v : XWord) : (putMapWord s t i v).runtime = s.runtime := rfl
@[simp] theorem putMapWord_estateSent (s : State) (t i : Nat) (v : XWord) : (putMapWord s t i v).estateSent = s.estateSent := rfl
@[simp] theorem putMapWord_sealedPages (s : State) (t i : Nat) (v : XWord) : (putMapWord s t i v).sealedPages = s.sealedPages := rfl

/-! ### onLaunch -/

@[simp] theorem onLaunch_cur (s : State) (l : Nat) (f : Launch → Launch) : (onLaunch s l f).cur = s.cur := by
  unfold onLaunch; split <;> rfl
@[simp] theorem onLaunch_agenda (s : State) (l : Nat) (f : Launch → Launch) : (onLaunch s l f).agenda = s.agenda := by
  unfold onLaunch; split <;> rfl
@[simp] theorem onLaunch_tick (s : State) (l : Nat) (f : Launch → Launch) : (onLaunch s l f).tick = s.tick := by
  unfold onLaunch; split <;> rfl
@[simp] theorem onLaunch_serial (s : State) (l : Nat) (f : Launch → Launch) : (onLaunch s l f).serial = s.serial := by
  unfold onLaunch; split <;> rfl
@[simp] theorem onLaunch_time (s : State) (l : Nat) (f : Launch → Launch) : (onLaunch s l f).time = s.time := by
  unfold onLaunch; split <;> rfl
@[simp] theorem onLaunch_cores (s : State) (l : Nat) (f : Launch → Launch) : (onLaunch s l f).cores = s.cores := by
  unfold onLaunch; split <;> rfl
@[simp] theorem onLaunch_rooms (s : State) (l : Nat) (f : Launch → Launch) : (onLaunch s l f).rooms = s.rooms := by
  unfold onLaunch; split <;> rfl
@[simp] theorem onLaunch_halls (s : State) (l : Nat) (f : Launch → Launch) : (onLaunch s l f).halls = s.halls := by
  unfold onLaunch; split <;> rfl
@[simp] theorem onLaunch_mem (s : State) (l : Nat) (f : Launch → Launch) : (onLaunch s l f).mem = s.mem := by
  unfold onLaunch; split <;> rfl
@[simp] theorem onLaunch_poison (s : State) (l : Nat) (f : Launch → Launch) : (onLaunch s l f).poison = s.poison := by
  unfold onLaunch; split <;> rfl
@[simp] theorem onLaunch_vault (s : State) (l : Nat) (f : Launch → Launch) : (onLaunch s l f).vault = s.vault := by
  unfold onLaunch; split <;> rfl
@[simp] theorem onLaunch_spares (s : State) (l : Nat) (f : Launch → Launch) : (onLaunch s l f).spares = s.spares := by
  unfold onLaunch; split <;> rfl
@[simp] theorem onLaunch_repairs (s : State) (l : Nat) (f : Launch → Launch) : (onLaunch s l f).repairs = s.repairs := by
  unfold onLaunch; split <;> rfl
@[simp] theorem onLaunch_homeParts (s : State) (l : Nat) (f : Launch → Launch) : (onLaunch s l f).homeParts = s.homeParts := by
  unfold onLaunch; split <;> rfl
@[simp] theorem onLaunch_transfers (s : State) (l : Nat) (f : Launch → Launch) : (onLaunch s l f).transfers = s.transfers := by
  unfold onLaunch; split <;> rfl
@[simp] theorem onLaunch_vclocks (s : State) (l : Nat) (f : Launch → Launch) : (onLaunch s l f).vclocks = s.vclocks := by
  unfold onLaunch; split <;> rfl
@[simp] theorem onLaunch_remotes (s : State) (l : Nat) (f : Launch → Launch) : (onLaunch s l f).remotes = s.remotes := by
  unfold onLaunch; split <;> rfl
@[simp] theorem onLaunch_contextTable (s : State) (l : Nat) (f : Launch → Launch) : (onLaunch s l f).contextTable = s.contextTable := by
  unfold onLaunch; split <;> rfl
@[simp] theorem onLaunch_contexts (s : State) (l : Nat) (f : Launch → Launch) : (onLaunch s l f).contexts = s.contexts := by
  unfold onLaunch; split <;> rfl
@[simp] theorem onLaunch_regionTable (s : State) (l : Nat) (f : Launch → Launch) : (onLaunch s l f).regionTable = s.regionTable := by
  unfold onLaunch; split <;> rfl
@[simp] theorem onLaunch_indexes (s : State) (l : Nat) (f : Launch → Launch) : (onLaunch s l f).indexes = s.indexes := by
  unfold onLaunch; split <;> rfl
@[simp] theorem onLaunch_deferred (s : State) (l : Nat) (f : Launch → Launch) : (onLaunch s l f).deferred = s.deferred := by
  unfold onLaunch; split <;> rfl
@[simp] theorem onLaunch_wsigSeen (s : State) (l : Nat) (f : Launch → Launch) : (onLaunch s l f).wsigSeen = s.wsigSeen := by
  unfold onLaunch; split <;> rfl
@[simp] theorem onLaunch_hpCtl (s : State) (l : Nat) (f : Launch → Launch) : (onLaunch s l f).hpCtl = s.hpCtl := by
  unfold onLaunch; split <;> rfl
@[simp] theorem onLaunch_subRings (s : State) (l : Nat) (f : Launch → Launch) : (onLaunch s l f).subRings = s.subRings := by
  unfold onLaunch; split <;> rfl
@[simp] theorem onLaunch_eventRing (s : State) (l : Nat) (f : Launch → Launch) : (onLaunch s l f).eventRing = s.eventRing := by
  unfold onLaunch; split <;> rfl
@[simp] theorem onLaunch_hmMsg (s : State) (l : Nat) (f : Launch → Launch) : (onLaunch s l f).hmMsg = s.hmMsg := by
  unfold onLaunch; split <;> rfl
@[simp] theorem onLaunch_krBusy (s : State) (l : Nat) (f : Launch → Launch) : (onLaunch s l f).krBusy = s.krBusy := by
  unfold onLaunch; split <;> rfl
@[simp] theorem onLaunch_krKey (s : State) (l : Nat) (f : Launch → Launch) : (onLaunch s l f).krKey = s.krKey := by
  unfold onLaunch; split <;> rfl
@[simp] theorem onLaunch_grace (s : State) (l : Nat) (f : Launch → Launch) : (onLaunch s l f).grace = s.grace := by
  unfold onLaunch; split <;> rfl
@[simp] theorem onLaunch_budget (s : State) (l : Nat) (f : Launch → Launch) : (onLaunch s l f).budget = s.budget := by
  unfold onLaunch; split <;> rfl
@[simp] theorem onLaunch_bootStep (s : State) (l : Nat) (f : Launch → Launch) : (onLaunch s l f).bootStep = s.bootStep := by
  unfold onLaunch; split <;> rfl
@[simp] theorem onLaunch_bootCode (s : State) (l : Nat) (f : Launch → Launch) : (onLaunch s l f).bootCode = s.bootCode := by
  unfold onLaunch; split <;> rfl
@[simp] theorem onLaunch_firmware (s : State) (l : Nat) (f : Launch → Launch) : (onLaunch s l f).firmware = s.firmware := by
  unfold onLaunch; split <;> rfl
@[simp] theorem onLaunch_irqs (s : State) (l : Nat) (f : Launch → Launch) : (onLaunch s l f).irqs = s.irqs := by
  unfold onLaunch; split <;> rfl
@[simp] theorem onLaunch_blocked (s : State) (l : Nat) (f : Launch → Launch) : (onLaunch s l f).blocked = s.blocked := by
  unfold onLaunch; split <;> rfl
@[simp] theorem onLaunch_arbiter (s : State) (l : Nat) (f : Launch → Launch) : (onLaunch s l f).arbiter = s.arbiter := by
  unfold onLaunch; split <;> rfl
@[simp] theorem onLaunch_map (s : State) (l : Nat) (f : Launch → Launch) : (onLaunch s l f).map = s.map := by
  unfold onLaunch; split <;> rfl
@[simp] theorem onLaunch_changes (s : State) (l : Nat) (f : Launch → Launch) : (onLaunch s l f).changes = s.changes := by
  unfold onLaunch; split <;> rfl
@[simp] theorem onLaunch_withdrawn (s : State) (l : Nat) (f : Launch → Launch) : (onLaunch s l f).withdrawn = s.withdrawn := by
  unfold onLaunch; split <;> rfl
@[simp] theorem onLaunch_deadlines (s : State) (l : Nat) (f : Launch → Launch) : (onLaunch s l f).deadlines = s.deadlines := by
  unfold onLaunch; split <;> rfl
@[simp] theorem onLaunch_summaries (s : State) (l : Nat) (f : Launch → Launch) : (onLaunch s l f).summaries = s.summaries := by
  unfold onLaunch; split <;> rfl
@[simp] theorem onLaunch_levels (s : State) (l : Nat) (f : Launch → Launch) : (onLaunch s l f).levels = s.levels := by
  unfold onLaunch; split <;> rfl
@[simp] theorem onLaunch_lostLines (s : State) (l : Nat) (f : Launch → Launch) : (onLaunch s l f).lostLines = s.lostLines := by
  unfold onLaunch; split <;> rfl
@[simp] theorem onLaunch_indexOwed (s : State) (l : Nat) (f : Launch → Launch) : (onLaunch s l f).indexOwed = s.indexOwed := by
  unfold onLaunch; split <;> rfl
@[simp] theorem onLaunch_rates (s : State) (l : Nat) (f : Launch → Launch) : (onLaunch s l f).rates = s.rates := by
  unfold onLaunch; split <;> rfl
@[simp] theorem onLaunch_links (s : State) (l : Nat) (f : Launch → Launch) : (onLaunch s l f).links = s.links := by
  unfold onLaunch; split <;> rfl
@[simp] theorem onLaunch_unsettled (s : State) (l : Nat) (f : Launch → Launch) : (onLaunch s l f).unsettled = s.unsettled := by
  unfold onLaunch; split <;> rfl
@[simp] theorem onLaunch_parts (s : State) (l : Nat) (f : Launch → Launch) : (onLaunch s l f).parts = s.parts := by
  unfold onLaunch; split <;> rfl
@[simp] theorem onLaunch_shutter (s : State) (l : Nat) (f : Launch → Launch) : (onLaunch s l f).shutter = s.shutter := by
  unfold onLaunch; split <;> rfl
@[simp] theorem onLaunch_house (s : State) (l : Nat) (f : Launch → Launch) : (onLaunch s l f).house = s.house := by
  unfold onLaunch; split <;> rfl
@[simp] theorem onLaunch_cycles (s : State) (l : Nat) (f : Launch → Launch) : (onLaunch s l f).cycles = s.cycles := by
  unfold onLaunch; split <;> rfl
@[simp] theorem onLaunch_runtime (s : State) (l : Nat) (f : Launch → Launch) : (onLaunch s l f).runtime = s.runtime := by
  unfold onLaunch; split <;> rfl
@[simp] theorem onLaunch_estateSent (s : State) (l : Nat) (f : Launch → Launch) : (onLaunch s l f).estateSent = s.estateSent := by
  unfold onLaunch; split <;> rfl
@[simp] theorem onLaunch_sealedPages (s : State) (l : Nat) (f : Launch → Launch) : (onLaunch s l f).sealedPages = s.sealedPages := by
  unfold onLaunch; split <;> rfl
/-! ### Units -/

@[simp] theorem coreAt_putCore (s : State) (c : Nat) (v : Core) : coreAt (putCore s c v) c = v := by
  simp [coreAt, putCore]

theorem coreAt_putCore_other (s : State) (c d : Nat) (v : Core) (h : d ≠ c) : coreAt (putCore s c v) d = coreAt s d := by
  simp [coreAt, putCore, tget_tput_other _ _ _ _ _ h]

@[simp] theorem putCore_putCore (s : State) (c : Nat) (v w : Core) : putCore (putCore s c v) c w = putCore s c w := by
  simp [putCore]

@[simp] theorem coreAt_onCore (s : State) (c : Nat) (f : Core → Core) : coreAt (onCore s c f) c = f (coreAt s c) := by
  simp [onCore]

theorem coreAt_onCore_other (s : State) (c d : Nat) (f : Core → Core) (h : d ≠ c) :
    coreAt (onCore s c f) d = coreAt s d := coreAt_putCore_other s c d _ h

@[simp] theorem coreAt_putSlot (s : State) (c : Nat) (k : Fin 4) (v : Slot) :
    coreAt (putSlot s c k v) c = { coreAt s c with slots := (coreAt s c).slots.set k v } := by simp [putSlot]

theorem coreAt_putSlot_other (s : State) (c d : Nat) (k : Fin 4) (v : Slot) (h : d ≠ c) :
    coreAt (putSlot s c k v) d = coreAt s d := coreAt_putCore_other s c d _ h

@[simp] theorem slotAt_putSlot (s : State) (c : Nat) (k : Fin 4) (v : Slot) : slotAt (putSlot s c k v) c k = v := by
  simp [slotAt, Vector.get]

theorem slotAt_putSlot_other (s : State) (c : Nat) (k j : Fin 4) (v : Slot) (h : j ≠ k) :
    slotAt (putSlot s c k v) c j = slotAt s c j := by
  have : k.val ≠ j.val := fun e => h (Fin.ext e.symm)
  simp [slotAt, Vector.get, this]

@[simp] theorem slotAt_onSlot (s : State) (c : Nat) (k : Fin 4) (f : Slot → Slot) :
    slotAt (onSlot s c k f) c k = f (slotAt s c k) := by simp [onSlot]

@[simp] theorem putSlot_putSlot (s : State) (c : Nat) (k : Fin 4) (v w : Slot) :
    putSlot (putSlot s c k v) c k w = putSlot s c k w := by
  simp [putSlot]

@[simp] theorem coreAt_post (s : State) (es : List Due) (c : Nat) : coreAt (post s es) c = coreAt s c := rfl

@[simp] theorem slotAt_post (s : State) (es : List Due) (c : Nat) (k : Fin 4) : slotAt (post s es) c k = slotAt s c k := rfl

@[simp] theorem roomAt_onRoom (s : State) (r : Nat) (f : Room → Room) : roomAt (onRoom s r f) r = f (roomAt s r) := by
  simp [roomAt, onRoom]

theorem roomAt_onRoom_other (s : State) (r q : Nat) (f : Room → Room) (h : q ≠ r) :
    roomAt (onRoom s r f) q = roomAt s q := by simp [roomAt, onRoom, tget_tput_other _ _ _ _ _ h]

@[simp] theorem hallAt_onHall (s : State) (h : Nat) (f : Hall → Hall) : hallAt (onHall s h f) h = f (hallAt s h) := by
  simp [hallAt, onHall]

theorem hallAt_onHall_other (s : State) (h g : Nat) (f : Hall → Hall) (e : g ≠ h) :
    hallAt (onHall s h f) g = hallAt s g := by simp [hallAt, onHall, tget_tput_other _ _ _ _ _ e]

@[simp] theorem contextAt_onContext (s : State) (x : Nat) (f : Context → Context) :
    contextAt (onContext s x f) x = f (contextAt s x) := by simp [contextAt, onContext]

end Sys2Proof.Machine
end

