-- ==== Sys2Proof/Laws/Ops.lean ====
section
/-! SUPPORT. What the shared operations do: the checks of an instruction that issues plainly, its retirement, and programs
that change the issuing slot only. -/

namespace Sys2Proof.Machine

open Sys2Proof

theorem bind_ok {α β : Type} {m : M α} {s t : State} {a : α} (h : m s = .ok a t) (f : α → M β) : (m >>= f) s = f a t := by
  show EStateM.bind m f s = _
  unfold EStateM.bind
  rw [h]

theorem bind_error {α β : Type} {m : M α} {s t : State} {e : Stop} (h : m s = .error e t) (f : α → M β) :
    (m >>= f) s = .error e t := by
  show EStateM.bind m f s = _
  unfold EStateM.bind
  rw [h]

theorem settle_quiet (s : State) (h : Quiet s) : settle s = .ok () s := by
  have aux : ∀ (f : Nat × Launch → M Unit) (l : List (Nat × Launch)), (∀ e ∈ l, f e s = .ok () s) → (l.forM f) s = .ok () s := by
    intro f l
    induction l with
    | nil => intro _; rfl
    | cons e l ih =>
      intro h
      show (f e >>= fun _ => l.forM f) s = _
      rw [bind_ok (h e (by simp))]
      exact ih fun x hx => h x (by simp [hx])
  have hl : (modify fun s : State => if s.lostLines.isEmpty then s else reportLost s : M Unit) s = .ok () s := by
    show EStateM.Result.ok () (if s.lostLines.isEmpty then s else reportLost s) = _
    simp [h.2]
  unfold settle
  rw [bind_ok hl]
  refine aux _ s.launches fun e he => ?_
  obtain ⟨l, r⟩ := e
  have : r.mode ≠ 2 := h.1 (l, r) he
  simp [this]
  rfl

theorem pairOf_none (s : State) (c : Nat) (k : Fin 4) (h : (coreAt s c).pair = none) : pairOf s c k = none := by
  simp [pairOf, h]

theorem followerOf_none (s : State) (c : Nat) (k : Fin 4) (h : (coreAt s c).pair = none) : followerOf s c k = none := by
  simp [followerOf, pairOf_none s c k h]

theorem leadCore_alone (s : State) (c : Nat) (k : Fin 4) (h : (coreAt s c).pair = none) : leadCore s c k = c := by
  simp [leadCore, pairOf_none s c k h]

theorem forwarded_none (s : State) (c : Nat) (k : Fin 4) (h : (coreAt s c).chain = none) : forwarded s c k = none := by
  simp [forwarded, h]

theorem hasSent_none (s : State) (c : Nat) (k : Fin 4) (h : (coreAt s c).chain = none) : hasSent s c k = false := by
  simp [hasSent, h]

theorem followers_none (s : State) (c : Nat) (h : (coreAt s c).chain = none) : followers s c = [] := by
  simp [followers, h]

theorem mirrored_alone {α : Type} (act : M α) (s : State) (h : (coreAt s s.cur.1).pair = none) :
    mirrored act s = act s := by
  unfold mirrored
  rw [followerOf_none s _ _ h]
  cases act s <;> rfl

theorem accept_plain (i : Instr) (s : State) (hi : isHint i = false) (hp : Plain i s) : accept i s = .ok () s := by
  have hf : (here s).hints.find? (fun h => !accepts i h) = none := by
    have := hp.hints
    simp only [List.all_eq_true] at this
    simp only [List.find?_eq_none, Bool.not_eq_true', Bool.not_eq_false]
    exact this
  have hm := hp.mode
  show (do
    let v ← me
    if isHint i then
      ensure (!(v.hints.any fun h => hintKind h == hintKind i) && !atLoopEnd v) (illegal i)
    else
      match v.hints.find? fun h => !accepts i h with
      | some h => illegal h
      | none => ensure (decide ((privilege i).level ≤ (← myMode).level)) (trap 0x02) : M Unit) s = .ok () s
  rw [hi]
  show (match (here s).hints.find? fun h => !accepts i h with
      | some h => (illegal h : M Unit)
      | none => (do
        let m ← myMode
        ensure (decide ((privilege i).level ≤ m.level)) (trap 0x02))) s = _
  rw [hf]
  show (ensure (decide ((privilege i).level ≤ (modeOf s.cur.1 s.cur.2).level)) (trap 0x02) : M Unit) s = _
  simp [ensure, hm]
  rfl

/-- How an instruction that goes on ends. -/
def Flow.plain : Flow → Prop
  | .seq | .taken _ | .goto _ => True
  | _ => False

theorem retire_plain (s : State) (flow : Flow) (hf : flow.plain) : retire flow s = .ok () (after s (here s) flow) := by
  cases flow <;> first | rfl | exact hf.elim

theorem finish_plain (s : State) (flow : Flow) (hf : flow.plain) (h : (coreAt s s.cur.1).chain = none) :
    finish flow s = .ok () (after s (here s) flow) := by
  have h1 : followed s = .ok none s := by
    show EStateM.Result.ok (forwarded s s.cur.1 s.cur.2) s = _
    rw [forwarded_none s _ _ h]
  unfold finish
  rw [bind_ok h1]
  simp only
  rw [bind_ok (retire_plain s flow hf)]
  have h2 : hasSent (after s (here s) flow) s.cur.1 s.cur.2 = false := by
    simp [hasSent, after, h]
  have h3 : ∀ u : State, hasSent u u.cur.1 u.cur.2 = false → (modify fun s : State =>
      if hasSent s s.cur.1 s.cur.2 then onChain s s.cur.1 fun r => { r with sent := false } else s : M Unit) u = .ok () u := by
    intro u hu
    show EStateM.Result.ok () (if hasSent u u.cur.1 u.cur.2 = true then _ else u) = _
    rw [hu]; rfl
  cases flow <;> first | exact h3 _ h2 | exact hf.elim

@[simp] theorem coreAt_after (s : State) (v : Slot) (flow : Flow) : (coreAt (after s v flow) s.cur.1) =
    { coreAt s s.cur.1 with
      slots := (coreAt s s.cur.1).slots.set s.cur.2 (retired v (s.cur.2 == 3) flow)
      pointer := heldPointer v s.cur.2 (coreAt s s.cur.1).pointer } := by
  simp [after]

@[simp] theorem slotAt_after (s : State) (v : Slot) (flow : Flow) :
    slotAt (after s v flow) s.cur.1 s.cur.2 = retired v (s.cur.2 == 3) flow := by
  simp [slotAt, Vector.get]

theorem forward_alone (s : State) (i : Instr) (pc next : XWord) (loops : List Loop)
    (h : (coreAt s s.cur.1).chain = none) (hi : i ≠ .unchain) : forward s i pc next loops = s := by
  unfold forward
  split
  · rfl
  · have : ∀ f, forwardTo s s.cur.1 f = s := fun f => by simp [forwardTo, toFollowers, followers_none s _ h]
    cases i <;> first | rfl | exact absurd rfl hi | exact this _

theorem insn_plain (i : Instr) (s u : State) (body : M Flow) (flow : Flow) (hi : isHint i = false) (hu : i ≠ .unchain)
    (hp : Plain i s) (hb : body s = .ok flow u) (hf : flow.plain) (hq : Quiet u) (ha : Alone u) :
    insn i s body = .next (after u (here u) flow) := by
  have hact : (do
    accept i
    let flow ← body
    finish flow
    return flow : M Flow) s = .ok flow (after u (here u) flow) := by
    rw [bind_ok (accept_plain i s hi hp), bind_ok hb, bind_ok (finish_plain u flow hf ha.1)]
    rfl
  have hset : settle (after u (here u) flow) = .ok () (after u (here u) flow) := settle_quiet _ hq
  have hrun : (do
    let flow ← mirrored (do
      accept i
      let flow ← body
      finish flow
      return flow)
    settle
    return flow : M Flow) s = .ok flow (after u (here u) flow) := by
    rw [bind_ok ((mirrored_alone _ s hp.alone.2).trans hact), bind_ok hset]
    rfl
  unfold insn
  simp only
  rw [hrun]
  show Host.Outcome.next (ended i s (after u (here u) flow) flow) = _
  congr 1
  have hch : (coreAt (after u (here u) flow) (after u (here u) flow).cur.1).chain = none := by
    show (coreAt (after u (here u) flow) u.cur.1).chain = none
    rw [coreAt_after]; exact ha.1
  unfold ended
  simp only
  rw [forward_alone _ i _ _ _ hch hu]
  simp only [ite_self]
  cases flow <;> first | rfl | exact hf.elim

/-! ### Programs that touch the issuing slot only -/

/-- A program has changed the issuing slot to `v`, and nothing else. -/
structure Touched (s u : State) (v : Slot) : Prop where
  slot : here u = v
  cur : u.cur = s.cur
  launches : u.launches = s.launches
  lost : u.lostLines = s.lostLines
  chain : (coreAt u s.cur.1).chain = (coreAt s s.cur.1).chain
  pair : (coreAt u s.cur.1).pair = (coreAt s s.cur.1).pair
  after : ∀ w f, after u w f = after s w f

theorem Touched.refl (s : State) : Touched s s (here s) := ⟨rfl, rfl, rfl, rfl, rfl, rfl, fun _ _ => rfl⟩

theorem Touched.trans {s t u : State} {v w : Slot} (h : Touched s t v) (g : Touched t u w) : Touched s u w where
  slot := g.slot
  cur := g.cur.trans h.cur
  launches := g.launches.trans h.launches
  lost := g.lost.trans h.lost
  chain := by rw [← h.chain, ← h.cur]; exact g.chain
  pair := by rw [← h.pair, ← h.cur]; exact g.pair
  after w f := (g.after w f).trans (h.after w f)

theorem touched_onMe (s : State) (f : Slot → Slot) :
    ∃ u, onMe f s = .ok () u ∧ Touched s u (f (here s)) := by
  refine ⟨onSlot s s.cur.1 s.cur.2 f, rfl, ?_, rfl, rfl, rfl, ?_, ?_, ?_⟩
  · show slotAt (onSlot s s.cur.1 s.cur.2 f) s.cur.1 s.cur.2 = _
    simp [here]
  · simp [onSlot]
  · simp [onSlot]
  · intro w g
    simp [Machine.after, onSlot, putSlot, onCore]

theorem insn_touched (i : Instr) (s u : State) (v : Slot) (body : M Flow) (flow : Flow) (hi : isHint i = false)
    (hu : i ≠ .unchain) (hp : Plain i s) (hb : body s = .ok flow u) (hf : flow.plain) (ht : Touched s u v) :
    insn i s body = .next (after s v flow) := by
  have ha : Alone u := by
    unfold Alone
    rw [ht.cur, ht.chain, ht.pair]
    exact hp.alone
  have hq : Quiet u := by
    unfold Quiet
    rw [ht.launches, ht.lost]
    exact hp.quiet
  rw [insn_plain i s u body flow hi hu hp hb hf hq ha, ht.after, ht.slot]

theorem rx_clean (s : State) (r : Reg) (h : (here s).bad = []) : rx r s = .ok (xOf (here s) r) s := by
  unfold rx xOf
  show (if r = 0 then pure 0 else match tfind (here s).bad r.val with | none => pure ((here s).x.get r) | some c => _ : M XWord) s = _
  rw [h]
  split <;> rfl

theorem note_alone (s : State) (n : Nat) (h : (coreAt s s.cur.1).pair = none) : note n s = .ok () s := by
  show EStateM.Result.ok () (match pairOf s s.cur.1 s.cur.2 with
    | none => s
    | some p => onCore s s.cur.1 fun q => { q with pair := some { p with wrote := p.wrote ++ [n] } }) = _
  rw [pairOf_none s _ _ h]

/-- A change of the issuing slot that is noted for a pair is no more than that where there is no pair. -/
theorem touched_noted (s : State) (f : Slot → Slot) (n : Nat) (h : (coreAt s s.cur.1).pair = none) :
    ∃ u, (do onMe f; note n : M Unit) s = .ok () u ∧ Touched s u (f (here s)) := by
  obtain ⟨u, hu, ht⟩ := touched_onMe s f
  refine ⟨u, ?_, ht⟩
  have hp : (coreAt u u.cur.1).pair = none := by rw [ht.cur, ht.pair]; exact h
  rw [bind_ok hu, note_alone u n hp]

theorem wx_clean (s : State) (r : Reg) (d : XWord) (h : (here s).bad = []) (hp : (coreAt s s.cur.1).pair = none) :
    ∃ u, wx r d s = .ok () u ∧ Touched s u (withX (here s) r d) := by
  unfold wx withX
  split
  · exact ⟨s, rfl, Touched.refl s⟩
  · obtain ⟨u, hu, ht⟩ := touched_noted s (fun v => { v with x := v.x.set r d, bad := tdel v.bad r.val }) r.val hp
    refine ⟨u, hu, ?_⟩
    rw [h] at ht
    simpa [tdel, ← h] using ht

/-! ### Stops of an instruction that issues plainly -/

theorem enterTrap_alone (s : State) (pc : XWord) (cause : Nat) (addr : XWord) (sub info : Nat) (h : Alone s) :
    enterTrap s s.cur.1 s.cur.2 pc cause addr sub info =
      shutterOn s (takeTrap s s.cur.1 s.cur.2 pc cause addr sub info) s.cur.1 := by
  have h1 : partChain s s.cur.1 s.cur.2 = s := by
    unfold partChain
    rw [h.1]; simp
  unfold enterTrap
  rw [h1]
  simp only
  rw [followerOf_none s _ _ h.2]

theorem insn_error (i : Instr) (s u : State) (body : M Flow) (e : Stop) (hi : isHint i = false) (hp : Plain i s)
    (hb : body s = .error e u) : insn i s body = stopped i s u e := by
  have hrun : (do
    let flow ← mirrored (do
      accept i
      let flow ← body
      finish flow
      return flow)
    settle
    return flow : M Flow) s = .error e u := by
    refine bind_error ?_ _
    rw [mirrored_alone _ s hp.alone.2, bind_ok (accept_plain i s hi hp), bind_error hb]
  unfold insn
  simp only
  rw [hrun]

/-- A core's share of a state that its instruction has not changed there. -/
theorem keptCore_same (s u : State) (t : Table Core) (c : Nat) (h : (coreAt u c).tlb = (coreAt s c).tlb)
    (g : (coreAt u c).mappings = (coreAt s c).mappings) (r : remotesOf (coreAt u c) = remotesOf (coreAt s c)) :
    keptCore s u t c = t := if_pos ⟨h, g, r⟩

theorem keptRoom_same (s u : State) (t : Table Room) (r : Nat) (h : roomAt u r = roomAt s r) : keptRoom s u t r = t :=
  if_pos (by rw [h]; exact ⟨rfl, rfl, rfl⟩)

theorem keptHall_same (s u : State) (t : Table Hall) (x : Nat) (h : hallAt u x = hallAt s x) : keptHall s u t x = t :=
  if_pos (by rw [h]; exact ⟨rfl, rfl⟩)

theorem foldl_same {α β : Type} (f : β → α → β) (b : β) (l : List α) (h : ∀ a, f b a = b) : l.foldl f b = b := by
  induction l with
  | nil => rfl
  | cons a t ih => simp [h, ih]

/-- An instruction that trapped before it reached anything leaves nothing. -/
@[simp] theorem left_self (s : State) : left s s = s := by
  unfold left
  rw [foldl_same _ _ _ fun c => keptCore_same s s _ c rfl rfl rfl, foldl_same _ _ _ fun r => keptRoom_same s s _ r rfl,
    foldl_same _ _ _ fun h => keptHall_same s s _ h rfl]
  simp

theorem lookedUp_same {α : Type} (tlb : α → List TlbEntry) (put : α → List TlbEntry → α) (old : Nat → α) (t : Table α) (c : Nat) :
    lookedUp tlb put old old t c = t := if_pos rfl

/-- A stop that looked nothing up leaves the state as it was. -/
@[simp] theorem lookups_self (s : State) : lookups s s = s := by
  unfold lookups
  rw [foldl_same _ _ _ fun c => lookedUp_same _ _ _ _ c, foldl_same _ _ _ fun h => lookedUp_same _ _ _ _ h]

@[simp] theorem lookups_cur (s u : State) : (lookups s u).cur = s.cur := rfl

@[simp] theorem lookups_mem (s u : State) : (lookups s u).mem = s.mem := rfl

@[simp] theorem lookups_launches (s u : State) : (lookups s u).launches = s.launches := rfl

/-- A slot's change that leaves its count of remote accesses leaves those of its core. -/
theorem remotesOf_set (q : Core) (k : Fin 4) (v : Slot) (hr : v.remoteHall = (q.slots.get k).remoteHall)
    (hn : v.remoteCount = (q.slots.get k).remoteCount) : remotesOf { q with slots := q.slots.set k v } = remotesOf q := by
  unfold remotesOf
  rw [Vector.toList_set, List.map_set, hr, hn]
  have : (q.slots.toList.map fun v => (v.remoteHall, v.remoteCount))[k.val]? =
      some ((q.slots.get k).remoteHall, (q.slots.get k).remoteCount) := by simp [Vector.get]
  apply List.ext_getElem?
  intro i
  by_cases h : k.val = i
  · subst h; rw [this, List.getElem?_set_self (by simp)]
  · rw [List.getElem?_set_ne h]

/-- What an instruction has done to its own slot is undone by a trap, but for the count of its remote accesses. -/
@[simp] theorem left_onSlot (s : State) (c : Nat) (k : Fin 4) (f : Slot → Slot)
    (hr : (f (slotAt s c k)).remoteHall = (slotAt s c k).remoteHall) (hn : (f (slotAt s c k)).remoteCount = (slotAt s c k).remoteCount) :
    left s (onSlot s c k f) = s := by
  unfold left
  have hc : ∀ d, (coreAt (onSlot s c k f) d).tlb = (coreAt s d).tlb ∧ (coreAt (onSlot s c k f) d).mappings = (coreAt s d).mappings ∧
      remotesOf (coreAt (onSlot s c k f) d) = remotesOf (coreAt s d) := by
    intro d
    by_cases h : d = c
    · subst h
      exact ⟨by simp [onSlot, putSlot], by simp [onSlot, putSlot], by
        simpa [onSlot, putSlot] using remotesOf_set (coreAt s d) k (f (slotAt s d k)) hr hn⟩
    · simp [onSlot, putSlot, coreAt_putCore_other _ _ _ _ h]
  rw [foldl_same _ _ _ fun d => keptCore_same s (onSlot s c k f) _ d (hc d).1 (hc d).2.1 (hc d).2.2,
    foldl_same _ _ _ fun r => keptRoom_same s (onSlot s c k f) _ r rfl,
    foldl_same _ _ _ fun h => keptHall_same s (onSlot s c k f) _ h rfl]
  simp [onSlot, putSlot, putCore]

@[simp] theorem left_cur (s u : State) : (left s u).cur = s.cur := rfl

@[simp] theorem left_launches (s u : State) : (left s u).launches = s.launches := rfl

theorem stopped_trap (i : Instr) (s u : State) (cause : Nat) (addr : XWord) (sub info : Nat) (h : Alone (left s u))
    (hn : ¬(cause = 0x0E ∧ info = 4)) :
    stopped i s u (.trap cause addr sub info) =
      .next (shutterOn (left s u) (trapHere (left s u) cause addr sub info) s.cur.1) := by
  simp only [stopped, if_neg hn]
  rw [leadCore_alone _ _ _ h.2, pairOf_none _ _ _ h.2]
  simp only
  rw [enterTrap_alone (left s u) _ _ _ _ _ h]
  rfl

/-- The cores keep their chains and pairs when an instruction traps. -/
theorem left_alone (s u : State) (h : Alone s) : Alone (left s u) := by
  have aux : ∀ (l : List Nat) (t : Table Core), (tget Core.reset t s.cur.1).chain = none → (tget Core.reset t s.cur.1).pair = none →
      (tget Core.reset (l.foldl (keptCore s u) t) s.cur.1).chain = none ∧
      (tget Core.reset (l.foldl (keptCore s u) t) s.cur.1).pair = none := by
    intro l
    induction l with
    | nil => exact fun t h g => ⟨h, g⟩
    | cons c l ih =>
      intro t ht gt
      refine ih (keptCore s u t c) ?_ ?_ <;> unfold keptCore <;> dsimp only <;> split
      · exact ht
      · by_cases hc : s.cur.1 = c
        · subst hc; simpa using h.1
        · rw [tget_tput_other _ _ _ _ _ hc]; exact ht
      · exact gt
      · by_cases hc : s.cur.1 = c
        · subst hc; simpa using h.2
        · rw [tget_tput_other _ _ _ _ _ hc]; exact gt
  exact aux _ _ h.1 h.2

theorem insn_trap_from (i : Instr) (s u : State) (body : M Flow) (cause : Nat) (addr : XWord) (sub info : Nat)
    (hi : isHint i = false) (hp : Plain i s) (hb : body s = .error (.trap cause addr sub info) u)
    (hn : ¬(cause = 0x0E ∧ info = 4)) :
    insn i s body = .next (shutterOn (left s u) (trapHere (left s u) cause addr sub info) s.cur.1) := by
  rw [insn_error i s u body _ hi hp hb, stopped_trap i s u _ _ _ _ (left_alone s u hp.alone) hn]

theorem insn_trap (i : Instr) (s u : State) (body : M Flow) (cause : Nat) (addr : XWord) (sub info : Nat)
    (hi : isHint i = false) (hp : Plain i s) (hb : body s = .error (.trap cause addr sub info) u) (hl : left s u = s)
    (hn : ¬(cause = 0x0E ∧ info = 4)) :
    insn i s body = .next (shutterOn s (trapHere s cause addr sub info) s.cur.1) := by
  rw [insn_trap_from i s u body cause addr sub info hi hp hb hn, hl]

/-! ### From a body to what the instruction does -/

theorem ends_of {i : Instr} {s t : State} {v : Slot} {flow : Flow} {body : M Flow} (he : exec i s = insn i s body)
    (hi : isHint i = false) (hu : i ≠ .unchain) (hf : flow.plain) (hq : Plain i s → Quiet t) (ha : Plain i s → Alone t)
    (h : Plain i s → ∃ u, body s = .ok flow u ∧ Touched t u v) : Ends i s t v flow := by
  intro hp
  obtain ⟨u, hb, ht⟩ := h hp
  have ha' : Alone u := by
    unfold Alone
    rw [ht.cur, ht.chain, ht.pair]
    exact ha hp
  have hq' : Quiet u := by
    unfold Quiet
    rw [ht.launches, ht.lost]
    exact hq hp
  rw [he, insn_plain i s u body flow hi hu hp hb hf hq' ha', ht.after, ht.slot]

theorem runs_of {i : Instr} {s : State} {v : Slot} {flow : Flow} {body : M Flow} (he : exec i s = insn i s body)
    (hi : isHint i = false) (hu : i ≠ .unchain) (hf : flow.plain)
    (h : Plain i s → ∃ u, body s = .ok flow u ∧ Touched s u v) : Runs i s v flow :=
  ends_of he hi hu hf Plain.quiet Plain.alone h

theorem traps_from_of {i : Instr} {s u : State} {body : M Flow} {cause : Nat} {addr : XWord} {sub info : Nat}
    (he : exec i s = insn i s body) (hi : isHint i = false)
    (h : Plain i s → body s = .error (.trap cause addr sub info) u) (hn : ¬(cause = 0x0E ∧ info = 4)) : TrapsFrom i s u cause addr sub info := by
  intro hp
  rw [he]
  exact insn_trap_from i s u body cause addr sub info hi hp (h hp) hn

theorem traps_of {i : Instr} {s : State} {body : M Flow} {cause : Nat} {addr : XWord} {sub info : Nat}
    (he : exec i s = insn i s body) (hi : isHint i = false)
    (h : Plain i s → ∃ u, body s = .error (.trap cause addr sub info) u ∧ left s u = s)
    (hn : ¬(cause = 0x0E ∧ info = 4)) : Traps i s cause addr sub info := by
  intro hp
  obtain ⟨u, hb, hl⟩ := h hp
  rw [he]
  exact insn_trap i s u body cause addr sub info hi hp hb hl hn

theorem transfer_own (s : State) (own : M Flow) (h : Alone s) : transfer own s = own s := by
  unfold transfer
  have h1 : followed s = .ok none s := by
    show EStateM.Result.ok (forwarded s s.cur.1 s.cur.2) s = _
    rw [forwarded_none s _ _ h.1]
  rw [bind_ok h1]

theorem me_run (s : State) : me s = .ok (here s) s := rfl

theorem touched_self (t : State) : Touched t t (here t) := Touched.refl t

end Sys2Proof.Machine
end

