-- ==== Sys2Proof/Laws/Memory.lean ====
section
/-! SUPPORT. What an access to memory does where no other copy of its bytes exists. -/

namespace Sys2Proof.Machine

open Sys2Proof

theorem mappedLines_uncopied (s : State) (room : Option Nat) (key line : Nat) (h : ∀ e ∈ s.cores, e.2.mappings = []) :
    mappedLines s room key line = [] := by
  simp only [mappedLines, List.flatMap_eq_nil_iff]
  intro e he
  simp [h e he]

theorem hasPartials_uncopied (s : State) (key line : Nat) (h : Uncopied s) : hasPartials s key line = false := by
  obtain ⟨-, hr, hp⟩ := h
  simp only [hasPartials, hp, List.any_nil, Bool.false_or, List.any_eq_false]
  intro e he
  simp [hr e he]

theorem recallLine_uncopied (s : State) (key line : Nat) (h : Uncopied s) : recallLine s key line = s := by
  simp [recallLine, hasPartials_uncopied s key line h]

theorem recallSpan_uncopied (s : State) (key pa n : Nat) (h : Uncopied s) : recallSpan s key pa n = s :=
  foldl_same _ _ _ fun _ => recallLine_uncopied s key _ h

theorem readSpan_uncopied (s : State) (room : Option Nat) (key pa n : Nat) (h : Uncopied s) : readSpan s room key pa n = s :=
  foldl_same _ _ _ fun l => by simp [readLine, mappedLines_uncopied s room key l h.1]

theorem claimSpan_uncopied (s : State) (room : Option Nat) (key pa n : Nat) (h : Uncopied s) :
    claimSpan s room key pa n = s :=
  foldl_same _ _ _ fun l => by simp [claimLine, mappedLines_uncopied s room key l h.1]

theorem copyWings_uncopied (s : State) (room : Option Nat) (key pa n : Nat) (h : Uncopied s) :
    copyWings s room key pa n = [] := by
  simp only [copyWings, List.flatMap_eq_nil_iff]
  intro l _
  simp [mappedLines_uncopied s room key l h.1]

/-- A read of memory that no range and no line copies answers its bytes, and changes nothing. -/
theorem peek_uncopied (s : State) (addr : XWord) (key pa n : Nat) (room : Option Nat) (h : Uncopied s) :
    peek addr (.mem key pa) n room s =
      .ok (memBytes s.mem (memKey key pa) n, (poisonIn s (memKey key pa) n).isSome) s := by
  have hs : readSpan (recallSpan s key pa n) room key pa n = s := by
    rw [recallSpan_uncopied s key pa n h, readSpan_uncopied s room key pa n h]
  show EStateM.Result.ok (memBytes (readSpan (recallSpan s key pa n) room key pa n).mem (memKey key pa) n,
    (poisonIn (readSpan (recallSpan s key pa n) room key pa n) (memKey key pa) n).isSome)
    (readSpan (recallSpan s key pa n) room key pa n) = _
  rw [hs]

/-- A write to memory that no range and no line copies writes its bytes, and the words it covers lose their poison. -/
theorem pokeMem_uncopied (s : State) (w key pa : Nat) (bs : List Byte) (room : Option Nat) (h : Uncopied s) :
    pokeMem s w key pa bs room = leaveFor { s with
      mem := memWrite s.mem (memKey key pa) bs
      poison := s.poison.filter (fun a => !(wholeWordsIn (memKey key pa) bs.length).contains a) } w (homeWings s pa) := by
  simp [pokeMem, recallSpan_uncopied s key pa bs.length h, claimSpan_uncopied s room key pa bs.length h,
    copyWings_uncopied s room key pa bs.length h]

/-- A write of a wing to its own homes, with no copy elsewhere, leaves no wing. -/
theorem leaveFor_own (s : State) (w : Nat) : leaveFor s w [w] = s := by
  simp [leaveFor]

end Sys2Proof.Machine
end

