-- ==== Sys2Proof/Laws/PerInstr.lean ====
section
/-! SUPPORT. Statements made of each instruction as syntax, one lemma for each constructor. -/

namespace Sys2Proof

set_option linter.unusedSimpArgs false
set_option linter.unnecessarySeqFocus false

/-- The decoder reads back what the encoder wrote: every operand of a well-formed instruction at every value. -/
def Laws.Coding.Statement (i : Instr) : Prop := i.coded = true → i.wf = true → decode (encode i) = .ok i

theorem Laws.Coding.add (ty : Ty) (d : Reg) (a : Reg) (b : Reg) : Laws.Coding.Statement (.add ty d a b) := by
  intro _ hw
  have := ty.code_lt
  replace hw : (ty.colI) = true := hw
  show decode (encA 0 d.val a.val b.val 1 ty.code) = _
  rw [decode_0 _ (fMajor_encA _ _ _ _ _ _ (by omega) (by omega) (by omega) (by omega) (by omega) (by omega))]
  unfold decodeInt
  rw [fMinor_encA _ _ _ _ _ _ (by omega) (by omega) (by omega) (by omega) (by omega) (by omega)]
  simp (disch := first | omega | assumption) only [fD_encA, fA_encA, fB_encA, fTy_encA, typeIn_code, ofNat_val] <;> rfl

theorem Laws.Coding.sub (ty : Ty) (d : Reg) (a : Reg) (b : Reg) : Laws.Coding.Statement (.sub ty d a b) := by
  intro _ hw
  have := ty.code_lt
  replace hw : (ty.colI) = true := hw
  show decode (encA 0 d.val a.val b.val 2 ty.code) = _
  rw [decode_0 _ (fMajor_encA _ _ _ _ _ _ (by omega) (by omega) (by omega) (by omega) (by omega) (by omega))]
  unfold decodeInt
  rw [fMinor_encA _ _ _ _ _ _ (by omega) (by omega) (by omega) (by omega) (by omega) (by omega)]
  simp (disch := first | omega | assumption) only [fD_encA, fA_encA, fB_encA, fTy_encA, typeIn_code, ofNat_val] <;> rfl

theorem Laws.Coding.mul (ty : Ty) (d : Reg) (a : Reg) (b : Reg) : Laws.Coding.Statement (.mul ty d a b) := by
  intro _ hw
  have := ty.code_lt
  replace hw : (ty.colI) = true := hw
  show decode (encA 0 d.val a.val b.val 3 ty.code) = _
  rw [decode_0 _ (fMajor_encA _ _ _ _ _ _ (by omega) (by omega) (by omega) (by omega) (by omega) (by omega))]
  unfold decodeInt
  rw [fMinor_encA _ _ _ _ _ _ (by omega) (by omega) (by omega) (by omega) (by omega) (by omega)]
  simp (disch := first | omega | assumption) only [fD_encA, fA_encA, fB_encA, fTy_encA, typeIn_code, ofNat_val] <;> rfl

theorem Laws.Coding.mulh (ty : Ty) (d : Reg) (a : Reg) (b : Reg) : Laws.Coding.Statement (.mulh ty d a b) := by
  intro _ hw
  have := ty.code_lt
  replace hw : (ty.colI) = true := hw
  show decode (encA 0 d.val a.val b.val 4 ty.code) = _
  rw [decode_0 _ (fMajor_encA _ _ _ _ _ _ (by omega) (by omega) (by omega) (by omega) (by omega) (by omega))]
  unfold decodeInt
  rw [fMinor_encA _ _ _ _ _ _ (by omega) (by omega) (by omega) (by omega) (by omega) (by omega)]
  simp (disch := first | omega | assumption) only [fD_encA, fA_encA, fB_encA, fTy_encA, typeIn_code, ofNat_val] <;> rfl

theorem Laws.Coding.div (ty : Ty) (d : Reg) (a : Reg) (b : Reg) : Laws.Coding.Statement (.div ty d a b) := by
  intro _ hw
  have := ty.code_lt
  replace hw : (ty.colI) = true := hw
  show decode (encA 0 d.val a.val b.val 5 ty.code) = _
  rw [decode_0 _ (fMajor_encA _ _ _ _ _ _ (by omega) (by omega) (by omega) (by omega) (by omega) (by omega))]
  unfold decodeInt
  rw [fMinor_encA _ _ _ _ _ _ (by omega) (by omega) (by omega) (by omega) (by omega) (by omega)]
  simp (disch := first | omega | assumption) only [fD_encA, fA_encA, fB_encA, fTy_encA, typeIn_code, ofNat_val] <;> rfl

theorem Laws.Coding.rem (ty : Ty) (d : Reg) (a : Reg) (b : Reg) : Laws.Coding.Statement (.rem ty d a b) := by
  intro _ hw
  have := ty.code_lt
  replace hw : (ty.colI) = true := hw
  show decode (encA 0 d.val a.val b.val 6 ty.code) = _
  rw [decode_0 _ (fMajor_encA _ _ _ _ _ _ (by omega) (by omega) (by omega) (by omega) (by omega) (by omega))]
  unfold decodeInt
  rw [fMinor_encA _ _ _ _ _ _ (by omega) (by omega) (by omega) (by omega) (by omega) (by omega)]
  simp (disch := first | omega | assumption) only [fD_encA, fA_encA, fB_encA, fTy_encA, typeIn_code, ofNat_val] <;> rfl

theorem Laws.Coding.and (ty : Ty) (d : Reg) (a : Reg) (b : Reg) : Laws.Coding.Statement (.and ty d a b) := by
  intro _ hw
  have := ty.code_lt
  replace hw : (ty.colI) = true := hw
  show decode (encA 0 d.val a.val b.val 7 ty.code) = _
  rw [decode_0 _ (fMajor_encA _ _ _ _ _ _ (by omega) (by omega) (by omega) (by omega) (by omega) (by omega))]
  unfold decodeInt
  rw [fMinor_encA _ _ _ _ _ _ (by omega) (by omega) (by omega) (by omega) (by omega) (by omega)]
  simp (disch := first | omega | assumption) only [fD_encA, fA_encA, fB_encA, fTy_encA, typeIn_code, ofNat_val] <;> rfl

theorem Laws.Coding.or (ty : Ty) (d : Reg) (a : Reg) (b : Reg) : Laws.Coding.Statement (.or ty d a b) := by
  intro _ hw
  have := ty.code_lt
  replace hw : (ty.colI) = true := hw
  show decode (encA 0 d.val a.val b.val 8 ty.code) = _
  rw [decode_0 _ (fMajor_encA _ _ _ _ _ _ (by omega) (by omega) (by omega) (by omega) (by omega) (by omega))]
  unfold decodeInt
  rw [fMinor_encA _ _ _ _ _ _ (by omega) (by omega) (by omega) (by omega) (by omega) (by omega)]
  simp (disch := first | omega | assumption) only [fD_encA, fA_encA, fB_encA, fTy_encA, typeIn_code, ofNat_val] <;> rfl

theorem Laws.Coding.xor (ty : Ty) (d : Reg) (a : Reg) (b : Reg) : Laws.Coding.Statement (.xor ty d a b) := by
  intro _ hw
  have := ty.code_lt
  replace hw : (ty.colI) = true := hw
  show decode (encA 0 d.val a.val b.val 9 ty.code) = _
  rw [decode_0 _ (fMajor_encA _ _ _ _ _ _ (by omega) (by omega) (by omega) (by omega) (by omega) (by omega))]
  unfold decodeInt
  rw [fMinor_encA _ _ _ _ _ _ (by omega) (by omega) (by omega) (by omega) (by omega) (by omega)]
  simp (disch := first | omega | assumption) only [fD_encA, fA_encA, fB_encA, fTy_encA, typeIn_code, ofNat_val] <;> rfl

theorem Laws.Coding.andn (ty : Ty) (d : Reg) (a : Reg) (b : Reg) : Laws.Coding.Statement (.andn ty d a b) := by
  intro _ hw
  have := ty.code_lt
  replace hw : (ty.colI) = true := hw
  show decode (encA 0 d.val a.val b.val 10 ty.code) = _
  rw [decode_0 _ (fMajor_encA _ _ _ _ _ _ (by omega) (by omega) (by omega) (by omega) (by omega) (by omega))]
  unfold decodeInt
  rw [fMinor_encA _ _ _ _ _ _ (by omega) (by omega) (by omega) (by omega) (by omega) (by omega)]
  simp (disch := first | omega | assumption) only [fD_encA, fA_encA, fB_encA, fTy_encA, typeIn_code, ofNat_val] <;> rfl

theorem Laws.Coding.sll (ty : Ty) (d : Reg) (a : Reg) (b : Reg) : Laws.Coding.Statement (.sll ty d a b) := by
  intro _ hw
  have := ty.code_lt
  replace hw : (ty.colI) = true := hw
  show decode (encA 0 d.val a.val b.val 11 ty.code) = _
  rw [decode_0 _ (fMajor_encA _ _ _ _ _ _ (by omega) (by omega) (by omega) (by omega) (by omega) (by omega))]
  unfold decodeInt
  rw [fMinor_encA _ _ _ _ _ _ (by omega) (by omega) (by omega) (by omega) (by omega) (by omega)]
  simp (disch := first | omega | assumption) only [fD_encA, fA_encA, fB_encA, fTy_encA, typeIn_code, ofNat_val] <;> rfl

theorem Laws.Coding.srl (ty : Ty) (d : Reg) (a : Reg) (b : Reg) : Laws.Coding.Statement (.srl ty d a b) := by
  intro _ hw
  have := ty.code_lt
  replace hw : (ty.colI) = true := hw
  show decode (encA 0 d.val a.val b.val 12 ty.code) = _
  rw [decode_0 _ (fMajor_encA _ _ _ _ _ _ (by omega) (by omega) (by omega) (by omega) (by omega) (by omega))]
  unfold decodeInt
  rw [fMinor_encA _ _ _ _ _ _ (by omega) (by omega) (by omega) (by omega) (by omega) (by omega)]
  simp (disch := first | omega | assumption) only [fD_encA, fA_encA, fB_encA, fTy_encA, typeIn_code, ofNat_val] <;> rfl

theorem Laws.Coding.sra (ty : Ty) (d : Reg) (a : Reg) (b : Reg) : Laws.Coding.Statement (.sra ty d a b) := by
  intro _ hw
  have := ty.code_lt
  replace hw : (ty.colI) = true := hw
  show decode (encA 0 d.val a.val b.val 13 ty.code) = _
  rw [decode_0 _ (fMajor_encA _ _ _ _ _ _ (by omega) (by omega) (by omega) (by omega) (by omega) (by omega))]
  unfold decodeInt
  rw [fMinor_encA _ _ _ _ _ _ (by omega) (by omega) (by omega) (by omega) (by omega) (by omega)]
  simp (disch := first | omega | assumption) only [fD_encA, fA_encA, fB_encA, fTy_encA, typeIn_code, ofNat_val] <;> rfl

theorem Laws.Coding.rot (ty : Ty) (d : Reg) (a : Reg) (b : Reg) : Laws.Coding.Statement (.rot ty d a b) := by
  intro _ hw
  have := ty.code_lt
  replace hw : (ty.colI) = true := hw
  show decode (encA 0 d.val a.val b.val 14 ty.code) = _
  rw [decode_0 _ (fMajor_encA _ _ _ _ _ _ (by omega) (by omega) (by omega) (by omega) (by omega) (by omega))]
  unfold decodeInt
  rw [fMinor_encA _ _ _ _ _ _ (by omega) (by omega) (by omega) (by omega) (by omega) (by omega)]
  simp (disch := first | omega | assumption) only [fD_encA, fA_encA, fB_encA, fTy_encA, typeIn_code, ofNat_val] <;> rfl

theorem Laws.Coding.min (ty : Ty) (d : Reg) (a : Reg) (b : Reg) : Laws.Coding.Statement (.min ty d a b) := by
  intro _ hw
  have := ty.code_lt
  replace hw : (ty.colI) = true := hw
  show decode (encA 0 d.val a.val b.val 15 ty.code) = _
  rw [decode_0 _ (fMajor_encA _ _ _ _ _ _ (by omega) (by omega) (by omega) (by omega) (by omega) (by omega))]
  unfold decodeInt
  rw [fMinor_encA _ _ _ _ _ _ (by omega) (by omega) (by omega) (by omega) (by omega) (by omega)]
  simp (disch := first | omega | assumption) only [fD_encA, fA_encA, fB_encA, fTy_encA, typeIn_code, ofNat_val] <;> rfl

theorem Laws.Coding.max (ty : Ty) (d : Reg) (a : Reg) (b : Reg) : Laws.Coding.Statement (.max ty d a b) := by
  intro _ hw
  have := ty.code_lt
  replace hw : (ty.colI) = true := hw
  show decode (encA 0 d.val a.val b.val 16 ty.code) = _
  rw [decode_0 _ (fMajor_encA _ _ _ _ _ _ (by omega) (by omega) (by omega) (by omega) (by omega) (by omega))]
  unfold decodeInt
  rw [fMinor_encA _ _ _ _ _ _ (by omega) (by omega) (by omega) (by omega) (by omega) (by omega)]
  simp (disch := first | omega | assumption) only [fD_encA, fA_encA, fB_encA, fTy_encA, typeIn_code, ofNat_val] <;> rfl

theorem Laws.Coding.slt (ty : Ty) (d : Reg) (a : Reg) (b : Reg) : Laws.Coding.Statement (.slt ty d a b) := by
  intro _ hw
  have := ty.code_lt
  replace hw : (ty.colI) = true := hw
  show decode (encA 0 d.val a.val b.val 17 ty.code) = _
  rw [decode_0 _ (fMajor_encA _ _ _ _ _ _ (by omega) (by omega) (by omega) (by omega) (by omega) (by omega))]
  unfold decodeInt
  rw [fMinor_encA _ _ _ _ _ _ (by omega) (by omega) (by omega) (by omega) (by omega) (by omega)]
  simp (disch := first | omega | assumption) only [fD_encA, fA_encA, fB_encA, fTy_encA, typeIn_code, ofNat_val] <;> rfl

theorem Laws.Coding.seq (ty : Ty) (d : Reg) (a : Reg) (b : Reg) : Laws.Coding.Statement (.seq ty d a b) := by
  intro _ hw
  have := ty.code_lt
  replace hw : (ty.colI) = true := hw
  show decode (encA 0 d.val a.val b.val 18 ty.code) = _
  rw [decode_0 _ (fMajor_encA _ _ _ _ _ _ (by omega) (by omega) (by omega) (by omega) (by omega) (by omega))]
  unfold decodeInt
  rw [fMinor_encA _ _ _ _ _ _ (by omega) (by omega) (by omega) (by omega) (by omega) (by omega)]
  simp (disch := first | omega | assumption) only [fD_encA, fA_encA, fB_encA, fTy_encA, typeIn_code, ofNat_val] <;> rfl

theorem Laws.Coding.clz (ty : Ty) (d : Reg) (a : Reg) : Laws.Coding.Statement (.clz ty d a) := by
  intro _ hw
  have := ty.code_lt
  replace hw : (ty.colI) = true := hw
  show decode (encA 0 d.val a.val 0 19 ty.code) = _
  rw [decode_0 _ (fMajor_encA _ _ _ _ _ _ (by omega) (by omega) (by omega) (by omega) (by omega) (by omega))]
  unfold decodeInt
  rw [fMinor_encA _ _ _ _ _ _ (by omega) (by omega) (by omega) (by omega) (by omega) (by omega)]
  simp (disch := first | omega | assumption) only [fD_encA, fA_encA, fB_encA, fTy_encA, typeIn_code, need_ok, ofNat_val] <;> rfl

theorem Laws.Coding.ctz (ty : Ty) (d : Reg) (a : Reg) : Laws.Coding.Statement (.ctz ty d a) := by
  intro _ hw
  have := ty.code_lt
  replace hw : (ty.colI) = true := hw
  show decode (encA 0 d.val a.val 0 20 ty.code) = _
  rw [decode_0 _ (fMajor_encA _ _ _ _ _ _ (by omega) (by omega) (by omega) (by omega) (by omega) (by omega))]
  unfold decodeInt
  rw [fMinor_encA _ _ _ _ _ _ (by omega) (by omega) (by omega) (by omega) (by omega) (by omega)]
  simp (disch := first | omega | assumption) only [fD_encA, fA_encA, fB_encA, fTy_encA, typeIn_code, need_ok, ofNat_val] <;> rfl

theorem Laws.Coding.popc (ty : Ty) (d : Reg) (a : Reg) : Laws.Coding.Statement (.popc ty d a) := by
  intro _ hw
  have := ty.code_lt
  replace hw : (ty.colI) = true := hw
  show decode (encA 0 d.val a.val 0 21 ty.code) = _
  rw [decode_0 _ (fMajor_encA _ _ _ _ _ _ (by omega) (by omega) (by omega) (by omega) (by omega) (by omega))]
  unfold decodeInt
  rw [fMinor_encA _ _ _ _ _ _ (by omega) (by omega) (by omega) (by omega) (by omega) (by omega)]
  simp (disch := first | omega | assumption) only [fD_encA, fA_encA, fB_encA, fTy_encA, typeIn_code, need_ok, ofNat_val] <;> rfl

theorem Laws.Coding.ext (ty : Ty) (d : Reg) (a : Reg) : Laws.Coding.Statement (.ext ty d a) := by
  intro _ hw
  have := ty.code_lt
  replace hw : (ty.colI) = true := hw
  show decode (encA 0 d.val a.val 0 22 ty.code) = _
  rw [decode_0 _ (fMajor_encA _ _ _ _ _ _ (by omega) (by omega) (by omega) (by omega) (by omega) (by omega))]
  unfold decodeInt
  rw [fMinor_encA _ _ _ _ _ _ (by omega) (by omega) (by omega) (by omega) (by omega) (by omega)]
  simp (disch := first | omega | assumption) only [fD_encA, fA_encA, fB_encA, fTy_encA, typeIn_code, need_ok, ofNat_val] <;> rfl

theorem Laws.Coding.bfx (ty : Ty) (d : Reg) (a : Reg) (b : Reg) : Laws.Coding.Statement (.bfx ty d a b) := by
  intro _ hw
  have := ty.code_lt
  replace hw : (ty.colI) = true := hw
  show decode (encA 0 d.val a.val b.val 23 ty.code) = _
  rw [decode_0 _ (fMajor_encA _ _ _ _ _ _ (by omega) (by omega) (by omega) (by omega) (by omega) (by omega))]
  unfold decodeInt
  rw [fMinor_encA _ _ _ _ _ _ (by omega) (by omega) (by omega) (by omega) (by omega) (by omega)]
  simp (disch := first | omega | assumption) only [fD_encA, fA_encA, fB_encA, fTy_encA, typeIn_code, ofNat_val] <;> rfl

theorem Laws.Coding.bfi (ty : Ty) (d : Reg) (a : Reg) (b : Reg) : Laws.Coding.Statement (.bfi ty d a b) := by
  intro _ hw
  have := ty.code_lt
  replace hw : (ty.colI) = true := hw
  show decode (encA 0 d.val a.val b.val 24 ty.code) = _
  rw [decode_0 _ (fMajor_encA _ _ _ _ _ _ (by omega) (by omega) (by omega) (by omega) (by omega) (by omega))]
  unfold decodeInt
  rw [fMinor_encA _ _ _ _ _ _ (by omega) (by omega) (by omega) (by omega) (by omega) (by omega)]
  simp (disch := first | omega | assumption) only [fD_encA, fA_encA, fB_encA, fTy_encA, typeIn_code, ofNat_val] <;> rfl

theorem Laws.Coding.cmov (ty : Ty) (d : Reg) (a : Reg) (b : Reg) : Laws.Coding.Statement (.cmov ty d a b) := by
  intro _ hw
  have := ty.code_lt
  replace hw : (ty.colI) = true := hw
  show decode (encA 0 d.val a.val b.val 25 ty.code) = _
  rw [decode_0 _ (fMajor_encA _ _ _ _ _ _ (by omega) (by omega) (by omega) (by omega) (by omega) (by omega))]
  unfold decodeInt
  rw [fMinor_encA _ _ _ _ _ _ (by omega) (by omega) (by omega) (by omega) (by omega) (by omega)]
  simp (disch := first | omega | assumption) only [fD_encA, fA_encA, fB_encA, fTy_encA, typeIn_code, ofNat_val] <;> rfl

theorem Laws.Coding.addi (d : Reg) (a : Reg) (imm : BitVec 16) : Laws.Coding.Statement (.addi d a imm) := by
  intro _ hw
  show decode (encI 1 d.val a.val imm.toNat) = _
  rw [decode_1 _ (fMajor_encI _ _ _ _ (by omega) (by omega) (by omega) (by omega))]
  simp (disch := first | omega | assumption) only [fD_encI, fA_encI, fImm16_encI, ofNat_val, BitVec.ofNat_toNat, BitVec.setWidth_eq]

theorem Laws.Coding.andi (d : Reg) (a : Reg) (imm : BitVec 16) : Laws.Coding.Statement (.andi d a imm) := by
  intro _ hw
  show decode (encI 2 d.val a.val imm.toNat) = _
  rw [decode_2 _ (fMajor_encI _ _ _ _ (by omega) (by omega) (by omega) (by omega))]
  simp (disch := first | omega | assumption) only [fD_encI, fA_encI, fImm16_encI, ofNat_val, BitVec.ofNat_toNat, BitVec.setWidth_eq]

theorem Laws.Coding.ori (d : Reg) (a : Reg) (imm : BitVec 16) : Laws.Coding.Statement (.ori d a imm) := by
  intro _ hw
  show decode (encI 3 d.val a.val imm.toNat) = _
  rw [decode_3 _ (fMajor_encI _ _ _ _ (by omega) (by omega) (by omega) (by omega))]
  simp (disch := first | omega | assumption) only [fD_encI, fA_encI, fImm16_encI, ofNat_val, BitVec.ofNat_toNat, BitVec.setWidth_eq]

theorem Laws.Coding.xori (d : Reg) (a : Reg) (imm : BitVec 16) : Laws.Coding.Statement (.xori d a imm) := by
  intro _ hw
  show decode (encI 4 d.val a.val imm.toNat) = _
  rw [decode_4 _ (fMajor_encI _ _ _ _ (by omega) (by omega) (by omega) (by omega))]
  simp (disch := first | omega | assumption) only [fD_encI, fA_encI, fImm16_encI, ofNat_val, BitVec.ofNat_toNat, BitVec.setWidth_eq]

theorem Laws.Coding.slli (d : Reg) (a : Reg) (n : BitVec 6) : Laws.Coding.Statement (.slli d a n) := by
  intro _ _
  show decode (encI 5 d.val a.val (0 * 16384 + n.toNat)) = _
  rw [decode_5 _ (fMajor_encI _ _ _ _ (by omega) (by omega) (by omega) (by omega))]
  unfold decodeShift
  have e : (fImm16 (encI 5 d.val a.val (0 * 16384 + n.toNat))).toNat = 0 * 16384 + n.toNat := by
    rw [fImm16_encI _ _ _ _ (by omega) (by omega) (by omega) (by omega), BitVec.toNat_ofNat]; omega
  have q : (0 * 16384 + n.toNat) / 16384 = 0 := by omega
  have z : (0 * 16384 + n.toNat) / 64 % 256 = 0 := by omega
  have m : fShift (encI 5 d.val a.val (0 * 16384 + n.toNat)) = n := by
    apply BitVec.eq_of_toNat_eq; simp only [fShift, encI_toNat 5 d.val a.val (0 * 16384 + n.toNat) (by omega) (by omega) (by omega) (by omega), BitVec.toNat_ofNat]; omega
  rw [e, q]
  simp (disch := omega) only [fD_encI, fA_encI, ofNat_val, m, z] <;> rfl

theorem Laws.Coding.srli (d : Reg) (a : Reg) (n : BitVec 6) : Laws.Coding.Statement (.srli d a n) := by
  intro _ _
  show decode (encI 5 d.val a.val (1 * 16384 + n.toNat)) = _
  rw [decode_5 _ (fMajor_encI _ _ _ _ (by omega) (by omega) (by omega) (by omega))]
  unfold decodeShift
  have e : (fImm16 (encI 5 d.val a.val (1 * 16384 + n.toNat))).toNat = 1 * 16384 + n.toNat := by
    rw [fImm16_encI _ _ _ _ (by omega) (by omega) (by omega) (by omega), BitVec.toNat_ofNat]; omega
  have q : (1 * 16384 + n.toNat) / 16384 = 1 := by omega
  have z : (1 * 16384 + n.toNat) / 64 % 256 = 0 := by omega
  have m : fShift (encI 5 d.val a.val (1 * 16384 + n.toNat)) = n := by
    apply BitVec.eq_of_toNat_eq; simp only [fShift, encI_toNat 5 d.val a.val (1 * 16384 + n.toNat) (by omega) (by omega) (by omega) (by omega), BitVec.toNat_ofNat]; omega
  rw [e, q]
  simp (disch := omega) only [fD_encI, fA_encI, ofNat_val, m, z] <;> rfl

theorem Laws.Coding.srai (d : Reg) (a : Reg) (n : BitVec 6) : Laws.Coding.Statement (.srai d a n) := by
  intro _ _
  show decode (encI 5 d.val a.val (2 * 16384 + n.toNat)) = _
  rw [decode_5 _ (fMajor_encI _ _ _ _ (by omega) (by omega) (by omega) (by omega))]
  unfold decodeShift
  have e : (fImm16 (encI 5 d.val a.val (2 * 16384 + n.toNat))).toNat = 2 * 16384 + n.toNat := by
    rw [fImm16_encI _ _ _ _ (by omega) (by omega) (by omega) (by omega), BitVec.toNat_ofNat]; omega
  have q : (2 * 16384 + n.toNat) / 16384 = 2 := by omega
  have z : (2 * 16384 + n.toNat) / 64 % 256 = 0 := by omega
  have m : fShift (encI 5 d.val a.val (2 * 16384 + n.toNat)) = n := by
    apply BitVec.eq_of_toNat_eq; simp only [fShift, encI_toNat 5 d.val a.val (2 * 16384 + n.toNat) (by omega) (by omega) (by omega) (by omega), BitVec.toNat_ofNat]; omega
  rw [e, q]
  simp (disch := omega) only [fD_encI, fA_encI, ofNat_val, m, z] <;> rfl

theorem Laws.Coding.roti (d : Reg) (a : Reg) (n : BitVec 6) : Laws.Coding.Statement (.roti d a n) := by
  intro _ _
  show decode (encI 5 d.val a.val (3 * 16384 + n.toNat)) = _
  rw [decode_5 _ (fMajor_encI _ _ _ _ (by omega) (by omega) (by omega) (by omega))]
  unfold decodeShift
  have e : (fImm16 (encI 5 d.val a.val (3 * 16384 + n.toNat))).toNat = 3 * 16384 + n.toNat := by
    rw [fImm16_encI _ _ _ _ (by omega) (by omega) (by omega) (by omega), BitVec.toNat_ofNat]; omega
  have q : (3 * 16384 + n.toNat) / 16384 = 3 := by omega
  have z : (3 * 16384 + n.toNat) / 64 % 256 = 0 := by omega
  have m : fShift (encI 5 d.val a.val (3 * 16384 + n.toNat)) = n := by
    apply BitVec.eq_of_toNat_eq; simp only [fShift, encI_toNat 5 d.val a.val (3 * 16384 + n.toNat) (by omega) (by omega) (by omega) (by omega), BitVec.toNat_ofNat]; omega
  rw [e, q]
  simp (disch := omega) only [fD_encI, fA_encI, ofNat_val, m, z] <;> rfl

theorem Laws.Coding.slti (d : Reg) (a : Reg) (imm : BitVec 16) : Laws.Coding.Statement (.slti d a imm) := by
  intro _ hw
  show decode (encI 6 d.val a.val imm.toNat) = _
  rw [decode_6 _ (fMajor_encI _ _ _ _ (by omega) (by omega) (by omega) (by omega))]
  simp (disch := first | omega | assumption) only [fD_encI, fA_encI, fImm16_encI, ofNat_val, BitVec.ofNat_toNat, BitVec.setWidth_eq]

theorem Laws.Coding.sltni (d : Reg) (a : Reg) (imm : BitVec 16) : Laws.Coding.Statement (.sltni d a imm) := by
  intro _ hw
  show decode (encI 7 d.val a.val imm.toNat) = _
  rw [decode_7 _ (fMajor_encI _ _ _ _ (by omega) (by omega) (by omega) (by omega))]
  simp (disch := first | omega | assumption) only [fD_encI, fA_encI, fImm16_encI, ofNat_val, BitVec.ofNat_toNat, BitVec.setWidth_eq]

theorem Laws.Coding.lui (d : Reg) (imm : BitVec 21) : Laws.Coding.Statement (.lui d imm) := by
  intro _ hw
  show decode (encL 8 d.val imm.toNat) = _
  rw [decode_8 _ (fMajor_encL _ _ _ (by omega) (by omega) (by omega))]
  simp (disch := first | omega | assumption) only [fD_encL, fImm21_encL, ofNat_val, BitVec.ofNat_toNat, BitVec.setWidth_eq]

theorem Laws.Coding.lea (d : Reg) (a : Reg) (b : Reg) (s : BitVec 4) : Laws.Coding.Statement (.lea d a b s) := by
  intro _ hw
  show decode (encA 9 d.val a.val b.val 1 s.toNat) = _
  rw [decode_9 _ (fMajor_encA _ _ _ _ _ _ (by omega) (by omega) (by omega) (by omega) (by omega) (by omega))]
  unfold decodeAddr
  rw [fMinor_encA _ _ _ _ _ _ (by omega) (by omega) (by omega) (by omega) (by omega) (by omega)]
  simp (disch := first | omega | assumption) only [fD_encA, fA_encA, fB_encA, fTyBits_encA, ofNat_val, BitVec.ofNat_toNat, BitVec.setWidth_eq]

theorem Laws.Coding.part (d : Reg) (a : Reg) (level : Tier) : Laws.Coding.Statement (.part d a level) := by
  intro _ hw
  have := Tier.code_lt level
  show decode (encA 9 d.val a.val 0 2 level.code) = _
  rw [decode_9 _ (fMajor_encA _ _ _ _ _ _ (by omega) (by omega) (by omega) (by omega) (by omega) (by omega))]
  unfold decodeAddr
  rw [fMinor_encA _ _ _ _ _ _ (by omega) (by omega) (by omega) (by omega) (by omega) (by omega)]
  simp (disch := first | omega | assumption) only [fD_encA, fA_encA, fB_encA, fTy_encA, tierOf_code, need_ok, ofNat_val] <;> rfl

theorem Laws.Coding.coord (d : Reg) (level : Tier) : Laws.Coding.Statement (.coord d level) := by
  intro _ hw
  have := Tier.code_lt level
  show decode (encA 9 d.val 0 0 3 level.code) = _
  rw [decode_9 _ (fMajor_encA _ _ _ _ _ _ (by omega) (by omega) (by omega) (by omega) (by omega) (by omega))]
  unfold decodeAddr
  rw [fMinor_encA _ _ _ _ _ _ (by omega) (by omega) (by omega) (by omega) (by omega) (by omega)]
  simp (disch := first | omega | assumption) only [fD_encA, fA_encA, fB_encA, fTy_encA, tierOf_code, need_ok, ofNat_val] <;> rfl

theorem Laws.Coding.beq (a : Reg) (b : Reg) (off : BitVec 16) : Laws.Coding.Statement (.beq a b off) := by
  intro _ hw
  show decode (encI 10 a.val b.val off.toNat) = _
  rw [decode_10 _ (fMajor_encI _ _ _ _ (by omega) (by omega) (by omega) (by omega))]
  simp (disch := first | omega | assumption) only [fD_encI, fA_encI, fImm16_encI, ofNat_val, BitVec.ofNat_toNat, BitVec.setWidth_eq]

theorem Laws.Coding.bne (a : Reg) (b : Reg) (off : BitVec 16) : Laws.Coding.Statement (.bne a b off) := by
  intro _ hw
  show decode (encI 11 a.val b.val off.toNat) = _
  rw [decode_11 _ (fMajor_encI _ _ _ _ (by omega) (by omega) (by omega) (by omega))]
  simp (disch := first | omega | assumption) only [fD_encI, fA_encI, fImm16_encI, ofNat_val, BitVec.ofNat_toNat, BitVec.setWidth_eq]

theorem Laws.Coding.blt (a : Reg) (b : Reg) (off : BitVec 16) : Laws.Coding.Statement (.blt a b off) := by
  intro _ hw
  show decode (encI 12 a.val b.val off.toNat) = _
  rw [decode_12 _ (fMajor_encI _ _ _ _ (by omega) (by omega) (by omega) (by omega))]
  simp (disch := first | omega | assumption) only [fD_encI, fA_encI, fImm16_encI, ofNat_val, BitVec.ofNat_toNat, BitVec.setWidth_eq]

theorem Laws.Coding.bge (a : Reg) (b : Reg) (off : BitVec 16) : Laws.Coding.Statement (.bge a b off) := by
  intro _ hw
  show decode (encI 13 a.val b.val off.toNat) = _
  rw [decode_13 _ (fMajor_encI _ _ _ _ (by omega) (by omega) (by omega) (by omega))]
  simp (disch := first | omega | assumption) only [fD_encI, fA_encI, fImm16_encI, ofNat_val, BitVec.ofNat_toNat, BitVec.setWidth_eq]

theorem Laws.Coding.bltn (a : Reg) (b : Reg) (off : BitVec 16) : Laws.Coding.Statement (.bltn a b off) := by
  intro _ hw
  show decode (encI 14 a.val b.val off.toNat) = _
  rw [decode_14 _ (fMajor_encI _ _ _ _ (by omega) (by omega) (by omega) (by omega))]
  simp (disch := first | omega | assumption) only [fD_encI, fA_encI, fImm16_encI, ofNat_val, BitVec.ofNat_toNat, BitVec.setWidth_eq]

theorem Laws.Coding.bgen (a : Reg) (b : Reg) (off : BitVec 16) : Laws.Coding.Statement (.bgen a b off) := by
  intro _ hw
  show decode (encI 15 a.val b.val off.toNat) = _
  rw [decode_15 _ (fMajor_encI _ _ _ _ (by omega) (by omega) (by omega) (by omega))]
  simp (disch := first | omega | assumption) only [fD_encI, fA_encI, fImm16_encI, ofNat_val, BitVec.ofNat_toNat, BitVec.setWidth_eq]

theorem Laws.Coding.j (off : BitVec 26) : Laws.Coding.Statement (.j off) := by
  intro _ hw
  show decode (encJ 16 off.toNat) = _
  rw [decode_16 _ (fMajor_encJ _ _ (by omega) (by omega))]
  simp (disch := first | omega | assumption) only [fOff26_encJ, ofNat_val, BitVec.ofNat_toNat, BitVec.setWidth_eq]

theorem Laws.Coding.jal (off : BitVec 26) : Laws.Coding.Statement (.jal off) := by
  intro _ hw
  show decode (encJ 17 off.toNat) = _
  rw [decode_17 _ (fMajor_encJ _ _ (by omega) (by omega))]
  simp (disch := first | omega | assumption) only [fOff26_encJ, ofNat_val, BitVec.ofNat_toNat, BitVec.setWidth_eq]

theorem Laws.Coding.jr (a : Reg) : Laws.Coding.Statement (.jr a) := by
  intro _ hw
  show decode (encA 18 0 a.val 0 1 0) = _
  rw [decode_18 _ (fMajor_encA _ _ _ _ _ _ (by omega) (by omega) (by omega) (by omega) (by omega) (by omega))]
  unfold decodeJr
  rw [fMinor_encA _ _ _ _ _ _ (by omega) (by omega) (by omega) (by omega) (by omega) (by omega)]
  simp (disch := first | omega | assumption) only [fD_encA, fA_encA, fB_encA, fTy_encA, need_ok, ofNat_val] <;> rfl

theorem Laws.Coding.jalr (a : Reg) : Laws.Coding.Statement (.jalr a) := by
  intro _ hw
  show decode (encA 18 0 a.val 0 2 0) = _
  rw [decode_18 _ (fMajor_encA _ _ _ _ _ _ (by omega) (by omega) (by omega) (by omega) (by omega) (by omega))]
  unfold decodeJr
  rw [fMinor_encA _ _ _ _ _ _ (by omega) (by omega) (by omega) (by omega) (by omega) (by omega)]
  simp (disch := first | omega | assumption) only [fD_encA, fA_encA, fB_encA, fTy_encA, need_ok, ofNat_val] <;> rfl

theorem Laws.Coding.loop (a : Reg) (len : BitVec 16) : Laws.Coding.Statement (.loop a len) := by
  intro _ hw
  replace hw : (decide (len ≠ 0)) = true := hw
  show decode (encI 19 0 a.val len.toNat) = _
  rw [decode_19 _ (fMajor_encI _ _ _ _ (by omega) (by omega) (by omega) (by omega))]
  simp (disch := first | omega | assumption) only [fD_encI, fA_encI, fImm16_encI, need_ok, ofNat_val, BitVec.ofNat_toNat, BitVec.setWidth_eq] <;> rfl

theorem Laws.Coding.bsx (s : Fin 4) (off : BitVec 16) : Laws.Coding.Statement (.bsx s off) := by
  intro _ hw
  show decode (encBsx 20 s.val off.toNat) = _
  rw [decode_20 _ (fMajor_encBsx _ _ _ (by omega) (by omega) (by omega))]
  simp (disch := first | omega | assumption) only [fBsxStream_encBsx, fImm16_encBsx, bsxZero_encBsx, need_ok, ofNat_val, BitVec.ofNat_toNat, BitVec.setWidth_eq] <;> rfl

theorem Laws.Coding.ld (ty : Ty) (d : Reg) (a : Reg) (off : BitVec 12) : Laws.Coding.Statement (.ld ty d a off) := by
  intro _ hw
  have := ty.code_lt
  replace hw : (ty.colI) = true := hw
  show decode (encM 22 d.val a.val ty.code off.toNat) = _
  rw [decode_22 _ (fMajor_encM _ _ _ _ _ (by omega) (by omega) (by omega) (by omega) (by omega))]
  simp (disch := first | omega | assumption) only [fD_encM, fA_encM, fMemTy_encM, fOff12_encM, typeIn_code, ofNat_val, BitVec.ofNat_toNat, BitVec.setWidth_eq] <;> rfl

theorem Laws.Coding.st (ty : Ty) (d : Reg) (a : Reg) (off : BitVec 12) : Laws.Coding.Statement (.st ty d a off) := by
  intro _ hw
  have := ty.code_lt
  replace hw : (ty.colI) = true := hw
  show decode (encM 23 d.val a.val ty.code off.toNat) = _
  rw [decode_23 _ (fMajor_encM _ _ _ _ _ (by omega) (by omega) (by omega) (by omega) (by omega))]
  simp (disch := first | omega | assumption) only [fD_encM, fA_encM, fMemTy_encM, fOff12_encM, typeIn_code, ofNat_val, BitVec.ofNat_toNat, BitVec.setWidth_eq] <;> rfl

theorem Laws.Coding.vld (ty : Ty) (d : Reg) (a : Reg) (off : BitVec 12) : Laws.Coding.Statement (.vld ty d a off) := by
  intro _ hw
  have := ty.code_lt
  show decode (encM 24 d.val a.val ty.code off.toNat) = _
  rw [decode_24 _ (fMajor_encM _ _ _ _ _ (by omega) (by omega) (by omega) (by omega) (by omega))]
  simp (disch := first | omega | assumption) only [fD_encM, fA_encM, fMemTy_encM, fOff12_encM, typeIn_all, ofNat_val, BitVec.ofNat_toNat, BitVec.setWidth_eq] <;> rfl

theorem Laws.Coding.vst (ty : Ty) (d : Reg) (a : Reg) (off : BitVec 12) : Laws.Coding.Statement (.vst ty d a off) := by
  intro _ hw
  have := ty.code_lt
  show decode (encM 25 d.val a.val ty.code off.toNat) = _
  rw [decode_25 _ (fMajor_encM _ _ _ _ _ (by omega) (by omega) (by omega) (by omega) (by omega))]
  simp (disch := first | omega | assumption) only [fD_encM, fA_encM, fMemTy_encM, fOff12_encM, typeIn_all, ofNat_val, BitVec.ofNat_toNat, BitVec.setWidth_eq] <;> rfl

theorem Laws.Coding.ldx (ty : Ty) (d : Reg) (a : Reg) (b : Reg) : Laws.Coding.Statement (.ldx ty d a b) := by
  intro _ hw
  have := ty.code_lt
  replace hw : (ty.colI) = true := hw
  show decode (encA 26 d.val a.val b.val 1 ty.code) = _
  rw [decode_26 _ (fMajor_encA _ _ _ _ _ _ (by omega) (by omega) (by omega) (by omega) (by omega) (by omega))]
  unfold decodeMemx
  rw [fMinor_encA _ _ _ _ _ _ (by omega) (by omega) (by omega) (by omega) (by omega) (by omega)]
  simp (disch := first | omega | assumption) only [fD_encA, fA_encA, fB_encA, fTy_encA, typeIn_code, ofNat_val] <;> rfl

theorem Laws.Coding.stx (ty : Ty) (d : Reg) (a : Reg) (b : Reg) : Laws.Coding.Statement (.stx ty d a b) := by
  intro _ hw
  have := ty.code_lt
  replace hw : (ty.colI) = true := hw
  show decode (encA 26 d.val a.val b.val 2 ty.code) = _
  rw [decode_26 _ (fMajor_encA _ _ _ _ _ _ (by omega) (by omega) (by omega) (by omega) (by omega) (by omega))]
  unfold decodeMemx
  rw [fMinor_encA _ _ _ _ _ _ (by omega) (by omega) (by omega) (by omega) (by omega) (by omega)]
  simp (disch := first | omega | assumption) only [fD_encA, fA_encA, fB_encA, fTy_encA, typeIn_code, ofNat_val] <;> rfl

theorem Laws.Coding.vldx (ty : Ty) (d : Reg) (a : Reg) (b : Reg) : Laws.Coding.Statement (.vldx ty d a b) := by
  intro _ hw
  have := ty.code_lt
  replace hw : (ty.colX) = true := hw
  show decode (encA 26 d.val a.val b.val 3 ty.code) = _
  rw [decode_26 _ (fMajor_encA _ _ _ _ _ _ (by omega) (by omega) (by omega) (by omega) (by omega) (by omega))]
  unfold decodeMemx
  rw [fMinor_encA _ _ _ _ _ _ (by omega) (by omega) (by omega) (by omega) (by omega) (by omega)]
  simp (disch := first | omega | assumption) only [fD_encA, fA_encA, fB_encA, fTy_encA, typeIn_code, ofNat_val] <;> rfl

theorem Laws.Coding.vstx (ty : Ty) (d : Reg) (a : Reg) (b : Reg) : Laws.Coding.Statement (.vstx ty d a b) := by
  intro _ hw
  have := ty.code_lt
  replace hw : (ty.colX) = true := hw
  show decode (encA 26 d.val a.val b.val 4 ty.code) = _
  rw [decode_26 _ (fMajor_encA _ _ _ _ _ _ (by omega) (by omega) (by omega) (by omega) (by omega) (by omega))]
  unfold decodeMemx
  rw [fMinor_encA _ _ _ _ _ _ (by omega) (by omega) (by omega) (by omega) (by omega) (by omega)]
  simp (disch := first | omega | assumption) only [fD_encA, fA_encA, fB_encA, fTy_encA, typeIn_code, ofNat_val] <;> rfl

theorem Laws.Coding.vlds (ty : Ty) (d : Reg) (a : Reg) (b : Reg) : Laws.Coding.Statement (.vlds ty d a b) := by
  intro _ hw
  have := ty.code_lt
  replace hw : (ty.colC) = true := hw
  show decode (encA 26 d.val a.val b.val 5 ty.code) = _
  rw [decode_26 _ (fMajor_encA _ _ _ _ _ _ (by omega) (by omega) (by omega) (by omega) (by omega) (by omega))]
  unfold decodeMemx
  rw [fMinor_encA _ _ _ _ _ _ (by omega) (by omega) (by omega) (by omega) (by omega) (by omega)]
  simp (disch := first | omega | assumption) only [fD_encA, fA_encA, fB_encA, fTy_encA, typeIn_code, ofNat_val] <;> rfl

theorem Laws.Coding.vsts (ty : Ty) (d : Reg) (a : Reg) (b : Reg) : Laws.Coding.Statement (.vsts ty d a b) := by
  intro _ hw
  have := ty.code_lt
  replace hw : (ty.colC) = true := hw
  show decode (encA 26 d.val a.val b.val 6 ty.code) = _
  rw [decode_26 _ (fMajor_encA _ _ _ _ _ _ (by omega) (by omega) (by omega) (by omega) (by omega) (by omega))]
  unfold decodeMemx
  rw [fMinor_encA _ _ _ _ _ _ (by omega) (by omega) (by omega) (by omega) (by omega) (by omega)]
  simp (disch := first | omega | assumption) only [fD_encA, fA_encA, fB_encA, fTy_encA, typeIn_code, ofNat_val] <;> rfl

theorem Laws.Coding.pf (a : Reg) (b : Reg) : Laws.Coding.Statement (.pf a b) := by
  intro _ hw
  show decode (encA 26 0 a.val b.val 7 0) = _
  rw [decode_26 _ (fMajor_encA _ _ _ _ _ _ (by omega) (by omega) (by omega) (by omega) (by omega) (by omega))]
  unfold decodeMemx
  rw [fMinor_encA _ _ _ _ _ _ (by omega) (by omega) (by omega) (by omega) (by omega) (by omega)]
  simp (disch := first | omega | assumption) only [fD_encA, fA_encA, fB_encA, fTy_encA, need_ok, ofNat_val] <;> rfl

theorem Laws.Coding.ldf (ty : Ty) (d : Reg) (a : Reg) (off : BitVec 5) : Laws.Coding.Statement (.ldf ty d a off) := by
  intro _ hw
  have := ty.code_lt
  replace hw : (ty.colFE) = true := hw
  show decode (encA 27 d.val a.val off.toNat 1 ty.code) = _
  rw [decode_27 _ (fMajor_encA _ _ _ _ _ _ (by omega) (by omega) (by omega) (by omega) (by omega) (by omega))]
  unfold decodeFe
  rw [fMinor_encA _ _ _ _ _ _ (by omega) (by omega) (by omega) (by omega) (by omega) (by omega)]
  simp (disch := first | omega | assumption) only [fD_encA, fA_encA, fBbits_encA, fTy_encA, typeIn_code, ofNat_val, BitVec.ofNat_toNat, BitVec.setWidth_eq] <;> rfl

theorem Laws.Coding.ldfk (ty : Ty) (d : Reg) (a : Reg) (off : BitVec 5) : Laws.Coding.Statement (.ldfk ty d a off) := by
  intro _ hw
  have := ty.code_lt
  replace hw : (ty.colFE) = true := hw
  show decode (encA 27 d.val a.val off.toNat 2 ty.code) = _
  rw [decode_27 _ (fMajor_encA _ _ _ _ _ _ (by omega) (by omega) (by omega) (by omega) (by omega) (by omega))]
  unfold decodeFe
  rw [fMinor_encA _ _ _ _ _ _ (by omega) (by omega) (by omega) (by omega) (by omega) (by omega)]
  simp (disch := first | omega | assumption) only [fD_encA, fA_encA, fBbits_encA, fTy_encA, typeIn_code, ofNat_val, BitVec.ofNat_toNat, BitVec.setWidth_eq] <;> rfl

theorem Laws.Coding.ste (ty : Ty) (d : Reg) (a : Reg) (off : BitVec 5) : Laws.Coding.Statement (.ste ty d a off) := by
  intro _ hw
  have := ty.code_lt
  replace hw : (ty.colFE) = true := hw
  show decode (encA 27 d.val a.val off.toNat 3 ty.code) = _
  rw [decode_27 _ (fMajor_encA _ _ _ _ _ _ (by omega) (by omega) (by omega) (by omega) (by omega) (by omega))]
  unfold decodeFe
  rw [fMinor_encA _ _ _ _ _ _ (by omega) (by omega) (by omega) (by omega) (by omega) (by omega)]
  simp (disch := first | omega | assumption) only [fD_encA, fA_encA, fBbits_encA, fTy_encA, typeIn_code, ofNat_val, BitVec.ofNat_toNat, BitVec.setWidth_eq] <;> rfl

theorem Laws.Coding.stf (ty : Ty) (d : Reg) (a : Reg) (off : BitVec 5) : Laws.Coding.Statement (.stf ty d a off) := by
  intro _ hw
  have := ty.code_lt
  replace hw : (ty.colFE) = true := hw
  show decode (encA 27 d.val a.val off.toNat 4 ty.code) = _
  rw [decode_27 _ (fMajor_encA _ _ _ _ _ _ (by omega) (by omega) (by omega) (by omega) (by omega) (by omega))]
  unfold decodeFe
  rw [fMinor_encA _ _ _ _ _ _ (by omega) (by omega) (by omega) (by omega) (by omega) (by omega)]
  simp (disch := first | omega | assumption) only [fD_encA, fA_encA, fBbits_encA, fTy_encA, typeIn_code, ofNat_val, BitVec.ofNat_toNat, BitVec.setWidth_eq] <;> rfl

theorem Laws.Coding.fempty (a : Reg) (off : BitVec 5) : Laws.Coding.Statement (.fempty a off) := by
  intro _ hw
  show decode (encA 27 0 a.val off.toNat 5 0) = _
  rw [decode_27 _ (fMajor_encA _ _ _ _ _ _ (by omega) (by omega) (by omega) (by omega) (by omega) (by omega))]
  unfold decodeFe
  rw [fMinor_encA _ _ _ _ _ _ (by omega) (by omega) (by omega) (by omega) (by omega) (by omega)]
  simp (disch := first | omega | assumption) only [fD_encA, fA_encA, fBbits_encA, fTy_encA, need_ok, ofNat_val, BitVec.ofNat_toNat, BitVec.setWidth_eq] <;> rfl

theorem Laws.Coding.fstat (d : Reg) (a : Reg) (off : BitVec 5) : Laws.Coding.Statement (.fstat d a off) := by
  intro _ hw
  show decode (encA 27 d.val a.val off.toNat 6 0) = _
  rw [decode_27 _ (fMajor_encA _ _ _ _ _ _ (by omega) (by omega) (by omega) (by omega) (by omega) (by omega))]
  unfold decodeFe
  rw [fMinor_encA _ _ _ _ _ _ (by omega) (by omega) (by omega) (by omega) (by omega) (by omega)]
  simp (disch := first | omega | assumption) only [fD_encA, fA_encA, fBbits_encA, fTy_encA, need_ok, ofNat_val, BitVec.ofNat_toNat, BitVec.setWidth_eq] <;> rfl

theorem Laws.Coding.qld (d : Reg) (h : Fin 8) (k : BitVec 15) : Laws.Coding.Statement (.qld d h k) := by
  intro _ hw
  show decode (encK 28 d.val h.val 0 k.toNat) = _
  rw [decode_28 _ (fMajor_encK _ _ _ _ _ (by omega) (by omega) (by omega) (by omega) (by omega))]
  unfold decodeRing
  rw [fFn_encK _ _ _ _ _ (by omega) (by omega) (by omega) (by omega) (by omega)]
  simp (disch := first | omega | assumption) only [fD_encK, fH_encK, fK_encK, ofNat_val, BitVec.ofNat_toNat, BitVec.setWidth_eq]

theorem Laws.Coding.qldv (d : Reg) (h : Fin 8) (k : BitVec 15) : Laws.Coding.Statement (.qldv d h k) := by
  intro _ hw
  show decode (encK 28 d.val h.val 1 k.toNat) = _
  rw [decode_28 _ (fMajor_encK _ _ _ _ _ (by omega) (by omega) (by omega) (by omega) (by omega))]
  unfold decodeRing
  rw [fFn_encK _ _ _ _ _ (by omega) (by omega) (by omega) (by omega) (by omega)]
  simp (disch := first | omega | assumption) only [fD_encK, fH_encK, fK_encK, ofNat_val, BitVec.ofNat_toNat, BitVec.setWidth_eq]

theorem Laws.Coding.qst (d : Reg) (h : Fin 8) (k : BitVec 15) : Laws.Coding.Statement (.qst d h k) := by
  intro _ hw
  show decode (encK 28 d.val h.val 2 k.toNat) = _
  rw [decode_28 _ (fMajor_encK _ _ _ _ _ (by omega) (by omega) (by omega) (by omega) (by omega))]
  unfold decodeRing
  rw [fFn_encK _ _ _ _ _ (by omega) (by omega) (by omega) (by omega) (by omega)]
  simp (disch := first | omega | assumption) only [fD_encK, fH_encK, fK_encK, ofNat_val, BitVec.ofNat_toNat, BitVec.setWidth_eq]

theorem Laws.Coding.qstv (d : Reg) (h : Fin 8) (k : BitVec 15) : Laws.Coding.Statement (.qstv d h k) := by
  intro _ hw
  show decode (encK 28 d.val h.val 3 k.toNat) = _
  rw [decode_28 _ (fMajor_encK _ _ _ _ _ (by omega) (by omega) (by omega) (by omega) (by omega))]
  unfold decodeRing
  rw [fFn_encK _ _ _ _ _ (by omega) (by omega) (by omega) (by omega) (by omega)]
  simp (disch := first | omega | assumption) only [fD_encK, fH_encK, fK_encK, ofNat_val, BitVec.ofNat_toNat, BitVec.setWidth_eq]

theorem Laws.Coding.qpub (h : Fin 8) (n : BitVec 15) : Laws.Coding.Statement (.qpub h n) := by
  intro _ hw
  replace hw : (decide (n ≠ 0)) = true := hw
  show decode (encK 28 0 h.val 4 n.toNat) = _
  rw [decode_28 _ (fMajor_encK _ _ _ _ _ (by omega) (by omega) (by omega) (by omega) (by omega))]
  unfold decodeRing
  rw [fFn_encK _ _ _ _ _ (by omega) (by omega) (by omega) (by omega) (by omega)]
  simp (disch := first | omega | assumption) only [fD_encK, fH_encK, fK_encK, need_ok, ofNat_val, BitVec.ofNat_toNat, BitVec.setWidth_eq] <;> rfl

theorem Laws.Coding.qrel (h : Fin 8) (n : BitVec 15) : Laws.Coding.Statement (.qrel h n) := by
  intro _ hw
  replace hw : (decide (n ≠ 0)) = true := hw
  show decode (encK 28 0 h.val 5 n.toNat) = _
  rw [decode_28 _ (fMajor_encK _ _ _ _ _ (by omega) (by omega) (by omega) (by omega) (by omega))]
  unfold decodeRing
  rw [fFn_encK _ _ _ _ _ (by omega) (by omega) (by omega) (by omega) (by omega)]
  simp (disch := first | omega | assumption) only [fD_encK, fH_encK, fK_encK, need_ok, ofNat_val, BitVec.ofNat_toNat, BitVec.setWidth_eq] <;> rfl

theorem Laws.Coding.qstat (d : Reg) (h : Fin 8) : Laws.Coding.Statement (.qstat d h) := by
  intro _ hw
  show decode (encK 28 d.val h.val 6 0) = _
  rw [decode_28 _ (fMajor_encK _ _ _ _ _ (by omega) (by omega) (by omega) (by omega) (by omega))]
  unfold decodeRing
  rw [fFn_encK _ _ _ _ _ (by omega) (by omega) (by omega) (by omega) (by omega)]
  simp (disch := first | omega | assumption) only [fD_encK, fH_encK, fK_encK, need_ok, ofNat_val] <;> rfl

theorem Laws.Coding.qbind (h : Fin 8) (d : Reg) : Laws.Coding.Statement (.qbind h d) := by
  intro _ hw
  show decode (encK 28 d.val h.val 7 0) = _
  rw [decode_28 _ (fMajor_encK _ _ _ _ _ (by omega) (by omega) (by omega) (by omega) (by omega))]
  unfold decodeRing
  rw [fFn_encK _ _ _ _ _ (by omega) (by omega) (by omega) (by omega) (by omega)]
  simp (disch := first | omega | assumption) only [fD_encK, fH_encK, fK_encK, need_ok, ofNat_val] <;> rfl

theorem Laws.Coding.map (d : Reg) (a : Reg) (b : Reg) : Laws.Coding.Statement (.map d a b) := by
  intro _ hw
  show decode (encA 29 d.val a.val b.val 1 0) = _
  rw [decode_29 _ (fMajor_encA _ _ _ _ _ _ (by omega) (by omega) (by omega) (by omega) (by omega) (by omega))]
  unfold decodeMapf
  rw [fMinor_encA _ _ _ _ _ _ (by omega) (by omega) (by omega) (by omega) (by omega) (by omega)]
  simp (disch := first | omega | assumption) only [fD_encA, fA_encA, fB_encA, fTy_encA, need_ok, ofNat_val] <;> rfl

theorem Laws.Coding.unmap (d : Reg) (a : Reg) : Laws.Coding.Statement (.unmap d a) := by
  intro _ hw
  show decode (encA 29 d.val a.val 0 2 0) = _
  rw [decode_29 _ (fMajor_encA _ _ _ _ _ _ (by omega) (by omega) (by omega) (by omega) (by omega) (by omega))]
  unfold decodeMapf
  rw [fMinor_encA _ _ _ _ _ _ (by omega) (by omega) (by omega) (by omega) (by omega) (by omega)]
  simp (disch := first | omega | assumption) only [fD_encA, fA_encA, fB_encA, fTy_encA, need_ok, ofNat_val] <;> rfl

theorem Laws.Coding.syncw (d : Reg) (a : Reg) : Laws.Coding.Statement (.syncw d a) := by
  intro _ hw
  show decode (encA 29 d.val a.val 0 3 0) = _
  rw [decode_29 _ (fMajor_encA _ _ _ _ _ _ (by omega) (by omega) (by omega) (by omega) (by omega) (by omega))]
  unfold decodeMapf
  rw [fMinor_encA _ _ _ _ _ _ (by omega) (by omega) (by omega) (by omega) (by omega) (by omega)]
  simp (disch := first | omega | assumption) only [fD_encA, fA_encA, fB_encA, fTy_encA, need_ok, ofNat_val] <;> rfl

theorem Laws.Coding.invw (d : Reg) (a : Reg) : Laws.Coding.Statement (.invw d a) := by
  intro _ hw
  show decode (encA 29 d.val a.val 0 4 0) = _
  rw [decode_29 _ (fMajor_encA _ _ _ _ _ _ (by omega) (by omega) (by omega) (by omega) (by omega) (by omega))]
  unfold decodeMapf
  rw [fMinor_encA _ _ _ _ _ _ (by omega) (by omega) (by omega) (by omega) (by omega) (by omega)]
  simp (disch := first | omega | assumption) only [fD_encA, fA_encA, fB_encA, fTy_encA, need_ok, ofNat_val] <;> rfl

theorem Laws.Coding.mapq (d : Reg) (a : Reg) : Laws.Coding.Statement (.mapq d a) := by
  intro _ hw
  show decode (encA 29 d.val a.val 0 5 0) = _
  rw [decode_29 _ (fMajor_encA _ _ _ _ _ _ (by omega) (by omega) (by omega) (by omega) (by omega) (by omega))]
  unfold decodeMapf
  rw [fMinor_encA _ _ _ _ _ _ (by omega) (by omega) (by omega) (by omega) (by omega) (by omega)]
  simp (disch := first | omega | assumption) only [fD_encA, fA_encA, fB_encA, fTy_encA, need_ok, ofNat_val] <;> rfl

theorem Laws.Coding.cpy (d : Reg) (a : Reg) (b : Reg) : Laws.Coding.Statement (.cpy d a b) := by
  intro _ hw
  show decode (encA 30 d.val a.val b.val 1 0) = _
  rw [decode_30 _ (fMajor_encA _ _ _ _ _ _ (by omega) (by omega) (by omega) (by omega) (by omega) (by omega))]
  unfold decodeCopyf
  rw [fMinor_encA _ _ _ _ _ _ (by omega) (by omega) (by omega) (by omega) (by omega) (by omega)]
  simp (disch := first | omega | assumption) only [fD_encA, fA_encA, fB_encA, fTy_encA, need_ok, ofNat_val] <;> rfl

theorem Laws.Coding.mcast (d : Reg) (a : Reg) (b : Reg) : Laws.Coding.Statement (.mcast d a b) := by
  intro _ hw
  show decode (encA 30 d.val a.val b.val 2 0) = _
  rw [decode_30 _ (fMajor_encA _ _ _ _ _ _ (by omega) (by omega) (by omega) (by omega) (by omega) (by omega))]
  unfold decodeCopyf
  rw [fMinor_encA _ _ _ _ _ _ (by omega) (by omega) (by omega) (by omega) (by omega) (by omega)]
  simp (disch := first | omega | assumption) only [fD_encA, fA_encA, fB_encA, fTy_encA, need_ok, ofNat_val] <;> rfl

theorem Laws.Coding.cpyw (d : Reg) (a : Reg) (b : Reg) : Laws.Coding.Statement (.cpyw d a b) := by
  intro _ hw
  show decode (encA 30 d.val a.val b.val 3 0) = _
  rw [decode_30 _ (fMajor_encA _ _ _ _ _ _ (by omega) (by omega) (by omega) (by omega) (by omega) (by omega))]
  unfold decodeCopyf
  rw [fMinor_encA _ _ _ _ _ _ (by omega) (by omega) (by omega) (by omega) (by omega) (by omega)]
  simp (disch := first | omega | assumption) only [fD_encA, fA_encA, fB_encA, fTy_encA, need_ok, ofNat_val] <;> rfl

theorem Laws.Coding.copyTransferComplete (id : Nat) : Laws.Coding.Statement (.copyTransferComplete id) := by
  intro h; cases h

theorem Laws.Coding.aadd (ty : Ty) (d : Reg) (a : Reg) (b : Reg) : Laws.Coding.Statement (.aadd ty d a b) := by
  intro _ hw
  have := ty.code_lt
  replace hw : (ty.colWF) = true := hw
  show decode (encA 31 d.val a.val b.val 1 ty.code) = _
  rw [decode_31 _ (fMajor_encA _ _ _ _ _ _ (by omega) (by omega) (by omega) (by omega) (by omega) (by omega))]
  unfold decodeAtom
  rw [fMinor_encA _ _ _ _ _ _ (by omega) (by omega) (by omega) (by omega) (by omega) (by omega)]
  simp (disch := first | omega | assumption) only [fD_encA, fA_encA, fB_encA, fTy_encA, typeIn_code, ofNat_val] <;> rfl

theorem Laws.Coding.aand (ty : Ty) (d : Reg) (a : Reg) (b : Reg) : Laws.Coding.Statement (.aand ty d a b) := by
  intro _ hw
  have := ty.code_lt
  replace hw : (ty.colW) = true := hw
  show decode (encA 31 d.val a.val b.val 2 ty.code) = _
  rw [decode_31 _ (fMajor_encA _ _ _ _ _ _ (by omega) (by omega) (by omega) (by omega) (by omega) (by omega))]
  unfold decodeAtom
  rw [fMinor_encA _ _ _ _ _ _ (by omega) (by omega) (by omega) (by omega) (by omega) (by omega)]
  simp (disch := first | omega | assumption) only [fD_encA, fA_encA, fB_encA, fTy_encA, typeIn_code, ofNat_val] <;> rfl

theorem Laws.Coding.aor (ty : Ty) (d : Reg) (a : Reg) (b : Reg) : Laws.Coding.Statement (.aor ty d a b) := by
  intro _ hw
  have := ty.code_lt
  replace hw : (ty.colW) = true := hw
  show decode (encA 31 d.val a.val b.val 3 ty.code) = _
  rw [decode_31 _ (fMajor_encA _ _ _ _ _ _ (by omega) (by omega) (by omega) (by omega) (by omega) (by omega))]
  unfold decodeAtom
  rw [fMinor_encA _ _ _ _ _ _ (by omega) (by omega) (by omega) (by omega) (by omega) (by omega)]
  simp (disch := first | omega | assumption) only [fD_encA, fA_encA, fB_encA, fTy_encA, typeIn_code, ofNat_val] <;> rfl

theorem Laws.Coding.axor (ty : Ty) (d : Reg) (a : Reg) (b : Reg) : Laws.Coding.Statement (.axor ty d a b) := by
  intro _ hw
  have := ty.code_lt
  replace hw : (ty.colW) = true := hw
  show decode (encA 31 d.val a.val b.val 4 ty.code) = _
  rw [decode_31 _ (fMajor_encA _ _ _ _ _ _ (by omega) (by omega) (by omega) (by omega) (by omega) (by omega))]
  unfold decodeAtom
  rw [fMinor_encA _ _ _ _ _ _ (by omega) (by omega) (by omega) (by omega) (by omega) (by omega)]
  simp (disch := first | omega | assumption) only [fD_encA, fA_encA, fB_encA, fTy_encA, typeIn_code, ofNat_val] <;> rfl

theorem Laws.Coding.amin (ty : Ty) (d : Reg) (a : Reg) (b : Reg) : Laws.Coding.Statement (.amin ty d a b) := by
  intro _ hw
  have := ty.code_lt
  replace hw : (ty.colW) = true := hw
  show decode (encA 31 d.val a.val b.val 5 ty.code) = _
  rw [decode_31 _ (fMajor_encA _ _ _ _ _ _ (by omega) (by omega) (by omega) (by omega) (by omega) (by omega))]
  unfold decodeAtom
  rw [fMinor_encA _ _ _ _ _ _ (by omega) (by omega) (by omega) (by omega) (by omega) (by omega)]
  simp (disch := first | omega | assumption) only [fD_encA, fA_encA, fB_encA, fTy_encA, typeIn_code, ofNat_val] <;> rfl

theorem Laws.Coding.amax (ty : Ty) (d : Reg) (a : Reg) (b : Reg) : Laws.Coding.Statement (.amax ty d a b) := by
  intro _ hw
  have := ty.code_lt
  replace hw : (ty.colW) = true := hw
  show decode (encA 31 d.val a.val b.val 6 ty.code) = _
  rw [decode_31 _ (fMajor_encA _ _ _ _ _ _ (by omega) (by omega) (by omega) (by omega) (by omega) (by omega))]
  unfold decodeAtom
  rw [fMinor_encA _ _ _ _ _ _ (by omega) (by omega) (by omega) (by omega) (by omega) (by omega)]
  simp (disch := first | omega | assumption) only [fD_encA, fA_encA, fB_encA, fTy_encA, typeIn_code, ofNat_val] <;> rfl

theorem Laws.Coding.aswp (ty : Ty) (d : Reg) (a : Reg) (b : Reg) : Laws.Coding.Statement (.aswp ty d a b) := by
  intro _ hw
  have := ty.code_lt
  replace hw : (ty.colW) = true := hw
  show decode (encA 31 d.val a.val b.val 7 ty.code) = _
  rw [decode_31 _ (fMajor_encA _ _ _ _ _ _ (by omega) (by omega) (by omega) (by omega) (by omega) (by omega))]
  unfold decodeAtom
  rw [fMinor_encA _ _ _ _ _ _ (by omega) (by omega) (by omega) (by omega) (by omega) (by omega)]
  simp (disch := first | omega | assumption) only [fD_encA, fA_encA, fB_encA, fTy_encA, typeIn_code, ofNat_val] <;> rfl

theorem Laws.Coding.cas (ty : Ty) (d : Reg) (a : Reg) (b : Reg) : Laws.Coding.Statement (.cas ty d a b) := by
  intro _ hw
  have := ty.code_lt
  replace hw : (ty.colW) = true := hw
  show decode (encA 31 d.val a.val b.val 8 ty.code) = _
  rw [decode_31 _ (fMajor_encA _ _ _ _ _ _ (by omega) (by omega) (by omega) (by omega) (by omega) (by omega))]
  unfold decodeAtom
  rw [fMinor_encA _ _ _ _ _ _ (by omega) (by omega) (by omega) (by omega) (by omega) (by omega)]
  simp (disch := first | omega | assumption) only [fD_encA, fA_encA, fB_encA, fTy_encA, typeIn_code, ofNat_val] <;> rfl

theorem Laws.Coding.acca (ty : Ty) (a : Reg) (b : Reg) : Laws.Coding.Statement (.acca ty a b) := by
  intro _ hw
  have := ty.code_lt
  replace hw : (ty.colWF) = true := hw
  show decode (encA 31 0 a.val b.val 9 ty.code) = _
  rw [decode_31 _ (fMajor_encA _ _ _ _ _ _ (by omega) (by omega) (by omega) (by omega) (by omega) (by omega))]
  unfold decodeAtom
  rw [fMinor_encA _ _ _ _ _ _ (by omega) (by omega) (by omega) (by omega) (by omega) (by omega)]
  simp (disch := first | omega | assumption) only [fD_encA, fA_encA, fB_encA, fTy_encA, typeIn_code, need_ok, ofNat_val] <;> rfl

theorem Laws.Coding.accn (ty : Ty) (a : Reg) (b : Reg) : Laws.Coding.Statement (.accn ty a b) := by
  intro _ hw
  have := ty.code_lt
  replace hw : (ty.colWF) = true := hw
  show decode (encA 31 0 a.val b.val 10 ty.code) = _
  rw [decode_31 _ (fMajor_encA _ _ _ _ _ _ (by omega) (by omega) (by omega) (by omega) (by omega) (by omega))]
  unfold decodeAtom
  rw [fMinor_encA _ _ _ _ _ _ (by omega) (by omega) (by omega) (by omega) (by omega) (by omega)]
  simp (disch := first | omega | assumption) only [fD_encA, fA_encA, fB_encA, fTy_encA, typeIn_code, need_ok, ofNat_val] <;> rfl

theorem Laws.Coding.accx (ty : Ty) (a : Reg) (b : Reg) : Laws.Coding.Statement (.accx ty a b) := by
  intro _ hw
  have := ty.code_lt
  replace hw : (ty.colWF) = true := hw
  show decode (encA 31 0 a.val b.val 11 ty.code) = _
  rw [decode_31 _ (fMajor_encA _ _ _ _ _ _ (by omega) (by omega) (by omega) (by omega) (by omega) (by omega))]
  unfold decodeAtom
  rw [fMinor_encA _ _ _ _ _ _ (by omega) (by omega) (by omega) (by omega) (by omega) (by omega)]
  simp (disch := first | omega | assumption) only [fD_encA, fA_encA, fB_encA, fTy_encA, typeIn_code, need_ok, ofNat_val] <;> rfl

theorem Laws.Coding.atomicLatchFault (core : Nat) (slot : Fin 4) (cause : BitVec 8) (sent : Bool) : Laws.Coding.Statement (.atomicLatchFault core slot cause sent) := by
  intro h; cases h

theorem Laws.Coding.atomicResponse (core : Nat) (slot : Fin 4) (old : Option (BitVec 64)) : Laws.Coding.Statement (.atomicResponse core slot old) := by
  intro h; cases h

theorem Laws.Coding.fence (kind : FenceKind) (scope : Tier) : Laws.Coding.Statement (.fence kind scope) := by
  intro _ hw
  have := FenceKind.code_lt kind
  have := Tier.code_lt scope
  show decode (encA 32 0 kind.code scope.code 1 0) = _
  rw [decode_32 _ (fMajor_encA _ _ _ _ _ _ (by omega) (by omega) (by omega) (by omega) (by omega) (by omega))]
  unfold decodeOrdr
  rw [fMinor_encA _ _ _ _ _ _ (by omega) (by omega) (by omega) (by omega) (by omega) (by omega)]
  simp (disch := first | omega | assumption) only [fD_encA, fA_encA, fB_encA, fTy_encA, tierOf_code, fenceKindOf_code, need_ok, ofNat_val, fin_ofNat_val] <;> rfl

theorem Laws.Coding.fencep (p1 : Path) (p2 : Path) (scope : Tier) : Laws.Coding.Statement (.fencep p1 p2 scope) := by
  intro _ hw
  have := Path.code_lt p1
  have := Path.code_lt p2
  have := Tier.code_lt scope
  show decode (encA 32 p1.code p2.code scope.code 2 0) = _
  rw [decode_32 _ (fMajor_encA _ _ _ _ _ _ (by omega) (by omega) (by omega) (by omega) (by omega) (by omega))]
  unfold decodeOrdr
  rw [fMinor_encA _ _ _ _ _ _ (by omega) (by omega) (by omega) (by omega) (by omega) (by omega)]
  simp (disch := first | omega | assumption) only [fD_encA, fA_encA, fB_encA, fTy_encA, tierOf_code, pathOf_code, need_ok, ofNat_val, fin_ofNat_val] <;> rfl

theorem Laws.Coding.lda (ty : Ty) (d : Reg) (a : Reg) (scope : Tier) : Laws.Coding.Statement (.lda ty d a scope) := by
  intro _ hw
  have := ty.code_lt
  have := Tier.code_lt scope
  replace hw : (ty.colW) = true := hw
  show decode (encA 32 d.val a.val scope.code 3 ty.code) = _
  rw [decode_32 _ (fMajor_encA _ _ _ _ _ _ (by omega) (by omega) (by omega) (by omega) (by omega) (by omega))]
  unfold decodeOrdr
  rw [fMinor_encA _ _ _ _ _ _ (by omega) (by omega) (by omega) (by omega) (by omega) (by omega)]
  simp (disch := first | omega | assumption) only [fD_encA, fA_encA, fB_encA, fTy_encA, typeIn_code, tierOf_code, ofNat_val, fin_ofNat_val] <;> rfl

theorem Laws.Coding.stl (ty : Ty) (d : Reg) (a : Reg) (scope : Tier) : Laws.Coding.Statement (.stl ty d a scope) := by
  intro _ hw
  have := ty.code_lt
  have := Tier.code_lt scope
  replace hw : (ty.colW) = true := hw
  show decode (encA 32 d.val a.val scope.code 4 ty.code) = _
  rw [decode_32 _ (fMajor_encA _ _ _ _ _ _ (by omega) (by omega) (by omega) (by omega) (by omega) (by omega))]
  unfold decodeOrdr
  rw [fMinor_encA _ _ _ _ _ _ (by omega) (by omega) (by omega) (by omega) (by omega) (by omega)]
  simp (disch := first | omega | assumption) only [fD_encA, fA_encA, fB_encA, fTy_encA, typeIn_code, tierOf_code, ofNat_val, fin_ofNat_val] <;> rfl

theorem Laws.Coding.wsig (ty : Ty) (d : Reg) (a : Reg) (b : Reg) : Laws.Coding.Statement (.wsig ty d a b) := by
  intro _ hw
  have := ty.code_lt
  replace hw : (ty.colW) = true := hw
  show decode (encA 32 d.val a.val b.val 5 ty.code) = _
  rw [decode_32 _ (fMajor_encA _ _ _ _ _ _ (by omega) (by omega) (by omega) (by omega) (by omega) (by omega))]
  unfold decodeOrdr
  rw [fMinor_encA _ _ _ _ _ _ (by omega) (by omega) (by omega) (by omega) (by omega) (by omega)]
  simp (disch := first | omega | assumption) only [fD_encA, fA_encA, fB_encA, fTy_encA, typeIn_code, ofNat_val] <;> rfl

theorem Laws.Coding.wsigDelivery (m : WsigMsg) : Laws.Coding.Statement (.wsigDelivery m) := by
  intro h; cases h

theorem Laws.Coding.fabricStoreArrival (link : Nat) (pa : BitVec 52) (data : List (BitVec 8)) : Laws.Coding.Statement (.fabricStoreArrival link pa data) := by
  intro h; cases h

theorem Laws.Coding.remoteWriteApply (wing : Fin 16) : Laws.Coding.Statement (.remoteWriteApply wing) := by
  intro h; cases h

theorem Laws.Coding.binit (tier : Tier) (n : BitVec 5) (a : Reg) : Laws.Coding.Statement (.binit tier n a) := by
  intro _ hw
  have := Tier.code_lt tier
  replace hw : (decide (n.toNat < tier.barriers)) = true := hw
  show decode (encA 33 0 a.val n.toNat 1 tier.code) = _
  rw [decode_33 _ (fMajor_encA _ _ _ _ _ _ (by omega) (by omega) (by omega) (by omega) (by omega) (by omega))]
  unfold decodeBar
  rw [fMinor_encA _ _ _ _ _ _ (by omega) (by omega) (by omega) (by omega) (by omega) (by omega)]
  simp (disch := first | omega | assumption) only [fD_encA, fA_encA, fB_encA, fBbits_encA, fTy_encA, tierOf_code, need_ok, ofNat_val, fin_ofNat_val, BitVec.ofNat_toNat, BitVec.setWidth_eq, ok_bind] <;> rfl

theorem Laws.Coding.barr (tier : Tier) (n : BitVec 5) (a : Reg) : Laws.Coding.Statement (.barr tier n a) := by
  intro _ hw
  have := Tier.code_lt tier
  replace hw : (decide (n.toNat < tier.barriers)) = true := hw
  show decode (encA 33 0 a.val n.toNat 2 tier.code) = _
  rw [decode_33 _ (fMajor_encA _ _ _ _ _ _ (by omega) (by omega) (by omega) (by omega) (by omega) (by omega))]
  unfold decodeBar
  rw [fMinor_encA _ _ _ _ _ _ (by omega) (by omega) (by omega) (by omega) (by omega) (by omega)]
  simp (disch := first | omega | assumption) only [fD_encA, fA_encA, fB_encA, fBbits_encA, fTy_encA, tierOf_code, need_ok, ofNat_val, fin_ofNat_val, BitVec.ofNat_toNat, BitVec.setWidth_eq, ok_bind] <;> rfl

theorem Laws.Coding.bwait (tier : Tier) (n : BitVec 5) : Laws.Coding.Statement (.bwait tier n) := by
  intro _ hw
  have := Tier.code_lt tier
  replace hw : (decide (n.toNat < tier.barriers)) = true := hw
  show decode (encA 33 0 0 n.toNat 3 tier.code) = _
  rw [decode_33 _ (fMajor_encA _ _ _ _ _ _ (by omega) (by omega) (by omega) (by omega) (by omega) (by omega))]
  unfold decodeBar
  rw [fMinor_encA _ _ _ _ _ _ (by omega) (by omega) (by omega) (by omega) (by omega) (by omega)]
  simp (disch := first | omega | assumption) only [fD_encA, fA_encA, fB_encA, fBbits_encA, fTy_encA, tierOf_code, need_ok, ofNat_val, fin_ofNat_val, BitVec.ofNat_toNat, BitVec.setWidth_eq, ok_bind] <;> rfl

theorem Laws.Coding.barrw (d : Reg) (tier : Tier) (n : BitVec 5) (a : Reg) : Laws.Coding.Statement (.barrw d tier n a) := by
  intro _ hw
  have := Tier.code_lt tier
  replace hw : (decide (n.toNat < tier.barriers)) = true := hw
  show decode (encA 33 d.val a.val n.toNat 4 tier.code) = _
  rw [decode_33 _ (fMajor_encA _ _ _ _ _ _ (by omega) (by omega) (by omega) (by omega) (by omega) (by omega))]
  unfold decodeBar
  rw [fMinor_encA _ _ _ _ _ _ (by omega) (by omega) (by omega) (by omega) (by omega) (by omega)]
  simp (disch := first | omega | assumption) only [fD_encA, fA_encA, fB_encA, fBbits_encA, fTy_encA, tierOf_code, need_ok, ofNat_val, fin_ofNat_val, BitVec.ofNat_toNat, BitVec.setWidth_eq, ok_bind] <;> rfl

theorem Laws.Coding.bread (d : Reg) (tier : Tier) (n : BitVec 5) : Laws.Coding.Statement (.bread d tier n) := by
  intro _ hw
  have := Tier.code_lt tier
  replace hw : (decide (n.toNat < tier.barriers)) = true := hw
  show decode (encA 33 d.val 0 n.toNat 5 tier.code) = _
  rw [decode_33 _ (fMajor_encA _ _ _ _ _ _ (by omega) (by omega) (by omega) (by omega) (by omega) (by omega))]
  unfold decodeBar
  rw [fMinor_encA _ _ _ _ _ _ (by omega) (by omega) (by omega) (by omega) (by omega) (by omega)]
  simp (disch := first | omega | assumption) only [fD_encA, fA_encA, fB_encA, fBbits_encA, fTy_encA, tierOf_code, need_ok, ofNat_val, fin_ofNat_val, BitVec.ofNat_toNat, BitVec.setWidth_eq, ok_bind] <;> rfl

theorem Laws.Coding.vadd (ty : Ty) (d : Reg) (a : Reg) (b : Reg) : Laws.Coding.Statement (.vadd ty d a b) := by
  intro _ hw
  have := ty.code_lt
  replace hw : (ty.colE) = true := hw
  show decode (encA 34 d.val a.val b.val 1 ty.code) = _
  rw [decode_34 _ (fMajor_encA _ _ _ _ _ _ (by omega) (by omega) (by omega) (by omega) (by omega) (by omega))]
  unfold decodeVarith
  rw [fMinor_encA _ _ _ _ _ _ (by omega) (by omega) (by omega) (by omega) (by omega) (by omega)]
  simp (disch := first | omega | assumption) only [fD_encA, fA_encA, fB_encA, fTy_encA, typeIn_code, ofNat_val] <;> rfl

theorem Laws.Coding.vsub (ty : Ty) (d : Reg) (a : Reg) (b : Reg) : Laws.Coding.Statement (.vsub ty d a b) := by
  intro _ hw
  have := ty.code_lt
  replace hw : (ty.colE) = true := hw
  show decode (encA 34 d.val a.val b.val 2 ty.code) = _
  rw [decode_34 _ (fMajor_encA _ _ _ _ _ _ (by omega) (by omega) (by omega) (by omega) (by omega) (by omega))]
  unfold decodeVarith
  rw [fMinor_encA _ _ _ _ _ _ (by omega) (by omega) (by omega) (by omega) (by omega) (by omega)]
  simp (disch := first | omega | assumption) only [fD_encA, fA_encA, fB_encA, fTy_encA, typeIn_code, ofNat_val] <;> rfl

theorem Laws.Coding.vmul (ty : Ty) (d : Reg) (a : Reg) (b : Reg) : Laws.Coding.Statement (.vmul ty d a b) := by
  intro _ hw
  have := ty.code_lt
  replace hw : (ty.colE) = true := hw
  show decode (encA 34 d.val a.val b.val 3 ty.code) = _
  rw [decode_34 _ (fMajor_encA _ _ _ _ _ _ (by omega) (by omega) (by omega) (by omega) (by omega) (by omega))]
  unfold decodeVarith
  rw [fMinor_encA _ _ _ _ _ _ (by omega) (by omega) (by omega) (by omega) (by omega) (by omega)]
  simp (disch := first | omega | assumption) only [fD_encA, fA_encA, fB_encA, fTy_encA, typeIn_code, ofNat_val] <;> rfl

theorem Laws.Coding.vmulh (ty : Ty) (d : Reg) (a : Reg) (b : Reg) : Laws.Coding.Statement (.vmulh ty d a b) := by
  intro _ hw
  have := ty.code_lt
  replace hw : (ty.colI) = true := hw
  show decode (encA 34 d.val a.val b.val 4 ty.code) = _
  rw [decode_34 _ (fMajor_encA _ _ _ _ _ _ (by omega) (by omega) (by omega) (by omega) (by omega) (by omega))]
  unfold decodeVarith
  rw [fMinor_encA _ _ _ _ _ _ (by omega) (by omega) (by omega) (by omega) (by omega) (by omega)]
  simp (disch := first | omega | assumption) only [fD_encA, fA_encA, fB_encA, fTy_encA, typeIn_code, ofNat_val] <;> rfl

theorem Laws.Coding.vmin (ty : Ty) (d : Reg) (a : Reg) (b : Reg) : Laws.Coding.Statement (.vmin ty d a b) := by
  intro _ hw
  have := ty.code_lt
  replace hw : (ty.colE) = true := hw
  show decode (encA 34 d.val a.val b.val 5 ty.code) = _
  rw [decode_34 _ (fMajor_encA _ _ _ _ _ _ (by omega) (by omega) (by omega) (by omega) (by omega) (by omega))]
  unfold decodeVarith
  rw [fMinor_encA _ _ _ _ _ _ (by omega) (by omega) (by omega) (by omega) (by omega) (by omega)]
  simp (disch := first | omega | assumption) only [fD_encA, fA_encA, fB_encA, fTy_encA, typeIn_code, ofNat_val] <;> rfl

theorem Laws.Coding.vmax (ty : Ty) (d : Reg) (a : Reg) (b : Reg) : Laws.Coding.Statement (.vmax ty d a b) := by
  intro _ hw
  have := ty.code_lt
  replace hw : (ty.colE) = true := hw
  show decode (encA 34 d.val a.val b.val 6 ty.code) = _
  rw [decode_34 _ (fMajor_encA _ _ _ _ _ _ (by omega) (by omega) (by omega) (by omega) (by omega) (by omega))]
  unfold decodeVarith
  rw [fMinor_encA _ _ _ _ _ _ (by omega) (by omega) (by omega) (by omega) (by omega) (by omega)]
  simp (disch := first | omega | assumption) only [fD_encA, fA_encA, fB_encA, fTy_encA, typeIn_code, ofNat_val] <;> rfl

theorem Laws.Coding.vabs (ty : Ty) (d : Reg) (a : Reg) : Laws.Coding.Statement (.vabs ty d a) := by
  intro _ hw
  have := ty.code_lt
  replace hw : (ty.colS) = true := hw
  show decode (encA 34 d.val a.val 0 7 ty.code) = _
  rw [decode_34 _ (fMajor_encA _ _ _ _ _ _ (by omega) (by omega) (by omega) (by omega) (by omega) (by omega))]
  unfold decodeVarith
  rw [fMinor_encA _ _ _ _ _ _ (by omega) (by omega) (by omega) (by omega) (by omega) (by omega)]
  simp (disch := first | omega | assumption) only [fD_encA, fA_encA, fB_encA, fTy_encA, typeIn_code, need_ok, ofNat_val] <;> rfl

theorem Laws.Coding.vneg (ty : Ty) (d : Reg) (a : Reg) : Laws.Coding.Statement (.vneg ty d a) := by
  intro _ hw
  have := ty.code_lt
  replace hw : (ty.colS) = true := hw
  show decode (encA 34 d.val a.val 0 8 ty.code) = _
  rw [decode_34 _ (fMajor_encA _ _ _ _ _ _ (by omega) (by omega) (by omega) (by omega) (by omega) (by omega))]
  unfold decodeVarith
  rw [fMinor_encA _ _ _ _ _ _ (by omega) (by omega) (by omega) (by omega) (by omega) (by omega)]
  simp (disch := first | omega | assumption) only [fD_encA, fA_encA, fB_encA, fTy_encA, typeIn_code, need_ok, ofNat_val] <;> rfl

theorem Laws.Coding.vand (ty : Ty) (d : Reg) (a : Reg) (b : Reg) : Laws.Coding.Statement (.vand ty d a b) := by
  intro _ hw
  have := ty.code_lt
  replace hw : (ty.colI) = true := hw
  show decode (encA 34 d.val a.val b.val 9 ty.code) = _
  rw [decode_34 _ (fMajor_encA _ _ _ _ _ _ (by omega) (by omega) (by omega) (by omega) (by omega) (by omega))]
  unfold decodeVarith
  rw [fMinor_encA _ _ _ _ _ _ (by omega) (by omega) (by omega) (by omega) (by omega) (by omega)]
  simp (disch := first | omega | assumption) only [fD_encA, fA_encA, fB_encA, fTy_encA, typeIn_code, ofNat_val] <;> rfl

theorem Laws.Coding.vor (ty : Ty) (d : Reg) (a : Reg) (b : Reg) : Laws.Coding.Statement (.vor ty d a b) := by
  intro _ hw
  have := ty.code_lt
  replace hw : (ty.colI) = true := hw
  show decode (encA 34 d.val a.val b.val 10 ty.code) = _
  rw [decode_34 _ (fMajor_encA _ _ _ _ _ _ (by omega) (by omega) (by omega) (by omega) (by omega) (by omega))]
  unfold decodeVarith
  rw [fMinor_encA _ _ _ _ _ _ (by omega) (by omega) (by omega) (by omega) (by omega) (by omega)]
  simp (disch := first | omega | assumption) only [fD_encA, fA_encA, fB_encA, fTy_encA, typeIn_code, ofNat_val] <;> rfl

theorem Laws.Coding.vxor (ty : Ty) (d : Reg) (a : Reg) (b : Reg) : Laws.Coding.Statement (.vxor ty d a b) := by
  intro _ hw
  have := ty.code_lt
  replace hw : (ty.colI) = true := hw
  show decode (encA 34 d.val a.val b.val 11 ty.code) = _
  rw [decode_34 _ (fMajor_encA _ _ _ _ _ _ (by omega) (by omega) (by omega) (by omega) (by omega) (by omega))]
  unfold decodeVarith
  rw [fMinor_encA _ _ _ _ _ _ (by omega) (by omega) (by omega) (by omega) (by omega) (by omega)]
  simp (disch := first | omega | assumption) only [fD_encA, fA_encA, fB_encA, fTy_encA, typeIn_code, ofNat_val] <;> rfl

theorem Laws.Coding.vshl (ty : Ty) (d : Reg) (a : Reg) (b : Reg) : Laws.Coding.Statement (.vshl ty d a b) := by
  intro _ hw
  have := ty.code_lt
  replace hw : (ty.colI) = true := hw
  show decode (encA 34 d.val a.val b.val 12 ty.code) = _
  rw [decode_34 _ (fMajor_encA _ _ _ _ _ _ (by omega) (by omega) (by omega) (by omega) (by omega) (by omega))]
  unfold decodeVarith
  rw [fMinor_encA _ _ _ _ _ _ (by omega) (by omega) (by omega) (by omega) (by omega) (by omega)]
  simp (disch := first | omega | assumption) only [fD_encA, fA_encA, fB_encA, fTy_encA, typeIn_code, ofNat_val] <;> rfl

theorem Laws.Coding.vshr (ty : Ty) (d : Reg) (a : Reg) (b : Reg) : Laws.Coding.Statement (.vshr ty d a b) := by
  intro _ hw
  have := ty.code_lt
  replace hw : (ty.colI) = true := hw
  show decode (encA 34 d.val a.val b.val 13 ty.code) = _
  rw [decode_34 _ (fMajor_encA _ _ _ _ _ _ (by omega) (by omega) (by omega) (by omega) (by omega) (by omega))]
  unfold decodeVarith
  rw [fMinor_encA _ _ _ _ _ _ (by omega) (by omega) (by omega) (by omega) (by omega) (by omega)]
  simp (disch := first | omega | assumption) only [fD_encA, fA_encA, fB_encA, fTy_encA, typeIn_code, ofNat_val] <;> rfl

theorem Laws.Coding.vcmpeq (ty : Ty) (pd : Reg) (a : Reg) (b : Reg) : Laws.Coding.Statement (.vcmpeq ty pd a b) := by
  intro _ hw
  have := ty.code_lt
  replace hw : (ty.colE && isPred pd) = true := hw
  simp only [Bool.and_eq_true] at hw
  obtain ⟨hw, h1⟩ := hw
  show decode (encA 34 pd.val a.val b.val 14 ty.code) = _
  rw [decode_34 _ (fMajor_encA _ _ _ _ _ _ (by omega) (by omega) (by omega) (by omega) (by omega) (by omega))]
  unfold decodeVarith
  rw [fMinor_encA _ _ _ _ _ _ (by omega) (by omega) (by omega) (by omega) (by omega) (by omega)]
  simp (disch := first | omega | assumption) only [fD_encA, fA_encA, fB_encA, fTy_encA, typeIn_code, predicate_ok, ofNat_val] <;> rfl

theorem Laws.Coding.vcmpne (ty : Ty) (pd : Reg) (a : Reg) (b : Reg) : Laws.Coding.Statement (.vcmpne ty pd a b) := by
  intro _ hw
  have := ty.code_lt
  replace hw : (ty.colE && isPred pd) = true := hw
  simp only [Bool.and_eq_true] at hw
  obtain ⟨hw, h1⟩ := hw
  show decode (encA 34 pd.val a.val b.val 15 ty.code) = _
  rw [decode_34 _ (fMajor_encA _ _ _ _ _ _ (by omega) (by omega) (by omega) (by omega) (by omega) (by omega))]
  unfold decodeVarith
  rw [fMinor_encA _ _ _ _ _ _ (by omega) (by omega) (by omega) (by omega) (by omega) (by omega)]
  simp (disch := first | omega | assumption) only [fD_encA, fA_encA, fB_encA, fTy_encA, typeIn_code, predicate_ok, ofNat_val] <;> rfl

theorem Laws.Coding.vcmplt (ty : Ty) (pd : Reg) (a : Reg) (b : Reg) : Laws.Coding.Statement (.vcmplt ty pd a b) := by
  intro _ hw
  have := ty.code_lt
  replace hw : (ty.colE && isPred pd) = true := hw
  simp only [Bool.and_eq_true] at hw
  obtain ⟨hw, h1⟩ := hw
  show decode (encA 34 pd.val a.val b.val 16 ty.code) = _
  rw [decode_34 _ (fMajor_encA _ _ _ _ _ _ (by omega) (by omega) (by omega) (by omega) (by omega) (by omega))]
  unfold decodeVarith
  rw [fMinor_encA _ _ _ _ _ _ (by omega) (by omega) (by omega) (by omega) (by omega) (by omega)]
  simp (disch := first | omega | assumption) only [fD_encA, fA_encA, fB_encA, fTy_encA, typeIn_code, predicate_ok, ofNat_val] <;> rfl

theorem Laws.Coding.vcmple (ty : Ty) (pd : Reg) (a : Reg) (b : Reg) : Laws.Coding.Statement (.vcmple ty pd a b) := by
  intro _ hw
  have := ty.code_lt
  replace hw : (ty.colE && isPred pd) = true := hw
  simp only [Bool.and_eq_true] at hw
  obtain ⟨hw, h1⟩ := hw
  show decode (encA 34 pd.val a.val b.val 17 ty.code) = _
  rw [decode_34 _ (fMajor_encA _ _ _ _ _ _ (by omega) (by omega) (by omega) (by omega) (by omega) (by omega))]
  unfold decodeVarith
  rw [fMinor_encA _ _ _ _ _ _ (by omega) (by omega) (by omega) (by omega) (by omega) (by omega)]
  simp (disch := first | omega | assumption) only [fD_encA, fA_encA, fB_encA, fTy_encA, typeIn_code, predicate_ok, ofNat_val] <;> rfl

theorem Laws.Coding.vcmpun (ty : Ty) (pd : Reg) (a : Reg) (b : Reg) : Laws.Coding.Statement (.vcmpun ty pd a b) := by
  intro _ hw
  have := ty.code_lt
  replace hw : (ty.colF && isPred pd) = true := hw
  simp only [Bool.and_eq_true] at hw
  obtain ⟨hw, h1⟩ := hw
  show decode (encA 34 pd.val a.val b.val 18 ty.code) = _
  rw [decode_34 _ (fMajor_encA _ _ _ _ _ _ (by omega) (by omega) (by omega) (by omega) (by omega) (by omega))]
  unfold decodeVarith
  rw [fMinor_encA _ _ _ _ _ _ (by omega) (by omega) (by omega) (by omega) (by omega) (by omega)]
  simp (disch := first | omega | assumption) only [fD_encA, fA_encA, fB_encA, fTy_encA, typeIn_code, predicate_ok, ofNat_val] <;> rfl

theorem Laws.Coding.vsel (ty : Ty) (d : Reg) (a : Reg) (pb : Reg) : Laws.Coding.Statement (.vsel ty d a pb) := by
  intro _ hw
  have := ty.code_lt
  replace hw : (ty.colE && isPred pb) = true := hw
  simp only [Bool.and_eq_true] at hw
  obtain ⟨hw, h1⟩ := hw
  show decode (encA 34 d.val a.val pb.val 19 ty.code) = _
  rw [decode_34 _ (fMajor_encA _ _ _ _ _ _ (by omega) (by omega) (by omega) (by omega) (by omega) (by omega))]
  unfold decodeVarith
  rw [fMinor_encA _ _ _ _ _ _ (by omega) (by omega) (by omega) (by omega) (by omega) (by omega)]
  simp (disch := first | omega | assumption) only [fD_encA, fA_encA, fB_encA, fTy_encA, typeIn_code, predicate_ok, ofNat_val] <;> rfl

theorem Laws.Coding.vdiv (ty : Ty) (d : Reg) (a : Reg) (b : Reg) : Laws.Coding.Statement (.vdiv ty d a b) := by
  intro _ hw
  have := ty.code_lt
  replace hw : (ty.colF) = true := hw
  show decode (encA 34 d.val a.val b.val 20 ty.code) = _
  rw [decode_34 _ (fMajor_encA _ _ _ _ _ _ (by omega) (by omega) (by omega) (by omega) (by omega) (by omega))]
  unfold decodeVarith
  rw [fMinor_encA _ _ _ _ _ _ (by omega) (by omega) (by omega) (by omega) (by omega) (by omega)]
  simp (disch := first | omega | assumption) only [fD_encA, fA_encA, fB_encA, fTy_encA, typeIn_code, ofNat_val] <;> rfl

theorem Laws.Coding.vsqrt (ty : Ty) (d : Reg) (a : Reg) : Laws.Coding.Statement (.vsqrt ty d a) := by
  intro _ hw
  have := ty.code_lt
  replace hw : (ty.colF) = true := hw
  show decode (encA 34 d.val a.val 0 21 ty.code) = _
  rw [decode_34 _ (fMajor_encA _ _ _ _ _ _ (by omega) (by omega) (by omega) (by omega) (by omega) (by omega))]
  unfold decodeVarith
  rw [fMinor_encA _ _ _ _ _ _ (by omega) (by omega) (by omega) (by omega) (by omega) (by omega)]
  simp (disch := first | omega | assumption) only [fD_encA, fA_encA, fB_encA, fTy_encA, typeIn_code, need_ok, ofNat_val] <;> rfl

theorem Laws.Coding.vfma (ty : Ty) (d : Reg) (a : Reg) (b : Reg) (c : Reg) : Laws.Coding.Statement (.vfma ty d a b c) := by
  intro _ hw
  have := ty.code_lt
  replace hw : (ty.colF) = true := hw
  show decode (encQ 36 d.val a.val b.val c.val 0 ty.code) = _
  rw [decode_36 _ (fMajor_encQ _ _ _ _ _ _ _ (by omega) (by omega) (by omega) (by omega) (by omega) (by omega) (by omega))]
  unfold decodeVfma
  rw [fVariant_encQ _ _ _ _ _ _ _ (by omega) (by omega) (by omega) (by omega) (by omega) (by omega) (by omega)]
  simp (disch := first | omega | assumption) only [fD_encQ, fA_encQ, fB_encQ, fC_encQ, fTy_encQ, typeIn_code, ofNat_val] <;> rfl

theorem Laws.Coding.vfms (ty : Ty) (d : Reg) (a : Reg) (b : Reg) (c : Reg) : Laws.Coding.Statement (.vfms ty d a b c) := by
  intro _ hw
  have := ty.code_lt
  replace hw : (ty.colF) = true := hw
  show decode (encQ 36 d.val a.val b.val c.val 1 ty.code) = _
  rw [decode_36 _ (fMajor_encQ _ _ _ _ _ _ _ (by omega) (by omega) (by omega) (by omega) (by omega) (by omega) (by omega))]
  unfold decodeVfma
  rw [fVariant_encQ _ _ _ _ _ _ _ (by omega) (by omega) (by omega) (by omega) (by omega) (by omega) (by omega)]
  simp (disch := first | omega | assumption) only [fD_encQ, fA_encQ, fB_encQ, fC_encQ, fTy_encQ, typeIn_code, ofNat_val] <;> rfl

theorem Laws.Coding.vfnma (ty : Ty) (d : Reg) (a : Reg) (b : Reg) (c : Reg) : Laws.Coding.Statement (.vfnma ty d a b c) := by
  intro _ hw
  have := ty.code_lt
  replace hw : (ty.colF) = true := hw
  show decode (encQ 36 d.val a.val b.val c.val 2 ty.code) = _
  rw [decode_36 _ (fMajor_encQ _ _ _ _ _ _ _ (by omega) (by omega) (by omega) (by omega) (by omega) (by omega) (by omega))]
  unfold decodeVfma
  rw [fVariant_encQ _ _ _ _ _ _ _ (by omega) (by omega) (by omega) (by omega) (by omega) (by omega) (by omega)]
  simp (disch := first | omega | assumption) only [fD_encQ, fA_encQ, fB_encQ, fC_encQ, fTy_encQ, typeIn_code, ofNat_val] <;> rfl

theorem Laws.Coding.vfnms (ty : Ty) (d : Reg) (a : Reg) (b : Reg) (c : Reg) : Laws.Coding.Statement (.vfnms ty d a b c) := by
  intro _ hw
  have := ty.code_lt
  replace hw : (ty.colF) = true := hw
  show decode (encQ 36 d.val a.val b.val c.val 3 ty.code) = _
  rw [decode_36 _ (fMajor_encQ _ _ _ _ _ _ _ (by omega) (by omega) (by omega) (by omega) (by omega) (by omega) (by omega))]
  unfold decodeVfma
  rw [fVariant_encQ _ _ _ _ _ _ _ (by omega) (by omega) (by omega) (by omega) (by omega) (by omega) (by omega)]
  simp (disch := first | omega | assumption) only [fD_encQ, fA_encQ, fB_encQ, fC_encQ, fTy_encQ, typeIn_code, ofNat_val] <;> rfl

theorem Laws.Coding.vcvt (ty : Ty) (d : Reg) (a : Reg) (src : Ty) : Laws.Coding.Statement (.vcvt ty d a src) := by
  intro _ hw
  have := ty.code_lt
  have := src.code_lt
  replace hw : (ty.colC && src.colC && decide (ty ≠ src)) = true := hw
  simp only [Bool.and_eq_true] at hw
  obtain ⟨⟨hw, h1⟩, h2⟩ := hw
  show decode (encA 37 d.val a.val src.code 1 ty.code) = _
  rw [decode_37 _ (fMajor_encA _ _ _ _ _ _ (by omega) (by omega) (by omega) (by omega) (by omega) (by omega))]
  unfold decodeVconv
  rw [fMinor_encA _ _ _ _ _ _ (by omega) (by omega) (by omega) (by omega) (by omega) (by omega)]
  simp (disch := first | omega | assumption) only [fD_encA, fA_encA, fB_encA, fTy_encA, typeIn_code, need_ok, ofNat_val, fin_ofNat_val, ok_bind] <;> rfl

theorem Laws.Coding.vqnt (ty : Ty) (d : Reg) (a : Reg) (src : Ty) : Laws.Coding.Statement (.vqnt ty d a src) := by
  intro _ hw
  have := ty.code_lt
  have := src.code_lt
  replace hw : (ty.colQ && src.colXQ && isGroup src a) = true := hw
  simp only [Bool.and_eq_true] at hw
  obtain ⟨⟨hw, h1⟩, h2⟩ := hw
  show decode (encA 37 d.val a.val src.code 2 ty.code) = _
  rw [decode_37 _ (fMajor_encA _ _ _ _ _ _ (by omega) (by omega) (by omega) (by omega) (by omega) (by omega))]
  unfold decodeVconv
  rw [fMinor_encA _ _ _ _ _ _ (by omega) (by omega) (by omega) (by omega) (by omega) (by omega)]
  simp (disch := first | omega | assumption) only [fD_encA, fA_encA, fB_encA, fTy_encA, typeIn_code, need_ok, ofNat_val, fin_ofNat_val, ok_bind] <;> rfl

theorem Laws.Coding.vxpq (ty : Ty) (d : Reg) (a : Reg) (src : Ty) : Laws.Coding.Statement (.vxpq ty d a src) := by
  intro _ hw
  have := ty.code_lt
  have := src.code_lt
  replace hw : (ty.colXQ && src.colQ && isGroup ty d) = true := hw
  simp only [Bool.and_eq_true] at hw
  obtain ⟨⟨hw, h1⟩, h2⟩ := hw
  show decode (encA 37 d.val a.val src.code 3 ty.code) = _
  rw [decode_37 _ (fMajor_encA _ _ _ _ _ _ (by omega) (by omega) (by omega) (by omega) (by omega) (by omega))]
  unfold decodeVconv
  rw [fMinor_encA _ _ _ _ _ _ (by omega) (by omega) (by omega) (by omega) (by omega) (by omega)]
  simp (disch := first | omega | assumption) only [fD_encA, fA_encA, fB_encA, fTy_encA, typeIn_code, need_ok, ofNat_val, fin_ofNat_val, ok_bind] <;> rfl

theorem Laws.Coding.vcvtx (ty : Ty) (d : Reg) (a : Reg) (src : Ty) : Laws.Coding.Statement (.vcvtx ty d a src) := by
  intro _ hw
  have := ty.code_lt
  have := src.code_lt
  replace hw : (ty.colC && src.colC && decide (ty ≠ src)) = true := hw
  simp only [Bool.and_eq_true] at hw
  obtain ⟨⟨hw, h1⟩, h2⟩ := hw
  show decode (encA 37 d.val a.val src.code 4 ty.code) = _
  rw [decode_37 _ (fMajor_encA _ _ _ _ _ _ (by omega) (by omega) (by omega) (by omega) (by omega) (by omega))]
  unfold decodeVconv
  rw [fMinor_encA _ _ _ _ _ _ (by omega) (by omega) (by omega) (by omega) (by omega) (by omega)]
  simp (disch := first | omega | assumption) only [fD_encA, fA_encA, fB_encA, fTy_encA, typeIn_code, need_ok, ofNat_val, fin_ofNat_val, ok_bind] <;> rfl

theorem Laws.Coding.vcps (ty : Ty) (d : Reg) (pa : Reg) (b : Reg) : Laws.Coding.Statement (.vcps ty d pa b) := by
  intro _ hw
  have := ty.code_lt
  replace hw : (ty.colE && isPred pa) = true := hw
  simp only [Bool.and_eq_true] at hw
  obtain ⟨hw, h1⟩ := hw
  show decode (encA 38 d.val pa.val b.val 1 ty.code) = _
  rw [decode_38 _ (fMajor_encA _ _ _ _ _ _ (by omega) (by omega) (by omega) (by omega) (by omega) (by omega))]
  unfold decodeVprm
  rw [fMinor_encA _ _ _ _ _ _ (by omega) (by omega) (by omega) (by omega) (by omega) (by omega)]
  simp (disch := first | omega | assumption) only [fD_encA, fA_encA, fB_encA, fTy_encA, typeIn_code, predicate_ok, ofNat_val] <;> rfl

theorem Laws.Coding.vxpd (ty : Ty) (d : Reg) (pa : Reg) (b : Reg) : Laws.Coding.Statement (.vxpd ty d pa b) := by
  intro _ hw
  have := ty.code_lt
  replace hw : (ty.colE && isPred pa) = true := hw
  simp only [Bool.and_eq_true] at hw
  obtain ⟨hw, h1⟩ := hw
  show decode (encA 38 d.val pa.val b.val 2 ty.code) = _
  rw [decode_38 _ (fMajor_encA _ _ _ _ _ _ (by omega) (by omega) (by omega) (by omega) (by omega) (by omega))]
  unfold decodeVprm
  rw [fMinor_encA _ _ _ _ _ _ (by omega) (by omega) (by omega) (by omega) (by omega) (by omega)]
  simp (disch := first | omega | assumption) only [fD_encA, fA_encA, fB_encA, fTy_encA, typeIn_code, predicate_ok, ofNat_val] <;> rfl

theorem Laws.Coding.vperm (ty : Ty) (d : Reg) (a : Reg) (b : Reg) : Laws.Coding.Statement (.vperm ty d a b) := by
  intro _ hw
  have := ty.code_lt
  replace hw : (ty.colE) = true := hw
  show decode (encA 38 d.val a.val b.val 3 ty.code) = _
  rw [decode_38 _ (fMajor_encA _ _ _ _ _ _ (by omega) (by omega) (by omega) (by omega) (by omega) (by omega))]
  unfold decodeVprm
  rw [fMinor_encA _ _ _ _ _ _ (by omega) (by omega) (by omega) (by omega) (by omega) (by omega)]
  simp (disch := first | omega | assumption) only [fD_encA, fA_encA, fB_encA, fTy_encA, typeIn_code, ofNat_val] <;> rfl

theorem Laws.Coding.vsplat (ty : Ty) (d : Reg) (a : Reg) : Laws.Coding.Statement (.vsplat ty d a) := by
  intro _ hw
  have := ty.code_lt
  replace hw : (ty.colE) = true := hw
  show decode (encA 38 d.val a.val 0 4 ty.code) = _
  rw [decode_38 _ (fMajor_encA _ _ _ _ _ _ (by omega) (by omega) (by omega) (by omega) (by omega) (by omega))]
  unfold decodeVprm
  rw [fMinor_encA _ _ _ _ _ _ (by omega) (by omega) (by omega) (by omega) (by omega) (by omega)]
  simp (disch := first | omega | assumption) only [fD_encA, fA_encA, fB_encA, fTy_encA, typeIn_code, need_ok, ofNat_val] <;> rfl

theorem Laws.Coding.vins (ty : Ty) (d : Reg) (a : Reg) (b : Reg) : Laws.Coding.Statement (.vins ty d a b) := by
  intro _ hw
  have := ty.code_lt
  replace hw : (ty.colE) = true := hw
  show decode (encA 38 d.val a.val b.val 5 ty.code) = _
  rw [decode_38 _ (fMajor_encA _ _ _ _ _ _ (by omega) (by omega) (by omega) (by omega) (by omega) (by omega))]
  unfold decodeVprm
  rw [fMinor_encA _ _ _ _ _ _ (by omega) (by omega) (by omega) (by omega) (by omega) (by omega)]
  simp (disch := first | omega | assumption) only [fD_encA, fA_encA, fB_encA, fTy_encA, typeIn_code, ofNat_val] <;> rfl

theorem Laws.Coding.vext (ty : Ty) (d : Reg) (a : Reg) (b : Reg) : Laws.Coding.Statement (.vext ty d a b) := by
  intro _ hw
  have := ty.code_lt
  replace hw : (ty.colE) = true := hw
  show decode (encA 38 d.val a.val b.val 6 ty.code) = _
  rw [decode_38 _ (fMajor_encA _ _ _ _ _ _ (by omega) (by omega) (by omega) (by omega) (by omega) (by omega))]
  unfold decodeVprm
  rw [fMinor_encA _ _ _ _ _ _ (by omega) (by omega) (by omega) (by omega) (by omega) (by omega)]
  simp (disch := first | omega | assumption) only [fD_encA, fA_encA, fB_encA, fTy_encA, typeIn_code, ofNat_val] <;> rfl

theorem Laws.Coding.vmov (d : Reg) (a : Reg) : Laws.Coding.Statement (.vmov d a) := by
  intro _ hw
  show decode (encA 38 d.val a.val 0 7 0) = _
  rw [decode_38 _ (fMajor_encA _ _ _ _ _ _ (by omega) (by omega) (by omega) (by omega) (by omega) (by omega))]
  unfold decodeVprm
  rw [fMinor_encA _ _ _ _ _ _ (by omega) (by omega) (by omega) (by omega) (by omega) (by omega)]
  simp (disch := first | omega | assumption) only [fD_encA, fA_encA, fB_encA, fTy_encA, need_ok, ofNat_val] <;> rfl

theorem Laws.Coding.vreda (ty : Ty) (d : Reg) (a : Reg) : Laws.Coding.Statement (.vreda ty d a) := by
  intro _ hw
  have := ty.code_lt
  replace hw : (ty.colE) = true := hw
  show decode (encA 39 d.val a.val 0 1 ty.code) = _
  rw [decode_39 _ (fMajor_encA _ _ _ _ _ _ (by omega) (by omega) (by omega) (by omega) (by omega) (by omega))]
  unfold decodeVrdc
  rw [fMinor_encA _ _ _ _ _ _ (by omega) (by omega) (by omega) (by omega) (by omega) (by omega)]
  simp (disch := first | omega | assumption) only [fD_encA, fA_encA, fB_encA, fTy_encA, typeIn_code, need_ok, ofNat_val] <;> rfl

theorem Laws.Coding.vredn (ty : Ty) (d : Reg) (a : Reg) : Laws.Coding.Statement (.vredn ty d a) := by
  intro _ hw
  have := ty.code_lt
  replace hw : (ty.colE) = true := hw
  show decode (encA 39 d.val a.val 0 2 ty.code) = _
  rw [decode_39 _ (fMajor_encA _ _ _ _ _ _ (by omega) (by omega) (by omega) (by omega) (by omega) (by omega))]
  unfold decodeVrdc
  rw [fMinor_encA _ _ _ _ _ _ (by omega) (by omega) (by omega) (by omega) (by omega) (by omega)]
  simp (disch := first | omega | assumption) only [fD_encA, fA_encA, fB_encA, fTy_encA, typeIn_code, need_ok, ofNat_val] <;> rfl

theorem Laws.Coding.vredx (ty : Ty) (d : Reg) (a : Reg) : Laws.Coding.Statement (.vredx ty d a) := by
  intro _ hw
  have := ty.code_lt
  replace hw : (ty.colE) = true := hw
  show decode (encA 39 d.val a.val 0 3 ty.code) = _
  rw [decode_39 _ (fMajor_encA _ _ _ _ _ _ (by omega) (by omega) (by omega) (by omega) (by omega) (by omega))]
  unfold decodeVrdc
  rw [fMinor_encA _ _ _ _ _ _ (by omega) (by omega) (by omega) (by omega) (by omega) (by omega)]
  simp (disch := first | omega | assumption) only [fD_encA, fA_encA, fB_encA, fTy_encA, typeIn_code, need_ok, ofNat_val] <;> rfl

theorem Laws.Coding.vdot (ty : Ty) (d : Reg) (a : Reg) (b : Reg) : Laws.Coding.Statement (.vdot ty d a b) := by
  intro _ hw
  have := ty.code_lt
  replace hw : (ty.colD) = true := hw
  show decode (encA 39 d.val a.val b.val 4 ty.code) = _
  rw [decode_39 _ (fMajor_encA _ _ _ _ _ _ (by omega) (by omega) (by omega) (by omega) (by omega) (by omega))]
  unfold decodeVrdc
  rw [fMinor_encA _ _ _ _ _ _ (by omega) (by omega) (by omega) (by omega) (by omega) (by omega)]
  simp (disch := first | omega | assumption) only [fD_encA, fA_encA, fB_encA, fTy_encA, typeIn_code, ofNat_val] <;> rfl

theorem Laws.Coding.pand (pd : Reg) (pa : Reg) (pb : Reg) : Laws.Coding.Statement (.pand pd pa pb) := by
  intro _ hw
  replace hw : (isPred pd && isPred pa && isPred pb) = true := hw
  simp only [Bool.and_eq_true] at hw
  obtain ⟨⟨hw, h1⟩, h2⟩ := hw
  show decode (encA 40 pd.val pa.val pb.val 1 0) = _
  rw [decode_40 _ (fMajor_encA _ _ _ _ _ _ (by omega) (by omega) (by omega) (by omega) (by omega) (by omega))]
  unfold decodePred
  rw [fMinor_encA _ _ _ _ _ _ (by omega) (by omega) (by omega) (by omega) (by omega) (by omega)]
  simp (disch := first | omega | assumption) only [fD_encA, fA_encA, fB_encA, fTy_encA, predicate_ok, need_ok, ofNat_val] <;> rfl

theorem Laws.Coding.por (pd : Reg) (pa : Reg) (pb : Reg) : Laws.Coding.Statement (.por pd pa pb) := by
  intro _ hw
  replace hw : (isPred pd && isPred pa && isPred pb) = true := hw
  simp only [Bool.and_eq_true] at hw
  obtain ⟨⟨hw, h1⟩, h2⟩ := hw
  show decode (encA 40 pd.val pa.val pb.val 2 0) = _
  rw [decode_40 _ (fMajor_encA _ _ _ _ _ _ (by omega) (by omega) (by omega) (by omega) (by omega) (by omega))]
  unfold decodePred
  rw [fMinor_encA _ _ _ _ _ _ (by omega) (by omega) (by omega) (by omega) (by omega) (by omega)]
  simp (disch := first | omega | assumption) only [fD_encA, fA_encA, fB_encA, fTy_encA, predicate_ok, need_ok, ofNat_val] <;> rfl

theorem Laws.Coding.pxor (pd : Reg) (pa : Reg) (pb : Reg) : Laws.Coding.Statement (.pxor pd pa pb) := by
  intro _ hw
  replace hw : (isPred pd && isPred pa && isPred pb) = true := hw
  simp only [Bool.and_eq_true] at hw
  obtain ⟨⟨hw, h1⟩, h2⟩ := hw
  show decode (encA 40 pd.val pa.val pb.val 3 0) = _
  rw [decode_40 _ (fMajor_encA _ _ _ _ _ _ (by omega) (by omega) (by omega) (by omega) (by omega) (by omega))]
  unfold decodePred
  rw [fMinor_encA _ _ _ _ _ _ (by omega) (by omega) (by omega) (by omega) (by omega) (by omega)]
  simp (disch := first | omega | assumption) only [fD_encA, fA_encA, fB_encA, fTy_encA, predicate_ok, need_ok, ofNat_val] <;> rfl

theorem Laws.Coding.pnot (pd : Reg) (pa : Reg) : Laws.Coding.Statement (.pnot pd pa) := by
  intro _ hw
  replace hw : (isPred pd && isPred pa) = true := hw
  simp only [Bool.and_eq_true] at hw
  obtain ⟨hw, h1⟩ := hw
  show decode (encA 40 pd.val pa.val 0 4 0) = _
  rw [decode_40 _ (fMajor_encA _ _ _ _ _ _ (by omega) (by omega) (by omega) (by omega) (by omega) (by omega))]
  unfold decodePred
  rw [fMinor_encA _ _ _ _ _ _ (by omega) (by omega) (by omega) (by omega) (by omega) (by omega)]
  simp (disch := first | omega | assumption) only [fD_encA, fA_encA, fB_encA, fTy_encA, predicate_ok, need_ok, ofNat_val] <;> rfl

theorem Laws.Coding.pcnt (ty : Ty) (d : Reg) (pa : Reg) : Laws.Coding.Statement (.pcnt ty d pa) := by
  intro _ hw
  have := ty.code_lt
  replace hw : (ty.colE && isPred pa) = true := hw
  simp only [Bool.and_eq_true] at hw
  obtain ⟨hw, h1⟩ := hw
  show decode (encA 40 d.val pa.val 0 5 ty.code) = _
  rw [decode_40 _ (fMajor_encA _ _ _ _ _ _ (by omega) (by omega) (by omega) (by omega) (by omega) (by omega))]
  unfold decodePred
  rw [fMinor_encA _ _ _ _ _ _ (by omega) (by omega) (by omega) (by omega) (by omega) (by omega)]
  simp (disch := first | omega | assumption) only [fD_encA, fA_encA, fB_encA, fTy_encA, typeIn_code, predicate_ok, need_ok, ofNat_val] <;> rfl

theorem Laws.Coding.pfst (ty : Ty) (d : Reg) (pa : Reg) : Laws.Coding.Statement (.pfst ty d pa) := by
  intro _ hw
  have := ty.code_lt
  replace hw : (ty.colE && isPred pa) = true := hw
  simp only [Bool.and_eq_true] at hw
  obtain ⟨hw, h1⟩ := hw
  show decode (encA 40 d.val pa.val 0 6 ty.code) = _
  rw [decode_40 _ (fMajor_encA _ _ _ _ _ _ (by omega) (by omega) (by omega) (by omega) (by omega) (by omega))]
  unfold decodePred
  rw [fMinor_encA _ _ _ _ _ _ (by omega) (by omega) (by omega) (by omega) (by omega) (by omega)]
  simp (disch := first | omega | assumption) only [fD_encA, fA_encA, fB_encA, fTy_encA, typeIn_code, predicate_ok, need_ok, ofNat_val] <;> rfl

theorem Laws.Coding.pset (pd : Reg) (a : Reg) : Laws.Coding.Statement (.pset pd a) := by
  intro _ hw
  replace hw : (isPred pd) = true := hw
  show decode (encA 40 pd.val a.val 0 7 0) = _
  rw [decode_40 _ (fMajor_encA _ _ _ _ _ _ (by omega) (by omega) (by omega) (by omega) (by omega) (by omega))]
  unfold decodePred
  rw [fMinor_encA _ _ _ _ _ _ (by omega) (by omega) (by omega) (by omega) (by omega) (by omega)]
  simp (disch := first | omega | assumption) only [fD_encA, fA_encA, fB_encA, fTy_encA, predicate_ok, need_ok, ofNat_val] <;> rfl

theorem Laws.Coding.pget (d : Reg) (pa : Reg) : Laws.Coding.Statement (.pget d pa) := by
  intro _ hw
  replace hw : (isPred pa) = true := hw
  show decode (encA 40 d.val pa.val 0 8 0) = _
  rw [decode_40 _ (fMajor_encA _ _ _ _ _ _ (by omega) (by omega) (by omega) (by omega) (by omega) (by omega))]
  unfold decodePred
  rw [fMinor_encA _ _ _ _ _ _ (by omega) (by omega) (by omega) (by omega) (by omega) (by omega)]
  simp (disch := first | omega | assumption) only [fD_encA, fA_encA, fB_encA, fTy_encA, predicate_ok, need_ok, ofNat_val] <;> rfl

theorem Laws.Coding.scfg (sd : Reg) (a : Reg) : Laws.Coding.Statement (.scfg sd a) := by
  intro _ hw
  replace hw : (isStream sd) = true := hw
  show decode (encA 41 sd.val a.val 0 1 0) = _
  rw [decode_41 _ (fMajor_encA _ _ _ _ _ _ (by omega) (by omega) (by omega) (by omega) (by omega) (by omega))]
  unfold decodeStrm
  rw [fMinor_encA _ _ _ _ _ _ (by omega) (by omega) (by omega) (by omega) (by omega) (by omega)]
  simp (disch := first | omega | assumption) only [fD_encA, fA_encA, fB_encA, fTy_encA, stream_ok, need_ok, ofNat_val] <;> rfl

theorem Laws.Coding.sbind (d : Reg) (sa : Reg) : Laws.Coding.Statement (.sbind d sa) := by
  intro _ hw
  replace hw : (isStream sa) = true := hw
  show decode (encA 41 d.val sa.val 0 2 0) = _
  rw [decode_41 _ (fMajor_encA _ _ _ _ _ _ (by omega) (by omega) (by omega) (by omega) (by omega) (by omega))]
  unfold decodeStrm
  rw [fMinor_encA _ _ _ _ _ _ (by omega) (by omega) (by omega) (by omega) (by omega) (by omega)]
  simp (disch := first | omega | assumption) only [fD_encA, fA_encA, fB_encA, fTy_encA, stream_ok, need_ok, ofNat_val] <;> rfl

theorem Laws.Coding.send (sd : Reg) : Laws.Coding.Statement (.send sd) := by
  intro _ hw
  replace hw : (isStream sd) = true := hw
  show decode (encA 41 sd.val 0 0 3 0) = _
  rw [decode_41 _ (fMajor_encA _ _ _ _ _ _ (by omega) (by omega) (by omega) (by omega) (by omega) (by omega))]
  unfold decodeStrm
  rw [fMinor_encA _ _ _ _ _ _ (by omega) (by omega) (by omega) (by omega) (by omega) (by omega)]
  simp (disch := first | omega | assumption) only [fD_encA, fA_encA, fB_encA, fTy_encA, stream_ok, need_ok, ofNat_val] <;> rfl

theorem Laws.Coding.sstat (d : Reg) (sa : Reg) : Laws.Coding.Statement (.sstat d sa) := by
  intro _ hw
  replace hw : (isStream sa) = true := hw
  show decode (encA 41 d.val sa.val 0 4 0) = _
  rw [decode_41 _ (fMajor_encA _ _ _ _ _ _ (by omega) (by omega) (by omega) (by omega) (by omega) (by omega))]
  unfold decodeStrm
  rw [fMinor_encA _ _ _ _ _ _ (by omega) (by omega) (by omega) (by omega) (by omega) (by omega)]
  simp (disch := first | omega | assumption) only [fD_encA, fA_encA, fB_encA, fTy_encA, stream_ok, need_ok, ofNat_val] <;> rfl

theorem Laws.Coding.sskip (sd : Reg) (a : Reg) : Laws.Coding.Statement (.sskip sd a) := by
  intro _ hw
  replace hw : (isStream sd) = true := hw
  show decode (encA 41 sd.val a.val 0 5 0) = _
  rw [decode_41 _ (fMajor_encA _ _ _ _ _ _ (by omega) (by omega) (by omega) (by omega) (by omega) (by omega))]
  unfold decodeStrm
  rw [fMinor_encA _ _ _ _ _ _ (by omega) (by omega) (by omega) (by omega) (by omega) (by omega)]
  simp (disch := first | omega | assumption) only [fD_encA, fA_encA, fB_encA, fTy_encA, stream_ok, need_ok, ofNat_val] <;> rfl

theorem Laws.Coding.streamFetch (core : Nat) (slot : Fin 4) (stream : Fin 4) : Laws.Coding.Statement (.streamFetch core slot stream) := by
  intro h; cases h

theorem Laws.Coding.tset (t : Fin 64) (a : Reg) : Laws.Coding.Statement (.tset t a) := by
  intro _ hw
  show decode (encA 42 (t.val % 32) a.val 0 1 (t.val / 32)) = _
  rw [decode_42 _ (fMajor_encA _ _ _ _ _ _ (by omega) (by omega) (by omega) (by omega) (by omega) (by omega))]
  unfold decodeTslt
  rw [fMinor_encA _ _ _ _ _ _ (by omega) (by omega) (by omega) (by omega) (by omega) (by omega)]
  simp (disch := first | omega | assumption) only [fD_encA, fA_encA, fB_encA, fTy_encA, need_ok, ofNat_val, slotNumber_split] <;> rfl

theorem Laws.Coding.tget (t : Fin 64) (a : Reg) : Laws.Coding.Statement (.tget t a) := by
  intro _ hw
  show decode (encA 42 (t.val % 32) a.val 0 2 (t.val / 32)) = _
  rw [decode_42 _ (fMajor_encA _ _ _ _ _ _ (by omega) (by omega) (by omega) (by omega) (by omega) (by omega))]
  unfold decodeTslt
  rw [fMinor_encA _ _ _ _ _ _ (by omega) (by omega) (by omega) (by omega) (by omega) (by omega)]
  simp (disch := first | omega | assumption) only [fD_encA, fA_encA, fB_encA, fTy_encA, need_ok, ofNat_val, slotNumber_split] <;> rfl

theorem Laws.Coding.tclr (t : Fin 64) : Laws.Coding.Statement (.tclr t) := by
  intro _ hw
  show decode (encA 42 (t.val % 32) 0 0 3 (t.val / 32)) = _
  rw [decode_42 _ (fMajor_encA _ _ _ _ _ _ (by omega) (by omega) (by omega) (by omega) (by omega) (by omega))]
  unfold decodeTslt
  rw [fMinor_encA _ _ _ _ _ _ (by omega) (by omega) (by omega) (by omega) (by omega) (by omega)]
  simp (disch := first | omega | assumption) only [fD_encA, fA_encA, fB_encA, fTy_encA, need_ok, ofNat_val, slotNumber_split] <;> rfl

theorem Laws.Coding.tinfo (a : Reg) (t : Fin 64) : Laws.Coding.Statement (.tinfo a t) := by
  intro _ hw
  show decode (encA 42 (t.val % 32) a.val 0 4 (t.val / 32)) = _
  rw [decode_42 _ (fMajor_encA _ _ _ _ _ _ (by omega) (by omega) (by omega) (by omega) (by omega) (by omega))]
  unfold decodeTslt
  rw [fMinor_encA _ _ _ _ _ _ (by omega) (by omega) (by omega) (by omega) (by omega) (by omega)]
  simp (disch := first | omega | assumption) only [fD_encA, fA_encA, fB_encA, fTy_encA, need_ok, ofNat_val, slotNumber_split] <;> rfl

theorem Laws.Coding.hmm (d : Reg) (tc : Fin 64) (ta : Fin 64) (tb : Fin 64) (fl : BitVec 3) : Laws.Coding.Statement (.hmm d tc ta tb fl) := by
  intro _ hw
  show decode (encH 43 d.val tc.val ta.val tb.val fl.toNat) = _
  rw [decode_43 _ (fMajor_encH _ _ _ _ _ _ (by omega) (by omega) (by omega) (by omega) (by omega) (by omega))]
  simp (disch := first | omega | assumption) only [fD_encH, fTc_encH, fTa_encH, fTb_encH, fFl_encH, ofNat_val, BitVec.ofNat_toNat, BitVec.setWidth_eq]

theorem Laws.Coding.hadd (d : Reg) (tc : Fin 64) (ta : Fin 64) (tb : Fin 64) (fl : BitVec 3) : Laws.Coding.Statement (.hadd d tc ta tb fl) := by
  intro _ hw
  show decode (encH 44 d.val tc.val ta.val tb.val fl.toNat) = _
  rw [decode_44 _ (fMajor_encH _ _ _ _ _ _ (by omega) (by omega) (by omega) (by omega) (by omega) (by omega))]
  simp (disch := first | omega | assumption) only [fD_encH, fTc_encH, fTa_encH, fTb_encH, fFl_encH, ofNat_val, BitVec.ofNat_toNat, BitVec.setWidth_eq]

theorem Laws.Coding.hmv (d : Reg) (tc : Fin 64) (ta : Fin 64) (tb : Fin 64) (fl : BitVec 2) : Laws.Coding.Statement (.hmv d tc ta tb fl) := by
  intro _ _
  obtain ⟨⟨m, hm⟩⟩ := fl
  show decode (encH 45 d.val tc.val ta.val tb.val m) = _
  rw [decode_45 _ (fMajor_encH _ _ _ _ _ _ (by omega) (by omega) (by omega) (by omega) (by omega) (by omega))]
  simp (disch := omega) only [fD_encH, fTc_encH, fTa_encH, fTb_encH, fFl_encH, ofNat_val]
  interval_cases m <;> rfl

theorem Laws.Coding.hcvt (d : Reg) (tc : Fin 64) (ta : Fin 64) (fmt : Ty) (swap : Bool) : Laws.Coding.Statement (.hcvt d tc ta fmt swap) := by
  intro _ _
  have := fmt.code_lt
  cases swap
  · show decode (encH 46 d.val tc.val ta.val fmt.code 0) = _
    rw [decode_46 _ (fMajor_encH _ _ _ _ _ _ (by omega) (by omega) (by omega) (by omega) (by omega) (by omega))]
    simp (disch := omega) only [fD_encH, fTc_encH, fTa_encH, fTb_encH, fFl_encH, ofNat_val, fin_ofNat_val, typeIn_all] <;> rfl
  · show decode (encH 46 d.val tc.val ta.val fmt.code 4) = _
    rw [decode_46 _ (fMajor_encH _ _ _ _ _ _ (by omega) (by omega) (by omega) (by omega) (by omega) (by omega))]
    simp (disch := omega) only [fD_encH, fTc_encH, fTa_encH, fTb_encH, fFl_encH, ofNat_val, fin_ofNat_val, typeIn_all] <;> rfl

theorem Laws.Coding.windowStallRelease (room : Nat) : Laws.Coding.Statement (.windowStallRelease room) := by
  intro h; cases h

theorem Laws.Coding.hsnap (d : Reg) (b : Reg) (t : Fin 64) : Laws.Coding.Statement (.hsnap d b t) := by
  intro _ hw
  replace hw : (isPair d) = true := hw
  show decode (encA 47 d.val (t.val % 32) b.val 1 (t.val / 32)) = _
  rw [decode_47 _ (fMajor_encA _ _ _ _ _ _ (by omega) (by omega) (by omega) (by omega) (by omega) (by omega))]
  unfold decodeHctl
  rw [fMinor_encA _ _ _ _ _ _ (by omega) (by omega) (by omega) (by omega) (by omega) (by omega)]
  simp (disch := first | omega | assumption) only [fD_encA, fA_encA, fB_encA, fTy_encA, pair_ok, ofNat_val, slotNumber_split] <;> rfl

theorem Laws.Coding.hqry (d : Reg) (a : Reg) : Laws.Coding.Statement (.hqry d a) := by
  intro _ hw
  show decode (encA 47 d.val a.val 0 2 0) = _
  rw [decode_47 _ (fMajor_encA _ _ _ _ _ _ (by omega) (by omega) (by omega) (by omega) (by omega) (by omega))]
  unfold decodeHctl
  rw [fMinor_encA _ _ _ _ _ _ (by omega) (by omega) (by omega) (by omega) (by omega) (by omega)]
  simp (disch := first | omega | assumption) only [fD_encA, fA_encA, fB_encA, fTy_encA, need_ok, ofNat_val] <;> rfl

theorem Laws.Coding.hres (a : Reg) : Laws.Coding.Statement (.hres a) := by
  intro _ hw
  show decode (encA 47 0 a.val 0 3 0) = _
  rw [decode_47 _ (fMajor_encA _ _ _ _ _ _ (by omega) (by omega) (by omega) (by omega) (by omega) (by omega))]
  unfold decodeHctl
  rw [fMinor_encA _ _ _ _ _ _ (by omega) (by omega) (by omega) (by omega) (by omega) (by omega)]
  simp (disch := first | omega | assumption) only [fD_encA, fA_encA, fB_encA, fTy_encA, need_ok, ofNat_val] <;> rfl

theorem Laws.Coding.hdrop (a : Reg) : Laws.Coding.Statement (.hdrop a) := by
  intro _ hw
  show decode (encA 47 0 a.val 0 4 0) = _
  rw [decode_47 _ (fMajor_encA _ _ _ _ _ _ (by omega) (by omega) (by omega) (by omega) (by omega) (by omega))]
  unfold decodeHctl
  rw [fMinor_encA _ _ _ _ _ _ (by omega) (by omega) (by omega) (by omega) (by omega) (by omega)]
  simp (disch := first | omega | assumption) only [fD_encA, fA_encA, fB_encA, fTy_encA, need_ok, ofNat_val] <;> rfl

theorem Laws.Coding.hwin (d : Reg) : Laws.Coding.Statement (.hwin d) := by
  intro _ hw
  show decode (encA 47 d.val 0 0 5 0) = _
  rw [decode_47 _ (fMajor_encA _ _ _ _ _ _ (by omega) (by omega) (by omega) (by omega) (by omega) (by omega))]
  unfold decodeHctl
  rw [fMinor_encA _ _ _ _ _ _ (by omega) (by omega) (by omega) (by omega) (by omega) (by omega)]
  simp (disch := first | omega | assumption) only [fD_encA, fA_encA, fB_encA, fTy_encA, need_ok, ofNat_val] <;> rfl

theorem Laws.Coding.commandStart (room : Nat) : Laws.Coding.Statement (.commandStart room) := by
  intro h; cases h

theorem Laws.Coding.commandRetire (room : Nat) : Laws.Coding.Statement (.commandRetire room) := by
  intro h; cases h

theorem Laws.Coding.commandStop (room : Nat) (code : BitVec 8) : Laws.Coding.Statement (.commandStop room code) := by
  intro h; cases h

theorem Laws.Coding.granuleStop (room : Nat) (steps : Nat) : Laws.Coding.Statement (.granuleStop room steps) := by
  intro h; cases h

theorem Laws.Coding.postedProduct (room : Nat) : Laws.Coding.Statement (.postedProduct room) := by
  intro h; cases h

theorem Laws.Coding.postedProductReturn (room : Nat) : Laws.Coding.Statement (.postedProductReturn room) := by
  intro h; cases h

theorem Laws.Coding.lpatch (d : Reg) (a : Reg) (b : Reg) : Laws.Coding.Statement (.lpatch d a b) := by
  intro _ hw
  show decode (encA 48 d.val a.val b.val 1 0) = _
  rw [decode_48 _ (fMajor_encA _ _ _ _ _ _ (by omega) (by omega) (by omega) (by omega) (by omega) (by omega))]
  unfold decodeTask
  rw [fMinor_encA _ _ _ _ _ _ (by omega) (by omega) (by omega) (by omega) (by omega) (by omega)]
  simp (disch := first | omega | assumption) only [fD_encA, fA_encA, fB_encA, fTy_encA, need_ok, ofNat_val] <;> rfl

theorem Laws.Coding.larm (d : Reg) (a : Reg) : Laws.Coding.Statement (.larm d a) := by
  intro _ hw
  show decode (encA 48 d.val a.val 0 2 0) = _
  rw [decode_48 _ (fMajor_encA _ _ _ _ _ _ (by omega) (by omega) (by omega) (by omega) (by omega) (by omega))]
  unfold decodeTask
  rw [fMinor_encA _ _ _ _ _ _ (by omega) (by omega) (by omega) (by omega) (by omega) (by omega)]
  simp (disch := first | omega | assumption) only [fD_encA, fA_encA, fB_encA, fTy_encA, need_ok, ofNat_val] <;> rfl

theorem Laws.Coding.lqry (d : Reg) (a : Reg) : Laws.Coding.Statement (.lqry d a) := by
  intro _ hw
  show decode (encA 48 d.val a.val 0 3 0) = _
  rw [decode_48 _ (fMajor_encA _ _ _ _ _ _ (by omega) (by omega) (by omega) (by omega) (by omega) (by omega))]
  unfold decodeTask
  rw [fMinor_encA _ _ _ _ _ _ (by omega) (by omega) (by omega) (by omega) (by omega) (by omega)]
  simp (disch := first | omega | assumption) only [fD_encA, fA_encA, fB_encA, fTy_encA, need_ok, ofNat_val] <;> rfl

theorem Laws.Coding.qenq (a : Reg) (b : Reg) : Laws.Coding.Statement (.qenq a b) := by
  intro _ hw
  show decode (encA 48 0 a.val b.val 4 0) = _
  rw [decode_48 _ (fMajor_encA _ _ _ _ _ _ (by omega) (by omega) (by omega) (by omega) (by omega) (by omega))]
  unfold decodeTask
  rw [fMinor_encA _ _ _ _ _ _ (by omega) (by omega) (by omega) (by omega) (by omega) (by omega)]
  simp (disch := first | omega | assumption) only [fD_encA, fA_encA, fB_encA, fTy_encA, need_ok, ofNat_val] <;> rfl

theorem Laws.Coding.tend  : Laws.Coding.Statement (.tend) := by
  intro _ hw
  show decode (encA 48 0 0 0 5 0) = _
  rw [decode_48 _ (fMajor_encA _ _ _ _ _ _ (by omega) (by omega) (by omega) (by omega) (by omega) (by omega))]
  unfold decodeTask
  rw [fMinor_encA _ _ _ _ _ _ (by omega) (by omega) (by omega) (by omega) (by omega) (by omega)]
  simp (disch := first | omega | assumption) only [fD_encA, fA_encA, fB_encA, fTy_encA, need_ok, ofNat_val] <;> rfl

theorem Laws.Coding.tyld  : Laws.Coding.Statement (.tyld) := by
  intro _ hw
  show decode (encA 48 0 0 0 6 0) = _
  rw [decode_48 _ (fMajor_encA _ _ _ _ _ _ (by omega) (by omega) (by omega) (by omega) (by omega) (by omega))]
  unfold decodeTask
  rw [fMinor_encA _ _ _ _ _ _ (by omega) (by omega) (by omega) (by omega) (by omega) (by omega)]
  simp (disch := first | omega | assumption) only [fD_encA, fA_encA, fB_encA, fTy_encA, need_ok, ofNat_val] <;> rfl

theorem Laws.Coding.garm (d : Reg) (a : Reg) : Laws.Coding.Statement (.garm d a) := by
  intro _ hw
  show decode (encA 48 d.val a.val 0 7 0) = _
  rw [decode_48 _ (fMajor_encA _ _ _ _ _ _ (by omega) (by omega) (by omega) (by omega) (by omega) (by omega))]
  unfold decodeTask
  rw [fMinor_encA _ _ _ _ _ _ (by omega) (by omega) (by omega) (by omega) (by omega) (by omega)]
  simp (disch := first | omega | assumption) only [fD_encA, fA_encA, fB_encA, fTy_encA, need_ok, ofNat_val] <;> rfl

theorem Laws.Coding.gdone (a : Reg) : Laws.Coding.Statement (.gdone a) := by
  intro _ hw
  show decode (encA 48 0 a.val 0 8 0) = _
  rw [decode_48 _ (fMajor_encA _ _ _ _ _ _ (by omega) (by omega) (by omega) (by omega) (by omega) (by omega))]
  unfold decodeTask
  rw [fMinor_encA _ _ _ _ _ _ (by omega) (by omega) (by omega) (by omega) (by omega) (by omega)]
  simp (disch := first | omega | assumption) only [fD_encA, fA_encA, fB_encA, fTy_encA, need_ok, ofNat_val] <;> rfl

theorem Laws.Coding.landingRetry (hall : Nat) : Laws.Coding.Statement (.landingRetry hall) := by
  intro h; cases h

theorem Laws.Coding.migr (a : Reg) : Laws.Coding.Statement (.migr a) := by
  intro _ hw
  show decode (encA 48 0 a.val 0 9 0) = _
  rw [decode_48 _ (fMajor_encA _ _ _ _ _ _ (by omega) (by omega) (by omega) (by omega) (by omega) (by omega))]
  unfold decodeTask
  rw [fMinor_encA _ _ _ _ _ _ (by omega) (by omega) (by omega) (by omega) (by omega) (by omega)]
  simp (disch := first | omega | assumption) only [fD_encA, fA_encA, fB_encA, fTy_encA, need_ok, ofNat_val] <;> rfl

theorem Laws.Coding.done (d : Reg) : Laws.Coding.Statement (.done d) := by
  intro _ hw
  show decode (encA 48 d.val 0 0 10 0) = _
  rw [decode_48 _ (fMajor_encA _ _ _ _ _ _ (by omega) (by omega) (by omega) (by omega) (by omega) (by omega))]
  unfold decodeTask
  rw [fMinor_encA _ _ _ _ _ _ (by omega) (by omega) (by omega) (by omega) (by omega) (by omega)]
  simp (disch := first | omega | assumption) only [fD_encA, fA_encA, fB_encA, fTy_encA, need_ok, ofNat_val] <;> rfl

theorem Laws.Coding.slook (d : Reg) (a : Reg) (b : Reg) : Laws.Coding.Statement (.slook d a b) := by
  intro _ hw
  replace hw : (isPair d) = true := hw
  show decode (encA 49 d.val a.val b.val 1 0) = _
  rw [decode_49 _ (fMajor_encA _ _ _ _ _ _ (by omega) (by omega) (by omega) (by omega) (by omega) (by omega))]
  unfold decodeSeal
  rw [fMinor_encA _ _ _ _ _ _ (by omega) (by omega) (by omega) (by omega) (by omega) (by omega)]
  simp (disch := first | omega | assumption) only [fD_encA, fA_encA, fB_encA, fTy_encA, pair_ok, need_ok, ofNat_val] <;> rfl

theorem Laws.Coding.shash (d : Reg) (a : Reg) (b : Reg) : Laws.Coding.Statement (.shash d a b) := by
  intro _ hw
  replace hw : (isPair d) = true := hw
  show decode (encA 49 d.val a.val b.val 2 0) = _
  rw [decode_49 _ (fMajor_encA _ _ _ _ _ _ (by omega) (by omega) (by omega) (by omega) (by omega) (by omega))]
  unfold decodeSeal
  rw [fMinor_encA _ _ _ _ _ _ (by omega) (by omega) (by omega) (by omega) (by omega) (by omega)]
  simp (disch := first | omega | assumption) only [fD_encA, fA_encA, fB_encA, fTy_encA, pair_ok, need_ok, ofNat_val] <;> rfl

theorem Laws.Coding.sref (a : Reg) : Laws.Coding.Statement (.sref a) := by
  intro _ hw
  replace hw : (isPair a) = true := hw
  show decode (encA 49 0 a.val 0 3 0) = _
  rw [decode_49 _ (fMajor_encA _ _ _ _ _ _ (by omega) (by omega) (by omega) (by omega) (by omega) (by omega))]
  unfold decodeSeal
  rw [fMinor_encA _ _ _ _ _ _ (by omega) (by omega) (by omega) (by omega) (by omega) (by omega)]
  simp (disch := first | omega | assumption) only [fD_encA, fA_encA, fB_encA, fTy_encA, pair_ok, need_ok, ofNat_val] <;> rfl

theorem Laws.Coding.sunref (a : Reg) : Laws.Coding.Statement (.sunref a) := by
  intro _ hw
  replace hw : (isPair a) = true := hw
  show decode (encA 49 0 a.val 0 4 0) = _
  rw [decode_49 _ (fMajor_encA _ _ _ _ _ _ (by omega) (by omega) (by omega) (by omega) (by omega) (by omega))]
  unfold decodeSeal
  rw [fMinor_encA _ _ _ _ _ _ (by omega) (by omega) (by omega) (by omega) (by omega) (by omega)]
  simp (disch := first | omega | assumption) only [fD_encA, fA_encA, fB_encA, fTy_encA, pair_ok, need_ok, ofNat_val] <;> rfl

theorem Laws.Coding.sres (d : Reg) (a : Reg) : Laws.Coding.Statement (.sres d a) := by
  intro _ hw
  replace hw : (isPair a) = true := hw
  show decode (encA 49 d.val a.val 0 5 0) = _
  rw [decode_49 _ (fMajor_encA _ _ _ _ _ _ (by omega) (by omega) (by omega) (by omega) (by omega) (by omega))]
  unfold decodeSeal
  rw [fMinor_encA _ _ _ _ _ _ (by omega) (by omega) (by omega) (by omega) (by omega) (by omega)]
  simp (disch := first | omega | assumption) only [fD_encA, fA_encA, fB_encA, fTy_encA, pair_ok, need_ok, ofNat_val] <;> rfl

theorem Laws.Coding.scas (d : Reg) (a : Reg) (b : Reg) : Laws.Coding.Statement (.scas d a b) := by
  intro _ hw
  replace hw : (isPair a && isPair b) = true := hw
  simp only [Bool.and_eq_true] at hw
  obtain ⟨hw, h1⟩ := hw
  show decode (encA 49 d.val a.val b.val 6 0) = _
  rw [decode_49 _ (fMajor_encA _ _ _ _ _ _ (by omega) (by omega) (by omega) (by omega) (by omega) (by omega))]
  unfold decodeSeal
  rw [fMinor_encA _ _ _ _ _ _ (by omega) (by omega) (by omega) (by omega) (by omega) (by omega)]
  simp (disch := first | omega | assumption) only [fD_encA, fA_encA, fB_encA, fTy_encA, pair_ok, need_ok, ofNat_val] <;> rfl

theorem Laws.Coding.scopy (d : Reg) (a : Reg) : Laws.Coding.Statement (.scopy d a) := by
  intro _ hw
  replace hw : (isPair a) = true := hw
  show decode (encA 49 d.val a.val 0 7 0) = _
  rw [decode_49 _ (fMajor_encA _ _ _ _ _ _ (by omega) (by omega) (by omega) (by omega) (by omega) (by omega))]
  unfold decodeSeal
  rw [fMinor_encA _ _ _ _ _ _ (by omega) (by omega) (by omega) (by omega) (by omega) (by omega)]
  simp (disch := first | omega | assumption) only [fD_encA, fA_encA, fB_encA, fTy_encA, pair_ok, need_ok, ofNat_val] <;> rfl

theorem Laws.Coding.sealSstat (d : Reg) (a : Reg) : Laws.Coding.Statement (.sealSstat d a) := by
  intro _ hw
  replace hw : (isPair a) = true := hw
  show decode (encA 49 d.val a.val 0 8 0) = _
  rw [decode_49 _ (fMajor_encA _ _ _ _ _ _ (by omega) (by omega) (by omega) (by omega) (by omega) (by omega))]
  unfold decodeSeal
  rw [fMinor_encA _ _ _ _ _ _ (by omega) (by omega) (by omega) (by omega) (by omega) (by omega)]
  simp (disch := first | omega | assumption) only [fD_encA, fA_encA, fB_encA, fTy_encA, pair_ok, need_ok, ofNat_val] <;> rfl

theorem Laws.Coding.deferredRelease  : Laws.Coding.Statement (.deferredRelease) := by
  intro h; cases h

theorem Laws.Coding.trap (n : BitVec 15) : Laws.Coding.Statement (.trap n) := by
  intro _ hw
  show decode (encA 50 (n.toNat / 1024) (n.toNat / 32 % 32) (n.toNat % 32) 1 0) = _
  rw [decode_50 _ (fMajor_encA _ _ _ _ _ _ (by omega) (by omega) (by omega) (by omega) (by omega) (by omega))]
  unfold decodeSys
  rw [fMinor_encA _ _ _ _ _ _ (by omega) (by omega) (by omega) (by omega) (by omega) (by omega)]
  simp (disch := first | omega | assumption) only [fTy_encA, fCode_encA, need_ok, ofNat_val, code_split, BitVec.ofNat_toNat, BitVec.setWidth_eq] <;> rfl

theorem Laws.Coding.eret  : Laws.Coding.Statement (.eret) := by
  intro _ hw
  show decode (encA 50 0 0 0 2 0) = _
  rw [decode_50 _ (fMajor_encA _ _ _ _ _ _ (by omega) (by omega) (by omega) (by omega) (by omega) (by omega))]
  unfold decodeSys
  rw [fMinor_encA _ _ _ _ _ _ (by omega) (by omega) (by omega) (by omega) (by omega) (by omega)]
  simp (disch := first | omega | assumption) only [fD_encA, fA_encA, fB_encA, fTy_encA, need_ok, ofNat_val] <;> rfl

theorem Laws.Coding.mfs (d : Reg) (sr : BitVec 12) : Laws.Coding.Statement (.mfs d sr) := by
  intro _ hw
  have : sr.toNat / 1024 < 4 := by omega
  show decode (encA 50 d.val (sr.toNat / 32 % 32) (sr.toNat % 32) 3 (sr.toNat / 1024)) = _
  rw [decode_50 _ (fMajor_encA _ _ _ _ _ _ (by omega) (by omega) (by omega) (by omega) (by omega) (by omega))]
  unfold decodeSys
  rw [fMinor_encA _ _ _ _ _ _ (by omega) (by omega) (by omega) (by omega) (by omega) (by omega)]
  simp (disch := first | omega | assumption) only [fD_encA, fTy_encA, fSysReg_encA, need_ok, ofNat_val, sysReg_split, decide_eq_true_eq, BitVec.ofNat_toNat, BitVec.setWidth_eq, ok_bind] <;>
    simp_all [need]

theorem Laws.Coding.mts (sr : BitVec 12) (d : Reg) : Laws.Coding.Statement (.mts sr d) := by
  intro _ hw
  have : sr.toNat / 1024 < 4 := by omega
  show decode (encA 50 d.val (sr.toNat / 32 % 32) (sr.toNat % 32) 4 (sr.toNat / 1024)) = _
  rw [decode_50 _ (fMajor_encA _ _ _ _ _ _ (by omega) (by omega) (by omega) (by omega) (by omega) (by omega))]
  unfold decodeSys
  rw [fMinor_encA _ _ _ _ _ _ (by omega) (by omega) (by omega) (by omega) (by omega) (by omega)]
  simp (disch := first | omega | assumption) only [fD_encA, fTy_encA, fSysReg_encA, need_ok, ofNat_val, sysReg_split, decide_eq_true_eq, BitVec.ofNat_toNat, BitVec.setWidth_eq, ok_bind] <;>
    simp_all [need]

theorem Laws.Coding.wait (d : Reg) : Laws.Coding.Statement (.wait d) := by
  intro _ hw
  show decode (encA 50 d.val 0 0 5 0) = _
  rw [decode_50 _ (fMajor_encA _ _ _ _ _ _ (by omega) (by omega) (by omega) (by omega) (by omega) (by omega))]
  unfold decodeSys
  rw [fMinor_encA _ _ _ _ _ _ (by omega) (by omega) (by omega) (by omega) (by omega) (by omega)]
  simp (disch := first | omega | assumption) only [fD_encA, fA_encA, fB_encA, fTy_encA, need_ok, ofNat_val] <;> rfl

theorem Laws.Coding.waitTimeout (core : Nat) (slot : Fin 4) : Laws.Coding.Statement (.waitTimeout core slot) := by
  intro h; cases h

theorem Laws.Coding.chain (d : Reg) : Laws.Coding.Statement (.chain d) := by
  intro _ hw
  show decode (encA 50 d.val 0 0 6 0) = _
  rw [decode_50 _ (fMajor_encA _ _ _ _ _ _ (by omega) (by omega) (by omega) (by omega) (by omega) (by omega))]
  unfold decodeSys
  rw [fMinor_encA _ _ _ _ _ _ (by omega) (by omega) (by omega) (by omega) (by omega) (by omega)]
  simp (disch := first | omega | assumption) only [fD_encA, fA_encA, fB_encA, fTy_encA, need_ok, ofNat_val] <;> rfl

theorem Laws.Coding.unchain  : Laws.Coding.Statement (.unchain) := by
  intro _ hw
  show decode (encA 50 0 0 0 7 0) = _
  rw [decode_50 _ (fMajor_encA _ _ _ _ _ _ (by omega) (by omega) (by omega) (by omega) (by omega) (by omega))]
  unfold decodeSys
  rw [fMinor_encA _ _ _ _ _ _ (by omega) (by omega) (by omega) (by omega) (by omega) (by omega)]
  simp (disch := first | omega | assumption) only [fD_encA, fA_encA, fB_encA, fTy_encA, need_ok, ofNat_val] <;> rfl

theorem Laws.Coding.arearm (d : Reg) : Laws.Coding.Statement (.arearm d) := by
  intro _ hw
  show decode (encA 50 d.val 0 0 8 0) = _
  rw [decode_50 _ (fMajor_encA _ _ _ _ _ _ (by omega) (by omega) (by omega) (by omega) (by omega) (by omega))]
  unfold decodeSys
  rw [fMinor_encA _ _ _ _ _ _ (by omega) (by omega) (by omega) (by omega) (by omega) (by omega)]
  simp (disch := first | omega | assumption) only [fD_encA, fA_encA, fB_encA, fTy_encA, need_ok, ofNat_val] <;> rfl

theorem Laws.Coding.lkick (d : Reg) (a : Reg) : Laws.Coding.Statement (.lkick d a) := by
  intro _ hw
  show decode (encA 50 d.val a.val 0 9 0) = _
  rw [decode_50 _ (fMajor_encA _ _ _ _ _ _ (by omega) (by omega) (by omega) (by omega) (by omega) (by omega))]
  unfold decodeSys
  rw [fMinor_encA _ _ _ _ _ _ (by omega) (by omega) (by omega) (by omega) (by omega) (by omega)]
  simp (disch := first | omega | assumption) only [fD_encA, fA_encA, fB_encA, fTy_encA, need_ok, ofNat_val] <;> rfl

theorem Laws.Coding.brk (n : BitVec 15) : Laws.Coding.Statement (.brk n) := by
  intro _ hw
  show decode (encA 50 (n.toNat / 1024) (n.toNat / 32 % 32) (n.toNat % 32) 10 0) = _
  rw [decode_50 _ (fMajor_encA _ _ _ _ _ _ (by omega) (by omega) (by omega) (by omega) (by omega) (by omega))]
  unfold decodeSys
  rw [fMinor_encA _ _ _ _ _ _ (by omega) (by omega) (by omega) (by omega) (by omega) (by omega)]
  simp (disch := first | omega | assumption) only [fTy_encA, fCode_encA, need_ok, ofNat_val, code_split, BitVec.ofNat_toNat, BitVec.setWidth_eq] <;> rfl

theorem Laws.Coding.supervisorDelivery (core : Nat) : Laws.Coding.Statement (.supervisorDelivery core) := by
  intro h; cases h

theorem Laws.Coding.tlbw (d : Reg) (a : Reg) (b : Reg) : Laws.Coding.Statement (.tlbw d a b) := by
  intro _ hw
  show decode (encA 51 d.val a.val b.val 1 0) = _
  rw [decode_51 _ (fMajor_encA _ _ _ _ _ _ (by omega) (by omega) (by omega) (by omega) (by omega) (by omega))]
  unfold decodeXlat
  rw [fMinor_encA _ _ _ _ _ _ (by omega) (by omega) (by omega) (by omega) (by omega) (by omega)]
  simp (disch := first | omega | assumption) only [fD_encA, fA_encA, fB_encA, fTy_encA, need_ok, ofNat_val] <;> rfl

theorem Laws.Coding.tlbinv (d : Reg) (a : Reg) : Laws.Coding.Statement (.tlbinv d a) := by
  intro _ hw
  show decode (encA 51 d.val a.val 0 2 0) = _
  rw [decode_51 _ (fMajor_encA _ _ _ _ _ _ (by omega) (by omega) (by omega) (by omega) (by omega) (by omega))]
  unfold decodeXlat
  rw [fMinor_encA _ _ _ _ _ _ (by omega) (by omega) (by omega) (by omega) (by omega) (by omega)]
  simp (disch := first | omega | assumption) only [fD_encA, fA_encA, fB_encA, fTy_encA, need_ok, ofNat_val] <;> rfl

theorem Laws.Coding.tlbq (d : Reg) (a : Reg) : Laws.Coding.Statement (.tlbq d a) := by
  intro _ hw
  show decode (encA 51 d.val a.val 0 3 0) = _
  rw [decode_51 _ (fMajor_encA _ _ _ _ _ _ (by omega) (by omega) (by omega) (by omega) (by omega) (by omega))]
  unfold decodeXlat
  rw [fMinor_encA _ _ _ _ _ _ (by omega) (by omega) (by omega) (by omega) (by omega) (by omega)]
  simp (disch := first | omega | assumption) only [fD_encA, fA_encA, fB_encA, fTy_encA, need_ok, ofNat_val] <;> rfl

theorem Laws.Coding.fbpop (d : Reg) : Laws.Coding.Statement (.fbpop d) := by
  intro _ hw
  show decode (encA 51 d.val 0 0 4 0) = _
  rw [decode_51 _ (fMajor_encA _ _ _ _ _ _ (by omega) (by omega) (by omega) (by omega) (by omega) (by omega))]
  unfold decodeXlat
  rw [fMinor_encA _ _ _ _ _ _ (by omega) (by omega) (by omega) (by omega) (by omega) (by omega)]
  simp (disch := first | omega | assumption) only [fD_encA, fA_encA, fB_encA, fTy_encA, need_ok, ofNat_val] <;> rfl

theorem Laws.Coding.replay  : Laws.Coding.Statement (.replay) := by
  intro _ hw
  show decode (encA 51 0 0 0 5 0) = _
  rw [decode_51 _ (fMajor_encA _ _ _ _ _ _ (by omega) (by omega) (by omega) (by omega) (by omega) (by omega))]
  unfold decodeXlat
  rw [fMinor_encA _ _ _ _ _ _ (by omega) (by omega) (by omega) (by omega) (by omega) (by omega)]
  simp (disch := first | omega | assumption) only [fD_encA, fA_encA, fB_encA, fTy_encA, need_ok, ofNat_val] <;> rfl

theorem Laws.Coding.msgrx (d : Reg) : Laws.Coding.Statement (.msgrx d) := by
  intro _ hw
  show decode (encA 51 d.val 0 0 6 0) = _
  rw [decode_51 _ (fMajor_encA _ _ _ _ _ _ (by omega) (by omega) (by omega) (by omega) (by omega) (by omega))]
  unfold decodeXlat
  rw [fMinor_encA _ _ _ _ _ _ (by omega) (by omega) (by omega) (by omega) (by omega) (by omega)]
  simp (disch := first | omega | assumption) only [fD_encA, fA_encA, fB_encA, fTy_encA, need_ok, ofNat_val] <;> rfl

theorem Laws.Coding.translationMiss (hall : Nat) (m : MissReq) : Laws.Coding.Statement (.translationMiss hall m) := by
  intro h; cases h

theorem Laws.Coding.missRetry (hall : Nat) : Laws.Coding.Statement (.missRetry hall) := by
  intro h; cases h

theorem Laws.Coding.mapack (d : Reg) : Laws.Coding.Statement (.mapack d) := by
  intro _ hw
  show decode (encA 52 d.val 0 0 1 0) = _
  rw [decode_52 _ (fMajor_encA _ _ _ _ _ _ (by omega) (by omega) (by omega) (by omega) (by omega) (by omega))]
  unfold decodeMaint
  rw [fMinor_encA _ _ _ _ _ _ (by omega) (by omega) (by omega) (by omega) (by omega) (by omega)]
  simp (disch := first | omega | assumption) only [fD_encA, fA_encA, fB_encA, fTy_encA, need_ok, ofNat_val] <;> rfl

theorem Laws.Coding.maprd (d : Reg) (a : Reg) (b : Reg) : Laws.Coding.Statement (.maprd d a b) := by
  intro _ hw
  show decode (encA 52 d.val a.val b.val 2 0) = _
  rw [decode_52 _ (fMajor_encA _ _ _ _ _ _ (by omega) (by omega) (by omega) (by omega) (by omega) (by omega))]
  unfold decodeMaint
  rw [fMinor_encA _ _ _ _ _ _ (by omega) (by omega) (by omega) (by omega) (by omega) (by omega)]
  simp (disch := first | omega | assumption) only [fD_encA, fA_encA, fB_encA, fTy_encA, need_ok, ofNat_val] <;> rfl

theorem Laws.Coding.repw (d : Reg) (a : Reg) : Laws.Coding.Statement (.repw d a) := by
  intro _ hw
  show decode (encA 52 d.val a.val 0 3 0) = _
  rw [decode_52 _ (fMajor_encA _ _ _ _ _ _ (by omega) (by omega) (by omega) (by omega) (by omega) (by omega))]
  unfold decodeMaint
  rw [fMinor_encA _ _ _ _ _ _ (by omega) (by omega) (by omega) (by omega) (by omega) (by omega)]
  simp (disch := first | omega | assumption) only [fD_encA, fA_encA, fB_encA, fTy_encA, need_ok, ofNat_val] <;> rfl

theorem Laws.Coding.arrt (d : Reg) (a : Reg) (b : Reg) : Laws.Coding.Statement (.arrt d a b) := by
  intro _ hw
  show decode (encA 52 d.val a.val b.val 4 0) = _
  rw [decode_52 _ (fMajor_encA _ _ _ _ _ _ (by omega) (by omega) (by omega) (by omega) (by omega) (by omega))]
  unfold decodeMaint
  rw [fMinor_encA _ _ _ _ _ _ (by omega) (by omega) (by omega) (by omega) (by omega) (by omega)]
  simp (disch := first | omega | assumption) only [fD_encA, fA_encA, fB_encA, fTy_encA, need_ok, ofNat_val] <;> rfl

theorem Laws.Coding.shut  : Laws.Coding.Statement (.shut) := by
  intro _ hw
  show decode (encA 52 0 0 0 5 0) = _
  rw [decode_52 _ (fMajor_encA _ _ _ _ _ _ (by omega) (by omega) (by omega) (by omega) (by omega) (by omega))]
  unfold decodeMaint
  rw [fMinor_encA _ _ _ _ _ _ (by omega) (by omega) (by omega) (by omega) (by omega) (by omega)]
  simp (disch := first | omega | assumption) only [fD_encA, fA_encA, fB_encA, fTy_encA, need_ok, ofNat_val] <;> rfl

theorem Laws.Coding.snaprd (d : Reg) (a : Reg) : Laws.Coding.Statement (.snaprd d a) := by
  intro _ hw
  show decode (encA 52 d.val a.val 0 6 0) = _
  rw [decode_52 _ (fMajor_encA _ _ _ _ _ _ (by omega) (by omega) (by omega) (by omega) (by omega) (by omega))]
  unfold decodeMaint
  rw [fMinor_encA _ _ _ _ _ _ (by omega) (by omega) (by omega) (by omega) (by omega) (by omega)]
  simp (disch := first | omega | assumption) only [fD_encA, fA_encA, fB_encA, fTy_encA, need_ok, ofNat_val] <;> rfl

theorem Laws.Coding.pairon  : Laws.Coding.Statement (.pairon) := by
  intro _ hw
  show decode (encA 52 0 0 0 7 0) = _
  rw [decode_52 _ (fMajor_encA _ _ _ _ _ _ (by omega) (by omega) (by omega) (by omega) (by omega) (by omega))]
  unfold decodeMaint
  rw [fMinor_encA _ _ _ _ _ _ (by omega) (by omega) (by omega) (by omega) (by omega) (by omega)]
  simp (disch := first | omega | assumption) only [fD_encA, fA_encA, fB_encA, fTy_encA, need_ok, ofNat_val] <;> rfl

theorem Laws.Coding.pairoff  : Laws.Coding.Statement (.pairoff) := by
  intro _ hw
  show decode (encA 52 0 0 0 8 0) = _
  rw [decode_52 _ (fMajor_encA _ _ _ _ _ _ (by omega) (by omega) (by omega) (by omega) (by omega) (by omega))]
  unfold decodeMaint
  rw [fMinor_encA _ _ _ _ _ _ (by omega) (by omega) (by omega) (by omega) (by omega) (by omega)]
  simp (disch := first | omega | assumption) only [fD_encA, fA_encA, fB_encA, fTy_encA, need_ok, ofNat_val] <;> rfl

theorem Laws.Coding.fpchk (d : Reg) : Laws.Coding.Statement (.fpchk d) := by
  intro _ hw
  show decode (encA 52 d.val 0 0 9 0) = _
  rw [decode_52 _ (fMajor_encA _ _ _ _ _ _ (by omega) (by omega) (by omega) (by omega) (by omega) (by omega))]
  unfold decodeMaint
  rw [fMinor_encA _ _ _ _ _ _ (by omega) (by omega) (by omega) (by omega) (by omega) (by omega)]
  simp (disch := first | omega | assumption) only [fD_encA, fA_encA, fB_encA, fTy_encA, need_ok, ofNat_val] <;> rfl

theorem Laws.Coding.ssbar  : Laws.Coding.Statement (.ssbar) := by
  intro _ hw
  show decode (encA 52 0 0 0 10 0) = _
  rw [decode_52 _ (fMajor_encA _ _ _ _ _ _ (by omega) (by omega) (by omega) (by omega) (by omega) (by omega))]
  unfold decodeMaint
  rw [fMinor_encA _ _ _ _ _ _ (by omega) (by omega) (by omega) (by omega) (by omega) (by omega)]
  simp (disch := first | omega | assumption) only [fD_encA, fA_encA, fB_encA, fTy_encA, need_ok, ofNat_val] <;> rfl

theorem Laws.Coding.ssqry (d : Reg) : Laws.Coding.Statement (.ssqry d) := by
  intro _ hw
  show decode (encA 52 d.val 0 0 11 0) = _
  rw [decode_52 _ (fMajor_encA _ _ _ _ _ _ (by omega) (by omega) (by omega) (by omega) (by omega) (by omega))]
  unfold decodeMaint
  rw [fMinor_encA _ _ _ _ _ _ (by omega) (by omega) (by omega) (by omega) (by omega) (by omega)]
  simp (disch := first | omega | assumption) only [fD_encA, fA_encA, fB_encA, fTy_encA, need_ok, ofNat_val] <;> rfl

theorem Laws.Coding.hintWide (v : BitVec 22) : Laws.Coding.Statement (.hintWide v) := by
  intro _ hw
  show decode (encY 0 v.toNat) = _
  rw [decode_63 _ (fMajor_encY _ _ (by omega) (by omega))]
  unfold decodeHint
  rw [fKind_encY _ _ (by omega) (by omega)]
  simp (disch := first | omega | assumption) only [fPayload_encY, ofNat_val, BitVec.ofNat_toNat, BitVec.setWidth_eq]

theorem Laws.Coding.hintRm (int : Bool) (mode : BitVec 3) : Laws.Coding.Statement (.hintRm int mode) := by
  intro _ hw
  have hw : (decide (mode.toNat ≤ 4) && (!int || decide (mode = 4))) = true := hw
  have c : mode = 0#3 ∨ mode = 1#3 ∨ mode = 2#3 ∨ mode = 3#3 ∨ mode = 4#3 := by
    have h : mode.toNat ≤ 4 := by simp at hw; exact hw.1
    bv_omega
  cases int <;> rcases c with rfl | rfl | rfl | rfl | rfl <;> first | rfl | exact absurd hw (by decide)

theorem Laws.Coding.hintDep (p1 : BitVec 7) (p2 : BitVec 7) (n : BitVec 4) (g : BitVec 3) (s : Bool) : Laws.Coding.Statement (.hintDep p1 p2 n g s) := by
  intro _ _
  have := s.toNat_lt
  show decode (encY 2 (p1.toNat * 32768 + p2.toNat * 256 + n.toNat * 16 + g.toNat * 2 + s.toNat)) = _
  rw [decode_63 _ (fMajor_encY 2 (p1.toNat * 32768 + p2.toNat * 256 + n.toNat * 16 + g.toNat * 2 + s.toNat) (by omega) (by omega))]
  unfold decodeHint
  rw [fKind_encY 2 (p1.toNat * 32768 + p2.toNat * 256 + n.toNat * 16 + g.toNat * 2 + s.toNat) (by omega) (by omega), fPayload_encY 2 (p1.toNat * 32768 + p2.toNat * 256 + n.toNat * 16 + g.toNat * 2 + s.toNat) (by omega) (by omega)]
  have e : (BitVec.ofNat 22 (p1.toNat * 32768 + p2.toNat * 256 + n.toNat * 16 + g.toNat * 2 + s.toNat)).toNat = (p1.toNat * 32768 + p2.toNat * 256 + n.toNat * 16 + g.toNat * 2 + s.toNat) := by rw [BitVec.toNat_ofNat]; omega
  have q1 : BitVec.extractLsb' 15 7 (BitVec.ofNat 22 (p1.toNat * 32768 + p2.toNat * 256 + n.toNat * 16 + g.toNat * 2 + s.toNat)) = p1 := by
    apply BitVec.eq_of_toNat_eq; rw [BitVec.extractLsb'_toNat, e, Nat.shiftRight_eq_div_pow]; omega
  have q2 : BitVec.extractLsb' 8 7 (BitVec.ofNat 22 (p1.toNat * 32768 + p2.toNat * 256 + n.toNat * 16 + g.toNat * 2 + s.toNat)) = p2 := by
    apply BitVec.eq_of_toNat_eq; rw [BitVec.extractLsb'_toNat, e, Nat.shiftRight_eq_div_pow]; omega
  have q3 : BitVec.extractLsb' 4 4 (BitVec.ofNat 22 (p1.toNat * 32768 + p2.toNat * 256 + n.toNat * 16 + g.toNat * 2 + s.toNat)) = n := by
    apply BitVec.eq_of_toNat_eq; rw [BitVec.extractLsb'_toNat, e, Nat.shiftRight_eq_div_pow]; omega
  have q4 : BitVec.extractLsb' 1 3 (BitVec.ofNat 22 (p1.toNat * 32768 + p2.toNat * 256 + n.toNat * 16 + g.toNat * 2 + s.toNat)) = g := by
    apply BitVec.eq_of_toNat_eq; rw [BitVec.extractLsb'_toNat, e, Nat.shiftRight_eq_div_pow]; omega
  have q5 : (BitVec.ofNat 22 (p1.toNat * 32768 + p2.toNat * 256 + n.toNat * 16 + g.toNat * 2 + s.toNat)).getLsbD 0 = s := by
    rw [BitVec.getLsbD, e, Nat.testBit_zero]; cases s <;> simp <;> omega
  simp only [q1, q2, q3, q4, q5]

theorem Laws.Coding.hintSchedYield (n : BitVec 8) : Laws.Coding.Statement (.hintSchedYield n) := by
  intro _ _
  show decode (encY 3 (n.toNat * 4)) = _
  rw [decode_63 _ (fMajor_encY 3 (n.toNat * 4) (by omega) (by omega))]
  unfold decodeHint
  rw [fKind_encY 3 (n.toNat * 4) (by omega) (by omega), fPayload_encY 3 (n.toNat * 4) (by omega) (by omega)]
  have e : (BitVec.ofNat 22 (n.toNat * 4)).toNat = n.toNat * 4 := by rw [BitVec.toNat_ofNat]; omega
  have q : BitVec.extractLsb' 2 8 (BitVec.ofNat 22 (n.toNat * 4)) = n := by
    apply BitVec.eq_of_toNat_eq; rw [BitVec.extractLsb'_toNat, e, Nat.shiftRight_eq_div_pow]; omega
  have l : n.toNat * 4 < 1024 := by omega
  have z : n.toNat * 4 % 4 = 0 := by omega
  simp [e, q, l, z, need]

theorem Laws.Coding.hintSchedHold  : Laws.Coding.Statement (.hintSchedHold) := by
  intro _ hw
  show decode (encY 3 1) = _
  rw [decode_63 _ (fMajor_encY _ _ (by omega) (by omega))]
  unfold decodeHint
  rw [fKind_encY _ _ (by omega) (by omega)]
  simp (disch := first | omega | assumption) only [fPayload_encY, need_ok, ofNat_val] <;> rfl

theorem Laws.Coding.hintSat  : Laws.Coding.Statement (.hintSat) := by
  intro _ hw
  show decode (encY 4 0) = _
  rw [decode_63 _ (fMajor_encY _ _ (by omega) (by omega))]
  unfold decodeHint
  rw [fKind_encY _ _ (by omega) (by omega)]
  simp (disch := first | omega | assumption) only [fPayload_encY, need_ok, ofNat_val] <;> rfl

theorem Laws.Coding.hintCache (policy : BitVec 3) : Laws.Coding.Statement (.hintCache policy) := by
  intro _ hw
  have c : policy = 0#3 ∨ policy = 1#3 ∨ policy = 2#3 ∨ policy = 3#3 ∨ policy = 4#3 := by
    have h : policy.toNat ≤ 4 := of_decide_eq_true hw
    bv_omega
  rcases c with rfl | rfl | rfl | rfl | rfl <;> rfl

theorem Laws.Coding.promotion (core : Nat) (slot : Fin 4) : Laws.Coding.Statement (.promotion core slot) := by
  intro h; cases h

theorem Laws.Coding.promotionEnd (core : Nat) (slot : Fin 4) : Laws.Coding.Statement (.promotionEnd core slot) := by
  intro h; cases h

theorem Laws.Coding.prefetcherFill (core : Nat) : Laws.Coding.Statement (.prefetcherFill core) := by
  intro h; cases h

theorem Laws.Coding.scoreboardRetire (room : Nat) (id : Nat) : Laws.Coding.Statement (.scoreboardRetire room id) := by
  intro h; cases h

theorem Laws.Coding.hostMemAccess (key : BitVec 10) (pa : BitVec 52) (len : Nat) (data : Option (List (BitVec 8))) : Laws.Coding.Statement (.hostMemAccess key pa len data) := by
  intro h; cases h

theorem Laws.Coding.partitionMove (core : Nat) (kib : Nat) : Laws.Coding.Statement (.partitionMove core kib) := by
  intro h; cases h

theorem Laws.Coding.launchStart (ctx : Nat) (record : Nat) (room : Nat) : Laws.Coding.Statement (.launchStart ctx record room) := by
  intro h; cases h

theorem Laws.Coding.lobbyRebalance (hall : Nat) : Laws.Coding.Statement (.lobbyRebalance hall) := by
  intro h; cases h

theorem Laws.Coding.migrationWindow (core : Nat) (slot : Fin 4) : Laws.Coding.Statement (.migrationWindow core slot) := by
  intro h; cases h

theorem Laws.Coding.taskMigration (core : Nat) (slot : Fin 4) (hall : Nat) : Laws.Coding.Statement (.taskMigration core slot hall) := by
  intro h; cases h

theorem Laws.Coding.faultSaveDeferred (core : Nat) (slot : Fin 4) : Laws.Coding.Statement (.faultSaveDeferred core slot) := by
  intro h; cases h

theorem Laws.Coding.chimneyMessage (ctx : Nat) (record : Nat) (tier : Tier) (unit : Nat) : Laws.Coding.Statement (.chimneyMessage ctx record tier unit) := by
  intro h; cases h

theorem Laws.Coding.launchQuiescent (ctx : Nat) (record : Nat) : Laws.Coding.Statement (.launchQuiescent ctx record) := by
  intro h; cases h

theorem Laws.Coding.laundryKickAccept (hall : Nat) : Laws.Coding.Statement (.laundryKickAccept hall) := by
  intro h; cases h

theorem Laws.Coding.copy (hall : Nat) (ring : Nat) : Laws.Coding.Statement (.copy hall ring) := by
  intro h; cases h

theorem Laws.Coding.convert (hall : Nat) (ring : Nat) : Laws.Coding.Statement (.convert hall ring) := by
  intro h; cases h

theorem Laws.Coding.quant (hall : Nat) (ring : Nat) : Laws.Coding.Statement (.quant hall ring) := by
  intro h; cases h

theorem Laws.Coding.pad (hall : Nat) (ring : Nat) : Laws.Coding.Statement (.pad hall ring) := by
  intro h; cases h

theorem Laws.Coding.slice (hall : Nat) (ring : Nat) : Laws.Coding.Statement (.slice hall ring) := by
  intro h; cases h

theorem Laws.Coding.fill (hall : Nat) (ring : Nat) : Laws.Coding.Statement (.fill hall ring) := by
  intro h; cases h

theorem Laws.Coding.compress (hall : Nat) (ring : Nat) : Laws.Coding.Statement (.compress hall ring) := by
  intro h; cases h

theorem Laws.Coding.expand (hall : Nat) (ring : Nat) : Laws.Coding.Statement (.expand hall ring) := by
  intro h; cases h

theorem Laws.Coding.frameExchange (hall : Nat) (ring : Nat) : Laws.Coding.Statement (.frameExchange hall ring) := by
  intro h; cases h

theorem Laws.Coding.pairCompare (core : Nat) : Laws.Coding.Statement (.pairCompare core) := by
  intro h; cases h

theorem Laws.Coding.superstepCommit (ctx : Nat) (record : Nat) : Laws.Coding.Statement (.superstepCommit ctx record) := by
  intro h; cases h

theorem Laws.Coding.superstepRollback (ctx : Nat) (record : Nat) : Laws.Coding.Statement (.superstepRollback ctx record) := by
  intro h; cases h

theorem Laws.Coding.contextCreate (ctx : Nat) : Laws.Coding.Statement (.contextCreate ctx) := by
  intro h; cases h

theorem Laws.Coding.contextDestroy (ctx : Nat) : Laws.Coding.Statement (.contextDestroy ctx) := by
  intro h; cases h

theorem Laws.Coding.regionDeclare (region : Nat) : Laws.Coding.Statement (.regionDeclare region) := by
  intro h; cases h

theorem Laws.Coding.regionDestroy (region : Nat) : Laws.Coding.Statement (.regionDestroy region) := by
  intro h; cases h

theorem Laws.Coding.submissionDoorbell (ring : Nat) (w : BitVec 64) : Laws.Coding.Statement (.submissionDoorbell ring w) := by
  intro h; cases h

theorem Laws.Coding.submissionReset (ring : Nat) : Laws.Coding.Statement (.submissionReset ring) := by
  intro h; cases h

theorem Laws.Coding.submitArm (ring : Nat) : Laws.Coding.Statement (.submitArm ring) := by
  intro h; cases h

theorem Laws.Coding.submitSave (ring : Nat) : Laws.Coding.Statement (.submitSave ring) := by
  intro h; cases h

theorem Laws.Coding.submitRestore (ring : Nat) : Laws.Coding.Statement (.submitRestore ring) := by
  intro h; cases h

theorem Laws.Coding.submitMapack (ring : Nat) : Laws.Coding.Statement (.submitMapack ring) := by
  intro h; cases h

theorem Laws.Coding.eventRingEnable (word : BitVec 64) : Laws.Coding.Statement (.eventRingEnable word) := by
  intro h; cases h

theorem Laws.Coding.hostMessageMappingDone (word : BitVec 64) (target : BitVec 64) : Laws.Coding.Statement (.hostMessageMappingDone word target) := by
  intro h; cases h

theorem Laws.Coding.hostMessageInvalidate (word : BitVec 64) (target : BitVec 64) : Laws.Coding.Statement (.hostMessageInvalidate word target) := by
  intro h; cases h

theorem Laws.Coding.keyRetire (key : BitVec 10) : Laws.Coding.Statement (.keyRetire key) := by
  intro h; cases h

theorem Laws.Coding.keyFlushComplete  : Laws.Coding.Statement (.keyFlushComplete) := by
  intro h; cases h

theorem Laws.Coding.hostRegisterWrite (offset : Nat) (value : BitVec 64) : Laws.Coding.Statement (.hostRegisterWrite offset value) := by
  intro h; cases h

theorem Laws.Coding.unitWithdrawal (u : DeviceUnit) : Laws.Coding.Statement (.unitWithdrawal u) := by
  intro h; cases h

theorem Laws.Coding.mapPublication  : Laws.Coding.Statement (.mapPublication) := by
  intro h; cases h

theorem Laws.Coding.mapDeadline (version : BitVec 32) : Laws.Coding.Statement (.mapDeadline version) := by
  intro h; cases h

theorem Laws.Coding.thermostatPeriod (p : PowerReport) : Laws.Coding.Statement (.thermostatPeriod p) := by
  intro h; cases h

theorem Laws.Coding.flitRetransmission (link : Nat) : Laws.Coding.Statement (.flitRetransmission link) := by
  intro h; cases h

theorem Laws.Coding.bootReset (b : BootInput) : Laws.Coding.Statement (.bootReset b) := by
  intro h; cases h

theorem Laws.Coding.illegalInstruction (word : BitVec 32) : Laws.Coding.Statement (.illegalInstruction word) := by
  intro h; cases h

theorem Laws.Coding.fabricAccessArrival (link : Nat) (m : FabricAccess) : Laws.Coding.Statement (.fabricAccessArrival link m) := by
  intro h; cases h

theorem Laws.Coding.estateBarrierArrival (m : EstateArrival) : Laws.Coding.Statement (.estateBarrierArrival m) := by
  intro h; cases h

theorem Laws.Coding.unitReturn (u : DeviceUnit) : Laws.Coding.Statement (.unitReturn u) := by
  intro h; cases h

end Sys2Proof
end

