-- ==== Sys2Proof/Tests/Slice0.lean ====
section
/-! SUPPORT. Tests: words written out from the spec's encodings, ill-formed terms that the checks refuse, states that meet
the hypotheses of the statements, and single steps whose results the spec gives. -/

namespace Sys2Proof.Tests

set_option Elab.async false

open Sys2Proof Sys2Proof.Machine

/-- Whether a word decodes to an instruction. -/
def reads (w : Word) (i : Instr) : Bool :=
  match decode w with
  | .ok j => decide (j = i)
  | .error _ => false

/-- Whether a word is refused. -/
def refuses (w : Word) : Bool :=
  match decode w with
  | .ok _ => false
  | .error _ => true

/-- Whether an outcome is a next state of which a condition holds. -/
def nextIs (o : Host.Outcome State Fault Refusal) (p : State → Bool) : Bool :=
  match o with
  | .next t => p t
  | _ => false

/-! ### Words -/

theorem test_decode_integer : ([
  (0b000000_01001_10010_11101_0000001_0000, .add .i8 9 18 29),
  (0b000000_01101_10110_00001_0000010_0001, .sub .i16 13 22 1),
  (0b000000_10001_11010_00101_0000011_0010, .mul .i32 17 26 5),
  (0b000000_01001_10010_11101_0000100_0011, .mulh .i64 9 18 29),
  (0b000000_01101_10110_00001_0000101_0100, .div .n8 13 22 1),
  (0b000000_10001_11010_00101_0000110_0101, .rem .n16 17 26 5),
  (0b000000_01001_10010_11101_0000111_0110, .and .n32 9 18 29),
  (0b000000_01101_10110_00001_0001000_0111, .or .n64 13 22 1),
  (0b000000_10001_11010_00101_0001001_0000, .xor .i8 17 26 5),
  (0b000000_01001_10010_11101_0001010_0001, .andn .i16 9 18 29),
  (0b000000_01101_10110_00001_0001011_0010, .sll .i32 13 22 1),
  (0b000000_10001_11010_00101_0001100_0011, .srl .i64 17 26 5),
  (0b000000_01001_10010_11101_0001101_0100, .sra .n8 9 18 29),
  (0b000000_01101_10110_00001_0001110_0101, .rot .n16 13 22 1),
  (0b000000_10001_11010_00101_0001111_0110, .min .n32 17 26 5),
  (0b000000_01001_10010_11101_0010000_0111, .max .n64 9 18 29),
  (0b000000_01101_10110_00001_0010001_0000, .slt .i8 13 22 1),
  (0b000000_10001_11010_00101_0010010_0001, .seq .i16 17 26 5),
  (0b000000_01001_10010_000000010011_0010, .clz .i32 9 18),
  (0b000000_01101_10110_000000010100_0011, .ctz .i64 13 22),
  (0b000000_10001_11010_000000010101_0100, .popc .n8 17 26),
  (0b000000_01001_10010_000000010110_0101, .ext .n16 9 18),
  (0b000000_01101_10110_00001_0010111_0110, .bfx .n32 13 22 1),
  (0b000000_10001_11010_00101_0011000_0111, .bfi .n64 17 26 5),
  (0b000000_01001_10010_11101_0011001_0000, .cmov .i8 9 18 29)
] : List (Word × Instr)).all (fun e => reads e.1 e.2) = true := by decide

theorem test_decode_immediate : ([
  (0b000001_01101_10110_1000010000111010, .addi 13 22 33850),
  (0b000010_10001_11010_1000010000111011, .andi 17 26 33851),
  (0b000011_01001_10010_1000010000111100, .ori 9 18 33852),
  (0b000100_01101_10110_1000010000111101, .xori 13 22 33853),
  (0b000101_10001_11010_0000000000_101110, .slli 17 26 46),
  (0b000101_01001_10010_0100000000_101111, .srli 9 18 47),
  (0b000101_01101_10110_1000000000_110000, .srai 13 22 48),
  (0b000101_10001_11010_1100000000_101001, .roti 17 26 41),
  (0b000110_01001_10010_1000010001000010, .slti 9 18 33858),
  (0b000111_01101_10110_1000010001000011, .sltni 13 22 33859),
  (0b001000_10001_100100011010001010110, .lui 17 0x123456),
  (0b001001_01001_10010_11101_0000001_0101, .lea 9 18 29 5),
  (0b001001_01101_10110_000000000010_0010, .part 13 22 .room),
  (0b001001_10001_00000000000000011_0011, .coord 17 .hall)
] : List (Word × Instr)).all (fun e => reads e.1 e.2) = true := by decide

theorem test_decode_control : ([
  (0b001010_01011_10101_1001000000101010, .beq 11 21 36906),
  (0b001011_01011_10101_1001000000101011, .bne 11 21 36907),
  (0b001100_01011_10101_1001000000101100, .blt 11 21 36908),
  (0b001101_01011_10101_1001000000101101, .bge 11 21 36909),
  (0b001110_01011_10101_1001000000101110, .bltn 11 21 36910),
  (0b001111_01011_10101_1001000000101111, .bgen 11 21 36911),
  (0b010000_10101010111100111000011100, .j 44813852),
  (0b010001_10101010111100111000011101, .jal 44813853),
  (0b010010_00000_11010_0000000000010000, .jr 26),
  (0b010010_00000_10010_0000000000100000, .jalr 18),
  (0b010011_00000_10110_0000000000100101, .loop 22 37),
  (0b010100_10_00000000_1001000000110101, .bsx 2 36917)
] : List (Word × Instr)).all (fun e => reads e.1 e.2) = true := by decide

theorem test_decode_memory : ([
  (0b010110_01001_10010_0011_100100000111, .ld .i64 9 18 2311),
  (0b010111_01101_10110_0100_100100001000, .st .n8 13 22 2312),
  (0b011000_10001_11010_0101_100100001001, .vld .n16 17 26 2313),
  (0b011001_01001_10010_0110_100100001010, .vst .n32 9 18 2314),
  (0b011010_01101_10110_00001_0000001_0111, .ldx .n64 13 22 1),
  (0b011010_10001_11010_00101_0000010_0000, .stx .i8 17 26 5),
  (0b011010_01001_10010_11101_0000011_1001, .vldx .f32 9 18 29),
  (0b011010_01101_10110_00001_0000100_1010, .vstx .f16 13 22 1),
  (0b011010_10001_11010_00101_0000101_0011, .vlds .i64 17 26 5),
  (0b011010_01001_10010_11101_0000110_0100, .vsts .n8 9 18 29),
  (0b011010_00000_10110_00001_00001110000, .pf 22 1),
  (0b011011_10001_11010_10011_0000001_1001, .ldf .f32 17 26 19),
  (0b011011_01001_10010_10011_0000010_0010, .ldfk .i32 9 18 19),
  (0b011011_01101_10110_10011_0000011_0110, .ste .n32 13 22 19),
  (0b011011_10001_11010_10011_0000100_1001, .stf .f32 17 26 19),
  (0b011011_00000_10010_10011_00001010000, .fempty 18 19),
  (0b011011_01101_10110_10011_00001100000, .fstat 13 22 19)
] : List (Word × Instr)).all (fun e => reads e.1 e.2) = true := by decide

theorem test_decode_ring_and_mapping : ([
  (0b011100_10001_101_000_101101000000100, .qld 17 5 23044),
  (0b011100_01001_101_001_101101000000101, .qldv 9 5 23045),
  (0b011100_01101_101_010_101101000000001, .qst 13 5 23041),
  (0b011100_10001_101_011_101101000000010, .qstv 17 5 23042),
  (0b011100_00000_101_100_100101000000101, .qpub 5 18949),
  (0b011100_00000_101_101_100101000000101, .qrel 5 18949),
  (0b011100_10001_101_110000000000000000, .qstat 17 5),
  (0b011100_01001_101_111000000000000000, .qbind 5 9),
  (0b011101_01101_10110_00001_00000010000, .map 13 22 1),
  (0b011101_10001_11010_0000000000100000, .unmap 17 26),
  (0b011101_01001_10010_0000000000110000, .syncw 9 18),
  (0b011101_01101_10110_0000000001000000, .invw 13 22),
  (0b011101_10001_11010_0000000001010000, .mapq 17 26),
  (0b011110_01001_10010_11101_00000010000, .cpy 9 18 29),
  (0b011110_01101_10110_00001_00000100000, .mcast 13 22 1),
  (0b011110_10001_11010_00101_00000110000, .cpyw 17 26 5)
] : List (Word × Instr)).all (fun e => reads e.1 e.2) = true := by decide

theorem test_decode_atomic_and_fence : ([
  (0b011111_01001_10010_11101_0000001_0010, .aadd .i32 9 18 29),
  (0b011111_01101_10110_00001_0000010_0011, .aand .i64 13 22 1),
  (0b011111_10001_11010_00101_0000011_0110, .aor .n32 17 26 5),
  (0b011111_01001_10010_11101_0000100_0111, .axor .n64 9 18 29),
  (0b011111_01101_10110_00001_0000101_0010, .amin .i32 13 22 1),
  (0b011111_10001_11010_00101_0000110_0011, .amax .i64 17 26 5),
  (0b011111_01001_10010_11101_0000111_0110, .aswp .n32 9 18 29),
  (0b011111_01101_10110_00001_0001000_0111, .cas .n64 13 22 1),
  (0b011111_00000_11010_00101_0001001_0110, .acca .n32 26 5),
  (0b011111_00000_10010_11101_0001010_0111, .accn .n64 18 29),
  (0b011111_00000_10110_00001_0001011_1000, .accx .f64 22 1),
  (0b100000_00000_00010_00100_00000010000, .fence .full .wing),
  (0b100000_00011_00110_00101_00000100000, .fencep .laundry .fabric .house),
  (0b100000_01101_10110_00110_0000011_0011, .lda .i64 13 22 .estate),
  (0b100000_10001_11010_00000_0000100_0110, .stl .n32 17 26 .slot),
  (0b100000_01001_10010_11101_0000101_0111, .wsig .n64 9 18 29),
  (0b100001_00000_10110_00011_0000001_0010, .binit .room 3 22),
  (0b100001_00000_11010_00011_0000010_0011, .barr .hall 3 26),
  (0b100001_0000000000_00011_0000011_0100, .bwait .wing 3),
  (0b100001_01101_10110_00011_0000100_0101, .barrw 13 .house 3 22),
  (0b100001_10001_00000_00011_0000101_0110, .bread 17 .estate 3)
] : List (Word × Instr)).all (fun e => reads e.1 e.2) = true := by decide

theorem test_decode_vector : ([
  (0b100010_01001_10010_11101_0000001_1001, .vadd .f32 9 18 29),
  (0b100010_01101_10110_00001_0000010_1010, .vsub .f16 13 22 1),
  (0b100010_10001_11010_00101_0000011_1011, .vmul .b16 17 26 5),
  (0b100010_01001_10010_11101_0000100_0100, .vmulh .n8 9 18 29),
  (0b100010_01101_10110_00001_0000101_0001, .vmin .i16 13 22 1),
  (0b100010_10001_11010_00101_0000110_0010, .vmax .i32 17 26 5),
  (0b100010_01001_10010_000000000111_1011, .vabs .b16 9 18),
  (0b100010_01101_10110_000000001000_0000, .vneg .i8 13 22),
  (0b100010_10001_11010_00101_0001001_0001, .vand .i16 17 26 5),
  (0b100010_01001_10010_11101_0001010_0010, .vor .i32 9 18 29),
  (0b100010_01101_10110_00001_0001011_0011, .vxor .i64 13 22 1),
  (0b100010_10001_11010_00101_0001100_0100, .vshl .n8 17 26 5),
  (0b100010_01001_10010_11101_0001101_0101, .vshr .n16 9 18 29),
  (0b100010_00101_10110_00001_0001110_1010, .vcmpeq .f16 5 22 1),
  (0b100010_00101_11010_00101_0001111_1011, .vcmpne .b16 5 26 5),
  (0b100010_00101_10010_11101_0010000_0000, .vcmplt .i8 5 18 29),
  (0b100010_00101_10110_00001_0010001_0001, .vcmple .i16 5 22 1),
  (0b100010_00101_11010_00101_0010010_1010, .vcmpun .f16 5 26 5),
  (0b100010_01001_10010_00011_0010011_0011, .vsel .i64 9 18 3),
  (0b100010_01101_10110_00001_0010100_1000, .vdiv .f64 13 22 1),
  (0b100010_10001_11010_000000010101_1001, .vsqrt .f32 17 26),
  (0b100100_01001_10010_11101_00110_00_1010, .vfma .f16 9 18 29 6),
  (0b100100_01101_10110_00001_01010_01_1011, .vfms .b16 13 22 1 10),
  (0b100100_10001_11010_00101_01110_10_1000, .vfnma .f64 17 26 5 14),
  (0b100100_01001_10010_11101_00110_11_1001, .vfnms .f32 9 18 29 6),
  (0b100101_01101_10110_00111_0000001_0100, .vcvt .n8 13 22 .n64),
  (0b100101_10000_11100_01001_0000010_1111, .vqnt .q3 16 28 .f32),
  (0b100101_01000_10100_01111_0000011_1001, .vxpq .f32 8 20 .q3),
  (0b100101_01101_10110_01010_0000100_0111, .vcvtx .n64 13 22 .f16)
] : List (Word × Instr)).all (fun e => reads e.1 e.2) = true := by decide

theorem test_decode_vector_moves : ([
  (0b100110_10001_00110_00101_0000001_0010, .vcps .i32 17 6 5),
  (0b100110_01001_00110_11101_0000010_0011, .vxpd .i64 9 6 29),
  (0b100110_01101_10110_00001_0000011_0100, .vperm .n8 13 22 1),
  (0b100110_10001_11010_000000000100_0101, .vsplat .n16 17 26),
  (0b100110_01001_10010_11101_0000101_0110, .vins .n32 9 18 29),
  (0b100110_01101_10110_00001_0000110_0111, .vext .n64 13 22 1),
  (0b100110_10001_11010_0000000001110000, .vmov 17 26),
  (0b100111_01001_10010_000000000001_1001, .vreda .f32 9 18),
  (0b100111_01101_10110_000000000010_1010, .vredn .f16 13 22),
  (0b100111_10001_11010_000000000011_1011, .vredx .b16 17 26),
  (0b100111_01001_10010_11101_0000100_0000, .vdot .i8 9 18 29),
  (0b101000_00101_00110_00011_00000010000, .pand 5 6 3),
  (0b101000_00101_00110_00011_00000100000, .por 5 6 3),
  (0b101000_00101_00110_00011_00000110000, .pxor 5 6 3),
  (0b101000_00101_00110_0000000001000000, .pnot 5 6),
  (0b101000_10001_00110_000000000101_0101, .pcnt .n16 17 6),
  (0b101000_01001_00110_000000000110_0110, .pfst .n32 9 6),
  (0b101000_00101_10110_0000000001110000, .pset 5 22),
  (0b101000_10001_00110_0000000010000000, .pget 17 6)
] : List (Word × Instr)).all (fun e => reads e.1 e.2) = true := by decide

theorem test_decode_stream_and_tensor : ([
  (0b101001_00010_10010_0000000000010000, .scfg 2 18),
  (0b101001_01101_00011_0000000000100000, .sbind 13 3),
  (0b101001_00010_000000000000000110000, .send 2),
  (0b101001_01001_00011_0000000001000000, .sstat 9 3),
  (0b101001_00010_10110_0000000001010000, .sskip 2 22),
  (0b101010_01011_11010_000000000001000_1, .tset 43 26),
  (0b101010_01011_10010_000000000010000_1, .tget 43 18),
  (0b101010_01011_00000000000000011000_1, .tclr 43),
  (0b101010_01011_11010_000000000100000_1, .tinfo 26 43),
  (0b101011_01001_100001_101010_110011_101, .hmm 9 33 42 51 5),
  (0b101100_01101_100001_101010_110011_101, .hadd 13 33 42 51 5),
  (0b101101_10001_100001_101010_110011_0_10, .hmv 17 33 42 51 2),
  (0b101110_01001_100001_101010_001111_1_00, .hcvt 9 33 42 .q3 true),
  (0b101111_01100_01011_00001_0000001000_1, .hsnap 12 1 43),
  (0b101111_10001_11010_0000000000100000, .hqry 17 26),
  (0b101111_00000_10010_0000000000110000, .hres 18),
  (0b101111_00000_10110_0000000001000000, .hdrop 22),
  (0b101111_10001_000000000000001010000, .hwin 17)
] : List (Word × Instr)).all (fun e => reads e.1 e.2) = true := by decide

theorem test_decode_launch : ([
  (0b110000_01001_10010_11101_00000010000, .lpatch 9 18 29),
  (0b110000_01101_10110_0000000000100000, .larm 13 22),
  (0b110000_10001_11010_0000000000110000, .lqry 17 26),
  (0b110000_00000_10010_11101_00001000000, .qenq 18 29),
  (0b110000_00000000000000000001010000, .tend),
  (0b110000_00000000000000000001100000, .tyld),
  (0b110000_01001_10010_0000000001110000, .garm 9 18),
  (0b110000_00000_10110_0000000010000000, .gdone 22),
  (0b110000_00000_11010_0000000010010000, .migr 26),
  (0b110000_01001_000000000000010100000, .done 9)
] : List (Word × Instr)).all (fun e => reads e.1 e.2) = true := by decide

theorem test_decode_sealed_and_system : ([
  (0b110001_01100_10110_00001_00000010000, .slook 12 22 1),
  (0b110001_01100_11010_00101_00000100000, .shash 12 26 5),
  (0b110001_00000_10110_0000000000110000, .sref 22),
  (0b110001_00000_10110_0000000001000000, .sunref 22),
  (0b110001_10001_10110_0000000001010000, .sres 17 22),
  (0b110001_01001_10110_11110_00001100000, .scas 9 22 30),
  (0b110001_01101_10110_0000000001110000, .scopy 13 22),
  (0b110001_10001_10110_0000000010000000, .sealSstat 17 22),
  (0b110010_101000100100011_00000010000, .trap 20771),
  (0b110010_00000000000000000000100000, .eret),
  (0b110010_10001_0100100100_000001100_10, .mfs 17 0x924),
  (0b110010_01001_0100100100_000010000_10, .mts 0x924 9),
  (0b110010_01101_000000000000001010000, .wait 13),
  (0b110010_10001_000000000000001100000, .chain 17),
  (0b110010_00000000000000000001110000, .unchain),
  (0b110010_01101_000000000000010000000, .arearm 13),
  (0b110010_10001_11010_0000000010010000, .lkick 17 26),
  (0b110010_101000100100011_00010100000, .brk 20771)
] : List (Word × Instr)).all (fun e => reads e.1 e.2) = true := by decide

theorem test_decode_translation_and_map : ([
  (0b110011_01101_10110_00001_00000010000, .tlbw 13 22 1),
  (0b110011_10001_11010_0000000000100000, .tlbinv 17 26),
  (0b110011_01001_10010_0000000000110000, .tlbq 9 18),
  (0b110011_01101_000000000000001000000, .fbpop 13),
  (0b110011_00000000000000000001010000, .replay),
  (0b110011_01001_000000000000001100000, .msgrx 9),
  (0b110100_01101_000000000000000010000, .mapack 13),
  (0b110100_10001_11010_00101_00000100000, .maprd 17 26 5),
  (0b110100_01001_10010_0000000000110000, .repw 9 18),
  (0b110100_01101_10110_00001_00001000000, .arrt 13 22 1),
  (0b110100_00000000000000000001010000, .shut),
  (0b110100_01001_10010_0000000001100000, .snaprd 9 18),
  (0b110100_00000000000000000001110000, .pairon),
  (0b110100_00000000000000000010000000, .pairoff),
  (0b110100_01001_000000000000010010000, .fpchk 9),
  (0b110100_00000000000000000010100000, .ssbar),
  (0b110100_10001_000000000000010110000, .ssqry 17)
] : List (Word × Instr)).all (fun e => reads e.1 e.2) = true := by decide

theorem test_decode_hint : ([
  (0b111111_0000_1010111100110111101111, .hintWide 0x2bcdef),
  (0b111111_0001000000000000000000_1_100, .hintRm true 4),
  (0b111111_0010_1001101_0110010_1001_101_1, .hintDep 77 50 9 5 true),
  (0b111111_0011000000000000_11001000_00, .hintSchedYield 200),
  (0b111111_00110000000000000000000001, .hintSchedHold),
  (0b111111_01000000000000000000000000, .hintSat),
  (0b111111_01010000000000000000000_011, .hintCache 3)
] : List (Word × Instr)).all (fun e => reads e.1 e.2) = true := by decide

/-- The example words of Tables 12.x, 15.2, 17.2, 19.2, 22.x to 26.x and 27.2, and of the hint and stream forms. -/
theorem test_decode_examples : ([
  (0xD0A00010, .mapack 5), (0xD0A63820, .maprd 5 6 7), (0xD0A60030, .repw 5 6), (0xD0000050, .shut), (0xD0A60060, .snaprd 5 6),
  (0xD0000070, .pairon), (0xD0000080, .pairoff), (0xD0A00090, .fpchk 5), (0xD00000A0, .ssbar), (0xD0A000B0, .ssqry 5),
  (0xC8000020, .eret), (0xC8A00050, .wait 5), (0xC8A00060, .chain 5), (0xC8000070, .unchain), (0xC80008A0, .brk 1), (0xCC000050, .replay),
  (0xBD2A0020, .hqry 9 10), (0xBC0A0040, .hdrop 10), (0xBCA00050, .hwin 5), (0xC1880020, .larm 12 8)
] : List (Word × Instr)).all (fun e => reads e.1 e.2) = true := by decide

/-! ### Ill-formed terms -/

/-- One ill-formed term for each check of R46, 3 and 4: type columns, p, s and paired registers, groups, lengths, counts, barrier
indices, hint fields. -/
theorem test_wf_refuses : ([
  .add .f32 1 2 3, .ld .f32 1 2 0, .aadd .i8 1 2 3, .vadd .q4 1 2 3, .vabs .n8 1 2, .vfma .i32 1 2 3 4, .vdot .i16 1 2 3,
  .vldx .i8 1 2 3, .vqnt .i32 1 4 .f32, .vqnt .q4 1 3 .f32, .vqnt .q4 1 3 .b16, .vxpq .f32 2 1 .q4, .vcvt .f32 1 2 .f32,
  .vcvt .q4 1 2 .f32, .vcmpeq .i32 8 1 2, .vcmpun .i32 1 1 2, .vsel .i32 1 2 8, .pand 8 1 2, .pand 1 8 2, .pnot 1 9, .scfg 4 1,
  .sstat 1 4, .loop 1 0, .qpub 1 0, .qrel 1 0, .binit .room 16 1, .bread 1 .hall 16, .hsnap 1 2 3, .sref 0, .sref 3, .scas 1 2 3,
  .scas 2 1 4, .hintRm true 0, .hintRm false 5, .hintCache 5
] : List Instr).all (fun i => !i.wf) = true := by decide

/-- Words that R46 refuses: a reserved major, minor and type, a nonzero zero field, an operand out of range. -/
theorem test_decode_refuses : ([0xD8000000, 0x00000002, 0x00C63818, 0b000000_01001_10010_00001_0010011_0010, 0xA4A00010, 0xC4010040] : List Word).all refuses = true := by
  decide

/-! ### States that the witnesses stand in -/

/-- The premises of `Quiet`, `Alone` and a clean slot. -/
def calm (s : State) : Bool :=
  (s.launches.all fun e => e.2.mode != 2) && s.lostLines.isEmpty && (coreAt s s.cur.1).chain.isNone && (coreAt s s.cur.1).pair.isNone &&
    (here s).bad.isEmpty

/-- The premises of `Plain`. -/
def plain (i : Instr) (s : State) : Bool :=
  calm s && decide ((privilege i).level ≤ (modeOf s.cur.1 s.cur.2).level) && (here s).hints.all (accepts i)

theorem plain_of {i : Instr} {s : State} (h : plain i s = true) : Plain i s := by
  simp only [plain, calm, Bool.and_eq_true, List.all_eq_true, bne_iff_ne, Option.isNone_iff_eq_none,
    List.isEmpty_iff, decide_eq_true_eq] at h
  exact ⟨⟨h.1.1.1.1.1.1, h.1.1.1.1.1.2⟩, ⟨h.1.1.1.1.2, h.1.1.1.2⟩, h.1.2, List.all_eq_true.mpr h.2, h.1.1.2⟩

/-- What a program answers and leaves, where `Steps` holds of it. -/
def steps {α : Type} (act : M α) (s : State) : Option (α × State) :=
  match act s with
  | .ok a t => if t.cur = s.cur ∧ calm t = true then some (a, t) else none
  | .error _ _ => none

/-- Whether a program stops with a trap of a cause. -/
def traps {α : Type} (act : M α) (s : State) (cause : Nat) : Bool :=
  match act s with
  | .error (.trap c _ _ _) _ => c == cause
  | _ => false

/-- `Released` at a scope up to room, or with nothing dirty. -/
def released (s : State) (scope : Tier) : Bool :=
  let c := leadCore s s.cur.1 s.cur.2
  decide (scope.code ≤ 2) || ((coreAt s c).mappings.flatMap (dirtyWords s (roomOf c))).isEmpty

/-- A record with two stages, in room 0: the second is the first one's successor. -/
def record : List XWord :=
  [0x1000, 0, 0x10000, 0x1E000000000, 0xFFFFFFFF, 0, 0, 0, 0, 0, 2] ++ List.replicate 13 0 ++ [0x190010, 0x10010] ++
    List.replicate 6 0

/-- A launch of the record that runs in room 0. -/
def launch : Launch where
  words := record
  arm := 1
  order := 0
  rooms := [0]
  startTime := 0
  owed := 0
  chimney := []
  sent := []
  barriers := [(134217728, { Barrier.reset with config := 2 }), (134217729, { Barrier.reset with config := 2, done := 1, result := 9 })]
  leftSlots := []
  lost := false
  estate := []
  seq := 0
  rollbacks := 0
  mode := 0
  keptTasks := []
  taken := []
  ckTensors := []
  ckBarriers := []

/-- A task of context 1 in slot 0 of core 0, in user mode: pages 1 to 3 of the context lie in device DRAM, readable,
writable and executable; the core's partition is 480 KiB of scratchpad. -/
def bench : State :=
  let s := { State.reset with
    cur := (0, 0)
    contextTable := [(8, 0x100000), (9, 0x200000), (10, 0x500000004), (11, 0x100000), (13, 1)]
    launches := [(1029, launch)] }
  let s := onCore s 0 fun q => { q with
    partition := 480, owner := some 1, tlb := [⟨1, 1, 0, 0x100, 7⟩, ⟨1, 2, 0, 0x200, 7⟩, ⟨1, 3, 0, 0x300, 0x27⟩] }
  onSlot s 0 0 fun v => { v with
    live := true, ctx := 1, launch := some 5, pc := 0x10000
    x := (((((v.x.set 1 7).set 2 (0 - 2)).set 5 0xFFFD000000000100).set 6 0x20000).set 7 0x20002).set 8 0x80
    w := v.w.set 1 0x3F8000003F800000
    p := v.p.set 1 0xF }

/-- The same slot outside any launch. -/
def free : State := onSlot { State.reset with cur := (0, 0) } 0 0 fun v => { v with
  live := true, pc := 0x1000, x := (v.x.set 1 7).set 2 (0 - 2) }

/-- The supervisor slot of core 0. -/
def super : State := onSlot { State.reset with cur := (0, 3) } 0 3 fun v => { v with
  live := true, x := (v.x.set 1 0x1000).set 2 2, trap := { v.trap with vec := 0x4000 } }

/-- The firmware of hall 0's threshold core. -/
def firm : State := onSlot { State.reset with cur := (65536, 3) } 65536 3 fun v => { v with
  live := true, x := (v.x.set 1 0x10000).set 2 2 }

/-- The bench in a handler. -/
def handler : State := onSlot bench 0 0 fun v => { v with trap := { v.trap with cause := 0x8000000000000010 } }

/-! ### States that meet the hypotheses of the statements -/

/-- Whether every one of some hypotheses is met. -/
def met (l : List Bool) : Bool := l.all id

/-- IntegerResults, IntegerFields, ImmediateForms, Transfers: plain issue, in a launch and outside one, with a bound hint. -/
theorem witness_plain : met [
    ([.add .i8 3 1 2, .bfx .i32 3 1 2, .lui 3 1, .part 3 1 .core, .beq 1 2 1, .j 1, .loop 1 2, .vmov 1 2, .pand 1 2 3,
      .mapq 3 1, .mfs 3 0x20] : List Instr).all (fun i => plain i bench && plain i free),
    plain (.addi 3 1 5) (onSlot bench 0 0 fun v => { v with hints := [.hintWide 3] }),
    launchOf (here free) == none, launchOf (here bench) == some 1029] = true := by decide +kernel

theorem witness_add : Plain (.add .i8 3 1 2) bench := plain_of (by decide +kernel)

/-- IntegerDivision: both clauses. -/
theorem witness_division : met [plain (.div .i64 3 1 2) bench, valTy .i64 (xOf (here bench) 2) != 0,
    valTy .i64 (xOf (here bench) 0) == 0] = true := by decide +kernel

/-- Transfers: an aligned target and one that is not. -/
theorem witness_jumps : met [(xOf (here bench) 8).toNat % 4 == 0, (xOf (here bench) 1).toNat % 4 != 0] = true := by
  decide +kernel

/-- HardwareLoops: in a handler, a zero count, an empty, a full and an enclosing stack; the last pass and one before. -/
theorem witness_loops : met (
    let e : Loop := ⟨1, 0x10004, 0x10008⟩
    let full := onSlot bench 0 0 fun v => { v with loops := [e, e, e, e] }
    let short := onSlot bench 0 0 fun v => { v with loops := [e] }
    [plain (.loop 1 2) handler, inHandler (here handler), !inHandler (here bench), plain (.loop 1 2) full,
      plain (.loop 1 3) short, (here bench).loops.isEmpty, xOf (here bench) 0 == 0, xOf (here bench) 1 != 0,
      decide (e.stop.toNat < ((here short).pc + 4 * 3).toNat), decide (e.start ≤ 0x10008), decide (¬ e.start ≤ 0x10000)]) = true := by
  decide +kernel

/-- Hints: a first hint, a second of its kind, and one at the end of a body. -/
theorem witness_hints : met (
    let again := onSlot bench 0 0 fun v => { v with hints := [.hintSat] }
    let last := onSlot bench 0 0 fun v => { v with loops := [⟨2, 0x10000, 0x10000⟩] }
    [isHint .hintSat, calm bench, !atLoopEnd (here bench), (here again).hints.any fun h => hintKind h == hintKind .hintSat,
      atLoopEnd (here last), calm last]) = true := by decide +kernel

/-- Streams 0 (a read stream with an element fetched), 1 (a write stream) and 2 (exhausted) configured; w4 bound to 0, w5 to 1. -/
def streaming : State := onSlot bench 0 0 fun v => { v with
  s := ((v.s.set 0 ⟨true, BitVec.ofNat 256 (0x20000 + 2 ^ 64 * 64), 0, some 4, false, [9], none⟩).set 1
    ⟨true, BitVec.ofNat 256 (0x20000 + 2 ^ 64 * 64 + 2 ^ 130), 0, some 5, false, [], none⟩).set 2
    ⟨true, BitVec.ofNat 256 (0x20000 + 2 ^ 64 * 64), 64, none, true, [], none⟩ }

/-- VectorElements, VectorNumbers, MasksAndCompares, FormatChanges, VectorMoves, VectorReductions. -/
theorem witness_vectors : met [
    (steps (readVecs [1, 2] []) bench).isSome, (steps (readVecs [1] []) bench).isSome,
    (steps (readVecs [1, 2, 3] []) bench).isSome, (steps (rwOwn 3) bench).isSome, (steps (ww 3 9) bench).isSome,
    (steps (readVecs [4, 4] []) streaming).isSome, boundTo (here streaming) 4 == some 0, boundTo (here bench) 4 == none,
    (steps (readGroup (groupRegs 0 .f32)) bench).isSome, (steps (ww 5 9) streaming).isSome,
    boundTo (here streaming) 5 == some 1] = true := by decide +kernel

/-- MasksAndCompares: a full mask. -/
theorem witness_mask : (List.replicate 8 true).length ≤ elemsIn .f32 ∧ 7 < (List.replicate 8 true).length := by decide

/-- Formats: encodings of every float type that are no NaN: zero, and the one with the sign bit alone. -/
theorem witness_floats : ([.f64, .f32, .f16, .b16, .e4m3, .e5m2] : List Ty).all (fun ty => decide (8 ≤ ty.code ∧ ty.code ≤ 13) &&
    !(unpack (fmtOf ty) 0).isNan && !(unpack (fmtOf ty) (2 ^ ((fmtOf ty).width - 1))).isNan) = true := by decide +kernel

/-- StreamEngines and StreamForms: the clauses on configured, exhausted, written and unconfigured streams. -/
theorem witness_streams : met (
    let q := fun k : Fin 4 => (here streaming).s.get k
    [(q 0).configured, !(q 3).configured, !(q 0).desc.getLsbD 130, (q 1).desc.getLsbD 130, (q 0).fetched.head? == some 9,
      (q 2).pos.toNat == 64, (q 2).bound == none, boundTo (here streaming) 9 == none, plain (.sbind 9 2) streaming,
      plain (.bsx 0 1) streaming, plain (.scfg 3 8) bench, (steps (loadBytes 0x20000 32) bench).isSome,
      (xOf (here bench) 7).toNat % 8 != 0, streamZeros (q 0) == false, streamMisaligned (q 0) == none,
      match fetchElement (q 2) 0 streaming with | .ok _ _ => true | .error _ _ => false,
      match fetchElement { q 2 with desc := BitVec.ofNat 256 (0x40000 + 2 ^ 64 * 64) } 0 streaming with | .ok _ _ => false | .error _ _ => true]) = true := by
  decide +kernel

/-- Accesses: the loads and stores of a page, aligned and not, and their parts. -/
theorem witness_accesses : met (
    let x := xOf (here bench) 6
    [(steps (loadBytes x 32) bench).isSome, (steps (storeBytes x (bytesOfNat 32 9)) bench).isSome,
      (steps (prefetchLine 0 1 x) bench).isSome, (steps (storeParts x 8) bench).isSome, released bench .room,
      x.toNat % 8 == 0, (xOf (here bench) 7).toNat % 8 != 0, (steps (acquire .house) bench).isSome,
      (do
        let (ps, t) ← steps (locateElems .read 4 [x, x + 4]) bench
        let (es, u) ← steps (seeElems ps) t
        let (qs, v) ← steps (locateElems .write 4 [x, x + 4]) u
        steps (sendElems qs es) v).isSome]) = true := by decide +kernel

/-- Vaults: a word of the scratchpad of the slot's own core that is ready, and the edges of an access within a word. -/
theorem witness_vault : met (
    let a : XWord := 0xFFFD000000000100
    [!isThreshold 0, isCanonical a, isVaultAddr a, vaultRoom 0 a == some 0, roomRuns bench 1 0, inScratchpad bench 0 0x100,
      inScratchpad bench 0 (1024 * 480 - 1), !inScratchpad bench 0 (1024 * 480), physicalRoom bench 0 == some 0,
      (vaultAt bench 0 0x100).check == none, !(vaultAt bench 0 0x100).poison, boardHit bench 0 0x100 4 == none,
      isMapped bench 0 0x100 == none, calm bench, recoverable bench (here bench) == none, (roomAt bench 0).hold.isEmpty,
      (vaultAt (putVault bench 0 0x100 ⟨5, true, false, false, none, false⟩) 0 0x100).data == 5,
      vaultAt (putVault bench 0 0x100 ⟨5, true, false, false, none, false⟩) 0 0x104 == VaultWord.reset]) = true := by
  decide +kernel

/-- PhysicalMemory, StepRuns: a threshold core, an address of device DRAM, its last byte and the first beyond it, one beyond
52 bits. -/
theorem witness_firmware : met [isThreshold firm.cur.1, calm firm, !migratable firm (here firm),
    recoverable firm (here firm) == none, populated 0x10000, populated (3 * 2 ^ 40 - 1), !populated (3 * 2 ^ 40),
    decide (2 ^ 52 ≤ (0x10000000000000 : XWord).toNat), decide (0x10000 % 16384 + 16384 ≤ 16384), firm.cores.all fun e => e.2.mappings.isEmpty,
    firm.rooms.isEmpty, firm.homeParts.isEmpty, (roomAt firm (roomOf firm.cur.1)).hold.isEmpty, poisonIn firm 0x10000 4 == none,
    Memory.wf firm.mem] = true := by decide +kernel

/-- Translation: a hit that is allowed, one that each permission refuses, a sealed page, a miss, an address that is none. -/
theorem witness_translation : met (
    let hit := fun a => (slotLookup bench 0 1 (pageOf a)).map Prod.fst
    [(hit 0x10000).isSome, (hit 0x40000).isNone, !isCanonical 0x0100000000000000, isCanonical 0xFF80000000000000,
      isCanonical 0x007FFFFFFFFFFFFF, isVaultAddr 0xFFFD000000000000, !isVaultAddr 0x10000, !isThreshold bench.cur.1,
      refusal bench 0x1000000 7 .write .plain == none, refusal bench 0x1000000 1 .write .plain == some 0x05,
      refusal bench 0x1000000 0x27 .write .plain == some 0x06, refusal bench 0x1000000 3 .fetch .plain == some 0x05,
      refusal bench 0x1000000 6 .read .plain == some 0x05, !bench.krBusy, spaceOf 0x1000000 == .dram]) = true := by decide +kernel

/-- The bench with vault words written in its scratchpad, from an offset. -/
def withWords (s : State) (off : Nat) (l : List Word) : State :=
  (l.zipIdx).foldl (fun s (w, i) => putVault s 0 (off + 4 * i) ⟨w, true, false, false, none, false⟩) s

/-- A ring of four 8-byte slots with two filled, its header at offset 0x200, bound to handle 0; handle 1 is unbound. -/
def ringing : State := onSlot (withWords bench 0x200 [0, 2, 0x400, 0xFFFD0000, 0x21, 0, 0, 0]) 0 0 fun v => { v with
  h := v.h.set 0 (some 0xFFFD000000000200), x := v.x.set 9 0xFFFD000000000200 }

/-- FullEmptyBits: an empty word, a full one, watches used up, a range that is read-only. -/
theorem witness_full_empty : met (
    let full := putVault bench 0 0x100 ⟨5, true, false, true, none, false⟩
    let busy := onCore bench 0 fun q => { q with watches := List.replicate 8 ⟨1, 0, 0x300, true⟩ }
    let sealed := onCore bench 0 fun q => { q with mappings := [⟨0x100, 0x30000, 0x80, 1, [], true⟩] }
    [(steps (fePlace 5 0) bench).map Prod.fst == some (0xFFFD000000000100, 0, 0x100), (steps (fePlace 5 0) full).isSome,
      !(vaultAt bench 0 0x100).f, (vaultAt full 0 0x100).f, decide ((coreAt bench 0).watches.length < 8),
      (coreAt busy 0).watches.length == 8, (steps (fePlace 5 0) busy).isSome, isReadOnly sealed (.vault 0 0x100) 4,
      !isReadOnly bench (.vault 0 0x100) 4, (steps (claimMapped 0 0x100) bench).isSome, (steps (fePlace 5 0) sealed).isSome,
      bench.cores.all fun e => (List.finRange 4).all fun k => (slotAt bench e.1 k).wait == none]) = true := by decide +kernel

/-- Rings: a ring that is bound, with slots filled and free; slots that are not; a header to bind. -/
theorem witness_rings : met (
    let q : RingHead := ⟨2, 0, 0xFFFD000000000400, 2, 1, false, true⟩
    [(steps (ringOf 0) ringing).map Prod.fst == some (0, 0x200, q), (steps (readHandle 1 (xOf (here ringing) 9)) ringing).isSome,
      (here ringing).h.get 1 == none, traps (ringOf 1) ringing 0x0A, decide (1 < q.p - q.c), decide (¬ 2 < q.p - q.c),
      (steps (do stallOn (.vault 0 0x400) 8; fillAt 0xFFFD000000000400 (.vault 0 0x400) 8) ringing).isSome, (steps (readRing 0 0 0x200) ringing).isSome,
      (steps (ringBytes 0xFFFD000000000400 0 0x400 8) ringing).isSome, !isReadOnly ringing (.vault 0 0x410) 8,
      (steps (do stallOn (.vault 0 0x410) 8; (wordsIn 0x410 8).forM (claimMapped 0)) ringing).isSome,
      (steps (do touchVault 0 0x410 8; poke 0 (.vault 0 0x410) (bytesOfNat 8 7)) ringing).isSome,
      (steps (do wx 3 5; acquire .room) ringing).isSome, released ringing .room, (steps (ringCount 0 0x200 4 3) ringing).isSome,
      boundTo (here ringing) 3 == none, boardHit ringing 0 0x204 4 == none, isMapped ringing 0 0x204 == none]) = true := by
  decide +kernel

/-- The bench with the page 0x20000 mapped at offset 0x800, and one dirty word in it. -/
def mapped : State := putVault (onCore bench 0 fun q => { q with mappings := [⟨0x800, 0x20000, 0x80, 1, [], false⟩] }) 0 0x800
  ⟨5, true, true, false, none, false⟩

/-- MappedRanges: a range to map, a range that is mapped, operands that fail the first check. -/
theorem witness_mapped : met (
    let good := fun v : XWord => v.toNat % 128 == 0 && v != 0
    let d : XWord := 0xFFFD000000000800
    let is := fun {α : Type} (act : M α) (s : State) => (steps act s).isSome
    [good d, good 0x20000, good 0x80, !good 0, !good 64, is (ownRange d 0x80) bench, (coreAt bench 0).mappings.isEmpty,
      boardHit bench 0 0x800 0x80 == none, is (rangeMapping d 0x80 true) mapped, is (rangeMapping d 0x80 false) mapped,
      is (changeWords 0 (fun v => { v with v := false, d := false }) (offsets 0x800 0x80)) bench,
      is (backWords (backWord 0) (dirtyIn mapped 0 0x800 0x80)) mapped, dirtyIn mapped 0 0x800 0x80 != [],
      is (changeWords 0 unmapWord (offsets 0x800 0x80)) mapped, (mappedAddress mapped d).isSome, mappedAddress bench d == none]) = true := by
  decide +kernel

/-- CopyEngine: a copy from memory into the scratchpad, one of no bytes, one into several rooms, a transfer to complete. -/
theorem witness_copies : met (
    let run := do
      let (segs, t) ← steps (copySegments 0x20000 [0xFFFD000000000100] 256) bench
      let (_, u) ← steps (awaitBoards (copyIntervals segs)) t
      let (bad, w) ← steps (performCopy segs segs) u
      return (segs, bad, w)
    let segs := (run.map Prod.fst).getD []
    let moving := { bench with transfers := [⟨0, 0, 0, segs, [0]⟩] }
    let bad := { bench with poison := [0x2000000] }
    [(xOf (here bench) 6).toNat % 4 == 0, segs != [], run.map (fun e => e.2.1) == some none, (steps (copySegments 0x20000 [0xFFFE000000000100] 128) bench).isSome,
      moving.transfers.any fun t => t.id == 0, (steps (performCopy segs segs) moving).isSome,
      ((steps (performCopy segs segs) bad).map fun e => e.1.isSome) == some true,
      (vaultRoom 0 0xFFFE000000000100).isSome, isVaultAddr 0xFFFE000000000100, bench.transfers.isEmpty]) = true := by
  decide +kernel

/-- AtomicAccesses, AccumulateOnly: an aligned word of class D memory, a word that is not aligned, an area that is empty. -/
theorem witness_atomics : met (
    let x := xOf (here bench) 6
    let q : Latch := ⟨false, .aadd .i64 3 6 1, x, .mem 0 0x2000000, 0, 7, 0⟩
    [(steps (locateClass x .update .atomic) bench).map Prod.fst == some (.mem 0 0x2000000, 0),
      (steps (do stallOn (.mem 0 0x2000000) 8; fillAt 0x20000 (.mem 0 0x2000000) 8) bench).isSome, !isReadOnly bench (.mem 0 0x2000000) 8,
      (steps (countRemote (.mem 0 0x2000000)) bench).isSome, turnedAway bench q .i64 == none,
      turnedAway { bench with krBusy := true } q .i64 == some 0x05, journalOf bench (here bench) q.place == none,
      ((steps (atomStep q .i64) bench).map fun e => match e.1 with | .done _ => true | _ => false) == some true,
      x.toNat % 8 == 0, (xOf (here bench) 7).toNat % 8 != 0, (steps (locate x .write .accumulate) bench).isSome,
      spaceOf 0x2000000 == .dram, (steps (peek x (.mem 0 0x2000000) 8 none) bench).map (fun e => e.1.2) == some false]) = true := by
  decide +kernel

/-- RetryLatch: a slot of a user whose atomic has been turned away, sent again and not, seen by its supervisor. -/
theorem witness_latch : met (
    let q : Latch := ⟨false, .aadd .i64 3 6 1, 0x20000, .mem 0 0x2000000, 0, 7, 0⟩
    let held := fun sent => onSlot super 0 1 fun v => { v with latch := some { q with sent := sent }, wait := some .latch }
    let drop := onSlot (held false) 0 3 fun v => { v with x := v.x.set 2 0x101 }
    [(slotAt (held true) 0 1).latch.isSome, (slotAt (held false) 0 1).wait == some .latch, modeOf 0 1 == .user,
      calm (held true), plain (.arearm 1) (held false), plain (.arearm 2) drop, (xOf (here drop) 2).getLsbD 8,
      !(xOf (here super) 2).getLsbD 8, (slotAt super 0 1).latch == none, (xOf (here drop) 2).toNat % 4 == 1]) = true := by
  decide +kernel

/-- Fences, Signals: every scope and path with nothing out; a command of the slot in the window; a signal that is fresh and one
that is not. -/
theorem witness_orders : met (
    let m : WsigMsg := ⟨0, 0, 0, 1, 0, 5, 8, 7, .mem 0 0x2000000, .mem 0 0x2000008⟩
    [released bench .house, (steps (acquire .house) bench).isSome,
      ([.core, .stream, .hearth, .laundry, .copy, .host, .fabric] : List Path).all fun p => (steps (awaitPath p) bench).isSome,
      (here bench).copyError == none, (commandsOf bench 0 0).isEmpty, transferOf bench 0 0 == none, !kicksOf bench 0 0,
      (here (onSlot bench 0 0 fun v => { v with copyError := some 5 })).copyError == some 5, wsigFresh bench m,
      !wsigFresh { bench with wsigSeen := [[0, 0, 0, 1, 0, 5]] } m, (xOf (here bench) 7).toNat % 8 != 0,
      (do
        let (p, t) ← steps (locateClass 0x20000 .update) bench
        let (_, u) ← steps wsigOrder t
        steps (applyWsig 0 { m with payload := p.1 } (some 0)) u).isSome,
      (steps (poke 0 m.payload [1] none) bench).isSome, (steps (peek 0 m.signal 8 none) bench).isSome]) = true := by decide +kernel

/-- Wings: a write that may be applied, one that may not; addresses that reach the device, and one that does not. -/
theorem witness_wings : met (
    let s := { State.reset with remotes := [⟨1, 2, [0, 1]⟩] }
    [s.remotes.find? (fun m => m.target == 2 && mayApply s m) == some ⟨1, 2, [0, 1]⟩, !mayApply s ⟨1, 2, [0, 2]⟩,
      !mayApply s ⟨1, 2, [1, 1]⟩, s.remotes.find? (fun m => m.target == 3 && mayApply s m) == none, reachesDevice 0x2000000,
      !reachesDevice (3 * 2 ^ 40), sealedOwner bench 0x2000000 4 == none,
      sealedOwner (onHall bench 0 fun h => { h with tlb := [⟨1, 3, 0, 0x300, 0x27⟩] }) 0x3000000 4 == some 1]) = true := by
  decide +kernel

/-- LaunchBarriers: a barrier of the launch that is not arrived at, one that is, one that waits, a slot without a launch. -/
theorem witness_barriers : met (
    [launchOf (here free) == none, (steps (barrierOf .room 0) bench).isSome, (barrierAt launch 134217728).arrived == 0,
      !barrierReserved 2, barrierReserved 0xFFC00000, (barrierAt launch 134217729).done != tget 0 (here bench).seen 1,
      (barrierAt launch 134217728).done == tget 0 (here bench).seen 0, released bench .room, (steps (acquire .room) bench).isSome,
      (steps (arriveWith .room 0 5) bench).isSome, (launchAt bench 1029).isSome, (barrierAt launch 134217728).config.toNat % 2 ^ 18 == 2,
      (barrierAt launch 134217730).config.toNat % 2 ^ 18 == 0]) = true := by decide +kernel

/-! ### Hearths, launches and tasks -/

/-- A state with dwords in memory at a physical address of device DRAM. -/
def withDwords (s : State) (pa : Nat) (l : List XWord) : State :=
  { s with mem := memWrite s.mem pa (l.flatMap fun x => bytesOfNat 8 x.toNat) }

/-- The head of a tree slot with elements of f32: e = 3 and n = 4. -/
def treeHead : XWord := 0x04309001

/-- A command of the launch, in the window of room 0. -/
def command : Command := ⟨1, 0, 1, 1029, .hmm 3 5 6 7 3, 0, 0, 0, 0, 0, false, [], 0, 0, false, .waiting, 0, 0, false, 0, false,
  [], [], [], [], [], none, [], none, false, 0, [], 0, false⟩

/-- The bench with commands in the window of room 0 and the id 1 in x9. -/
def windowed (l : List Command) : State := onSlot (onRoom bench 0 fun r => { r with window := l }) 0 0 fun v => { v with
  x := v.x.set 9 1 }

/-- The bench with sealed region 2 of the context: the page at 0x30000, with one object there, of the name 0x50. -/
def zoned : State := onSlot { bench with
  regionTable := [(16, 0x30000), (17, 0x10000), (18, 0x40000), (19, 8), (21, 1), (22, 1)]
  indexes := [(2, [⟨0x50, 0, 0, false, false, 0, 2, [], 0⟩])] } 0 0 fun v => { v with x := ((v.x.set 10 0x50).set 12 0x60).set 14 0x20080 }

/-- TensorSlots: a slot that is free, one that is owned, descriptors that pass and fail each check. -/
theorem witness_tensors : met (
    let d := fun (l : List XWord) => withDwords zoned 0x2000000 (l ++ List.replicate (8 - l.length) 0)
    let bad := fun (l : List XWord) => (steps (loadBytes 0x20000 64) (d l)).map fun e => firstBad (descriptorOf e.1)
    let wide := fun (l : List XWord) => (steps (loadBytes 0x20000 64) (d l)).map fun e => widthBad (descriptorOf e.1)
    let vector : List XWord := [0x18002, 0x20000, 4]
    let tree : List XWord := [treeHead, 0x1000000010, 0, 0, 0x30000]
    [slotBusy zoned 0 1 5 == false, slotBusy (windowed [command]) 0 1 5, bad [] == some none, bad [1] == some (some 0),
      bad vector == some none, wide (vector ++ [0, 3]) == some (some 3), wide (vector ++ [0, 8]) == some none,
      bad tree == some none, (steps (checkRegion 0x30000) zoned).map Prod.fst == some 2,
      (steps (swapRoots 1 0 0) (putTensor zoned 0 1 5 noTensor)).isSome, plain (.tset 5 6) zoned,
      (steps (swapRoots 1 0 0x50) (putTensor zoned 0 1 5 tree)).isSome, (entryOf zoned 2 0x50).isSome,
      (steps (storeBytes 0x20000 (dwords (tensorAt zoned 0 1 5))) zoned).isSome, noTensor != vector]) = true := by decide +kernel

/-- HearthCommands: a full window, a slot that is owned, a launch with a room barrier and none; a cell that is aligned and not. -/
theorem witness_commands : met (
    let full := windowed ((List.range 32).map fun i => { command with id := i + 1 })
    let cell := fun (x : XWord) => onSlot bench 0 0 fun v => { v with x := v.x.set 3 x }
    [decide (32 ≤ (roomAt full 0).window.length), decide ((roomAt bench 0).window.length < 32), launchOf (here free) == none,
      busyOperand (windowed [command]) 0 1 1029 [] 5 [6, 7] == some 5, busyOperand (windowed [command]) 0 1 1029 [1] 6 [5, 5] == some 6,
      busyOperand (windowed [{ command with started := true }]) 0 1 1029 [] 8 [6, 5] == some 5,
      busyOperand bench 0 1 1029 [] 5 [6, 7] == none, busyOperand (windowed [{ command with started := true }]) 0 1 1029 [1] 8 [5, 7] == none,
      roomBarrierN bench 1029 0 0 == 2, roomBarrierN bench 1029 0 2 == 0, (xOf (here (cell 8)) 3).toNat % 16 != 0,
      (xOf (here (cell 16)) 3).toNat % 16 == 0, plain (.hmm 3 5 6 7 7) bench,
      plain (.hcvt 3 5 6 .f32 true) (onSlot bench 0 0 fun v => { v with hints := [.hintDep 1 0 1 0 false] }),
      predecessorsOf (onRoom (windowed [command]) 0 fun r => { r with nextId := [(1029, 2)] }) 0 1029 [1, 0] == [1]]) = true := by
  decide +kernel

/-- CommandControl: a tree in a slot, owned and not; a stopped command; one that has left. -/
theorem witness_control : met (
    let tree := fun (s : State) => putTensor s 0 1 5 [treeHead, 0x1000000010, 0x50, 0, 0x30000, 0, 0, 0]
    let stopped := { command with state := .stopped, code := 0x21 }
    let gone := onRoom bench 0 fun r => { r with left := [⟨9, 1029, .retired, 0, 0, false, 8⟩] }
    let runs := { command with state := .running, started := true, steps := 0, a := [], c := [] }
    [tKind (tensorAt bench 0 1 5) != 1, tKind (tensorAt (tree zoned) 0 1 5) == 1, (ownerOf (tree zoned) 0 1 5).isNone,
      ((ownerOf (tree (windowed [command])) 0 1 5).map fun q => q.state == .waiting) == some true,
      (steps (do wxName 4 0; wx 9 (BitVec.ofNat 64 (2 ^ 63))) bench).isSome, (steps (swapRoots 1 0 0x50) (tree zoned)).isSome,
      (steps (takeSnapshot 0 runs) (tree (windowed [runs]))).isSome, recoverable (tree (windowed [runs])) (here bench) == none,
      (ownerOf (tree (windowed [runs])) 0 1 5) == some runs, commandAt (windowed [stopped]) 0 1029 1 == some stopped,
      commandAt gone 0 1029 9 == none, ((roomAt gone 0).left.find? (fun q => q.launch == 1029 && q.id == 9)).isSome,
      (xOf (here (windowed [stopped])) 9).toNat == 1, (steps (dropCommand 0 stopped) (windowed [stopped])).isSome,
      plain (.hdrop 9) (windowed [stopped])]) = true := by decide +kernel

/-- Whether a step of another agent goes through, and nothing of a superstep waits after it. -/
def goes (act : M Unit) (s : State) : Bool :=
  match act s with
  | .ok _ t => t.launches.all fun e => e.2.mode != 2
  | .error _ _ => false

/-- HearthWalks: an idle hearth, one whose command is ready, running, posted; a granule stop for a launch of higher priority. -/
theorem witness_walks : met (
    let tree : List XWord := [treeHead, 0x1000000010, 0, 0, 0x30000, 0, 0, 0]
    let dress := fun (s : State) => putTensor (putTensor (putTensor s 0 1 5 tree) 0 1 6 tree) 0 1 7 tree
    let s := fun (l : List Command) => dress (onRoom zoned 0 fun r => { r with window := l })
    let ran := { command with started := true, state := .running, a := tree, b := tree, c := tree }
    let deep : List XWord := [0x04309001 + 0x04000000, 0x10000000100, 0, 0, 0x30000, 0, 0, 0]
    let long := { ran with granule := 1, a := deep, b := deep, c := deep }
    let other := { command with id := 2, launch := 1030 }
    let two := onHall { s [long, other] with launches := [(1029, launch), (1030, { launch with words := record.set 3 0x1E007000000 })] } 0 fun h => { h with
      tlb := [⟨1, 0x20, 0, 0x400, 7⟩] }
    let p : Posted := ⟨0, 1029, 1, 0, 1, kidZ, kidZ, none⟩
    let out := onRoom (s [{ ran with posted := 1 }]) 1 fun r => { r with posted := [p] }
    let back := onRoom (s [{ ran with posted := 1 }]) 1 fun r => { r with posted := [{ p with result := some ⟨kidZ, 0, 0⟩ }] }
    [runningOf (s []) 0 == none, nextCommand (s []) 0 == none, nextCommand (s [command]) 0 == some command,
      goes (commandStartAct 0) (s [command]), nextCommand (s [{ ran with state := .split }]) 0 == some { ran with state := .split },
      rereads ran == false, runningOf (s [ran]) 0 == some ran, goes (retireCommand 0 ran) (s [ran]),
      goes (stopCommand 0 ran 0x23) (s [ran]), runningOf out 0 != none, (roomAt out 1).posted.find? (fun p => p.result.isNone) == some p,
      runningOf out 1 == none, goes (postedProductAct 1) out, (roomAt back 1).posted.any fun p => p.result.isSome,
      decide ((roomAt (s [ran]) 0).window.length < 32), (s [ran]).cores.all fun e => e.2.pair.isNone,
      splittable long, (roomAt two 0).window.any fun c => mayStart two 0 c && decide (commandPri two long < commandPri two c),
      goes (splitAt 0 0 long) two]) = true := by decide +kernel

/-- The bench with the record pool and the save frames of the context reachable for the foundation of hall 0. -/
def pooled : State := onHall bench 0 fun h => { h with tlb := [⟨1, 32, 0, 0x500, 7⟩, ⟨1, 16, 0, 0x400, 7⟩] }

/-- A record that every check of R236 passes. -/
def goodRecord : List XWord := record.set 7 0x10F000

/-- A pool whose record 6 can be armed. -/
def armable : State := withDwords pooled 0x4000600 goodRecord

/-- A launch with a graph of one node at 0x10E000, whose generation is complete. -/
def graphed : State := withDwords { pooled with
  launches := [(1029, { launch with words := (goodRecord.set 5 0x10E000) })] } 0x400E000
    [0x0000000700000001, 0x0000000700000000, 0, 0, 0x7FFFFFFFF, 1, 0, 0]

/-- LaunchRecords: dwords that may be patched and not, a record that may be armed and one that may not, a graph. -/
theorem witness_records : met (
    let x := fun (s : State) (n : XWord) => onSlot s 0 0 fun v => { v with x := v.x.set 9 n }
    let r := ((launchAt graphed 1029).getD launch)
    [plain (.lpatch 3 9 1) (x armable 0x70006), ([0, 1, 7, 9] : List Nat).all (fun k => decide (k < 24)), recoverable armable (here armable) == none,
      (steps (patchRecord 1 6 2 5) armable).map Prod.fst == some true, (steps (patchRecord 1 5 2 5) armable).map Prod.fst == some false,
      (steps (armRecord 1 6) armable).map Prod.fst == some 0, (steps (armRecord 1 5) armable).map Prod.fst == some 1,
      (steps (armRecord 1 7) armable).map Prod.fst == some 3, recordState armable 1 5 != 0, launchOf (here free) == none,
      ((match judgeArm 1 6 armable with | .ok (0, r) _ => (r.words.getD 7 0).toNat | _ => 0) == 0x10F000),
      (match judgeArm 1 7 armable with | .ok (code, _) _ => code != 0 | _ => false), released armable .house,
      launchOf (here graphed) == some 1029, (launchAt graphed 1029).isSome, recWord launch 5 == 0, recWord r 5 != 0,
      (steps (armGraph 0 1029 r 7) graphed).map Prod.fst == some (8, 0), (steps (armGraph 0 1029 r 6) graphed).map Prod.fst == some (7, 2),
      (steps (graphDone 0 1029 r 1) graphed).isSome, plain (.gdone 9) graphed, plain (.larm 3 9) armable]) = true := by
  decide +kernel

/-- TaskLives: entries for a successor and for another stage, with room and without; a task that ends, and one in a superstep;
boot code; a task with another ready, and one that may go to another hall. -/
theorem witness_tasks : met (
    let entry := fun (s : State) => withDwords s 0x2000000 [0x500000001]
    let s := entry { pooled with launches := [(1029, { launch with words := goodRecord })] }
    let r := (launchAt s 1029).getD launch
    let full := onQueue s 0 1029 1 fun q => { q with count := 16 }
    let more := onSlot s 0 0 fun v => { v with held := List.replicate 16 ⟨1, []⟩ }
    let gang := { s with launches := [(1029, { launch with words := goodRecord.set 9 1, mode := 1, seq := 4 })] }
    let boot := onSlot { super with bootStep := 4 } 0 3 fun v => { v with pc := 0x100 }
    let ready := onCore s 0 fun q => { q with
      shadows := [⟨newTask 1029 r 0 [] Slot.reset, none, none, none, [], none, 0, []⟩], mappings := [] }
    let far := { s with launches := [(1029, { launch with words := (goodRecord.set 2 0x200000).set 24 0x1B0010 })] }
    let gone := fun (act : M Flow) (s : State) => match act s with
      | .ok .gone t => decide (t.cur = s.cur) && (coreAt t s.cur.1).chain.isNone
      | _ => false
    [(xOf (here s) 7).toNat % 4 != 0, (steps (readMask 0x20000) s).map Prod.fst == some 1, stageDeclared r 1, stageDeclared r 2 == false,
      (steps (readEntry 0x20000 1) s).map Prod.fst == some [5], stageSucc r (here s).stage == some 1, queueFull full 0 1029 r 1,
      !queueFull s 0 1029 r 1, (here more).held.length == 16, stageSucc r 1 != some 0,
      (steps (do reserve 0 1029 0; emit (.enqueue 1029 0 0 [1, 5])) s).isSome, (here free).launch == none, transferOf s 0 0 == none,
      released s .house, gangOf s (here s) == none, (gangOf gang (here gang)).map Prod.fst == some 1029, (here gang).arrivedIn == none,
      plain .tend gang, gone endTask s, gone (endLaunch 5) s, booting boot 0 3, gone (bootDone 5) boot, (here s).held.isEmpty,
      shadowReady ready 0 0 1029, !shadowReady s 0 0 1029, (freeFrame ready 1).isSome, !bound ready 0 0,
      migratable far (here far) && mayMigrate far 0 0 1, migratable s (here s) == false,
      gone (do
        retire .seq
        migrateTask 0 0 1
        return .gone) far]) = true := by decide +kernel

/-- SealedMemory: staged contents; names that are present, absent and 0; counts at each boundary; a root cell. -/
theorem witness_sealed : met (
    let s := onSlot zoned 0 0 fun v => { v with x := (v.x.set 8 0xFFFD000000000100).set 9 0x20001 }
    let e := fun (count : Nat) (perm : Bool) => ({ zoned with indexes := [(2, [⟨0x50, 0, 0, perm, false, 0, count, [7], 0⟩])] } : State)
    let count := fun (s : State) => (entryOf s 2 0x50).map SealedEntry.count
    [(steps (staging 8 9) s).map (fun e => (e.1.1, e.1.2.2)) == some (0xFFFD000000000100, 2), regionOfName zoned 1 0x50 == some 2,
      regionOfName zoned 1 0x51 == none, (presentName zoned 1 0x50).isSome, presentName zoned 1 0x51 == none,
      (xOf (here zoned) 11 ++ xOf (here zoned) 10).toNat == 0x50, (xOf (here zoned) 13 ++ xOf (here zoned) 12).toNat == 0x60,
      count (e 1 false) == some 1, count (e (2 ^ 32 - 2) false) == some (2 ^ 32 - 2), count (e (2 ^ 32 - 1) true) == some (2 ^ 32 - 1),
      entryOf zoned 2 0x51 == none, zoned.deferred.isEmpty, ({ zoned with deferred := [(2, 0x50)] } : State).deferred.head? == some (2, 0x50),
      (xOf (here zoned) 1).toNat % 4 != 0, (steps (copySegments (lineAddress zoned 2 0) [0x20000] 128) zoned).isSome,
      (do
        let (p, t) ← steps (cellPlace 0x20000) zoned
        let (_, u) ← steps (seeAt 0x20000 p 16) t
        steps (do
          emit (.rootSwap 1 none p 0 0x50 none)
          wxName 10 0
          acquire .house) u).isSome, recoverable zoned (here zoned) == none, released zoned .house,
      (steps (do wxName 10 0x50; acquire .house) zoned).isSome, plain (.sref 10) zoned]) = true := by decide +kernel

/-- SealedMemory: contents that are in the index, and whose 16 names are all taken. -/
theorem witness_names : met (
    let zeros : List Byte := List.replicate 128 0
    let hash := hashOf zoned 2 zeros
    let holds := fun (l : List SealedEntry) => onHall { zoned with indexes := [(2, l)] } (homeLarder hash) fun h => { h with
      tlb := [⟨1, 3, 0, 0x300, 0x27⟩] }
    let found := holds [⟨nameOf hash 0, 0, 0, false, false, 0, 1, [], 0⟩]
    let taken := holds ((List.range 16).map fun i => ⟨nameOf hash i, i, 1, false, false, 0, 1, [], i⟩)
    [(steps (lookupOrAllocate 1 2 zeros false) found).map (fun e => match e.1 with | .ok (_, false) => true | _ => false) == some true,
      (steps (lookupOrAllocate 1 2 zeros false) taken).map (fun e => match e.1 with | .error .indices => true | _ => false) == some true,
      (steps (wxName 4 (nameOf hash 0)) zoned).isSome]) = true := by decide +kernel

/-- TaskLives: a task that yields is saved, where another is ready and a frame is free. -/
theorem witness_yield : met (
    let s := onCore { pooled with launches := [(1029, { launch with words := goodRecord })] } 0 fun q => { q with
      shadows := [⟨newTask 1029 launch 0 [] Slot.reset, none, none, none, [], none, 0, []⟩] }
    [match (do
        retire .seq
        let _ ← saveSlot 0 0 none false
        return Flow.gone) s with
      | .ok .gone t => decide (t.cur = s.cur) && (coreAt t 0).chain.isNone
      | _ => false]) = true := by decide +kernel

/-! ### Traps, chains, translation, pairs and supersteps -/

/-- TrapsTaken: a user slot in and out of its handler, a supervisor in and out of it, a delivery, an activation. -/
theorem witness_traps : met (
    let d : Delivery := ⟨1, ⟨0x8000000000000010, 0x100, 5, 0, 0, 0⟩⟩
    let inside := onSlot super 0 3 fun v => { v with trap := { v.trap with cause := 0x8000000000000010 } }
    let waiting := onCore super 0 fun q => { q with deliveries := [d] }
    let serving := onSlot (onCore inside 0 fun q => { q with activation := some 1 }) 0 1 fun v => { v with wait := some .delivery }
    [modeOf 0 0 == .user, modeOf 0 3 == .supervisor, modeOf 65536 3 == .firmware, userClass 0x10, !userClass 0x04,
      inHandler (here handler), !inHandler (here bench), inHandler (here inside), !inHandler (here super),
      (coreAt super 0).deliveries.isEmpty, (coreAt waiting 0).deliveries.head? == some d, (here waiting).live,
      !(coreAt waiting 0).halted, (here waiting).wait == none, plain .eret inside, plain .eret handler, plain .eret bench,
      (coreAt inside 0).activation == none, (coreAt serving 0).activation == some 1, (slotAt serving 0 1).wait == some .delivery,
      calm serving, inside.cur.2 == 3, handler.cur.2 != 3]) = true := by decide +kernel

/-- TrapsOnPurpose: an instruction above its mode, and a hint that an instruction does not accept. -/
theorem witness_purpose : met (
    let s := onSlot bench 0 0 fun v => { v with hints := [.hintSat] }
    [plain (.trap 5) bench, (here bench).hints.all (accepts (.tlbq 3 9)), decide ((modeOf 0 0).level < (privilege (.tlbq 3 9)).level),
      (here s).hints.find? (fun h => !accepts (.add .i8 3 1 2) h) == some .hintSat, (Instr.add .i8 3 1 2).coded,
      !isHint (.add .i8 3 1 2), (coreAt s 0).chain.isNone, (coreAt s 0).pair.isNone]) = true := by decide +kernel

/-- SystemRegisters: each mode, a number that is none, values that are allowed and not, a threshold core. -/
theorem witness_system : met [plain (.mfs 3 0x10) bench, plain (.mts 0x10 9) super, plain (.mfs 3 0x41) firm, !isThreshold 0,
    isThreshold 65536, !sysNumbers.contains 0x999, bankedReg (modeOf 0 0) 0x999 == none, bankedReg (modeOf 0 0) 0x121 == none,
    modeOf super.cur.1 super.cur.2 == .supervisor, placeNumbers.contains 3, (here bench).launch == some 5,
    (xOf (here bench) 8).toNat % 8 < 5, decide (5 ≤ (xOf (here bench) 1).toNat % 8), (xOf (here bench) 8).toNat % 4 == 0,
    (xOf (here bench) 1).toNat % 4 != 0, modeOf firm.cur.1 firm.cur.2 != .user] = true := by decide +kernel

/-- WaitsAndKicks: an event that is pending and none; a wait at its limit; a header that can be kicked, and one that cannot. -/
theorem witness_waits : met (
    let w := fun (n : Option Nat) => onSlot bench 0 1 fun v => { v with live := true, wait := some (.event 5 n) }
    let pend := onContext bench 1 fun x => { x with mapAck := 1 }
    let gang := { bench with launches := [(1029, { launch with words := record.set 9 1, mode := 1, seq := 4 })] }
    [!eventPending bench 0 0, eventPending pend 0 0, plain (.wait 5) bench, plain (.wait 5) super, plain (.wait 5) firm,
      (slotAt (w (some 0)) 0 1).wait == some (.event 5 (some 0)), (slotAt (w none) 0 1).wait != some (.event 5 (some 0)),
      (xOf (here bench) 6).toNat % 64 == 0, (xOf (here bench) 1).toNat % 64 != 0, (steps (kickPlace 0x20000) bench).isSome,
      released bench .hall, recoverable bench (here bench) == none, (recoverable gang (here gang)).isSome,
      (steps (kickPlace 0x20000) gang).isSome, (steps (emit (.kick 0 1 0x20000 3)) gang).isSome]) = true := by decide +kernel

/-- Chains: ranges that are good and not; others that have joined, that differ and that have not come; a chain's leader. -/
theorem witness_chains : met (
    let s := onSlot bench 0 0 fun v => { v with x := v.x.set 5 0x20 }
    let e := (chainCores 0 0 2).getD 1 0
    let mate := fun (first : Nat) => onSlot s e 0 fun v => { v with live := true, ctx := 1, launch := some 5, wait := some (.join 5 first 2) }
    let led := onCore s 0 fun q => { q with chain := some ⟨0, 0, 0, 2, [], false⟩ }
    [(xOf (here s) 5).toNat % 16 == 0, (xOf (here s) 5).toNat / 16 % 32 == 2, snakePos 0 == 0, e != 0, chainCores 0 0 2 == [0, e],
      (slotAt s e 0).wait == none, (slotAt (mate 1) e 0).wait == some (.join 5 1 2), (slotAt (mate 0) e 0).wait == some (.join 5 0 2),
      (coreAt (mate 0) e).chain.isNone, (coreAt (mate 0) e).pair.isNone, plain (.chain 5) (mate 0), plain .unchain s,
      (coreAt led 0).chain == some ⟨0, 0, 0, 2, [], false⟩, (here led).hints.isEmpty, (here led).bad.isEmpty,
      ((xOf (here s) 1).toNat / 16 % 32 == 0)]) = true := by decide +kernel

/-- MissService: a miss that still waits: a hit, its page's entry, a free entry, none; the firmware's operands, for each answer. -/
theorem witness_misses : met (
    let m : MissReq := ⟨1, 0x40000, .read, .slot 0 1⟩
    let base := onSlot bench 0 1 fun v => { v with live := true, ctx := 1, wait := some .translation }
    let h := fun (f : Hall → Hall) => onHall base 0 f
    let all : Table PendEntry := (List.range 32).map fun i => (i, ⟨2, i, []⟩)
    let own := h fun q => { q with pending := [(0, ⟨1, 4, []⟩)] }
    [stillWaits base m, !stillWaits bench m, (hallAt (h fun q => { q with tlb := [⟨1, 4, 0, 0x400, 7⟩] }) 0).tlb.any (fun e => covers e 1 4),
      ((hallAt own 0).pending.find? fun (_, e) => e.ctx == 1 && e.va == 4) == some (0, ⟨1, 4, []⟩), tfind (hallAt base 0).pending 0 == none,
      (List.range 32).all (fun i => (tfind (hallAt (h fun q => { q with pending := all }) 0).pending i).isSome),
      (hallAt base 0).overflow.isEmpty, (hallAt (h fun q => { q with overflow := [m] }) 0).overflow == [m],
      (List.finRange 4).all (fun k => waitOf (slotAt bench 0 k) == none), calm base, plain (.tlbw 5 6 7) firm, plain .replay firm]) = true := by
  decide +kernel

/-- MissService: the answers that pass and fail, and the queues of a threshold core. -/
theorem witness_answers : met (
    let w : Answer := ⟨true, 1, 0, 4, 0x400, false, 7, true⟩
    let m : MissReq := ⟨1, 0x40000, .read, .slot 0 1⟩
    let s := onHall (onSlot firm 0 1 fun v => { v with live := true, ctx := 1, wait := some .translation }) 0 fun h => { h with
      pending := [(0, ⟨1, 4, [m]⟩)], messages := [5, 6], buffer := [(1, ⟨false, false, false, 1, 4, [m]⟩)], drop := false }
    let parked := onSlot s 0 1 fun v => { v with wait := some (.page (some 1)) }
    [attrReserved 0x400, !attrReserved 7, 3 % pageUnits (attrSize 0x100) != 0, tfind (hallAt firm 0).pending 0 == none,
      (tfind (hallAt s 0).pending 0).isSome, calm (applyAnswer s 0 w), calm (applyAnswer s 0 { w with np := true }),
      (slotAt s 0 1).wait == some .translation, tfind (hallAt s 0).buffer 0 == none, (hallAt firm 0).messages.isEmpty,
      (hallAt s 0).messages.head? == some 5, ((hallAt s 0).buffer.find? fun (_, e) => !e.taken).isSome,
      ((hallAt firm 0).buffer.find? fun (_, e) => !e.taken) == none, (steps (do modify (replayHall 0); testEvents) parked).isSome,
      (slotAt parked 0 1).wait == some (.page (some 1))]) = true := by decide +kernel

/-- MaintenanceForms: a version to acknowledge; repair entries that are free, here, spent and full; a snapshot; raw places. -/
theorem witness_maintenance : met (
    let room := physicalRoom bench 0
    let repairs := fun (w : Word) (n : Nat) => { bench with repairs := (List.range n).map fun i => (i, w) }
    let word := fun (w : Word) (n i : Nat) => (repairWord (repairs w n) 0 i).toNat
    [room == some 0, plain (.mapack 5) bench, word 0 0 0 == 0, word 0x80001002 1 0 / 2 ^ 30 == 2, word 0x80001002 1 0 / 2 ^ 12 % 16 == 1,
      word 0x80001002 1 0 % 4096 == 2, (List.range 32).all fun i => word 0x80001003 32 i / 2 ^ 30 != 0, word 0x80000000 1 0 / 2 ^ 31 == 1,
      bench.shutter == none, snapExists 0, rawPlace 0xC000000000000000 room == none, rawPlace 0x100 room == some (.vault 64 256),
      rawPlace 0x1800000000000005 room == some (.spare 5), (match rawPlace (0x0800000000000000 + 33) room with | some (.xreg 1 1) => true | _ => false),
      seenOffset bench (.vault 64 256) == some 256, plain (.arrt 3 9 10) super, tsorted 0 (here super).bad]) = true := by decide +kernel

/-- Pairs: a slot that joins, others that have joined and differ, streams in use; a pair that agrees and one that does not. -/
theorem witness_pairs : met (
    let mate := fun (k : Fin 4) (ctx : Nat) => onSlot bench 1 k fun v => { v with
      live := true, ctx := ctx, launch := some 5, wait := some .pairJoin }
    let half := fun (leader : Bool) (print : BitVec 64) (retry : Nat) => ({
      slot := 0, leader := leader, agreed := 0, since := 3, retry := retry, print := print, buffer := [],
      checkpoint := here bench, clear := true, suspect := false, wrote := [], leaves := false, kept := 0, due := none, fed := [] } : Pair)
    let paired := fun (p : BitVec 64) (retry : Nat) => onCore (onCore bench 0 fun q => { q with pair := some (half true p retry) }) 1
      fun q => { q with pair := some (half false 5 retry) }
    let joins := fun (s : State) => (List.finRange 4).filter fun j => (slotAt s 1 j).wait == some .pairJoin
    [partnerOf 0 == 1, (joins bench).isEmpty, joins (mate 0 1) == [0], joins (mate 1 1) == [1], (slotAt (mate 0 2) 1 0).ctx != (here bench).ctx,
      (here (onSlot bench 0 0 fun v => { v with s := v.s.set 0 { Stream.reset with configured := true } })).s.toList.any Stream.configured,
      recoverable bench (here bench) == none, (coreAt (mate 0 1) 1).pair.isNone, (coreAt (mate 0 1) 1).chain.isNone,
      plain .pairon (mate 0 1), plain .pairon super, super.cur.2 == 3, (coreAt (paired 5 0) 0).pair.map Pair.print == some 5,
      (coreAt (paired 6 0) 0).pair.map Pair.print == some 6, (coreAt (paired 6 2) 0).pair.map Pair.retry == some 2,
      (freeFrame bench 1).isSome, freeFrame bench 2 == none, (bench.launches.all fun e => e.2.mode != 2)]) = true := by decide +kernel

/-- Supersteps: a launch in an open superstep whose one task has arrived, and not; a rollback that may go on; no superstep. -/
theorem witness_supersteps : met (
    let run : Launch := { launch with words := (record.set 9 1).set 4 1, mode := 1, seq := 4, rollbacks := 1 }
    let open_ := { bench with launches := [(1029, run)] }
    let arrived := onSlot open_ 0 0 fun v => { v with wait := some (.commit 1029 4 .bar), arrivedIn := some 4 }
    let banked := onCore open_ 0 fun q => { q with banks := [(0, here bench)] }
    [gangOf bench (here bench) == none, (gangOf open_ (here open_)).isSome, (here open_).arrivedIn == none, plain .ssbar open_,
      released open_ .house, launchAt bench (launchKey 2 5) == none, launchAt open_ 1029 == some run, !gangArrived open_ 1029 run,
      gangArrived arrived 1029 run, gangTasks arrived 1029 run == [(0, 0)], (slotAt arrived 0 0).wait == some (.commit 1029 4 .bar),
      arrived.rooms.all (fun e => e.2.hold.isEmpty && e.2.acc.isEmpty), !((gangBanks banked 1029 run).any bankFails), run.keptTasks.isEmpty,
      (launchRooms run).all (fun room => (roomAt banked room).window.isEmpty), tfind (coreAt banked 0).banks 0 != none,
      (gangSlots run).contains (0, 0)]) = true := by decide +kernel

/-! ### Starts, lobbies, laundries, the host and the keeper -/

/-- TaskStarts: a launch that may start, one that may not, one whose partitions are another; promotions; fills of a shadow slot. -/
theorem witness_starts : met (
    let fresh := { pooled with launches := [(1029, { launch with words := goodRecord, rooms := [] })] }
    let clear := (coresOf 0).foldl (fun s c => onCore s c fun q => { q with partition := 480, slots := Vector.replicate 4 Slot.reset, owner := none })
      fresh
    let r := (launchAt clear 1029).getD launch
    let waiting := onSlot bench 0 1 fun v => { v with live := true, ctx := 1, launch := some 5, wait := some .promotion }
    let q : Latch := ⟨true, .aadd .i64 3 6 1, 0x20000, .mem 0 0x2000000, 0, 7, 0⟩
    let h : Shadow := ⟨{ Slot.reset with live := true, ctx := 1, launch := some 5 }, none, none, none, [], none, 0, []⟩
    let shadowed := onSlot (onCore bench 0 fun q => { q with shadows := [h] }) 0 1 fun v => { v with ctx := 1, launch := some 5 }
    let task : SavedTask := ⟨h.task, none, none, none, 0, some 0, none, false⟩
    let saved := onContext pooled 1 fun x => { x with saved := [task] }
    let moved := onCore (onHall pooled 0 fun h => { h with migrants := [{ task with frame := none }] }) 0 fun q => { q with
      stages := [(1029, 0)] }
    let queued := onCore (onQueue (withDwords { pooled with launches := [(1029, { launch with words := goodRecord })] } 0x400F000
      [0x500000001]) 0 1029 0 fun q => { q with count := 1 }) 0 fun q => { q with stages := [(1029, 0)] }
    [launchAt bench (launchKey 2 5) == none, (launchRooms r).contains 0, !r.rooms.contains 0, !(contextAt clear 1).switchedOut,
      (physicalRoom clear 0).isSome, outranked clear 1029 r 0 == false,
      (coresOf 0).all (fun c => ownerAllows clear 1 c && (slotsFor clear r c).isSome), wrongPartition clear r 0 == [],
      wrongPartition fresh r 0 != [], recPR r == false, (coresOf 0).all (fun c => (slotsFor clear r c).map Prod.snd == some []),
      promotable bench 0 1 == none, (promotable shadowed 0 1).isSome, (slotAt waiting 0 1).wait == some .promotion,
      (slotAt waiting 0 1).latch == none, (slotAt (onSlot waiting 0 1 fun v => { v with latch := some q }) 0 1).latch == some q,
      (coreAt saved 0).shadows.isEmpty, readySaved saved 0 == some task, readySaved bench 0 == none, (readyMigrant moved 0).isSome,
      readySaved moved 0 == none, (chooseQueue queued 0).map (fun e => (e.1, e.2.2)) == some (1029, 0),
      (match headEntry 0 1029 ((launchAt queued 1029).getD launch) 0 queued with | .ok l _ => l.take 2 == [1, 5] | _ => false),
      (match readFrame 1 0 0 { saved with poison := [0x5000000] } with | .ok (code, _) _ => code != 0 | _ => false), stageWarms r 0 == false]) = true := by decide +kernel

/-- The pool with any memory. -/
def poolWith (m : List Host.Cell) : State := { pooled with mem := m }

/-- What the foundation reads of frame 0 of the context, whatever memory holds. -/
theorem frame_read (m : List Host.Cell) : engineRead 0 1 0x200000 4096 (poolWith m) =
    .ok (memBytes m 0x5000000 4096, false) (poolWith m) := by
  have hc : ∀ e ∈ pooled.cores, e.2.mappings = [] := by decide +kernel
  have hm : ∀ e ∈ pooled.rooms, e.2.acc = [] := by decide +kernel
  have hu : Uncopied (poolWith m) := ⟨hc, hm, rfl⟩
  have hp := peek_uncopied (poolWith m) 0x200000 0 0x5000000 4096 none hu
  have hq : poisonIn (poolWith m) (memKey 0 0x5000000) 4096 = none := by
    rw [poisonIn, List.find?_eq_none]
    intro a _
    show ¬ ([] : List Nat).contains a = true
    simp
  rw [hq] at hp
  have hl : locateFor 0 0 1 .foundation 0x200000 .read .plain (poolWith m) = .ok (.mem 0 0x5000000) (poolWith m) := rfl
  have hg : granules (4096 / 16384 + 2) 0x200000 4096 = [(0x200000, 4096)] := by decide
  have hr : readParts 0 1 [(0x200000, 4096)] (poolWith m) = .ok (memBytes m 0x5000000 4096, false) (poolWith m) := by
    unfold readParts
    rw [bind_ok hl, bind_ok hp]
    show EStateM.Result.ok (_ ++ [], _) _ = _
    rw [List.append_nil]
    rfl
  unfold engineRead asEngine
  rw [hg, hr]

/-- What the digest check of a frame answers for the bytes it reads. -/
theorem readFrame_of {ctx hall frame : Nat} {s t : State} {bs : List Byte} {bad : Bool}
    (h : engineRead hall ctx (frameAddress s ctx frame) 4096 s = .ok (bs, bad) t) : readFrame ctx hall frame s =
      .ok (if bad then 2 else if sha512 (bs.take 4032) = bs.drop 4032 then 0 else 1, bs) t := by
  show (engineRead hall ctx (frameAddress s ctx frame) 4096 >>= _) s = _
  rw [bind_ok h]
  rfl

/-- TaskStarts: a saved task whose frame keeps its digest. -/
theorem witness_frame (body : List Byte) (h : body.length = 4032) :
    readFrame 1 0 0 (poolWith (memWrite [] 0x5000000 (body ++ sha512 body))) =
      .ok (0, body ++ sha512 body) (poolWith (memWrite [] 0x5000000 (body ++ sha512 body))) := by
  have hl : (sha512 body).length = 64 := by simp [sha512, bytesOfNat]
  have hr := memBytes_memWrite (body ++ sha512 body) [] 0x5000000 rfl
  simp only [List.length_append, h, hl] at hr
  have hf := frame_read (memWrite [] 0x5000000 (body ++ sha512 body))
  rw [hr] at hf
  have hb : sha512 ((body ++ sha512 body).take 4032) = (body ++ sha512 body).drop 4032 := by
    rw [← h, List.take_left, List.drop_left]
  rw [readFrame_of (s := poolWith (memWrite [] 0x5000000 (body ++ sha512 body))) hf]
  simp [hb]

/-- A launch with one stage that no core serves and one that is served; entries wait in its queue. -/
def lobby : State :=
  onCore (onQueue { pooled with launches := [(1029, { launch with words := goodRecord })] } 0 1029 0 fun q => { q with count := 8 }) 0
    fun q => { q with stages := [(1029, 1)] }

/-- LobbyWork: demands that differ by much and by little; tasks that may move, that wait for a page and that do not; a partition. -/
theorem witness_lobby : met (
    let r := (launchAt lobby 1029).getD launch
    let ds := (declaredStages r).map fun st => (st, demandOf lobby 0 1029 r st)
    let even := onQueue lobby 0 1029 0 fun q => { q with count := 0 }
    let es := (declaredStages r).map fun st => (st, demandOf even 0 1029 r st)
    let far := onContext (onSlot { pooled with
        launches := [(1029, { launch with words := (goodRecord.set 2 0x200000).set 24 0x1B0010 })]
        contextTable := tput pooled.contextTable 12 1 } 0 0 fun v => { v with remoteHall := 1, remoteCount := 1 }) 1 id
    let missed := onSlot pooled 0 0 fun v => { v with wait := some (.page none) }
    let fewer := { pooled with contextTable := tput pooled.contextTable 10 0 }
    let waits := { pooled with launches := [(1029, { launch with words := goodRecord.set 3 0x10000000000, rooms := [] })] }
    [lobby.launches.length == 1, (launchHalls r).contains 0, !(launchHalls r).contains 1, extreme (fun a b => fracLess b a) ds == some (0, (8, 16)),
      extreme fracLess ds == some (1, (0, 16)), (servingCores lobby 0 1029 1).getLast? == some 0, decide (16 * 16 < 4 * (8 * 16 - 0 * 16)),
      (queueAt lobby 0 1029 1).count == 0, extreme fracLess es == some (0, (0, 16)), extreme (fun a b => fracLess b a) es == some (0, (0, 16)),
      (servingCores (onCore even 0 fun q => { q with stages := [(1029, 0)] }) 0 1029 0).getLast? == some 0,
      (here far).live, migratable far (here far), mayMigrate far 0 0 1, (here far).held.isEmpty, transferOf far 0 0 == none,
      (here missed).wait == some (.page none), (here missed).live, (match saveSlot 0 0 (some (.page none)) false fewer with | .ok b _ => !b | _ => false),
      ctxFrames fewer 1 == 0, partitionWanted waits 0 256, (coreAt waits 0).partition == 480, !largerRequest waits 0 256,
      (coreAt waits 0).mappings.isEmpty, !partitionWanted pooled 0 256, (List.range 32).all (fun i => repairWord waits 0 i == 0),
      tsorted 0 waits.vault, ctxMthr far 1 == 1, (here far).remoteHall == 1, decide (ctxMthr far 1 ≤ (here far).remoteCount)]) = true := by decide +kernel

/-- LobbyWork: nodes of the chimney with all their reports, and not; a launch that is quiescent; entries of the landing. -/
theorem witness_chimney : met (
    let rep : Report := ⟨1, 0, 5, 1⟩
    let key := 2 ^ 20 * Tier.hall.code + 0
    let top := 2 ^ 20 * Tier.house.code + 0
    let s := { pooled with launches := [(1029, { launch with words := goodRecord, chimney := [(key, [(0, rep)]), (top, [(0, rep)])] })] }
    let r := (launchAt s 1029).getD launch
    let still := onSlot s 0 0 fun v => { v with live := false }
    let e : LandingEntry := ⟨1029, 1, [0xFFFF]⟩
    let landed := onHall s 0 fun h => { h with landing := [e] }
    [launchAt bench (launchKey 2 5) == none, decide (childrenOf r .hall 0 ≤ 1), decide (childrenOf r .house 0 ≤ 1), r.sent.isEmpty,
      decide (0 < childrenOf r .core 0), (tget [] r.chimney (2 ^ 20 * Tier.core.code)).isEmpty, recWord r 8 == 0, tsorted 0 s.launches,
      !quiescent s 1029 r, quiescent still 1029 r, landable s 0 (hallAt s 0).landing == none,
      (landable landed 0 (hallAt landed 0).landing).map (fun e => e.1) == some e,
      match storeEntry 0 1029 r 1 [0xFFFF] landed with | .ok _ t => calm t | _ => false,
      match completeLaunch 1029 { r with words := r.words.set 8 0x10E100 } rep s with | .ok _ t => calm t | _ => false]) = true := by
  decide +kernel

/-- A ring of the laundry that serves a request of one f32 element from 0x200000 to 0x200100. -/
def serving (op : Nat) : LaundryRing :=
  ⟨0x10E200, 1, 0x10E300, 2, 0, 0x10E400, 0x10E500, 4, 5, false, [BitVec.ofNat 64 (op * 2 ^ 58 + 9 * 2 ^ 54 + 9 * 2 ^ 50), 0x200000, 0x200100, 0, 0, 2 ^ 34, 0, 2 ^ 34],
    0, 0, 0, false, false, []⟩

/-- The pool with a ring in hall 0's laundry. -/
def washing (r : LaundryRing) : State := onHall pooled 0 fun h => { h with rings := [r] }

/-- Laundries: rings that are idle, that serve, that have ended; kicks that are stale, too far ahead and valid. -/
theorem witness_laundry : met (
    let r := serving 1
    let ended := { r with ended := true }
    let kick := fun (p : BitVec 32) => (⟨r.header, 1, p, none⟩ : Kick)
    let kicked := onHall (washing r) 0 fun h => { h with kicks := [kick 6] }
    let ok := fun {α : Type} (m : M α) (s : State) => match m s with | .ok _ t => calm t | .error _ _ => false
    let ready := washing { r with req := [], cons := 4, p := 6 }
    [((hallAt pooled 0).rings.filter LaundryRing.ended).isEmpty, ((hallAt pooled 0).kicks.filter (acceptable pooled 0)).isEmpty,
      (ringOrder pooled 0).isEmpty, ((hallAt (washing ended) 0).rings.filter LaundryRing.ended) == [ended], ok (finishRequest 0 ended) (washing ended),
      ((hallAt kicked 0).kicks.filter (acceptable kicked 0)).head? == some (kick 6), ok (acceptKick 0 (kick 6)) kicked,
      ((ringOrder ready 0).map LaundryRing.header) == [r.header], (ringOrder ready 0).all (fun q => ok (takeRequest 0 q) ready),
      laundryRing (washing r) 0 (ringKey 1 r.header) == some r, decide (2 ^ 31 ≤ ((3 : BitVec 32) - r.cons).toNat),
      decide (2 ^ r.lc < ((9 : BitVec 32) - r.cons).toNat), decide (((8 : BitVec 32) - r.cons).toNat ≤ 2 ^ r.lc), ok (writeOverrun 0 r true) (washing r),
      ok (writeOverrun 0 r false) (washing r), ({ r with p := 4 } : LaundryRing).cons == 4]) = true := by decide +kernel

/-- Laundries: requests of each operation, elements to do and none, pages that a request may change and not. -/
theorem witness_requests : met (
    let r := serving 1
    let ok := fun {α : Type} (m : M α) (s : State) => match m s with | .ok _ t => calm t | .error _ _ => false
    let lost := washing { r with req := r.req.set 1 0x800000 }
    let page : TlbEntry := ⟨1, 32, 0, 0x500, 7⟩
    let pages := onHall pooled 0 fun h => { h with tlb := [page, ⟨1, 16, 0, 0x400, 7⟩, ⟨1, 48, 0, 0x300, 0x27⟩] }
    let found := fun (a : XWord) => (hallAt pages 0).tlb.find? fun e => covers e 1 (pageOf a)
    [laundryRing pooled 0 r.key == none, laundryRing (washing r) 0 r.key == some r, ([1, 2, 3, 4, 5, 6, 7, 8, 9] : List Nat).all (fun op => reqOp (serving op) == op),
      ok (runRequest 0 r.key (.copy 0 r.key) 3) (washing r), reqTotal r == 1,
      (match requestStep 0 r 0 (washing r) with | .ok (.wrote 1 0 false) _ => true | _ => false),
      (match requestStep 0 { r with req := r.req.set 1 0xFFFD000000000000 } 0 (washing r) with | .ok (.ends _) _ => true | _ => false),
      (match requestStep 0 { r with req := r.req.set 1 0x800000 } 0 lost with | .error (.engine 0 none _) _ => true | _ => false),
      (match reachElement 0 r .read 0x200000 4 (washing r) with | .ok (.ok ps) t => ok (peekParts ps) t | _ => false),
      padSource (serving 4) 0 == some [0, 0, 0, 0], found 0x200000 == some page, !pages.krBusy, isCanonical 0x200000, !isVaultAddr 0x200000,
      page.size == 0 && spaceOf (pageStart page) == .dram && !attrSL page.attr && attrClass page.attr != 2, attrSL 0x27,
      isVaultAddr 0xFFFD000000000000, exchangeable { page with attr := 0x87 } ⟨1, 16, 0, 0x100000000, 0x87⟩,
      !exchangeable page ⟨1, 16, 0, 0x400, 7⟩, decide (pageStart page + pageBytes page ≤ 2 ^ 52), decide (0 < pageBytes page), Memory.wf pages.mem]) = true := by
  decide +kernel

/-- Foundation: contexts and regions that are live, valid, running and not; rings, doorbells and entries of each kind. -/
theorem witness_foundation : met (
    let blank := State.reset
    let valid := { blank with contextTable := [(8, 0x100000), (9, 0x200000), (10, 0x500000004), (11, 0x100000)] }
    let idle := { pooled with launches := [] }
    let region := fun (v : XWord) => { pooled with regionTable := [(16, v), (17, 0x200000), (18, 0x800000), (19, 0x500000008), (22, 1)] }
    let ring : SubRing := ⟨0x100000, 0x200000, 1, 3, true, false, true, 2, 2, 0, 0, none⟩
    let s := fun (op : XWord) => withDwords { pooled with subRings := [(0, ring)], bootStep := 7 } 0x100000 [op, 0, 0, 0, 0, 0, 0, 0]
    let e := fun (op : XWord) => readEntryAt (s op) ring
    [contextLive pooled 1, !contextLive blank 1, descriptorValid blank 1 == false, descriptorValid valid 1, contextLive valid 1 == false,
      pooled.launches.any (fun e => e.1 / 1024 == 1 && !e.2.rooms.isEmpty), idle.launches.isEmpty, (contextAt idle 1).saved.isEmpty,
      tsorted 0 idle.contextTable, !regionDeclared pooled 2, regionDeclared zoned 2, regionValid (region 0x400000) 2, regionValid (region 0x400001) 2 == false,
      regionCtx zoned 2 == 1, tsorted 0 zoned.indexes, ringAt (s 0) 0 == ring, ((1 : XWord) < ring.w), decide (2 ^ ring.lc < ((9 : XWord) - ring.r).toNat),
      decide (((3 : XWord) - ring.r).toNat ≤ 2 ^ ring.lc), tsorted 0 (s 0).subRings, served pooled ring == false, served (s 1) ring,
      (e 0).valid == false, ([1, 2, 3, 4] : List XWord).all (fun op => (e op).valid && (e op).op == op.toNat), (contextAt pooled 1).suspended == none,
      contextLive (s 1) ring.ctx, (match armRecord 1 0 (s 1) with | .ok code t => code == 1 || code == 3 || calm t | _ => false)]) = true := by decide +kernel

/-- Foundation: a context that is saved and restored, and one that the map has suspended. -/
theorem witness_saves : met (
    let idle := { State.reset with contextTable := [(8, 0x100000), (9, 0x200000), (10, 0x500000004), (13, 1)] }
    let out := onContext idle 1 fun x => { x with switchedOut := true }
    let held := onContext out 1 fun x => { x with suspended := some 1 }
    let ok := fun (m : M Unit) (s : State) => match m s with | .ok _ t => calm t | .error _ _ => false
    [ok (saveContext 1) idle, ok (restoreContext 1) out, contextLive idle 1, !(contextAt idle 1).switchedOut, (contextAt out 1).switchedOut,
      (contextAt held 1).suspended == some 1, decide (mapVersion held ≤ 1), ok (restoreContext 1) (onContext held 1 fun x => { x with
        mapAck := 1, suspended := none })]) = true := by decide +kernel

/-- HostPort: messages of each kind, keys in use and free, the event ring off, with room and full. -/
theorem witness_host : met (
    let ring := fun (een : Bool) (eh : XWord) => ({ State.reset with
      eventRing := { EventRing.reset with een := een, elc := 1, eh := eh, ebase := 0x100000 } } : State)
    let kind := fun (w : XWord) => w.toNat / 2 ^ 60
    [kind 0x2000000000000000 == 2, kind 0x3000000000000000 == 3, kind 0 != 2, (0x2000010000000000 : XWord).toNat / 2 ^ 40 % 2 ^ 8 != 0,
      (0x2000000000000000 : XWord).toNat / 2 ^ 40 % 2 ^ 8 == 0, (0x200 : XWord).toNat / 2 ^ 9 != 0, !(0xFF : XWord).getLsbD 8,
      keyInUse pooled 5, keyInUse pooled 6 == false, !pooled.krBusy, ({ pooled with krBusy := true } : State).krBusy, State.reset.cores.isEmpty,
      State.reset.rooms.isEmpty, State.reset.homeParts.isEmpty, State.reset.launches.isEmpty, !(ring false 0).eventRing.een, (ring true 1).eventRing.een,
      decide (((ring true 1).eventRing.eh - (ring true 1).eventRing.et).toNat < 2 ^ 1), decide (2 ^ 1 ≤ ((ring true 2).eventRing.eh - (ring true 2).eventRing.et).toNat),
      3 % 8 != 0]) = true := by decide +kernel

/-- Keeper: units withdrawn and not, a deadline that passes, wings over and under their share, start-up inputs, estate arrivals. -/
theorem witness_keeper : met (
    let u : DeviceUnit := .room 3
    let gone := { State.reset with withdrawn := [u] }
    let late := { pooled with deadlines := [(1, 5)], time := 7 }
    let two := { pooled with launches := [(1029, { launch with estate := [0, 1] })] }
    [!gone.changes.contains (.withdraw u), gone.withdrawn.contains u, !State.reset.withdrawn.contains u, mapVersion State.reset == 0,
      late.deadlines.any (fun e => e.1 == 1 && decide (e.2 ≤ late.time)), !(pooled.deadlines.any fun e => e.1 == 1 && decide (e.2 ≤ pooled.time)),
      liveContexts pooled == [1], (contextAt pooled 1).suspended == none, launchAt two 1029 != none, decide (2 ≤ ((launchAt two 1029).getD launch).estate.length),
      ((launchAt two 1029).getD launch).estate.all (fun h => decide (two.house ≤ h)), ((launchAt two 1029).getD launch).estate.contains 1,
      decide (launch.estate.length < 2), launchAt two (launchKey 1 6) == none]) = true := by decide +kernel

/-- A house at version 1 whose keeper has a repair to publish. -/
def keeping : State := { State.reset with changes := [.repair 5 2], map := [(0, 1)] }

/-- Keeper: every room and hall of that house is placed and live. -/
theorem witness_halls : (List.range 256).all (fun h => (physicalHall keeping h).any (hallLive keeping) && hallLive keeping h) = true := by
  decide +kernel

theorem witness_rooms (r : Nat) (h : r < 4096) : ∃ p, physicalRoom keeping r = some p ∧ roomLive keeping p = true := by
  have hl : hallLive keeping (r / 16) = true := by
    have := List.all_eq_true.mp witness_halls (r / 16) (List.mem_range.mpr (by omega))
    simp only [Bool.and_eq_true] at this
    exact this.2
  have h1 : mapWord keeping 1 r = 0xFFFF := by
    have : ¬ 0 = 16777216 + r := by omega
    simp [mapWord, mapWords, h, keeping, tget, tfind, mapDefault, this]
  have h2 : mapWord keeping 2 r = BitVec.ofNat 64 (2 ^ 62 + r) := by
    have : ¬ 0 = 33554432 + r := by omega
    simp [mapWord, mapWords, h, keeping, tget, tfind, mapDefault, this]
  have hn : (BitVec.ofNat 64 (2 ^ 62 + r)).toNat = 2 ^ 62 + r := by
    rw [BitVec.toNat_ofNat]
    omega
  refine ⟨r, ?_, ?_⟩
  · have hm : (BitVec.ofNat 64 (2 ^ 62 + r)).msb = false := by
      rw [BitVec.msb_eq_decide, hn]
      simp
      omega
    simp only [physicalRoom, h2, hm, hn]
    simp
    omega
  · simp [roomLive, h1, hl]
    simp [keeping, State.reset]

/-- Keeper: a publication that goes through, and an arrival from another house. -/
theorem witness_published : met (
    let ok := fun {α : Type} (m : M α) (s : State) => match m s with | .ok _ t => calm t | .error _ _ => false
    [mapVersion keeping != 0, mapVersion keeping != BitVec.allOnes 32, keeping.changes == [.repair 5 2], keeping.cores.isEmpty,
      ok mapPublicationAct { keeping with map := [(0, 0xFFFFFFFF)] },
      (match arriveAt 1029 (barrierKey .estate 0 0) none none none
        { pooled with launches := [(1029, { launch with estate := [0, 1] })] } with | .ok _ t => calm t | _ => false)]) = true := by decide +kernel

/-- MemoryInvariant and RoundTrip: memory at reset is in its form, and a well-formed instruction is coded. -/
theorem witness_forms : met [Memory.wf State.reset.mem, Memory.wf armable.mem, (Instr.add .i8 3 1 2).coded, (Instr.add .i8 3 1 2).wf,
    reads (encode (.add .i8 3 1 2)) (.add .i8 3 1 2)] = true := by decide +kernel

/-! ### Completion statements -/

/-- ReductionsComplete and ReductionTree: integers, floats without an enabled flag, eight leaves. -/
theorem witness_reductions : met [plain (.vreda .i32 3 1) bench, plain (.vdot .f32 3 1 1) bench, boundTo (here bench) 1 == none,
    orFlags (reduceTree (fAdd (fmtOf .f32) 0) (elems .f32 ((here bench).w.get 1))).2 &&& enabledOf (here bench) == 0,
    (elems .f32 ((here bench).w.get 1)).length == 2 ^ (2 + 1)] = true := by decide +kernel

/-- BarriersComplete: barriers 0 and 1 of the room, of three participants, the second with a phase done that the slot has not seen. -/
theorem witness_arrivals : met (
    let b : Barrier := { Barrier.reset with config := 3 }
    let s := { bench with launches := [(1029, { launch with barriers := [(134217728, b), (134217729, { b with done := 1 })] })] }
    let r := (launchAt s 1029).getD launch
    [launchOf (here s) == some 1029, (launchAt s 1029).isSome, (barrierAt r (barrierKey .room 0 0)).arrived == 0,
      barrierReserved ((xOf (here s) 1).setWidth 32) == false, plain (.binit .room 0 1) s, plain (.barrw 3 .room 1 1) s,
      (barrierAt r (barrierKey .room 0 1)).done != tget 0 (here s).seen (seenIndex .room 1), b.slots.contains 0 == false,
      decide (b.arrived + 1 < b.config.toNat % 2 ^ 18), nextIs (exec (.barrw 3 .room 1 1) s) fun t =>
        (here t).retired == 1 && xOf (here t) 3 == 0 && tget 0 (here t).seen (seenIndex .room 1) == 1]) = true := by decide +kernel

/-- CommandsComplete: each command in an empty window. -/
theorem witness_accepted : met (
    [launchOf (here bench) == some 1029, (launchAt bench 1029) == some launch, (here bench).hints.isEmpty, (roomAt bench 0).window.isEmpty,
      (barrierAt launch (barrierKey .room 0 0)).config.toNat % 2 ^ 18 != 0, (xOf (here bench) 3).toNat % 16 == 0] ++
    ([.hmm 4 5 6 7 7, .hadd 4 5 6 7 4, .hmv 4 5 6 7 0, .hcvt 4 5 6 .f32 true] : List Instr).map (fun i => plain i bench &&
      nextIs (exec i bench) fun t => xOf (here t) 4 == 1 && ((roomAt t 0).window.map fun q => (q.id, q.instr)) == [(1, i)])) = true := by
  decide +kernel

/-- ControlComplete: a slot without a tree; a stopped command that is alone; one that has been dropped. -/
theorem witness_dropped : met (
    let q := { command with state := .stopped, code := 0x21 }
    let gone := onRoom (windowed []) 0 fun r => { r with left := [⟨1, 1029, .dropped, 0, 0, false, 8⟩] }
    [tKind (tensorAt bench 0 1 5) != 1, plain (.hsnap 3 5 5) bench, (roomAt (windowed [q]) 0).window == [q], q.preds.isEmpty,
      (xOf (here (windowed [q])) 9).toNat % 2 ^ 16 == 1, plain (.hdrop 9) (windowed [q]), (roomAt gone 0).window.isEmpty,
      nextIs (exec (.hdrop 9) (windowed [q])) fun t => (roomAt t 0).window.isEmpty && ((roomAt t 0).left.map CommandStatus.how == [.dropped]),
      nextIs (exec (.hqry 4 9) gone) fun t => xOf (here t) 4 == statusOf 1 6 0 0 false 8,
      nextIs (exec (.hsnap 3 5 5) bench) fun t => xOf (here t) 5 == BitVec.ofNat 64 (2 ^ 63)]) = true := by decide +kernel

/-- The sealed region with nothing in it and one line for objects; x8 and x9 name one line of zeros in the scratchpad. -/
def vacant : State := onHall (onSlot { zoned with indexes := [], regionTable := [(16, 0x30000), (17, 0x80), (18, 0x40000), (19, 8), (21, 1), (22, 1)] }
  0 0 fun v => { v with x := (v.x.set 8 0xFFFD000000000100).set 9 0x20001 }) (homeLarder (hashOf zoned 2 (List.replicate 128 0))) fun h => { h with
  tlb := [⟨1, 3, 0, 0x300, 0x27⟩] }

/-- SealedComplete: one line of zeros in the scratchpad, which no object of the region holds. -/
theorem witness_stored : met (
    let zeros : List Byte := List.replicate 128 0
    let hash := hashOf vacant 2 zeros
    [inOneScratchpad vacant 0xFFFD000000000100 128, regionDeclared vacant 2, regionCtx vacant 2 == 1,
      (steps (loadBytes 0xFFFD000000000100 128) vacant).map Prod.fst == some zeros, hash != 0, (indexOf vacant 2).isEmpty, isNode zeros == false,
      shardFull vacant 2 hash == false, (steps (writeLines (larderFind 1 (homeLarder hash)) (homeLarder hash / 16) (lineAddress vacant 2 0) 1 zeros) vacant).isSome,
      plain (.slook 4 8 9) vacant, plain (.shash 4 8 9) vacant]) = true := by decide +kernel

/-- The larder has one place to choose there. -/
theorem witness_placed : placeObject vacant 2 1 = some 0 := by
  have hi : indexOf vacant 2 = [] := by decide +kernel
  have hl : regionLen vacant 2 / 128 = 1 := by decide +kernel
  have hc : lineChoices [] = [0] := by decide
  have ht : linesTaken [] 0 1 = false := by decide
  unfold placeObject
  simp only [hi, hl]
  split
  · rename_i h
    simp only [Bool.and_eq_true, decide_eq_true_eq] at h
    congr 1
    omega
  · simp [hc, ht]

/-- TasksComplete: a task that ends, one that leaves the launch, one that goes to another hall. -/
theorem witness_ends : met (
    let s := { pooled with launches := [(1029, { launch with words := goodRecord })] }
    let far := onSlot { s with launches := [(1029, { launch with words := (goodRecord.set 2 0x200000).set 24 0x1B0010 })] } 0 0 fun v => { v with
      x := v.x.set 1 1 }
    let w := onSlot far 0 0 fun v => { v with remoteCount := 0, remoteHall := 0, remoteOff := false }
    [launchOf (here s) == some 1029, (launchAt s 1029).isSome, gangOf s (here s) == none, (here s).held.isEmpty, transferOf s 0 0 == none,
      (coreAt s 0).mappings.isEmpty, plain .tend s, booting s 0 0 == false, (coreAt s 0).shadows.isEmpty, plain (.done 1) s,
      migratable w (here w), commandsOf far 0 0 == [], servesKicks far 0 0 == false, plain (.migr 1) far, mayMigrate w 0 0 1,
      nextIs (exec (.migr 1) far) fun t => !(here t).live && (hallAt t 1).migrants.length == 1,
      nextIs (exec .tend s) fun t => !(here t).live && (here t).launch == some 5,
      nextIs (exec (.done 1) s) fun t => !(here t).live && (here t).launch == none && (launchAt t 1029).isSome]) = true := by decide +kernel

/-- SwitchesComplete: entries that save a context without rooms, and that bring one back. -/
theorem witness_switches : met (
    let ring : SubRing := ⟨0x100000, 0x200000, 1, 3, true, false, true, 2, 2, 0, 0, none⟩
    let s := fun (op : XWord) => withDwords { pooled with subRings := [(0, ring)], bootStep := 7, launches := [] } 0x100000 [op, 0, 0, 0, 0, 0, 0, 0]
    let out := onContext (s 3) 1 fun x => { x with switchedOut := true }
    [tsorted 0 out.subRings, served (s 2) ring, (readEntryAt (s 2) ring).valid, (readEntryAt (s 2) ring).op == 2, contextLive (s 2) 1,
      !(contextAt (s 2) 1).switchedOut, contextRooms (s 2) 1 == [], (s 2).halls.all (fun e => e.2.rings.isEmpty),
      served out ring, (readEntryAt out ring).op == 3, (contextAt out 1).suspended == none, (contextAt out 1).images.isEmpty,
      !(contextDword out 1 7).msb, nextIs (exec (.submitSave 0) (s 2)) fun t => (contextAt t 1).switchedOut && (ringAt t 0).c == 1,
      nextIs (exec (.submitRestore 0) out) fun t => !(contextAt t 1).switchedOut && (ringAt t 0).c == 1]) = true := by decide +kernel

/-- EstateArrivals: an arrival from house 1 at a barrier of two houses. -/
theorem witness_estate : met (
    let key := barrierKey .estate 0 0
    let r : Launch := { launch with estate := [0, 1], barriers := [(key, { Barrier.reset with config := 3 })] }
    let s := { pooled with launches := [(1029, r)] }
    let m : EstateArrival := ⟨1, 5, 0, 1, 2, 0, some 7, 0⟩
    [launchKey m.ctx m.record == 1029, launchAt s 1029 == some r, r.estate.all (fun h => decide (s.house ≤ h)), r.estate.contains m.house,
      decide ((barrierAt r key).arrived + 1 < (barrierAt r key).config.toNat % 2 ^ 18), (tfind (barrierAt r key).partials (4 * (65536 * 1 + 2) + 0)).isNone,
      nextIs (exec (.estateBarrierArrival m) s) fun t => (launchAt t 1029).map (fun q => (barrierAt q key).arrived) == some 1]) = true := by
  decide +kernel

/-- LaundryCompletes: a kick of an active ring, a request that has done its last element, pages to compress and to exchange. -/
theorem witness_washed : met (
    let r := serving 1
    let kicked := onHall (washing r) 0 fun h => { h with kicks := [⟨r.header, 1, 6, none⟩] }
    let last := washing { r with index := 1 }
    let page := washing { serving 7 with req := (serving 7).req.set 1 0x200000 }
    let two := onHall (washing { serving 9 with req := ((serving 9).req.set 1 0x200000).set 2 0x100000 }) 0 fun h => { h with
      tlb := [⟨1, 32, 0, 0x500, 0x87⟩, ⟨1, 16, 0, 0x100000000, 0x87⟩] }
    let done := fun (i : Instr) (s : State) => nextIs (exec i s) fun t => (hallAt t 0).rings.map LaundryRing.ended == [true]
    [((hallAt kicked 0).kicks.filter (acceptable kicked 0)).length == 1, laundryRing kicked 0 (ringKey 1 r.header) == some r,
      (match writeOverrun 0 r false kicked with | .ok _ t => laundryRing t 0 r.key == some r && calm t | _ => false),
      nextIs (exec (.laundryKickAccept 0) kicked) fun t => (hallAt t 0).rings.map LaundryRing.p == [6],
      (laundryRing last 0 r.key).isSome, reqTotal { r with index := 1 } == 1, done (.copy 0 r.key) last,
      (hallLookup page 0 1 (pageOf 0x200000)).isSome, reqOp (serving 7) == 7, done (.compress 0 r.key) page,
      (hallLookup two 0 1 (pageOf 0x100000)).isSome, exchangeable ⟨1, 32, 0, 0x500, 0x87⟩ ⟨1, 16, 0, 0x100000000, 0x87⟩,
      done (.frameExchange 0 r.key) two]) = true := by decide +kernel

/-- CommandsEnd: a walk that is complete, one that a fault stops, a posted product of an all-zero operand. -/
theorem witness_retired : met (
    let tree : List XWord := [treeHead, 0x1000000010, 0, 0, 0x30000, 0, 0, 0]
    let dress := fun (s : State) => putTensor (putTensor (putTensor s 0 1 5 tree) 0 1 6 tree) 0 1 7 tree
    let q : Command := { command with started := true, a := tree, b := tree, c := tree }
    let c : Command := { q with state := .running, result := some 0x50 }
    let s := onHall (dress (onRoom zoned 0 fun r => { r with window := [c] })) 0 fun h => { h with tlb := (hallAt pooled 0).tlb }
    let b := barrierAt launch (barrierKey .room 0 0)
    let p : Posted := ⟨0, 1029, 1, 0, 1, kidZ, kidZ, none⟩
    let out := onRoom (dress (onRoom zoned 0 fun r => { r with window := [{ q with state := .split, posted := 1 }] })) 1 fun r => { r with posted := [p] }
    [(roomAt s 0).window == [c], launchAt s 1029 == some launch, launch.mode == 0, decide (b.arrived + 1 < b.config.toNat % 2 ^ 18),
      !(commandFlags q).getLsbD 2, slotC q == 5, resultSlot c (tensorAt s 0 1 5) 0x50 != noTensor, q.preds.isEmpty,
      (match writeStair 0 1 s with | .ok _ t => (roomAt t 0).window == [c] && launchAt t 1029 == some launch && calm t | _ => false),
      nextIs (exec (.commandRetire 0) s) fun t => (roomAt t 0).window.isEmpty && tensorAt t 0 1 5 == resultSlot c (tensorAt s 0 1 5) 0x50,
      nextIs (exec (.commandStop 0 0x23) s) fun t => ((roomAt t 0).window.map fun q => (q.state, q.code)) == [(.stopped, 0x23)],
      runningOf out 1 == none, (roomAt out 1).posted.find? (fun p => p.result.isNone) == some p, (commandAt out 0 1029 1).isSome, p.left.code == 0,
      nextIs (exec (.postedProduct 1) out) fun t => (roomAt t 1).posted.all fun p => p.result == some ⟨kidZ, 0, 0⟩]) = true := by decide +kernel

/-! ### Further clauses -/

/-- TrapReturn: a supervisor's handler that waits for an event; a slot of which another delivery waits. -/
theorem witness_returns : met (
    let d : Delivery := ⟨1, ⟨0x8000000000000010, 0x100, 5, 0, 0, 0⟩⟩
    let inside := onSlot (onCore super 0 fun q => { q with deliveries := [d] }) 0 3 fun v => { v with
      trap := { v.trap with cause := 0x8000000000000010 } }
    let waits := onSlot inside 0 3 fun v => { v with wait := some (.event 5 (some 9)) }
    let again := onCore inside 0 fun q => { q with activation := some 1 }
    let user := fun (v : Slot) => { v with live := true, wait := some Wait.delivery }
    let last := onSlot (onCore inside 0 fun q => { q with activation := some 1, deliveries := [] }) 0 1 user
    [(coreAt waits 0).deliveries == [d], (slotAt waits 0 3).live, inHandler (slotAt waits 0 3), (slotAt waits 0 3).bad.isEmpty,
      nextIs (exec (.supervisorDelivery 0) waits) fun t => (slotAt t 0 3).wait == none && xOf (slotAt t 0 3) 5 == BitVec.ofNat 64 (2 ^ 62 + 9),
      plain .eret again, (coreAt again 0).activation == some 1, (coreAt again 0).deliveries.any fun e => e.slot == 1,
      plain .eret last, (slotAt last 0 1).wait == some .delivery, (coreAt last 0).deliveries.isEmpty,
      nextIs (exec .eret last) fun t => (slotAt t 0 1).wait == none && (slotAt t 0 1).delay == 3]) = true := by decide +kernel

/-- Supersteps: a slot that arrived before in a superstep that has committed since; a launch in an open superstep that can roll back. -/
theorem witness_arrived : met (
    let run : Launch := { launch with words := record.set 9 1, mode := 1, seq := 4 }
    let s := onSlot { bench with launches := [(1029, run)] } 0 0 fun v => { v with arrivedIn := some 3 }
    [gangOf s (here s) == some (1029, run), (here s).arrivedIn.any (fun q => decide (q < run.seq)), released s .house, plain .ssbar s,
      run.keptTasks.isEmpty, run.taken.isEmpty, s.cores.all fun e => e.2.pair.isNone, decide (run.rollbacks < 2),
      nextIs (exec .ssbar s) fun t => (here t).arrivedIn == none && (here t).retired == 1]) = true := by decide +kernel

/-- Pairs: a trap that waits for an agreed compare; a disagreement with what had left before the checkpoint. -/
theorem witness_due : met (
    let half := fun (leader : Bool) (print : BitVec 64) => ({
      slot := 0, leader := leader, agreed := 0, since := 3, retry := 0, print := print, buffer := [],
      checkpoint := here bench, clear := true, suspect := false, wrote := [], leaves := true, kept := 0
      due := some (0x100, 9, 0, 0), fed := [] } : Pair)
    let s := fun (p : BitVec 64) => onCore (onCore bench 0 fun q => { q with pair := some (half true p) }) 1 fun q => { q with
      pair := some (half false 5) }
    [(coreAt (s 5) 0).pair == some (half true 5), (half true 5).suspect == false, (half true 5).buffer.isEmpty,
      nextIs (exec (.pairCompare 0) (s 5)) fun t => (slotAt t 0 0).trap.pc == 0x100,
      nextIs (exec (.pairCompare 0) (s 6)) fun t => (coreAt t 0).pair.map Pair.retry == some 1 && (slotAt t 0 0).pc == 0x10000]) = true := by
  decide +kernel

/-- Prefetches, LobbySteps: a saved task that is kept without a frame; a task at its threshold that may not move. -/
theorem witness_kept : met (
    let h : Slot := { Slot.reset with live := true, ctx := 1, launch := some 5 }
    let saved := onContext { pooled with launches := [(1029, { launch with words := goodRecord, rooms := [0] })] } 1 fun x => { x with
      saved := [⟨h, none, none, none, 0, none, none, false⟩] }
    let far := onSlot { pooled with
        launches := [(1029, { launch with words := (goodRecord.set 2 0x200000).set 24 0x1B0010 })]
        contextTable := tput pooled.contextTable 12 1 } 0 0 fun v => { v with remoteHall := 9, remoteCount := 1 }
    [decide ((coreAt saved 0).shadows.length < 2), !(coreAt saved 0).halted, (readySaved saved 0).isSome,
      nextIs (exec (.prefetcherFill 0) saved) fun t => (coreAt t 0).shadows.map Shadow.task == [h],
      (here far).live, migratable far (here far), ctxMthr far 1 == 1, mayMigrate far 0 0 9 == false, (roomAt far 0).acc.isEmpty,
      nextIs (exec (.taskMigration 0 0 9) far) fun t => (here t).remoteOff]) = true := by decide +kernel

/-- Misses: one that its page's entry has already, one that waits for an entry. -/
theorem witness_missed : met (
    let m : MissReq := ⟨1, 0x40000, .read, .slot 0 1⟩
    let s := onHall (onSlot bench 0 1 fun v => { v with live := true, ctx := 1, wait := some .translation }) 0
    let own := s fun q => { q with pending := [(0, ⟨1, 4, [m]⟩)], parked := [m] }
    let all : Table PendEntry := (List.range 32).map fun i => (i, ⟨2, i, []⟩)
    let full := s fun q => { q with pending := all }
    [stillWaits own m, ((hallAt own 0).pending.find? fun (_, e) => e.ctx == 1 && e.va == 4) == some (0, ⟨1, 4, [m]⟩),
      ((hallAt full 0).pending.find? fun (_, e) => e.ctx == 1 && e.va == 4) == none,
      nextIs (exec (.translationMiss 0 m) own) fun t => (hallAt t 0).parked == [m] && (hallAt t 0).pending == [(0, ⟨1, 4, [m]⟩)],
      nextIs (exec (.translationMiss 0 m) full) fun t => (hallAt t 0).overflow == [m]]) = true := by decide +kernel

/-- TranslationService: an invalidation that waits for a copy which has used the entry, and one that need not. -/
theorem witness_invalidated : met (
    let entry : TlbEntry := ⟨1, 2, 0, 0x200, 7⟩
    let s := onHall (onSlot firm 65536 3 fun v => { v with x := v.x.set 7 0x0001000000000002 }) 0 fun h => { h with tlb := [entry] }
    let moving := { s with transfers := [⟨0, 5, 0, [⟨.mem 0 0x2000000, 0x20000, .vault 0 0x100, 4⟩], [0]⟩] }
    [selectedEntries s 0 0x0001000000000002 == [entry], usesPlace [entry] (.mem 0 0x2000000), plain (.tlbinv 3 7) moving, plain (.tlbinv 3 7) s,
      s.transfers.isEmpty, (s.cores.all fun e => e.2.pair.isNone && e.2.slots.toList.all fun v => v.latch.isNone),
      s.rooms.all fun e => e.2.hold.isEmpty,
      nextIs (exec (.tlbinv 3 7) moving) fun t => (hallAt t 0).tlb == [entry] && t.agenda.head? == some (.event (.copyTransferComplete 0)),
      nextIs (exec (.tlbinv 3 7) s) fun t => (hallAt t 0).tlb.isEmpty && xOf (here t) 3 == 1]) = true := by decide +kernel

/-- HostPort: a ring that a record fills, one that is full; a target that no message names. -/
theorem witness_events : met (
    let ring := fun (eh : XWord) => ({ State.reset with
      eventRing := { EventRing.reset with een := true, elc := 1, eh := eh, ebase := 0x100000, evec := 3 } } : State)
    let full := fun (s : State) => decide (2 ^ s.eventRing.elc ≤ (s.eventRing.eh - s.eventRing.et).toNat)
    [!full (ring 1), full (ring 2), (postEvent (ring 1) 9 noContext 0 0 3).eventRing.eov, (postEvent (ring 1) 9 noContext 0 0 3).irqs == [3],
      (postEvent (ring 2) 9 noContext 0 0 3).eventRing.edrp == 1, State.reset.hmMsg.toNat / 2 ^ 60 != 2, State.reset.hmMsg.toNat / 2 ^ 60 != 3]) = true := by
  decide +kernel

/-- ContextsAndRegions: descriptors of a declared region that a write keeps valid, and that it does not. -/
theorem witness_regions : met (
    let s := { pooled with regionTable := [(16, 0x400000), (17, 0x200000), (18, 0x800000), (19, 0x500000008), (21, 1), (22, 1)] }
    [regionDeclared s 2, regionValid s 2, regionValid { s with regionTable := tset 0 s.regionTable 17 0x400000 } 2,
      !regionValid { s with regionTable := tset 0 s.regionTable 17 0x400001 } 2, (3 : XWord).getLsbD 0]) = true := by decide +kernel

/-- Submissions: a save that waits for the laundry of the context. -/
theorem witness_saving : met (
    let ring : SubRing := ⟨0x100000, 0x200000, 1, 3, true, false, true, 2, 2, 0, 0, none⟩
    let s := withDwords { washing (serving 1) with subRings := [(0, ring)], bootStep := 7, launches := [] } 0x100000 [2, 0, 0, 0, 0, 0, 0, 0]
    [served s ring, (readEntryAt s ring).op == 2, (match saveContext 1 s with | .error (.later []) _ => true | _ => false),
      nextIs (exec (.submitSave 0) s) fun t => (ringAt t 0).r == 1 && (ringAt t 0).c == 0]) = true := by decide +kernel

/-- LaundryRings, LaundryRequests: a stopped request that goes on, a ring with nothing left, a request that stops at a granule. -/
theorem witness_granules : met (
    let r := serving 1
    let stopped := onHall (washing { r with stopped := true }) 0 fun h => { h with kicks := [] }
    let empty := onHall (washing { r with req := [], p := 4 }) 0 fun h => { h with kicks := [⟨r.header, 1, 4, none⟩] }
    let big : LaundryRing := { r with req := r.req.set 5 (2 ^ 34 + 2 ^ 41), index := 0 }
    [(ringOrder stopped 0).map LaundryRing.stopped == [true], match resumeRequest 0 { r with stopped := true } stopped with | .ok _ t => calm t | _ => false,
      (match acceptKick 0 ⟨r.header, 1, 4, none⟩ empty with | .ok _ t => laundryRing t 0 r.key == none | _ => false),
      stopsHere (washing big) 0 big == false, match stopRequest 0 r (washing r) with | .ok b _ => b | _ => false]) = true := by decide +kernel

/-- Barriers: a launch whose barrier a lower house holds. -/
theorem witness_above : met (
    let r : Launch := { launch with estate := [0, 1] }
    let s := { bench with launches := [(1029, r)], house := 1 }
    [estateAbove s r, decide (2 ≤ r.estate.length), launchAt s 1029 == some r, launchOf (here s) == some 1029]) = true := by decide +kernel

/-- AtomicAccesses: stores that its room holds in a superstep and that write its word whole, in part and not. -/
theorem witness_follows : met (
    let run : Launch := { launch with words := record.set 9 1, mode := 1, seq := 4 }
    let q : Latch := ⟨false, .aadd .i64 3 6 1, 0x20000, .mem 0 0x2000000, 0, 7, 0⟩
    let s := { bench with launches := [(1029, run)] }
    let after := fun (n : Nat) => (steps (storeBytes 0x20000 (bytesOfNat n 5)) s).map Prod.snd
    let whole := fun (t : State) => coversWord (heldStores t q .i64) q .i64
    let old := fun (t : State) => (steps (atomHeld q .i64 (heldStores t q .i64)) t).map Prod.fst
    [(heldStores s q .i64).isEmpty, !whole s, (steps (holdsFirst []) s).isSome, (after 8).map whole == some true,
      (after 8).bind old == some (.done 5), (after 4).map whole == some false,
      (after 4).map (fun t => (heldStores t q .i64).isEmpty) == some false]) = true := by decide +kernel

/-- CombineTree: cores in one room, in two rooms, and the core numbers that wrap within a house. -/
theorem witness_places : (0 : Nat) < 1 ∧ 1 < 65536 ∧ (16 : Nat) % 16 = 0 ∧ 0 + 2 < 16 ∧ (15 : Nat) % 16 = 15 ∧ 15 + 2 < 65536 ∧
    (62 : Nat) % 64 + 1 < 64 := by decide

/-- StreamFetches: a follower's slot takes what its leader fetched. -/
theorem witness_fetches : met (
    let half := fun (leader : Bool) => ({
      slot := 0, leader := leader, agreed := 0, since := 0, retry := 0, print := 0, buffer := [], checkpoint := here streaming
      clear := true, suspect := false, wrote := [], leaves := false, kept := 0, due := none, fed := [] } : Pair)
    let s := onCore (onCore streaming 0 fun q => { q with pair := some (half true) }) 1 fun q => { q with pair := some (half false) }
    [isSecond s 1 0, !isSecond s 0 0, followerOf s 0 0 == some 1, followerOf streaming 0 0 == none,
      ((slotAt (shareFetched 0 0 0 s) 1 0).s.get 0).fetched == [9]]) = true := by decide +kernel

/-! ### Clauses on what is fetched, held, paired and kept -/

/-- StreamEngines: a pop with nothing fetched, a push to a write stream with room, whose items are checked and then sent; a fetch
that succeeds, one that misses and one that fails. -/
theorem witness_elements : met (
    let q := (here streaming).s.get 1
    let bare := onSlot streaming 0 0 fun v => { v with s := v.s.set 0 { v.s.get 0 with fetched := [] } }
    let p := (here bare).s.get 0
    let at_ := fun (a : Nat) => { p with desc := BitVec.ofNat 256 (a + 2 ^ 64 * 64) }
    [p.fetched.isEmpty, !p.desc.getLsbD 130, p.pos.toNat != 64, (steps (fetchElement p p.pos.toNat) bare).isSome,
      q.desc.getLsbD 130, decide (q.pos.toNat < 64), (do
        let (ps, t) ← steps (itemParts q 5 (List.range 8)) streaming
        let (_, u) ← steps (ps.forM fun p => sendParts p.1 p.2) t
        return (ps.length, memByte u.mem 0x2000000)) == some (8, 5),
      (steps (do storeParts (← itemAddress q 0) 4) streaming).isSome, decide (64 ≤ { q with pos := 64 }.pos.toNat + 0),
      (match fetchElement (at_ 0x40000) 0 bare with | .error (.park _ _) _ => true | _ => false),
      (match fetchElement (at_ 0x0100000000000000) 0 bare with | .error (.trap _ _ _ _) _ => true | _ => false),
      nextIs (exec (.streamFetch 0 0 0) bare) fun t => ((slotAt t 0 0).s.get 0).fetched.length == 1]) = true := by
  decide +kernel

/-- FullEmptyBits, Rings, Signals: the waits, claims and checks around a vault word and a slot of a ring. -/
theorem witness_slots : met (
    let q : RingHead := ⟨2, 0, 0xFFFD000000000400, 2, 1, false, true⟩
    let header := fun (o n : Nat) => (do
      stallOn (.vault 0 0x200) 32
      let h ← readRing 0 0 0x200
      stallOn (.vault 0 o) n
      return h : M RingHead)
    let sealed := onCore ringing 0 fun q => { q with mappings := [⟨0x400, 0x30000, 0x80, 1, [], true⟩] }
    [(steps (stallOn (.vault 0 0x100) 4) bench).isSome, (steps (do stallOn (.vault 0 0x400) 8; fillAt 0xFFFD000000000400 (.vault 0 0x400) 8) ringing).isSome,
      (steps (header 0x400 8) ringing).map Prod.fst == some q, (steps (header 0x410 8) ringing).map Prod.fst == some q,
      (steps (do claimPlace (.vault 0 0x410) 8; touchVault 0 0x410 8; poke 0 (.vault 0 0x410) (bytesOfNat 8 7)) ringing).isSome,
      readOnlyAt sealed (.vault 0 0x410) 8 == some 0, readOnlyAt sealed (.vault 0 0x3FC) 8 == some 4,
      (steps (do stallOn (.mem 0 0x2000000) 8; claimPlace (.mem 0 0x2000000) 8) bench).isSome,
      (steps (readVecs [1] []) ringing).isSome, decide (0 + 2 < 2 ^ 2), decide (2 ≤ 3)]) = true := by decide +kernel

/-- One half of a pair on slot 0, of the bench without its launch. -/
def half (leader : Bool) (print : BitVec 64) (retry : Nat) (clear : Bool) : Pair := {
  slot := 0, leader := leader, agreed := 4, since := 3, retry := retry, print := print, buffer := [], checkpoint := here bench
  clear := clear, suspect := false, wrote := [], leaves := false, kept := 0, due := none, fed := [] }

/-- A pair on slot 0 of cores 0 and 1, in which the first half's print is as given and the second's is 5. -/
def coupled (s : State) (p : BitVec 64) (retry : Nat) (clear : Bool) : State :=
  let t := putSlot s 1 0 (here s)
  onCore (onCore t 0 fun q => { q with pair := some (half true p retry clear) }) 1 fun q => { q with
    pair := some (half false 5 retry clear) }

/-- The bench in the mode of a pair, outside its launch. -/
def alone : State := onSlot bench 0 0 fun v => { v with launch := none, pairMode := true, held := [] }

/-- The bench in an open superstep, in the mode of a pair. -/
def stepping : State := onSlot { bench with launches := [(1029, { launch with words := record.set 9 1, mode := 1, seq := 4 })] } 0 0 fun v =>
  { v with pairMode := true }

/-- Pairs: PAIROFF and FPCHK in a pair whose halves agree and differ; in a recoverable superstep, clear and not. -/
theorem witness_paired : met (
    let s := coupled alone
    let both := fun (i : Instr) (s : State) => (s.launches.all fun e => e.2.mode != 2) && s.lostLines.isEmpty &&
      decide ((privilege i).level ≤ (modeOf 0 0).level) && (coreAt s 0).chain.isNone && (coreAt s 1).chain.isNone &&
      (here s).hints.all (accepts i) && (here s).bad.isEmpty && slotAt s 1 0 == here s
    [both .pairoff (s 5 0 true), both (.fpchk 3) (s 6 0 true), recoverable alone (here alone) == none,
      (recoverable stepping (here stepping)).isSome, both .pairoff (coupled stepping 5 0 true), (half true 5 0 false).clear == false,
      (coreAt (s 6 0 true) 0).pair == some (half true 6 0 true), (coreAt (s 6 0 true) 1).pair == some (half false 5 0 true),
      nextIs (exec .pairoff (s 5 0 true)) fun t => (coreAt t 0).pair.isNone && (coreAt t 1).pair.isNone && !(here t).pairMode,
      nextIs (exec .pairoff (s 6 0 true)) fun t => t.agenda.head? == some (.event (.pairCompare 0)),
      nextIs (exec (.fpchk 3) (s 5 0 true)) fun t => xOf (here t) 3 == 5,
      nextIs (exec .pairoff (coupled stepping 5 0 true)) fun t => (here t).trap.info == 5,
      nextIs (exec .pairoff (coupled stepping 5 0 false)) fun t => t.agenda.head? == some (.event (.pairCompare 0))]) = true := by
  decide +kernel

/-- Pairs: a suspect pair, where a frame is free and where none is. -/
theorem witness_suspect : met (
    let s := onHalves (coupled alone 5 2 true) 0 fun _ q => { q with suspect := true }
    let room := onHall s 0 fun h => { h with tlb := [⟨1, 0x20, 0, 0x400, 7⟩] }
    [freeFrame { s with contextTable := tput s.contextTable 10 0 } 1 == none, freeFrame room 1 == some 0,
      (match saveOne 0 0 none false (onHalves room 0 fun _ q => { q with buffer := [], kept := 0 }) with
        | .ok _ u => calm u && ((contextAt u 1).saved.map SavedTask.frame == [some 0])
        | .error _ _ => false)]) = true := by decide +kernel

/-- Supersteps: a held effect that cannot be read, a logged word and a checkpoint that cannot. -/
theorem witness_lost : met (
    let run : Launch := { launch with words := (record.set 9 1).set 4 1, mode := 1, seq := 4, rollbacks := 1 }
    let arrived := onSlot { bench with launches := [(1029, run)] } 0 0 fun v => { v with
      wait := some (.commit 1029 4 .bar), arrivedIn := some 4 }
    let h : Held := ⟨1029, 0, 0, .store (.mem 0 0x2000000) [5], true⟩
    let held := onRoom arrived 0 fun r => { r with hold := [h] }
    let banked := onCore arrived 0 fun q => { q with banks := [(0, { here bench with bad := [(1, 1)] })] }
    [gangArrived arrived 1029 run, heldOf held 1029 0 == [h], (gangBanks banked 1029 run).any bankFails,
      gangTasks banked 1029 run == [(0, 0)], banked.rooms.all fun e => e.2.hold.isEmpty,
      nextIs (exec (.superstepCommit 1 5) held) fun t => t.agenda.head? == some (.event (.superstepRollback 1 5)),
      nextIs (exec (.superstepRollback 1 5) banked) fun t => (launchAt t 1029).map Launch.mode == some 2]) = true := by
  decide +kernel

/-- Prefetches: a saved task that takes the place of one of lower priority; an entry whose words are read. -/
theorem witness_displaced : met (
    let task := fun (record : Nat) => ({ Slot.reset with live := true, ctx := 1, launch := some record, carries := true } : Slot)
    let shadow := fun (order : Nat) => (⟨task 5, none, none, none, [], none, order, []⟩ : Shadow)
    let m : SavedTask := ⟨task 6, none, none, none, 0, none, none, false⟩
    let two := { pooled with launches := [(1029, launch), (1030, { launch with words := record.set 3 0x1E001000000 })] }
    let s := onContext (onCore two 0 fun q => { q with shadows := [shadow 0, shadow 1] }) 1 fun x => { x with saved := [m] }
    let queued := onCore (onQueue (withDwords { pooled with launches := [(1029, { launch with words := goodRecord })] } 0x400F000
      [0x500000001]) 0 1029 0 fun q => { q with count := 1 }) 0 fun q => { q with stages := [(1029, 0)] }
    [readySaved s 0 == some m, displaced s 0 m == some (shadow 1), slotPri s (task 5) == 0, slotPri s (task 6) == 1, !(coreAt s 0).halted,
      (do
        let (_, t) ← steps (takeSaved 0 m) s
        let (_, u) ← steps (backToFrame 0 (shadow 1)) t
        return (coreAt u 0).shadows.map fun h => (h.task.launch, h.warming)) == some [(some 5, []), (some 6, [])],
      (do
        let (ws, t) ← steps (headEntry 0 1029 ((launchAt queued 1029).getD launch) 0) queued
        let (bad, _) ← steps (entryPoison 0 1029 ((launchAt queued 1029).getD launch) 0) t
        return (ws.take 2, bad.any id)) == some ([1, 5], false)]) = true := by decide +kernel

/-- LobbySteps, Completions: a slot that waits for a page of the fault buffer; a node that completes later. -/
theorem witness_later : met (
    let waits := onSlot { pooled with launches := [(1029, { launch with words := goodRecord })] } 0 0 fun v => { v with
      wait := some (.page (some 2)) }
    let done := onHall graphed 0 fun h => { h with doneNodes := [(1029, 1)] }
    [(here waits).wait == some (.page (some 2)), (here waits).live,
      (match saveSlot 0 0 (some (.page (some 2))) false waits with | .ok b t => b && calm t | .error _ _ => false),
      landable done 0 (hallAt done 0).landing == none, (hallAt done 0).doneNodes == [(1029, 1)], (launchAt done 1029).isSome,
      (steps (graphDone 0 1029 ((launchAt done 1029).getD launch) 1) done).isSome]) = true := by decide +kernel

/-- Submissions, SwitchesComplete: an entry that has been taken and is kept; memory that no core or room holds a copy of. -/
theorem witness_kept_entry : met (
    let e : SubEntry := ⟨2, 0, 0, true⟩
    let ring : SubRing := ⟨0x100000, 0x200000, 1, 3, true, false, true, 2, 2, 1, 0, some e⟩
    let s := { pooled with subRings := [(0, ring)], bootStep := 7, launches := [] }
    let bare := fun (s : State) => (s.cores.all fun e => e.2.mappings.isEmpty) && (s.rooms.all fun e => e.2.acc.isEmpty) &&
      s.homeParts.isEmpty
    [served s ring, readEntryAt s ring == e, !served { s with bootStep := 6 } ring, bare s, tsorted 0 s.indexes, tsorted 0 s.subRings,
      (match saveContext 1 s with | .ok _ t => calm t && (contextAt t 1).switchedOut | .error _ _ => false),
      nextIs (exec (.submitSave 0) s) fun t => (ringAt t 0).c == 1 && (ringAt t 0).entry.isNone && bare t]) = true := by decide +kernel

/-- Keeper: units that leave and come back before a publication, contexts that a deadline has suspended, start-up with links and
channels, what a house hears of the holder of its estate barrier, and an arrival there of a slot that has arrived. -/
theorem witness_house : met (
    let u : DeviceUnit := .room 3
    let s := State.reset
    let key := barrierKey .estate 0 0
    let r : Launch := { launch with estate := [0, 1], barriers := [(key, { Barrier.reset with config := 3, slots := [2 ^ 18 * 2 + 6] })] }
    let below := { pooled with launches := [(1029, r)], house := 1 }
    let m : EstateArrival := ⟨1, 5, 0, 1, 1, 2, some 7, 0⟩
    let told := barrierTold { m with house := 0 } (barrierAt r key)
    let image : BootInput := ⟨true, false, false, [], [(3, 1)], [(5, 8, 2)], 0x100, 0x200, 0x300, 0⟩
    let late := onContext { pooled with launches := [] } 1 fun x => { x with suspended := some 1 }
    [!leaving s u, leaving { s with changes := [.withdraw u] } u, !leaving { s with changes := [.withdraw u, .giveBack u] } u,
      s.unsettled.isEmpty, (match saveSuspended [1] late with | .ok _ t => calm t | .error _ _ => false),
      (match completePhase 1029 key told below with | .ok _ t => calm t | .error _ _ => false), r.estate.any fun h => decide (h < below.house),
      (barrierAt r key).slots.contains (2 ^ 18 * (m.house + 1) + 4 * m.core + m.slot), m.value == some 7,
      nextIs (exec (.bootReset image) s) fun t => tget 0 t.rates 3 == 1 && tget 0 t.links 5 == 0x20801]) = true := by decide +kernel

/-- StepRuns: a follower whose leader has parted it from its chain. -/
theorem witness_parts : met (
    let s := onCore bench 1 fun q => { q with chain := some ⟨0, 0, 1, 2, [], false⟩ }
    let f : Forward := ⟨none, 0x10008, 0x10008, [], 0⟩
    [(here (partHere { s with cur := (1, 0) } f)).pc == 0x10008, (coreAt (partHere { s with cur := (1, 0) } f) 1).chain.isNone]) = true := by
  decide +kernel

/-- Arrivals, Accumulations, Barriers: a sealed page that a translation has named, a line without a vault cache, a barrier above. -/
theorem witness_outgoing : met (
    let e : TlbEntry := ⟨1, 3, 0, 0x300, 0x27⟩
    let s := { bench with sealedPages := [e] }
    let gang := { bench with launches := [(1029, { launch with words := record.set 9 1 })] }
    let key := barrierKey .estate 0 0
    let r : Launch := { launch with estate := [0, 1], barriers := [(key, { Barrier.reset with slots := [0] })] }
    let below := { bench with launches := [(1029, r)], house := 1 }
    [attrSL e.attr, inFrames e 0x3000000 4, (sealedOwner s 0x3000000 4).isSome, noVaultCache gang 0 0x400 == true, noVaultCache bench 0 0x400 == false,
      estateAbove below r, (barrierAt r key).slots.contains 0, !(barrierAt r key).slots.contains 1, isEstate key]) = true := by decide +kernel

/-- What a part of a walk answers and leaves, where it goes on. -/
def walked {α : Type} (act : W α) (w : Walk) (s : State) : Option (α × Walk × State) :=
  match act.run.run w s with
  | .ok (.ok a, v) t => some (a, v, t)
  | _ => none

/-- The sealed region with a node of level 1 in it, of the name 0x50: 2 and 2 on its diagonal. -/
def planted : State :=
  let kids : List Kid := [⟨1, 0x4000000000000000⟩, kidZ, kidZ, ⟨1, 0x4000000000000000⟩]
  onHall { zoned with
    indexes := [(2, [⟨0x50, 0, 0, false, true, 0, 2, [], 0⟩])]
    mem := memWrite zoned.mem 0x3000000 (nodeBytes .f32 3 1 kids) } 0 fun h => { h with tlb := [⟨1, 3, 0, 0x300, 0x27⟩] }

/-- HearthWalks: the parts of a walk on two nodes of I leaves, and the top-level steps and the end of each command on them. -/
theorem witness_trees : met (
    let env : WalkEnv := ⟨0, 1, 1029, 2, none, []⟩
    let w : Walk := ⟨[], 0, 0⟩
    let tree : List XWord := [treeHead, 0x1000000010, 0x50, 0, 0x30000, 0, 0, 0]
    let t := treeOf planted 1 tree
    let x : Kid := ⟨5, 0x50⟩
    let i : Kid := ⟨1, 0x4000000000000000⟩
    let q := fun (i : Instr) => { command with instr := i, started := true, a := tree, b := tree, c := tree }
    let hmm := q (.hmm 3 5 6 7 3)
    let hadd := q (.hadd 3 5 6 7 0)
    let hcvt := q (.hcvt 3 5 6 .f64 false)
    let r := arithOf hmm
    let goes := fun {α : Type} (act : W α) => (walked act w planted).isSome
    let level := rootLevel tree - 1
    let product := (walked (mulKids env r t t level i i) w planted).map fun e => (e.1.code, kidAlpha e.1 == valueOf fmtF64 0x4010000000000000)
    [level == 0, t == ⟨2, .f32, 3, 1⟩, (walked (kidsOf env t 1 x) w planted).map Prod.fst == some [i, kidZ, kidZ, i],
      goes (leafOf env t i), goes (putLeaf env r.acc r.e (.i (kidAlpha i))), product == some (1, true), goes (sumAndRelease env r 0 i kidZ),
      goes (makeNode env r.acc r.e 1 false [i, kidZ, kidZ, i]), env.spread != some 1, goes (mulKids env r t t 1 x x),
      goes (rootKids env t (rootKid tree)), goes (blendKids env (addBlend hadd) .f32 t t 0 i i), goes (convertKids env ⟨.f64, false, false⟩ t 0 i),
      goes (makeNode env .f32 3 1 true [kidZ, kidZ, kidZ, kidZ]), tTy hmm.c == r.acc, tDemote hmm.c == false, hmm.part == none,
      (resultOf (scaleRound fmtF64 (kidAlpha i) (kidAlpha i))).isNan == false, (resultOf (sumRound fmtF64 (kidAlpha i) (kidAlpha i))).isNan == false,
      (resultOf (convertExact fmtF64 false (kidAlpha i))).isNan == false,
      (resultOf (blendI (addBlend hadd) (.i (kidAlpha i)) (.i (kidAlpha i)))).isNan == false, reducesToI [i, i, kidZ, i] == false,
      (walked (topStep env planted hmm) w planted).map (fun e => (e.1.steps, e.1.part.isSome)) == some (1, true),
      (walked (topStep env planted hadd) w planted).map (fun e => (e.1.steps, e.1.sums.map Kid.code)) == some (1, [1]),
      (walked (topStep env planted hcvt) w planted).map (fun e => (e.1.steps, e.1.sums.map Kid.code)) == some (1, [1])]) = true := by
  decide +kernel

/-- HearthWalks: the ranks of two L leaves that can be joined, and that cannot. -/
theorem witness_leaves : met (
    let one := valueOf fmtF64 0x3FF0000000000000
    let l := fun (k : Nat) => Leaf.l (List.replicate k [one, one]) (List.replicate k [one, one])
    [sumType (l 1) (l 2) == .l, sumType (l 9) (l 8) == .f, sumType (.i one) (.d [one, one]) == .d, l 1 != .z,
      resultOf (leafProduct .fused (fmtOf .f64) (l 1) (l 2)) != .z, Leaf.isZ .z]) = true := by decide +kernel

/-! ### Single steps (Table 5.3) -/

/-- The outcome of an instruction on x1 and x2 in the bench, as x3. -/
def gives (i : Instr) (a b : XWord) (p : XWord) : Bool :=
  nextIs (exec i (onSlot bench 0 0 fun v => { v with x := (v.x.set 1 a).set 2 b })) fun t => (slotAt t 0 0).x.get 3 == p

theorem test_table53 : [gives (.add .i8 3 1 2) 0x7F 1 0xFFFFFFFFFFFFFF80, gives (.add .n8 3 1 2) 0x7F 1 0x80,
    gives (.div .i32 3 1 2) 0xFFFFFFFF80000000 (-1) 0xFFFFFFFF80000000, gives (.rem .i32 3 1 2) 0xFFFFFFFF80000000 (-1) 0,
    gives (.div .i64 3 1 2) (-7) 2 (-3), gives (.rem .i64 3 1 2) (-7) 2 (-1), gives (.mulh .n64 3 1 2) 0xFFFFFFFFFFFFFFFF 2 1,
    gives (.mulh .i64 3 1 2) (-1) 2 (-1), gives (.sra .n8 3 1 2) 0x80 1 0xC0, gives (.clz .i32 3 1) 1 0 31,
    gives (.bfx .i32 3 1 2) 0x80000000 0x081C 0xFFFFFFFFFFFFFFF8] = List.replicate 11 true := by decide +kernel

/-- The first instruction after reset, where the firmware's slot is given one: ADDI x5, x0, 3. -/
theorem test_first_step : nextIs (step (State.reset.withFetchWord 32 0x04A00003)) (fun t =>
    (slotAt t t.cur.1 t.cur.2).x.get 5 == 3 && (slotAt t t.cur.1 t.cur.2).retired == 1) = true := by decide +kernel

theorem test_table_word : (decodeTableWord 32 0x04A00003 == some (.addi 5 0 3)) = true := by decide +kernel

end Sys2Proof.Tests
end

section
/-! Bits of integers: the counts, `signedOf` and `wrapInt` as bit vectors, and the fields of BFX and BFI, bit by bit
(R69, R71, R73). -/

namespace Sys2Proof.Machine

open Sys2Proof

/-! ### Counts (R71) -/

theorem bitAt_eq_testBit (v i : Nat) : bitAt v i = v.testBit i := by
  rw [Nat.testBit_eq_decide_div_mod_eq]; rfl

theorem leadingZeros_le (v n : Nat) : leadingZeros v n ≤ n := by
  induction n with
  | zero => exact Nat.le_refl 0
  | succ n ih => simp only [leadingZeros]; split <;> omega

/-- Above its leading zeros a number has nothing. -/
theorem lt_two_pow_sub_leadingZeros {v n : Nat} (hv : v < 2 ^ n) : v < 2 ^ (n - leadingZeros v n) := by
  induction n with
  | zero => exact hv
  | succ n ih =>
    simp only [leadingZeros, bitAt_eq_testBit]
    split
    · exact hv
    · next hbit =>
      have hlow : v < 2 ^ n := Nat.lt_pow_two_of_testBit v fun i hi => by
        obtain rfl | hlt := Nat.eq_or_lt_of_le hi
        · simpa using hbit
        · exact Nat.testBit_lt_two_pow (Nat.lt_of_lt_of_le hv (Nat.pow_le_pow_right Nat.two_pos hlt))
      rw [Nat.add_comm 1, Nat.add_sub_add_right]
      exact ih hlow

/-- The bit below the leading zeros is a one. -/
theorem two_pow_le_of_leadingZeros_lt {v n : Nat} (h : leadingZeros v n < n) : 2 ^ (n - leadingZeros v n - 1) ≤ v := by
  induction n with
  | zero => exact absurd h (Nat.not_lt_zero _)
  | succ n ih =>
    simp only [leadingZeros, bitAt_eq_testBit] at h ⊢
    split at h
    · next hbit => simpa [hbit] using Nat.ge_two_pow_of_testBit hbit
    · next hbit =>
      rw [if_neg hbit, Nat.add_comm 1, Nat.add_sub_add_right]
      exact ih (by omega)

theorem trailingZeros_le (n v : Nat) : trailingZeros n v ≤ n := by
  induction n generalizing v with
  | zero => exact Nat.le_refl 0
  | succ n ih =>
    have := ih (v / 2)
    simp only [trailingZeros]; split <;> omega

/-- The bits below the trailing zeros' count are zeros. -/
theorem two_pow_trailingZeros_dvd (n v : Nat) : 2 ^ trailingZeros n v ∣ v := by
  induction n generalizing v with
  | zero => exact Nat.one_dvd v
  | succ n ih =>
    simp only [trailingZeros]
    split
    · exact Nat.one_dvd v
    · next hodd =>
      have hv : v = 2 * (v / 2) := by omega
      rw [Nat.pow_add, Nat.pow_one, hv]
      exact Nat.mul_dvd_mul_left 2 (by simpa using ih (v / 2))

/-- The bit above the trailing zeros is a one. -/
theorem testBit_trailingZeros {n v : Nat} (h : trailingZeros n v < n) : v.testBit (trailingZeros n v) = true := by
  induction n generalizing v with
  | zero => exact absurd h (Nat.not_lt_zero _)
  | succ n ih =>
    simp only [trailingZeros] at h ⊢
    split at h
    · next hodd => simp [hodd]
    · next hodd =>
      rw [if_neg hodd, Nat.add_comm 1, Nat.testBit_add_one]
      exact ih (by omega)

/-- POPC counts the places at which a bit is one. -/
theorem popCount_eq_length_filter (n v : Nat) :
    popCount n v = ((List.range n).filter fun i => v.testBit i).length := by
  induction n generalizing v with
  | zero => rfl
  | succ n ih =>
    have hbits : (fun i => v.testBit i) ∘ Nat.succ = fun i => (v / 2).testBit i :=
      funext fun i => Nat.testBit_add_one v i
    rw [popCount, ih, List.range_succ_eq_map, List.filter_cons, List.filter_map, hbits]
    rcases Nat.mod_two_eq_zero_or_one v with h | h <;> simp [h, Nat.add_comm]

/-! ### Numbers of a width as bit vectors (R69) -/

theorem signedOf_eq_toInt (w v : Nat) : signedOf w v = (BitVec.ofNat w v).toInt := by
  rw [BitVec.toInt_eq_toNat_cond, BitVec.toNat_ofNat, signedOf]
  cases w with
  | zero => simp [Nat.mod_one]
  | succ w =>
    have hhalf : 2 * (v % 2 ^ (w + 1)) < 2 ^ (w + 1) ↔ v % 2 ^ (w + 1) < 2 ^ w := by omega
    simp only [Nat.add_sub_cancel, hhalf, Nat.cast_pow, Nat.cast_ofNat]

theorem wrapInt_eq_toNat (w : Nat) (i : Int) : wrapInt w i = (BitVec.ofInt w i).toNat := (BitVec.toNat_ofInt i).symm

theorem wrapInt_natCast (w v : Nat) : wrapInt w (v : Int) = v % 2 ^ w := by
  rw [wrapInt, ← Int.natCast_mod, Int.toNat_natCast]

theorem wrapInt_lt (w : Nat) (i : Int) : wrapInt w i < 2 ^ w := by
  rw [wrapInt_eq_toNat]; exact BitVec.isLt _

theorem wrapInt_signedOf (w v : Nat) : wrapInt w (signedOf w v) = v % 2 ^ w := by
  rw [wrapInt_eq_toNat, signedOf_eq_toInt, BitVec.ofInt_toInt, BitVec.toNat_ofNat]

theorem signedOf_bounds {w : Nat} (v : Nat) : -(2 ^ (w - 1) : Int) ≤ signedOf w v ∧ signedOf w v < 2 ^ (w - 1) := by
  rw [signedOf_eq_toInt]
  exact ⟨BitVec.le_toInt _, BitVec.toInt_lt⟩

theorem rawTy_lt (ty : Ty) (x : XWord) : rawTy ty x < 2 ^ ty.bits := Nat.mod_lt _ (Nat.two_pow_pos _)

theorem bits_pos (ty : Ty) : 0 < ty.bits := by cases ty <;> decide

/-! ### The field that BFX reads (R73) -/

/-- A signed number shifted right, as `len` bits: its own bits, and above them copies of its sign. -/
theorem testBit_wrapInt_signedOf_div {n len : Nat} (x pos : Nat) (hn : 0 < n) {i : Nat} (hi : i < len) :
    (wrapInt len (signedOf n x / 2 ^ pos)).testBit i = if pos + i < n then x.testBit (pos + i) else x.testBit (n - 1) := by
  have hshift : signedOf n x / 2 ^ pos = ((BitVec.ofNat n x).sshiftRight pos).toInt := by
    rw [BitVec.toInt_sshiftRight, Int.shiftRight_eq_div_pow, signedOf_eq_toInt, Nat.cast_pow]; rfl
  have hmsb : (BitVec.ofNat n x).msb = x.testBit (n - 1) := by
    rw [BitVec.msb_eq_getLsbD_last, BitVec.getLsbD_ofNat, decide_eq_true (by omega), Bool.true_and]
  rw [wrapInt_eq_toNat, hshift, BitVec.testBit_toNat]
  show (BitVec.signExtend len ((BitVec.ofNat n x).sshiftRight pos)).getLsbD i = _
  rw [BitVec.getLsbD_signExtend, BitVec.getLsbD_sshiftRight, BitVec.msb_sshiftRight, BitVec.getLsbD_ofNat, hmsb]
  by_cases hin : pos + i < n
  · have : i < n := by omega
    simp [hi, hin, this]
  · simp +contextual [hi, hin]

/-- An unsigned number shifted right, as `len` bits: its own bits, and above them zeros. -/
theorem testBit_wrapInt_natCast_div {n len : Nat} {x : Nat} (pos : Nat) (hx : x < 2 ^ n) {i : Nat} (hi : i < len) :
    (wrapInt len ((x : Int) / 2 ^ pos)).testBit i = if pos + i < n then x.testBit (pos + i) else false := by
  have hshift : (x : Int) / 2 ^ pos = ((x / 2 ^ pos : Nat) : Int) := by push_cast; rfl
  rw [hshift, wrapInt_natCast, Nat.testBit_mod_two_pow, Nat.testBit_div_two_pow, Nat.add_comm i, decide_eq_true hi,
    Bool.true_and]
  split
  · rfl
  · next hout =>
    exact Nat.testBit_lt_two_pow (Nat.lt_of_lt_of_le hx (Nat.pow_le_pow_right Nat.two_pos (Nat.not_lt.mp hout)))

/-- As `len` bits, the field is the shifted operand, whatever its sign. -/
theorem wrapInt_bitField (ty : Ty) (a pos len : Nat) :
    wrapInt len (bitField ty a pos len) = wrapInt len (intOf ty a / 2 ^ pos) := by
  have hmod := Nat.mod_eq_of_lt (wrapInt_lt len (intOf ty a / 2 ^ pos))
  unfold bitField
  split
  · next hlen => subst hlen; simp [wrapInt]
  · cases ty.signed
    · exact (wrapInt_natCast _ _).trans hmod
    · exact (wrapInt_signedOf _ _).trans hmod

/-- Bit `i` of the field is bit `pos + i` of the operand, and above the operand its sign or zero. -/
theorem testBit_bitField (ty : Ty) {x : Nat} (pos : Nat) {len i : Nat} (hx : x < 2 ^ ty.bits) (hi : i < len) :
    (wrapInt len (bitField ty x pos len)).testBit i =
      if pos + i < ty.bits then x.testBit (pos + i) else ty.signed && x.testBit (ty.bits - 1) := by
  rw [wrapInt_bitField, intOf]
  cases hs : ty.signed
  · simpa [Nat.mod_eq_of_lt hx] using testBit_wrapInt_natCast_div pos hx hi
  · simpa using testBit_wrapInt_signedOf_div x pos (bits_pos ty) hi

theorem bitField_zero (ty : Ty) (x pos : Nat) : bitField ty x pos 0 = 0 := rfl

/-- The field is read as `len` bits of the type's signedness. -/
theorem bitField_bounds (ty : Ty) (x pos : Nat) {len : Nat} (hlen : 0 < len) :
    if ty.signed then -(2 ^ (len - 1) : Int) ≤ bitField ty x pos len ∧ bitField ty x pos len < 2 ^ (len - 1)
    else 0 ≤ bitField ty x pos len ∧ bitField ty x pos len < 2 ^ len := by
  rw [bitField, if_neg (Nat.ne_of_gt hlen)]
  cases ty.signed
  · refine ⟨Int.natCast_nonneg _, ?_⟩
    show ((wrapInt len (intOf ty x / 2 ^ pos) : Nat) : Int) < 2 ^ len
    exact_mod_cast wrapInt_lt len (intOf ty x / 2 ^ pos)
  · exact signedOf_bounds _

/-! ### The bits that BFI places (R73) -/

/-- `n` bits of a number replaced from `pos` on. -/
theorem testBit_replace (t a pos n j : Nat) :
    (t - t / 2 ^ pos % 2 ^ n * 2 ^ pos + a % 2 ^ n * 2 ^ pos).testBit j =
      if pos ≤ j ∧ j < pos + n then a.testBit (j - pos) else t.testBit j := by
  have hparts : t - t / 2 ^ pos % 2 ^ n * 2 ^ pos + a % 2 ^ n * 2 ^ pos =
      2 ^ pos * (2 ^ n * (t / 2 ^ pos / 2 ^ n) + a % 2 ^ n) + t % 2 ^ pos := by
    have hlow := Nat.div_add_mod t (2 ^ pos)
    have hmid := congrArg (2 ^ pos * ·) (Nat.div_add_mod (t / 2 ^ pos) (2 ^ n))
    simp only [Nat.mul_add] at hmid ⊢
    rw [Nat.mul_comm (t / 2 ^ pos % 2 ^ n), Nat.mul_comm (a % 2 ^ n)]
    omega
  rw [hparts, Nat.testBit_two_pow_mul_add _ (Nat.mod_lt _ (Nat.two_pow_pos pos)),
    Nat.testBit_two_pow_mul_add _ (Nat.mod_lt _ (Nat.two_pow_pos n))]
  simp only [Nat.testBit_mod_two_pow, Nat.testBit_div_two_pow]
  by_cases hlow : j < pos
  · simp [hlow, show ¬ pos ≤ j by omega]
  · by_cases hmid : j < pos + n
    · simp [hlow, show j - pos < n by omega, show pos ≤ j by omega, hmid]
    · simp [hlow, show ¬ j - pos < n by omega, hmid, show j - pos - n + n + pos = j by omega]

/-- Bit `j` of the result, within the operand, is xa's where the field covers it and the old one elsewhere. -/
theorem testBit_bitInsert {w j : Nat} (t a pos len : Nat) (hj : j < w) : (bitInsert w t a pos len).testBit j =
    if pos ≤ j ∧ j < pos + len then a.testBit (j - pos) else t.testBit j := by
  refine (testBit_replace t a pos _ j).trans (if_congr ?_ rfl rfl)
  split <;> omega

/-- What does not fit in the operand is not placed. -/
theorem bitInsert_lt {w t : Nat} (a pos len : Nat) (ht : t < 2 ^ w) : bitInsert w t a pos len < 2 ^ w := by
  refine Nat.lt_pow_two_of_testBit _ fun j hj => ?_
  have hout : ¬(pos ≤ j ∧ j < pos + if pos < w then min len (w - pos) else 0) := by split <;> omega
  refine (testBit_replace t a pos _ j).trans ((if_neg hout).trans ?_)
  exact Nat.testBit_lt_two_pow (Nat.lt_of_lt_of_le ht (Nat.pow_le_pow_right Nat.two_pos hj))

end Sys2Proof.Machine
end

section
/-! What the integer counts and fields, the branches and the jumps do when they issue plainly. -/

namespace Sys2Proof.Machine

open Sys2Proof

/-! ### Shared bodies -/

/-- A body that ends with the write of its result. -/
theorem wx_seq (s : State) (d : Reg) (r : XWord) (hc : (here s).bad = []) (hp : (coreAt s s.cur.1).pair = none) :
    ∃ u, (do wx d r; return .seq : M Flow) s = .ok .seq u ∧ Touched s u (withX (here s) d r) := by
  obtain ⟨u, hu, ht⟩ := wx_clean s d r hc hp
  exact ⟨u, by rw [bind_ok hu]; rfl, ht⟩

/-- An instruction of one operand read as raw bits writes Ext of its function of them. -/
theorem runs_rawOp1 {i : Instr} {s : State} {ty : Ty} {d a : Reg} {f : Nat → Nat}
    (he : exec i s = insn i s (rawOp1 ty d a f)) (hi : isHint i = false) (hu : i ≠ .unchain) :
    Runs i s (withX (here s) d (extTy ty (f (rawTy ty (xOf (here s) a))))) .seq := by
  refine runs_of he hi hu trivial fun hp => ?_
  rw [rawOp1, bind_ok (rx_clean s a hp.bad)]
  exact wx_seq s d _ hp.bad hp.alone.2

theorem runs_bfx (s : State) (ty : Ty) (d a b : Reg) : Runs (.bfx ty d a b) s (withX (here s) d
    (extInt ty (bitField ty (rawTy ty (xOf (here s) a)) (bfPos (xOf (here s) b)) (bfLen (xOf (here s) b))))) .seq := by
  refine runs_of rfl rfl Instr.noConfusion trivial fun hp => ?_
  rw [bind_ok (rx_clean s a hp.bad), bind_ok (rx_clean s b hp.bad)]
  exact wx_seq s d _ hp.bad hp.alone.2

theorem runs_bfi (s : State) (ty : Ty) (d a b : Reg) : Runs (.bfi ty d a b) s (withX (here s) d
    (extTy ty (bitInsert ty.bits (rawTy ty (xOf (here s) d)) (xOf (here s) a).toNat
      (bfPos (xOf (here s) b)) (bfLen (xOf (here s) b))))) .seq := by
  refine runs_of rfl rfl Instr.noConfusion trivial fun hp => ?_
  rw [bind_ok (rx_clean s a hp.bad), bind_ok (rx_clean s b hp.bad), bind_ok (rx_clean s d hp.bad)]
  exact wx_seq s d _ hp.bad hp.alone.2

/-! ### Transfers of a slot that follows no leader (R88) -/

theorem followed_alone (s : State) (h : Alone s) : followed s = .ok none s := by
  show EStateM.Result.ok (forwarded s s.cur.1 s.cur.2) s = _
  rw [forwarded_none s _ _ h.1]

theorem Touched.alone {s u : State} {v : Slot} (ht : Touched s u v) (h : Alone s) : Alone u := by
  unfold Alone
  rw [ht.cur, ht.chain, ht.pair]
  exact h

/-- The target of R79 and R80. -/
theorem branchTarget_eq {n : Nat} (v : Slot) (off : BitVec n) : branchTarget v off = v.pc + 4 * off.signExtend 64 := by
  rw [branchTarget, BitVec.shiftLeft_eq_mul_twoPow, BitVec.mul_comm]
  rfl

/-- A compare-branch goes to its target exactly where its test holds, and changes nothing else. -/
theorem runs_branchOp {i : Instr} {s : State} {a b : Reg} {off : BitVec 16} {test : XWord → XWord → Bool}
    (he : exec i s = insn i s (branchOp a b off test)) (hi : isHint i = false) (hu : i ≠ .unchain)
    {c : Prop} [Decidable c] (hc : test (xOf (here s) a) (xOf (here s) b) = true ↔ c) :
    Runs i s (here s) (if c then .taken ((here s).pc + 4 * off.signExtend 64) else .seq) := by
  refine runs_of he hi hu (by split <;> trivial) fun hp => ⟨s, ?_, Touched.refl s⟩
  rw [branchOp, bind_ok (rx_clean s a hp.bad), bind_ok (rx_clean s b hp.bad), transfer_own s _ hp.alone,
    bind_ok (me_run s), branchTarget_eq]
  by_cases h : c
  · rw [if_pos (hc.mpr h), if_pos h]; rfl
  · rw [if_neg (mt hc.mp h), if_neg h]; rfl

theorem runs_j (s : State) (off : BitVec 26) :
    Runs (.j off) s (here s) (.taken ((here s).pc + 4 * off.signExtend 64)) := by
  refine runs_of rfl rfl Instr.noConfusion trivial fun hp => ⟨s, ?_, Touched.refl s⟩
  rw [transfer_own s _ hp.alone, bind_ok (me_run s), branchTarget_eq]
  rfl

theorem runs_jal (s : State) (off : BitVec 26) :
    Runs (.jal off) s (withX (here s) 31 ((here s).pc + 4)) (.taken ((here s).pc + 4 * off.signExtend 64)) := by
  refine runs_of rfl rfl Instr.noConfusion trivial fun hp => ?_
  obtain ⟨u, hu, ht⟩ := wx_clean s 31 ((here s).pc + 4) hp.bad hp.alone.2
  refine ⟨u, ?_, ht⟩
  rw [bind_ok (me_run s), bind_ok hu, transfer_own u _ (ht.alone hp.alone), branchTarget_eq]
  rfl

/-! ### Jumps to a register (R81) -/

/-- What JR and JALR do once they have read their target: the alignment check comes before the link is written. -/
theorem jumpOp_alone (s : State) (a : Reg) (link : Bool) (hc : (here s).bad = []) (h : Alone s) : jumpOp a link s =
    (if (xOf (here s) a).toNat % 4 ≠ 0 then trap 0x03 (xOf (here s) a)
    else do
      if link then wx 31 ((here s).pc + 4)
      return .taken (xOf (here s) a) : M Flow) s := by
  rw [jumpOp, bind_ok (me_run s), bind_ok (followed_alone s h)]
  simp only
  rw [bind_ok (rx_clean s a hc)]

theorem jumpOp_aligned (s : State) (a : Reg) (link : Bool) (hc : (here s).bad = []) (h : Alone s)
    (hal : (xOf (here s) a).toNat % 4 = 0) : ∃ u, jumpOp a link s = .ok (.taken (xOf (here s) a)) u ∧
      Touched s u (if link then withX (here s) 31 ((here s).pc + 4) else here s) := by
  rw [jumpOp_alone s a link hc h, if_neg (not_not.mpr hal)]
  cases link
  · exact ⟨s, rfl, Touched.refl s⟩
  · obtain ⟨u, hu, ht⟩ := wx_clean s 31 ((here s).pc + 4) hc h.2
    exact ⟨u, bind_ok hu _, ht⟩

theorem jumpOp_misaligned (s : State) (a : Reg) (link : Bool) (hc : (here s).bad = []) (h : Alone s)
    (hal : (xOf (here s) a).toNat % 4 ≠ 0) : jumpOp a link s = .error (.trap 0x03 (xOf (here s) a) 0 0) s := by
  rw [jumpOp_alone s a link hc h, if_pos hal]
  rfl

section
variable {i : Instr} {s : State} {a : Reg} {link : Bool}

theorem runs_jumpOp (he : exec i s = insn i s (jumpOp a link)) (hi : isHint i = false) (hu : i ≠ .unchain)
    (hal : (xOf (here s) a).toNat % 4 = 0) :
    Runs i s (if link then withX (here s) 31 ((here s).pc + 4) else here s) (.taken (xOf (here s) a)) :=
  runs_of he hi hu trivial fun hp => jumpOp_aligned s a link hp.bad hp.alone hal

theorem traps_jumpOp (he : exec i s = insn i s (jumpOp a link)) (hi : isHint i = false)
    (hal : (xOf (here s) a).toNat % 4 ≠ 0) : Traps i s 0x03 (xOf (here s) a) 0 0 :=
  traps_of he hi (fun hp => ⟨s, jumpOp_misaligned s a link hp.bad hp.alone hal, left_self s⟩) (by decide)

end

/-! ### BSX (R85) -/

theorem runs_bsx (s : State) (k : Fin 4) (off : BitVec 16) (hq : ((here s).s.get k).configured = true) :
    Runs (.bsx k off) s (here s)
      (if streamDone ((here s).s.get k) then .seq else .taken ((here s).pc + 4 * off.signExtend 64)) := by
  refine runs_of rfl rfl Instr.noConfusion (by split <;> trivial) fun hp => ⟨s, ?_, Touched.refl s⟩
  rw [transfer_own s _ hp.alone, bind_ok (me_run s), branchTarget_eq, hq]
  cases streamDone ((here s).s.get k) <;> rfl

theorem traps_bsx (s : State) (k : Fin 4) (off : BitVec 16) (hq : ((here s).s.get k).configured = false) :
    Traps (.bsx k off) s 0x0B 0 k.val 0 := by
  refine traps_of rfl rfl (fun hp => ⟨s, ?_, left_self s⟩) (by decide)
  rw [transfer_own s _ hp.alone, bind_ok (me_run s), hq]
  rfl

end Sys2Proof.Machine
end

section
/-! The scalar statements: counts and fields of bits (R71, R73), branches and jumps (R79 to R81, R85). -/

namespace Sys2Proof.Machine

open Sys2Proof

theorem integerCounts : Claims.IntegerCounts := by
  intro s ty d a
  have hx := rawTy_lt ty (xOf (here s) a)
  exact ⟨_, _, _, runs_rawOp1 rfl rfl Instr.noConfusion, runs_rawOp1 rfl rfl Instr.noConfusion,
    runs_rawOp1 rfl rfl Instr.noConfusion,
    leadingZeros_le _ _, lt_two_pow_sub_leadingZeros hx, two_pow_le_of_leadingZeros_lt,
    trailingZeros_le _ _, two_pow_trailingZeros_dvd _ _, testBit_trailingZeros, popCount_eq_length_filter _ _⟩

theorem bitFields : Claims.BitFields := by
  intro s ty d a b v n x pos len
  have hx : x < 2 ^ n := rawTy_lt ty _
  refine ⟨bitField ty x pos len, bitInsert n (rawTy ty (xOf v d)) (xOf v a).toNat pos len,
    runs_bfx s ty d a b, runs_bfi s ty d a b, ?_, fun i hi => testBit_bitField ty pos hx hi,
    fun hlen => bitField_bounds ty x pos hlen, bitInsert_lt _ _ _ (rawTy_lt ty _),
    fun j hj => testBit_bitInsert _ _ _ _ hj⟩
  intro hlen
  rw [hlen]
  exact bitField_zero ty x pos

/-- Settles O26: the counts by induction on the width, the fields of BFX and BFI bit by bit. -/
theorem integerFields : Obligations.IntegerFields := ⟨integerCounts, bitFields⟩

theorem compareBranches : Claims.CompareBranches := by
  intro s a b off v x y go
  refine ⟨?beq, ?bne, ?blt, ?bge, ?bltn, ?bgen⟩
  case beq => exact runs_branchOp rfl rfl Instr.noConfusion beq_iff_eq
  case bne => exact runs_branchOp rfl rfl Instr.noConfusion bne_iff_ne
  case blt => exact runs_branchOp rfl rfl Instr.noConfusion decide_eq_true_iff
  case bge => exact runs_branchOp rfl rfl Instr.noConfusion decide_eq_true_iff
  case bltn => exact runs_branchOp rfl rfl Instr.noConfusion decide_eq_true_iff
  case bgen => exact runs_branchOp rfl rfl Instr.noConfusion decide_eq_true_iff

theorem jumps : Claims.Jumps := fun s _ off =>
  ⟨runs_j s off, runs_jal s off,
    fun hal => ⟨runs_jumpOp (link := false) rfl rfl Instr.noConfusion hal,
      runs_jumpOp (link := true) rfl rfl Instr.noConfusion hal⟩,
    fun hal => ⟨traps_jumpOp (link := false) rfl rfl hal, traps_jumpOp (link := true) rfl rfl hal⟩⟩

theorem streamBranch : Claims.StreamBranch := fun s k off => ⟨runs_bsx s k off, traps_bsx s k off⟩

/-- Settles O28: each transfer's body is run once, for a slot that follows no leader. -/
theorem transfers : Obligations.Transfers := ⟨compareBranches, jumps, streamBranch⟩

end Sys2Proof.Machine
end
